-- ==== Sys2Proof/Word.lean ====
section
/-! DEFINITION. The machine's words and their plainest arithmetic (spec 00 R11, R15; 10 R21; 20 R60). -/

namespace Sys2Proof

/-- A byte: a task-file value (R9 `TASKFILE_BITS`) or one BUF byte. -/
abbrev Byte := BitVec 8

/-- A 16-bit word: the IDE data bus, one BUF access, one IDBUF entry (R9 `IDE_DATA_BITS`, R15). -/
abbrev Half := BitVec 16

/-- A 32-bit CSR value (R21). -/
abbrev Word := BitVec 32

/-- A 64-bit value split over two CSRs (R62). -/
abbrev Quad := BitVec 64

/-- An IDE register number on the three address lines (R9 `IDE_REG_ADDR_BITS`). -/
abbrev IdeReg := BitVec 3

/-- The more significant byte of a 16-bit word, `v[15:8]`. -/
abbrev Half.hi (v : Half) : Byte := v.extractLsb' 8 8

/-- The less significant byte of a 16-bit word, `v[7:0]`. -/
abbrev Half.lo (v : Half) : Byte := v.extractLsb' 0 8

end Sys2Proof
end

