-- ==== Sys2Proof/Syntax.lean ====
section
/-! DEFINITION. The operations of the block, one constructor per row of spec/opcode_table.json (30 R81). -/

namespace Sys2Proof

/-- One operation, as a CMD word names it (R80, R81). The wider operands stand in the operand CSRs (R84). -/
inductive Instr where
  /-- REG_RD8: read task-file register `reg`, keep the low byte (R110). -/
  | regRd8 (reg : Nat)
  /-- REG_WR8: write the byte `val` to task-file register `reg` (R111). -/
  | regWr8 (reg : Nat) (val : Byte)
  /-- REG_RD16: read register `reg` as 16 bits (R112). -/
  | regRd16 (reg : Nat)
  /-- IDENTIFY: read the device's 256-word identify block into IDBUF (R143). -/
  | identify
  /-- READ: read ARG_COUNT sectors from the device into BUF (R179). -/
  | read
  /-- WRITE: write ARG_COUNT sectors from BUF to the device (R180). -/
  | write
  /-- SETGEOM: give the drive its logical geometry and record it (R145). -/
  | setgeom (heads spt : Byte)
  /-- FLUSH_DEV: ask the drive to write back its cache (R146). -/
  | flushDev
  /-- RESET: pulse the drive's reset line (R147). -/
  | reset
  /-- GETID: copy IDBUF to buffer memory (R144). -/
  | getid
  deriving DecidableEq, Repr

/-- The direction of a sector transfer (R170). -/
inductive Dir where
  | read
  | write
  deriving DecidableEq, Repr

end Sys2Proof
end

