-- ==== Sys2Proof/WellFormed.lean ====
section
/-! DEFINITION. Which operations a CMD word can name (30 R80, R84): the register number is 0..7.
The byte operands have the width of their fields by type, and no other field exists. -/

namespace Sys2Proof

/-- The operand ranges of R84: an IDE register number is three bits wide. -/
def Instr.wellFormed : Instr → Bool
  | .regRd8 reg => decide (reg < 8)
  | .regWr8 reg _ => decide (reg < 8)
  | .regRd16 reg => decide (reg < 8)
  | .identify => true
  | .read => true
  | .write => true
  | .setgeom _ _ => true
  | .flushDev => true
  | .reset => true
  | .getid => true

/-- The check as a proposition. -/
abbrev Instr.WellFormed (i : Instr) : Prop := i.wellFormed = true

end Sys2Proof
end

