-- ==== Sys2Proof/Decode.lean ====
section
/-! DEFINITION. Decoding and encoding the CMD word (30 R80 to R86; opcode_table.json). -/

namespace Sys2Proof

/-- Field `OP`, bits 3:0 (R80). -/
def cmdOp (w : Word) : BitVec 4 := w.extractLsb' 0 4

/-- Field `REG`, bits 6:4 (R80). -/
def cmdReg (w : Word) : IdeReg := w.extractLsb' 4 3

/-- Field `VAL`, bits 15:8 (R80). -/
def cmdVal (w : Word) : Byte := w.extractLsb' 8 8

/-- Field `VAL2`, bits 23:16 (R80). -/
def cmdVal2 (w : Word) : Byte := w.extractLsb' 16 8

/-- Why a CMD word names no operation (R83). Either way the operation finishes Illegal (R82). -/
inductive Reject where
  /-- OP 0x0 or 0xB to 0xF. -/
  | reservedOp
  /-- A legal OP with a must-be-zero field that is not zero. -/
  | nonzeroField
  deriving DecidableEq, Repr

/-- One row of opcode_table.json: the words `w` with `w &&& mask = pattern`. -/
structure Row where
  mask : Word
  pattern : Word
  deriving DecidableEq, Repr

/-- `mask(op)` and `match(op)` of R82, from opcode_table.json (REG_WR8's mask by 90 C15). None for a reserved OP. -/
def opRow (op : BitVec 4) : Option Row :=
  match op.toNat with
  | 0x1 => some ⟨0xFFFFFF8F, 0x00000001⟩
  | 0x2 => some ⟨0xFFFF008F, 0x00000002⟩
  | 0x3 => some ⟨0xFFFFFF8F, 0x00000003⟩
  | 0x4 => some ⟨0xFFFFFFFF, 0x00000004⟩
  | 0x5 => some ⟨0xFFFFFFFF, 0x00000005⟩
  | 0x6 => some ⟨0xFFFFFFFF, 0x00000006⟩
  | 0x7 => some ⟨0xFF0000FF, 0x00000007⟩
  | 0x8 => some ⟨0xFFFFFFFF, 0x00000008⟩
  | 0x9 => some ⟨0xFFFFFFFF, 0x00000009⟩
  | 0xA => some ⟨0xFFFFFFFF, 0x0000000A⟩
  | _ => none

/-- The operation an OP number names, with its operands taken from the word (R81, R84). None for a reserved OP. -/
def opInstr (w : Word) : Option Instr :=
  match (cmdOp w).toNat with
  | 0x1 => some (.regRd8 (cmdReg w).toNat)
  | 0x2 => some (.regWr8 (cmdReg w).toNat (cmdVal w))
  | 0x3 => some (.regRd16 (cmdReg w).toNat)
  | 0x4 => some .identify
  | 0x5 => some .read
  | 0x6 => some .write
  | 0x7 => some (.setgeom (cmdVal w) (cmdVal2 w))
  | 0x8 => some .flushDev
  | 0x9 => some .reset
  | 0xA => some .getid
  | _ => none

/-- `decode(w)` of R82: reserved OPs first, then the must-be-zero fields, then dispatch. -/
def decode (w : Word) : Except Reject Instr :=
  match opRow (cmdOp w), opInstr w with
  | some row, some i => if w &&& row.mask = row.pattern then .ok i else .error .nonzeroField
  | _, _ => .error .reservedOp

/-- A CMD word built from its fields, with R0 and R1 zero (R80). -/
def cmdWord (op : BitVec 4) (reg : IdeReg) (val val2 : Byte) : Word :=
  (0 : Byte) ++ val2 ++ val ++ (0 : BitVec 1) ++ reg ++ op

/-- The CMD word of an operation (R80, R81, R88). -/
def encode : Instr → Word
  | .regRd8 reg => cmdWord 0x1 (BitVec.ofNat 3 reg) 0 0
  | .regWr8 reg val => cmdWord 0x2 (BitVec.ofNat 3 reg) val 0
  | .regRd16 reg => cmdWord 0x3 (BitVec.ofNat 3 reg) 0 0
  | .identify => cmdWord 0x4 0 0 0
  | .read => cmdWord 0x5 0 0 0
  | .write => cmdWord 0x6 0 0 0
  | .setgeom heads spt => cmdWord 0x7 0 heads spt
  | .flushDev => cmdWord 0x8 0 0 0
  | .reset => cmdWord 0x9 0 0 0
  | .getid => cmdWord 0xA 0 0 0

/-- The operation the decoder reads from a table row's word: the CMD word is 32 bits (R86), its bits above
`nbits` zero. -/
def decodeTableWord (nbits w : Nat) : Option Instr :=
  match decode (BitVec.ofNat 32 (w % 2 ^ nbits)) with
  | .ok i => some i
  | .error _ => none

end Sys2Proof
end

