-- ==== Sys2Proof/Config.lean ====
section
/-! DEFINITION. What an implementation fixes (00 R10, 93 B11, B16, B17, B19) and the free values (93 part B).
An `opaque` constant has no body: no proof can see its value. -/

namespace Sys2Proof

/-- The four phase lengths of a bus cycle, in clock cycles (00 R10, 40 R104, R105). -/
structure CycleTimes where
  tAS : Nat
  tPW : Nat
  tDH : Nat
  tREC : Nat
  deriving DecidableEq, Repr, Inhabited

/-- `L[k][p]`, the length of a bus cycle (40 R107). -/
def CycleTimes.total (t : CycleTimes) : Nat := t.tAS + t.tPW + t.tDH + t.tREC

/-- Which timing table a bus cycle uses (40 R102). -/
inductive Kind where
  | reg
  | word
  deriving DecidableEq, Repr

/-- The parameters "the model takes as arguments" (00 R10), and the platform's (93 B11, B19). -/
structure Params where
  /-- `BUF_AW`, the width of a BUF byte address, 1..64. -/
  bufAw : Nat
  /-- `t*[REG][FAST]` -/
  regFast : CycleTimes
  /-- `t*[REG][COMPAT]` -/
  regCompat : CycleTimes
  /-- `t*[WORD][FAST]` -/
  wordFast : CycleTimes
  /-- `t*[WORD][COMPAT]` -/
  wordCompat : CycleTimes
  /-- `T_CMD_SETTLE` -/
  tCmdSettle : Nat
  /-- `T_POLL_GAP` -/
  tPollGap : Nat
  /-- `T_RST_PW` -/
  tRstPw : Nat
  /-- `T_RST_SETTLE` -/
  tRstSettle : Nat
  /-- `POLL_BUDGET_DRQ` -/
  budgetDrq : Nat
  /-- `POLL_BUDGET_FINAL` -/
  budgetFinal : Nat
  /-- `POLL_BUDGET_RECOVER` -/
  budgetRecover : Nat
  /-- `POLL_BUDGET_PRECMD` -/
  budgetPrecmd : Nat
  /-- `POLL_BUDGET_NODATA` -/
  budgetNodata : Nat
  /-- `POLL_BUDGET_FLUSH` -/
  budgetFlush : Nat
  /-- `POLL_BUDGET_RESET` -/
  budgetReset : Nat
  /-- `PRECMD_WAIT`, default true. -/
  precmdWait : Bool
  /-- `ERR_MASKED_BY_BSY`, default false. -/
  errMaskedByBsy : Bool
  /-- Cycles from the accepted CMD write to the operation's first event (70 R255, 93 B11). -/
  startLatency : Nat
  /-- Cycles from the operation's last event to `finish` (70 R255, 93 B11). -/
  finishLatency : Nat
  /-- Cycles the memory takes to answer a BUF access, where `bufAnswers` does not say (20 R71, 93 B19):
  `none` is a memory that never answers. -/
  bufWait : Option Nat
  /-- `CSR_BASE`, the address of the CSR window on the platform's bus (10 R21, 60 R224, 93 B16; log 14). -/
  csrBase : Nat
  deriving DecidableEq, Repr, Inhabited

/-- The timing entries of R10 are each at least 1. -/
abbrev CycleTimes.wf (t : CycleTimes) : Prop := 1 ≤ t.tAS ∧ 1 ≤ t.tPW ∧ 1 ≤ t.tDH ∧ 1 ≤ t.tREC

/-- The constraints of the table of 00 R10. -/
abbrev Params.wf (p : Params) : Prop :=
  (1 ≤ p.bufAw ∧ p.bufAw ≤ 64) ∧ p.regFast.wf ∧ p.regCompat.wf ∧ p.wordFast.wf ∧ p.wordCompat.wf ∧
  1 ≤ p.tRstPw ∧ 1 ≤ p.budgetDrq ∧ 1 ≤ p.budgetFinal ∧ 1 ≤ p.budgetRecover ∧ 1 ≤ p.budgetPrecmd ∧
  1 ≤ p.budgetNodata ∧ 1 ≤ p.budgetFlush ∧ 1 ≤ p.budgetReset

/-- `t*[kind][p]`, with `p` COMPAT when the flag is set (40 R101). -/
def Params.times (p : Params) (kind : Kind) (compat : Bool) : CycleTimes :=
  match kind, compat with
  | .reg, false => p.regFast
  | .reg, true => p.regCompat
  | .word, false => p.wordFast
  | .word, true => p.wordCompat

/-- A table with every entry raised to at least 1. -/
def CycleTimes.clamp (t : CycleTimes) : CycleTimes :=
  { tAS := max 1 t.tAS, tPW := max 1 t.tPW, tDH := max 1 t.tDH, tREC := max 1 t.tREC }

/-- The parameters with the constraints of R10 met. -/
def Params.clamp (p : Params) : Params :=
  { p with
    bufAw := min 64 (max 1 p.bufAw)
    regFast := p.regFast.clamp
    regCompat := p.regCompat.clamp
    wordFast := p.wordFast.clamp
    wordCompat := p.wordCompat.clamp
    tRstPw := max 1 p.tRstPw
    budgetDrq := max 1 p.budgetDrq
    budgetFinal := max 1 p.budgetFinal
    budgetRecover := max 1 p.budgetRecover
    budgetPrecmd := max 1 p.budgetPrecmd
    budgetNodata := max 1 p.budgetNodata
    budgetFlush := max 1 p.budgetFlush
    budgetReset := max 1 p.budgetReset }

/-- The parameters that an outcome depends on: BUF_AW, the poll budgets, the two Booleans (00 R10, 70 R255). The times and
CSR_BASE are blanked. -/
def Params.timeless (p : Params) : Params :=
  { p with
    regFast := default
    regCompat := default
    wordFast := default
    wordCompat := default
    tCmdSettle := 0
    tPollGap := 0
    tRstPw := 0
    tRstSettle := 0
    startLatency := 0
    finishLatency := 0
    bufWait := none
    csrBase := 0 }

/-- OPEN parameters (92 D39): uninterpreted (log 2). -/
opaque Config.openParams : Params

/-- The parameters of the machine after reset: the OPEN ones uninterpreted within their constraints, the two
Booleans at the defaults R10 states (log 2). -/
def Config.params : Params :=
  { Config.openParams.clamp with precmdWait := true, errMaskedByBsy := false }

/-- The value the Device returns on the n-th read past the end of the state's list of values (00 R8, 93 B5; log 1). -/
opaque Config.deviceDraw : Nat → Half

/-- IDBUF after a block reset: word i after the k-th draw (10 R42, 93 B1; log 6). -/
opaque Config.freeIdbuf : Nat → Nat → Half

/-- Loop state while Idle: register i after the k-th draw (10 R34, 93 B2; log 7). -/
opaque Config.freeLoop : Nat → Nat → Nat

/-- What another agent reads from the BUF range of a running operation (20 R74, 93 B7; log 13). -/
opaque Config.freeByte : Nat → Byte

/-- Which of the values that a raced byte had the engine's read takes (20 R74, 93 B7; log 13). -/
opaque Config.freeChoice : Nat → Nat

end Sys2Proof
end

