-- ==== Sys2Proof/Machine/State.lean ====
section
/-! DEFINITION. The state of the block (10_state.md R20 to R42), of the memory and agents around it, and the
machine's records; the reasons a step can stop; the state after reset. -/

namespace Sys2Proof.Machine

/-- A step never faults: "There is no trap entry" (60 R220), and an error is a completion with a negative RESULT
(60 R210 to R215). No constructor, so no step can raise one. -/
inductive Fault where
  deriving DecidableEq, Repr

/-- The refusals of a step. -/
inductive Refusal where
  /-- Raised by an arm of exec whose instruction has no meaning yet. Safe: the machine stops. -/
  | notModelled (mnemonic : String)
  deriving DecidableEq, Repr

/-- BUF contents: (address, byte) pairs, addresses strictly rising, no entry equal to what an unlisted
address reads as (log 3). -/
abbrev Memory := List Host.Cell

/-- The host-visible registers, 10 R21 to R32. -/
structure Csrs where
  /-- The CMD word the engine latched (R22). -/
  cmd : Word
  /-- STATUS.DONE (R23) -/
  done : Bool
  /-- STATUS.CMD_OVR (R23) -/
  cmdOvr : Bool
  /-- STATUS.CFG_DROP (R23) -/
  cfgDrop : Bool
  /-- RESULT (R24) -/
  result : Word
  /-- CTRL.IE (R25) -/
  ie : Bool
  /-- ARG_LBA (R26) -/
  argLba : Quad
  /-- ARG_COUNT (R26) -/
  argCount : Word
  /-- ARG_BUF (R26) -/
  argBuf : Quad
  /-- GEOM_CYL (R28) -/
  geomCyl : Half
  /-- GEOM_HEADS (R28) -/
  geomHeads : Byte
  /-- GEOM_SPT (R28) -/
  geomSpt : Byte
  /-- TOTAL_LBA (R29) -/
  totalLba : Quad
  /-- MODE: USE_LBA, LBA48_SUP, WP, COMPAT in bits 0 to 3 (R30) -/
  mode : BitVec 4
  /-- LAST_STATUS (R31) -/
  lastStatus : Byte
  /-- ID_VALID (R32) -/
  idValid : Bool
  /-- IDBUF[0..255] (R32) -/
  idbuf : Vector Half 256
  deriving DecidableEq, Repr

/-- The engine's phase (10 R33). STATUS.BUSY is 1 exactly when it is `executing`. -/
inductive Phase where
  | idle
  | executing
  deriving DecidableEq, Repr

/-- The position in an operation's pseudocode (10 R33, R40). -/
inductive Pos where
  /-- the first statement of the operation's rule -/
  | entry
  /-- the one bus cycle of a raw register operation (40 R110 to R112) -/
  | rawCycle
  /-- the pre-command wait (41 R131) -/
  | precmdWait
  /-- the writes of a command sequence (41 R131) -/
  | cmdWrites
  /-- `Idle(T_CMD_SETTLE)` (41 R131) -/
  | settle
  /-- the DRQ wait (42 R175) -/
  | drqWait
  /-- a data phase (42 R177, R178; 41 R143) -/
  | dataPhase
  /-- the copy of IDBUF to BUF (41 R144) -/
  | copyOut
  /-- the wait of CompleteNoData (41 R141) -/
  | noDataWait
  /-- the reset pulse (41 R147) -/
  | resetPulse
  /-- `Idle(T_RST_SETTLE)` (41 R147) -/
  | resetSettle
  /-- the wait after a drive reset (41 R147) -/
  | resetWait
  /-- the invalidate pulse (42 R186) -/
  | invalidate
  /-- the final wait (42 R181) -/
  | finalWait
  /-- the FLUSH of the write recovery (42 R182) -/
  | recoverFlush
  /-- the wait of the write recovery (42 R182) -/
  | recoverWait
  /-- after the last event, before `finish` (60 R212) -/
  | finishing
  deriving DecidableEq, Repr

/-- The phase of a bus cycle (10 R34, 40 R104, R105). -/
inductive BusPhase where
  | addressSetup
  | pulse
  | hold
  | recovery
  deriving DecidableEq, Repr

/-- The engine's internal state (10 R33, R34; 60 R223). The counts hold free values while Idle (log 7). -/
structure Engine where
  phase : Phase
  /-- `op`, while Executing; none also for a word that decodes Illegal. -/
  op : Option Instr
  /-- `step`, while Executing. -/
  step : Option Pos
  /-- the remaining polls of the current wait, the one under way included (DESIGN CHOICE, log 29) -/
  pollsLeft : Nat
  /-- sectors not yet transferred -/
  remaining : Nat
  /-- the LBA of the current chunk's first sector -/
  cur : Nat
  /-- sectors completed before the current chunk -/
  chunkDone : Nat
  /-- the sector count of the current chunk -/
  n : Nat
  /-- the sector index within the chunk -/
  sector : Nat
  /-- the word index within the sector -/
  word : Nat
  /-- the phase of the bus cycle in progress; none outside one (DESIGN CHOICE: log 29, and log 7 for
  Idle and reset) -/
  busPhase : Option BusPhase
  /-- the remaining clock cycles of the current bus phase or `Idle(n)`, the one under way included (DESIGN CHOICE, log 29) -/
  count : Nat
  deriving DecidableEq, Repr

/-- The outputs of the IDE port (10 R35). -/
structure IdePort where
  da : IdeReg
  cs0N : Bool
  cs1N : Bool
  diorN : Bool
  diowN : Bool
  /-- `ide_dd_out` while `ide_dd_oe = 1`; none while the bus is high impedance (log 8). -/
  dd : Option Half
  resetN : Bool
  deriving DecidableEq, Repr

/-- The range a cache-invalidate pulse carries (10 R36). -/
structure InvRange where
  lba : Quad
  count : Word
  deriving DecidableEq, Repr

/-- An access on the BUF port (10 R38). -/
inductive BufAccess where
  | read (addr : Nat)
  | write (addr : Nat) (data : Half)
  deriving DecidableEq, Repr

/-- A host access to the CSR window (10 R21, 20 R61): the offset within the window. -/
inductive CsrAccess where
  | read (off : Byte)
  | write (off : Byte) (value : Word)
  deriving DecidableEq, Repr

/-- An access of a CSR master on the platform's bus, by address (60 R224). -/
inductive BusAccess where
  | read (addr : Nat)
  | write (addr : Nat) (value : Word)
  deriving DecidableEq, Repr

/-- An access of another agent to one BUF byte (20 R74, 70 R248). -/
inductive AgentAccess where
  | read (addr : Nat)
  | write (addr : Nat) (data : Byte)
  deriving DecidableEq, Repr

/-- What the outside does in one clock cycle. -/
structure Pins where
  /-- `rst_n = 0` (70 R240) -/
  rst : Bool
  /-- the CSR access of the cycle -/
  csr : Option CsrAccess
  /-- the BUF accesses of other agents in the cycle, in order -/
  agent : List AgentAccess
  deriving DecidableEq, Repr

/-- One entry of the host's coming activity. -/
inductive Input where
  /-- one cycle's pins -/
  | cycle (pins : Pins)
  /-- one cycle in which a master makes an access by address, and nothing else happens -/
  | bus (access : BusAccess)
  /-- the loop `wait_done` of 30 R87: a read of STATUS in every cycle until DONE reads 1, and nothing else (DESIGN CHOICE,
  log 28) -/
  | waitDone
  deriving DecidableEq, Repr

/-- An event of the machine, recorded in order (20 R64). -/
inductive Event where
  /-- an IDE read bus cycle, at its sampling point (40 R104) -/
  | ideRead (reg : IdeReg) (kind : Kind) (value : Half)
  /-- an IDE write bus cycle, at the rising edge of the write strobe (40 R105) -/
  | ideWrite (reg : IdeReg) (kind : Kind) (value : Half)
  /-- a strobe cut short by block reset (70 R240, 93 B13) -/
  | strobeCut (reg : IdeReg)
  /-- `Idle(n)` (40 R106), as it begins (log 30) -/
  | idle (n : Nat)
  /-- a pulse of the drive's reset line (41 R147), as it begins (log 30) -/
  | resetPulse
  /-- an invalidate pulse (42 R186), as it begins (log 30) -/
  | invalidate (lba : Quad) (count : Word)
  /-- a BUF read that the memory answered (20 R66) -/
  | bufRead (addr : Nat) (value : Half)
  /-- a BUF write that the memory answered (20 R66) -/
  | bufWrite (addr : Nat) (value : Half)
  /-- a CSR read and the value it returned -/
  | csrRead (off : Byte) (value : Word)
  /-- a CSR write -/
  | csrWrite (off : Byte) (value : Word)
  /-- another agent's BUF read and the byte it got -/
  | agentRead (addr : Nat) (data : Byte)
  /-- another agent's BUF write -/
  | agentWrite (addr : Nat) (data : Byte)
  /-- `finish(code)` (60 R212) -/
  | finish (code : Word)
  /-- a cycle with `rst_n = 0` (70 R240) -/
  | blockReset
  deriving DecidableEq, Repr

/-- The block's outputs in one clock cycle (10 R35 to R38). -/
structure PortSample where
  ide : IdePort
  inv : Option InvRange
  irq : Bool
  buf : Option BufAccess
  deriving DecidableEq, Repr

/-- The whole state. INVENTORY.md lists each piece with its rule and reset value. -/
structure State where
  /-- the parameters (00 R10); no step changes them -/
  params : Params
  csr : Csrs
  eng : Engine
  ide : IdePort
  /-- the invalidate output: the range while `inv_valid = 1` (10 R36, log 8) -/
  inv : Option InvRange
  /-- the outstanding BUF access (10 R38) -/
  buf : Option BufAccess
  /-- BUF contents (20 R65) -/
  mem : Memory
  /-- earlier values of raced bytes, latest first (20 R74, log 13) -/
  raced : List Host.Cell
  /-- the answers of the memory to the coming BUF accesses: after how many cycles, none for never (log 12) -/
  bufAnswers : List (Option Nat)
  /-- the values the Device returns to the coming reads (log 1) -/
  device : List Half
  /-- how many reads were past the end of `device` (log 1) -/
  deviceDraws : Nat
  /-- what the outside does in the coming clock cycles (log 11) -/
  inputs : List Input
  /-- how many free values were taken (log 7) -/
  freeDraws : Nat
  /-- the events, newest first (20 R64, log 22) -/
  trace : List Event
  /-- the ports cycle by cycle, newest first (40 R104, log 22) -/
  wave : List PortSample
  /-- clock cycles since the start (log 22) -/
  cycle : Nat
  deriving DecidableEq, Repr

/-- The CSRs after a block reset (10 R42); IDBUF is the k-th free value. -/
def Csrs.atReset (k : Nat) : Csrs :=
  { cmd := 0, done := false, cmdOvr := false, cfgDrop := false, result := 0, ie := false, argLba := 0,
    argCount := 0, argBuf := 0, geomCyl := 0, geomHeads := 0, geomSpt := 0, totalLba := 0, mode := 0,
    lastStatus := 0, idValid := false,
    idbuf := ⟨⟨(List.range 256).map (Config.freeIdbuf k)⟩, by simp⟩ }

/-- The engine in phase Idle: no operation, and counts with the k-th free values (10 R34, R42; log 7). R34 and R42 leave
`busPhase` undefined here as well: the model fixes it at none (DESIGN CHOICE, log 7). -/
def Engine.idleAt (k : Nat) : Engine :=
  { phase := .idle, op := none, step := none, pollsLeft := Config.freeLoop k 0, remaining := Config.freeLoop k 1,
    cur := Config.freeLoop k 2, chunkDone := Config.freeLoop k 3, n := Config.freeLoop k 4,
    sector := Config.freeLoop k 5, word := Config.freeLoop k 6, busPhase := none, count := Config.freeLoop k 7 }

/-- The IDE port after a block reset (10 R35, R42). -/
def IdePort.atReset : IdePort :=
  { da := 0, cs0N := true, cs1N := true, diorN := true, diowN := true, dd := none, resetN := true }

/-- The machine right after reset (10 R42), with nothing placed around it. -/
def State.reset : State :=
  { params := Config.params, csr := Csrs.atReset 0, eng := Engine.idleAt 0, ide := IdePort.atReset, inv := none,
    buf := none, mem := [], raced := [], bufAnswers := [], device := [], deviceDraws := 0, inputs := [],
    freeDraws := 1, trace := [], wave := [], cycle := 0 }

end Sys2Proof.Machine
end

