-- ==== Sys2Proof/Machine/Flags.lean ====
section
/-! DEFINITION. The block's flags (10 R23, R30, R37, R41), the ATA status bits it tests (00 R13) and its result codes
(60 R210). -/

namespace Sys2Proof.Machine

/-- STATUS.BUSY: 1 exactly when the phase is Executing (10 R33). -/
def State.busy (s : State) : Bool := decide (s.eng.phase = .executing)

/-- The STATUS word: BUSY, DONE, CMD_OVR, CFG_DROP in bits 0 to 3, the rest 0 (10 R23). -/
def State.statusWord (s : State) : Word :=
  (0 : BitVec 28) ++ BitVec.ofBool s.csr.cfgDrop ++ BitVec.ofBool s.csr.cmdOvr ++ BitVec.ofBool s.csr.done ++
    BitVec.ofBool s.busy

/-- A write of `w` to STATUS: a 1 clears DONE, CMD_OVR or CFG_DROP; a 0 leaves the bit; BUSY is read-only (10 R23). -/
def Csrs.clearStatus (c : Csrs) (w : Word) : Csrs :=
  { c with
    done := c.done && !w.getLsbD 1
    cmdOvr := c.cmdOvr && !w.getLsbD 2
    cfgDrop := c.cfgDrop && !w.getLsbD 3 }

/-- The interrupt output: `STATUS.DONE & CTRL.IE`, a level (10 R37, 60 R217). -/
def State.irq (s : State) : Bool := s.csr.done && s.csr.ie

/-- MODE.USE_LBA (10 R30). -/
def Csrs.useLba (c : Csrs) : Bool := c.mode.getLsbD 0

/-- MODE.LBA48_SUP (10 R30). -/
def Csrs.lba48Sup (c : Csrs) : Bool := c.mode.getLsbD 1

/-- MODE.WP (10 R30). -/
def Csrs.wp (c : Csrs) : Bool := c.mode.getLsbD 2

/-- MODE.COMPAT (10 R30). -/
def Csrs.compat (c : Csrs) : Bool := c.mode.getLsbD 3

/-- `BSY = s[7]` (00 R13). -/
def bsy (st : Byte) : Bool := st.getLsbD 7

/-- `DRQ = s[3]` (00 R13). -/
def drq (st : Byte) : Bool := st.getLsbD 3

/-- `ERR = s[0]` (00 R13). -/
def err (st : Byte) : Bool := st.getLsbD 0

/-- What one poll decides. -/
inductive Verdict where
  /-- the wait is over -/
  | ready
  /-- the device asserted ERR -/
  | failed
  /-- poll again -/
  | again
  deriving DecidableEq, Repr

/-- One poll of `WaitDRQ`: ERR first (unless masked while BSY = 1), then BSY = 0 and DRQ = 1 (42 R175, 60 R214). -/
def drqVerdict (masked : Bool) (st : Byte) : Verdict :=
  if err st && !(masked && bsy st) then .failed
  else if !bsy st && drq st then .ready
  else .again

/-- One poll of `WaitNotBusy`: BSY = 0 and nothing else (42 R176). -/
def notBusyVerdict (st : Byte) : Verdict :=
  if bsy st then .again else .ready

/-- The errors an operation can raise (60 R210). Busy (-4) is reserved and never raised. -/
inductive Err where
  | outOfRange
  | deviceError
  | timeout
  | illegal
  | noData
  deriving DecidableEq, Repr

/-- The signed result code of an error (60 R210). -/
def Err.value : Err → Int
  | .outOfRange => -1
  | .deviceError => -2
  | .timeout => -3
  | .illegal => -5
  | .noData => -6

/-- The code as RESULT holds it: 32-bit two's complement (10 R24). -/
def Err.code (e : Err) : Word := BitVec.ofInt 32 e.value

end Sys2Proof.Machine
end

