-- ==== Sys2Proof/Machine/Operands.lean ====
section
/-! DEFINITION. Operands (30 R84), the addressing mode and the address arithmetic (41 R132 to R140), and the validation of
a transfer (42 R171 to R173). Counts, LBAs and addresses are unbounded naturals (00 R11). -/

namespace Sys2Proof.Machine

/-- `BUF_AW` bits of byte address: the size of BUF (20 R65). -/
def State.bufSize (s : State) : Nat := 2 ^ s.params.bufAw

/-- The writable bits of ARG_BUF: below `BUF_AW`, bit 0 hardwired 0 (10 R26). -/
def bufMask (bufAw : Nat) : Quad := BitVec.ofNat 64 (2 ^ bufAw - 2)

/-- Operand `lba` (30 R84). -/
def State.lba (s : State) : Nat := s.csr.argLba.toNat

/-- Operand `sectors`, the spec's `count` (30 R84). -/
def State.sectors (s : State) : Nat := s.csr.argCount.toNat

/-- Operand `buf` (30 R84). -/
def State.bufAddr (s : State) : Nat := s.csr.argBuf.toNat

/-- The addressing modes (41 R133). -/
inductive AddrMode where
  | chs
  | lba28
  | lba48
  deriving DecidableEq, Repr

/-- The mode computed from MODE (41 R133). -/
def State.addrMode (s : State) : AddrMode :=
  if s.csr.useLba then (if s.csr.lba48Sup then .lba48 else .lba28) else .chs

/-- `maxPerCmd(mode)` (41 R133). -/
def AddrMode.maxPerCmd : AddrMode → Nat
  | .chs => 256
  | .lba28 => 256
  | .lba48 => 65536

/-- `SECTOR_BYTES` (00 R9). -/
def sectorBytes : Nat := 512

/-- `WORDS_PER_SECTOR` and `IDENTIFY_WORDS` (00 R9). -/
def wordsPerSector : Nat := 256

/-- The capacity (42 R171). -/
def State.capacity (s : State) : Nat :=
  if s.csr.useLba then s.csr.totalLba.toNat
  else s.csr.geomCyl.toNat * s.csr.geomHeads.toNat * s.csr.geomSpt.toNat

/-- `ModeLimits()` raises nothing (42 R173). -/
def State.withinModeLimits (s : State) : Bool :=
  match s.addrMode with
  | .lba28 => decide (s.lba + s.sectors ≤ 2 ^ 28)
  | .lba48 => decide (s.lba + s.sectors ≤ 2 ^ 48)
  | .chs => decide (s.csr.geomHeads.toNat ≤ 16)

/-- `Validate(dir)` raises nothing (42 R172). -/
def State.valid (s : State) (dir : Dir) : Bool :=
  !(decide (dir = .write) && s.csr.wp) &&
  decide (s.sectors ≠ 0) &&
  decide (s.sectors ≤ 0x003FFFFF) &&
  decide (s.sectors ≤ s.capacity) &&
  decide (s.lba ≤ s.capacity - s.sectors) &&
  s.withinModeLimits

/-- A CHS address (41 R135). -/
structure ChsAddr where
  sector : Nat
  head : Nat
  cylinder : Nat
  deriving DecidableEq, Repr

/-- The CHS translation (41 R135). -/
def chsOf (heads spt lba : Nat) : ChsAddr :=
  { sector := lba % spt + 1, head := lba / spt % heads, cylinder := lba / spt / heads }

/-- Byte `k` of a natural, `v[8k+7:8k]` (00 R11). -/
def byteOf (v k : Nat) : Byte := BitVec.ofNat 8 (v / 2 ^ (8 * k))

/-- A 4-bit field or'ed into the low nibble of a device/head byte (41 R134). -/
def orNibble (base : Byte) (v : Nat) : Byte := base ||| (BitVec.ofNat 4 v).setWidth 8

/-- One entry of a command sequence: a task-file register and the byte it gets (41 R130). -/
abbrev SeqEntry := IdeReg × Byte

/-- The command byte of a transfer (41 R132). -/
def transferCommand (mode : AddrMode) (dir : Dir) : Byte :=
  match mode, dir with
  | .lba48, .read => 0x24
  | .lba48, .write => 0x34
  | _, .read => 0x20
  | _, .write => 0x30

/-- `SeqCHS` (41 R138). -/
def seqChs (heads spt : Nat) (dir : Dir) (lba n : Nat) : List SeqEntry :=
  let a := chsOf heads spt lba
  [(6, orNibble 0xA0 a.head), (2, byteOf n 0), (3, byteOf a.sector 0), (4, byteOf a.cylinder 0),
   (5, byteOf a.cylinder 1), (7, transferCommand .chs dir)]

/-- `SeqLBA28` (41 R139). -/
def seqLba28 (dir : Dir) (lba n : Nat) : List SeqEntry :=
  [(6, orNibble 0xE0 (lba / 2 ^ 24)), (2, byteOf n 0), (3, byteOf lba 0), (4, byteOf lba 1), (5, byteOf lba 2),
   (7, transferCommand .lba28 dir)]

/-- `SeqLBA48` (41 R140): the high-order bytes first. -/
def seqLba48 (dir : Dir) (lba n : Nat) : List SeqEntry :=
  [(6, 0xE0), (2, byteOf n 1), (3, byteOf lba 3), (4, byteOf lba 4), (5, byteOf lba 5),
   (2, byteOf n 0), (3, byteOf lba 0), (4, byteOf lba 1), (5, byteOf lba 2), (7, transferCommand .lba48 dir)]

/-- `Seq[mode](dir, lba, n)` of 42 R174. -/
def State.transferSeq (s : State) (dir : Dir) (lba n : Nat) : List SeqEntry :=
  match s.addrMode with
  | .chs => seqChs s.csr.geomHeads.toNat s.csr.geomSpt.toNat dir lba n
  | .lba28 => seqLba28 dir lba n
  | .lba48 => seqLba48 dir lba n

/-- The device/head byte of IDENTIFY, FLUSH_DEV and the recovery FLUSH (41 R134). -/
def State.plainHead (s : State) : Byte := if s.csr.useLba then 0xE0 else 0xA0

/-- The sequence of IDENTIFY (41 R143). -/
def State.identifySeq (s : State) : List SeqEntry := [(6, s.plainHead), (7, 0xEC)]

/-- The FLUSH CACHE (EXT) sequence of FLUSH_DEV and of the write recovery (41 R132, R146; 42 R182). -/
def State.flushSeq (s : State) : List SeqEntry :=
  [(6, s.plainHead), (7, if s.addrMode = .lba48 then 0xEA else 0xE7)]

/-- SETGEOM's arguments are legal (41 R145). -/
def geometryLegal (heads spt : Byte) : Bool :=
  decide (heads ≠ 0) && decide (heads.toNat ≤ 16) && decide (spt ≠ 0)

/-- The sequence of SETGEOM (41 R145). -/
def setgeomSeq (heads spt : Byte) : List SeqEntry :=
  [(6, orNibble 0xA0 (heads.toNat - 1)), (2, spt), (7, 0x91)]

/-- The success value of a transfer, `count * 512` (42 R183). -/
def State.transferResult (s : State) : Word := BitVec.ofNat 32 (s.sectors * sectorBytes)

/-- How many BUF bytes from ARG_BUF on belong to the running operation (20 R65, R74). -/
def State.bufSpan (s : State) : Nat :=
  match s.eng.op with
  | some .read => s.sectors * sectorBytes
  | some .write => s.sectors * sectorBytes
  | some .getid => sectorBytes
  | _ => 0

/-- Whether a BUF byte lies in the range of the running operation, addresses mod 2^BUF_AW (20 R74). -/
def State.inRunningRange (s : State) (a : Nat) : Bool :=
  s.busy && decide ((a + s.bufSize - s.bufAddr % s.bufSize) % s.bufSize < s.bufSpan)

end Sys2Proof.Machine
end

