-- ==== Sys2Proof/Machine/Csr.lean ====
section
/-! DEFINITION. The CSR window (10 R21 to R32, 20 R61): which register an offset names, reads, and writes with the drop rule. -/

namespace Sys2Proof.Machine

/-- The registers of the map of R21. -/
inductive Csr where
  | cmd | status | result | ctrl | argLbaLo | argLbaHi | argCount | argBufLo | argBufHi | geomCyl | geomHeads | geomSpt
  | totalLbaLo | totalLbaHi | mode | lastStatus | idStatus
  deriving DecidableEq, Repr

/-- The register at an offset: bits `[7:2]` are decoded, bits `[1:0]` ignored (R21, 20 R61). None at 0x44 to 0xFC. -/
def csrAt (off : Byte) : Option Csr :=
  match (off.extractLsb' 2 6).toNat with
  | 0 => some .cmd
  | 1 => some .status
  | 2 => some .result
  | 3 => some .ctrl
  | 4 => some .argLbaLo
  | 5 => some .argLbaHi
  | 6 => some .argCount
  | 7 => some .argBufLo
  | 8 => some .argBufHi
  | 9 => some .geomCyl
  | 10 => some .geomHeads
  | 11 => some .geomSpt
  | 12 => some .totalLbaLo
  | 13 => some .totalLbaHi
  | 14 => some .mode
  | 15 => some .lastStatus
  | 16 => some .idStatus
  | _ => none

/-- The offset of a register (R21). -/
def Csr.offset : Csr → Byte
  | .cmd => 0x00
  | .status => 0x04
  | .result => 0x08
  | .ctrl => 0x0C
  | .argLbaLo => 0x10
  | .argLbaHi => 0x14
  | .argCount => 0x18
  | .argBufLo => 0x1C
  | .argBufHi => 0x20
  | .geomCyl => 0x24
  | .geomHeads => 0x28
  | .geomSpt => 0x2C
  | .totalLbaLo => 0x30
  | .totalLbaHi => 0x34
  | .mode => 0x38
  | .lastStatus => 0x3C
  | .idStatus => 0x40

/-- The low word of a split value, at the lower offset (20 R62). -/
def loWord (q : Quad) : Word := q.extractLsb' 0 32

/-- The high word of a split value (20 R62). -/
def hiWord (q : Quad) : Word := q.extractLsb' 32 32

/-- The split value with its low word replaced. -/
def setLo (q : Quad) (w : Word) : Quad := hiWord q ++ w

/-- The split value with its high word replaced. -/
def setHi (q : Quad) (w : Word) : Quad := w ++ loWord q

/-- The value a read of a register returns, whatever the phase (R21 to R32, R43). -/
def State.readCsr (s : State) : Csr → Word
  | .cmd => 0
  | .status => s.statusWord
  | .result => s.csr.result
  | .ctrl => (BitVec.ofBool s.csr.ie).setWidth 32
  | .argLbaLo => loWord s.csr.argLba
  | .argLbaHi => hiWord s.csr.argLba
  | .argCount => s.csr.argCount
  | .argBufLo => loWord s.csr.argBuf
  | .argBufHi => hiWord s.csr.argBuf
  | .geomCyl => s.csr.geomCyl.setWidth 32
  | .geomHeads => s.csr.geomHeads.setWidth 32
  | .geomSpt => s.csr.geomSpt.setWidth 32
  | .totalLbaLo => loWord s.csr.totalLba
  | .totalLbaHi => hiWord s.csr.totalLba
  | .mode => s.csr.mode.setWidth 32
  | .lastStatus => s.csr.lastStatus.setWidth 32
  | .idStatus => (BitVec.ofBool s.csr.idValid).setWidth 32

/-- The operation a CMD word decodes to; none where it decodes Illegal (30 R82). -/
def decodedOp (w : Word) : Option Instr :=
  match decode w with
  | .ok i => some i
  | .error _ => none

/-- An accepted CMD write: DONE cleared, the word latched and decoded, the engine Executing at the first statement of the
operation, so BUSY = 1 (R22, R33). From here on BUF accesses of other agents race with it (70 R248). -/
def State.accept (s : State) (w : Word) : State :=
  { s with
    csr := { s.csr with done := false, cmd := w }
    eng := { s.eng with phase := .executing, op := decodedOp w, step := some .entry }
    raced := [] }

/-- The registers whose writes are dropped while BUSY = 1, CMD apart (R27). -/
def Csr.isConfig : Csr → Bool
  | .argLbaLo | .argLbaHi | .argCount | .argBufLo | .argBufHi | .geomCyl | .geomHeads | .geomSpt | .totalLbaLo
  | .totalLbaHi | .mode => true
  | .cmd | .status | .result | .ctrl | .lastStatus | .idStatus => false

/-- An operand, geometry or mode register written while BUSY = 0 (R26, R28 to R30). The bits above the width used, and the
hardwired bits of ARG_BUF, ignore the write. -/
def Csrs.writeConfig (c : Csrs) (bufAw : Nat) (r : Csr) (w : Word) : Csrs :=
  match r with
  | .argLbaLo => { c with argLba := setLo c.argLba w }
  | .argLbaHi => { c with argLba := setHi c.argLba w }
  | .argCount => { c with argCount := w }
  | .argBufLo => { c with argBuf := setLo c.argBuf w &&& bufMask bufAw }
  | .argBufHi => { c with argBuf := setHi c.argBuf w &&& bufMask bufAw }
  | .geomCyl => { c with geomCyl := w.setWidth 16 }
  | .geomHeads => { c with geomHeads := w.setWidth 8 }
  | .geomSpt => { c with geomSpt := w.setWidth 8 }
  | .totalLbaLo => { c with totalLba := setLo c.totalLba w }
  | .totalLbaHi => { c with totalLba := setHi c.totalLba w }
  | .mode => { c with mode := w.setWidth 4 }
  | .cmd | .status | .result | .ctrl | .lastStatus | .idStatus => c

/-- A write to a register: accepted, dropped and flagged while BUSY = 1 (R27), write-1-to-clear for STATUS (R23), never
dropped for CTRL (R25), ignored for a read-only register. -/
def State.writeCsr (s : State) (r : Csr) (w : Word) : State :=
  match r with
  | .cmd => if s.busy then { s with csr := { s.csr with cmdOvr := true } } else s.accept w
  | .status => { s with csr := s.csr.clearStatus w }
  | .ctrl => { s with csr := { s.csr with ie := w.getLsbD 0 } }
  | .result | .lastStatus | .idStatus => s
  | r =>
    if s.busy then { s with csr := { s.csr with cfgDrop := true } }
    else { s with csr := s.csr.writeConfig s.params.bufAw r w }

/-- The access of the CSR port that an access by address makes: the window is the 256 bytes from CSR_BASE on, and an access
outside it is not the block's (R21, 60 R224; log 14). -/
def State.select (s : State) : BusAccess → Option CsrAccess
  | .read a => if s.params.csrBase ≤ a ∧ a < s.params.csrBase + 256 then some (.read (BitVec.ofNat 8 (a - s.params.csrBase))) else none
  | .write a w => if s.params.csrBase ≤ a ∧ a < s.params.csrBase + 256 then some (.write (BitVec.ofNat 8 (a - s.params.csrBase)) w) else none

/-- The value a read at an offset returns: 0 where no register is (20 R61). -/
def State.readOffset (s : State) (off : Byte) : Word :=
  match csrAt off with
  | some r => s.readCsr r
  | none => 0

/-- A write at an offset: no effect where no register is (20 R61). -/
def State.writeOffset (s : State) (off : Byte) (w : Word) : State :=
  match csrAt off with
  | some r => s.writeCsr r w
  | none => s

end Sys2Proof.Machine
end

