-- ==== Sys2Proof/Machine/Memory.lean ====
section
/-! DEFINITION. BUF as a byte memory in one canonical form (20 R65, R66). Keys are addresses below 2^BUF_AW. -/

namespace Sys2Proof.Machine

/-- What a BUF byte that nothing has written reads as (R65 gives no contents). DESIGN CHOICE, unsafe: log 3. -/
def unlistedByte : Byte := 0

/-- The byte at an address. -/
def Memory.read : Memory → Nat → Byte
  | [], _ => unlistedByte
  | (k, b) :: rest, a => if a = k then b else Memory.read rest a

/-- The memory with the byte at an address replaced: an entry, or none where the byte is `unlistedByte`. -/
def Memory.write : Memory → Nat → Byte → Memory
  | [], a, v => if v = unlistedByte then [] else [(a, v)]
  | (k, b) :: rest, a, v =>
    if a < k then (if v = unlistedByte then (k, b) :: rest else (a, v) :: (k, b) :: rest)
    else if a = k then (if v = unlistedByte then rest else (a, v) :: rest)
    else (k, b) :: Memory.write rest a v

/-- Every key of `m` is at least `lo`, keys rise strictly, and no entry is `unlistedByte`. -/
def Memory.wfFrom : Nat → Memory → Bool
  | _, [] => true
  | lo, (k, b) :: rest => decide (lo ≤ k) && decide (b ≠ unlistedByte) && Memory.wfFrom (k + 1) rest

/-- The canonical form: addresses strictly rising, no entry equal to what an unlisted address reads as. -/
def Memory.wf (m : Memory) : Bool := Memory.wfFrom 0 m

/-- Every listed address is an address of BUF (R65: 2^BUF_AW bytes). -/
def Memory.below (m : Memory) (bound : Nat) : Bool := m.all fun c => decide (c.1 < bound)

/-- `MemRead(a, 2)` of R66 on memory of `size` bytes: the low byte first. -/
def Memory.readHalf (m : Memory) (size a : Nat) : Half :=
  m.read ((a + 1) % size) ++ m.read (a % size)

/-- `MemWrite(a, 2, v)` of R66 on memory of `size` bytes: the low byte first. -/
def Memory.writeHalf (m : Memory) (size a : Nat) (v : Half) : Memory :=
  (m.write (a % size) v.lo).write ((a + 1) % size) v.hi

/-- The memory after the words `ws` are written one after another from address `a` (20 R67, 42 R177). -/
def Memory.writeHalves (size : Nat) : Memory → Nat → List Half → Memory
  | m, _, [] => m
  | m, a, v :: ws => Memory.writeHalves size (m.writeHalf size a v) (a + 2) ws

/-- The `n` words of the memory from address `a` on (20 R67, 42 R178). -/
def Memory.readHalves (m : Memory) (size : Nat) : Nat → Nat → List Half
  | _, 0 => []
  | a, n + 1 => m.readHalf size a :: Memory.readHalves m size (a + 2) n

end Sys2Proof.Machine
end

