-- ==== Sys2Proof/Machine/Clock.lean ====
section
/-! DEFINITION. One clock cycle of the block: the inputs of the cycle land, and the ports are recorded (20 R74; 40 R104 to
R107; 70 R240). -/

namespace Sys2Proof.Machine

/-- The state with one more event (20 R64). -/
def State.record (s : State) (e : Event) : State := { s with trace := e :: s.trace }

/-- The outputs of the block in this cycle (10 R35 to R38). -/
def State.sample (s : State) : PortSample := { ide := s.ide, inv := s.inv, irq := s.irq, buf := s.buf }

/-- The end of a clock cycle: the outputs are recorded (log 22). -/
def State.endCycle (s : State) : State := { s with wave := s.sample :: s.wave, cycle := s.cycle + 1 }

/-- A CSR access of the host (10 R21, 20 R61). -/
def State.hostAccess (s : State) : CsrAccess → State
  | .read off => s.record (.csrRead off (s.readOffset off))
  | .write off w => (s.writeOffset off w).record (.csrWrite off w)

/-- A CSR access while `rst_n = 0`: "reads return 0 and writes are ignored" (70 R240). -/
def State.hostAccessInReset (s : State) : CsrAccess → State
  | .read off => s.record (.csrRead off 0)
  | .write off w => s.record (.csrWrite off w)

/-- The value of a byte is kept each time another agent overwrites it in the range of a running WRITE (20 R74, log 13). -/
def State.noteRace (s : State) (a : Nat) : List Host.Cell :=
  if s.eng.op = some .write ∧ s.inRunningRange a = true then (a, s.mem.read a) :: s.raced else s.raced

/-- An access of another agent to a BUF byte. A read in the range of a running READ, WRITE or GETID gets any value
(20 R74, 93 B7; log 13). -/
def State.agentAccess (s : State) : AgentAccess → State
  | .read a =>
    if s.inRunningRange (a % s.bufSize) then
      { s.record (.agentRead (a % s.bufSize) (Config.freeByte s.freeDraws)) with freeDraws := s.freeDraws + 1 }
    else s.record (.agentRead (a % s.bufSize) (s.mem.read (a % s.bufSize)))
  | .write a b =>
    { s.record (.agentWrite (a % s.bufSize) b) with
      mem := s.mem.write (a % s.bufSize) b
      raced := s.noteRace (a % s.bufSize) }

/-- The events of a block reset: a strobe asserted at that moment is cut short (70 R240, 93 B13). -/
def State.resetEvents (s : State) : List Event :=
  if s.ide.diorN && s.ide.diowN then [.blockReset] else [.blockReset, .strobeCut s.ide.da]

/-- Block reset: every piece of the block's state takes its value of 10 R42, and an operation in flight is abandoned without
`finish` (70 R240). BUF, the parameters, the agents and the records are not the block's (log 4, log 22). A BUF access still
outstanding is withdrawn: a write that the memory has not answered leaves BUF as it is and makes no event (DESIGN CHOICE,
log 27). -/
def State.blockReset (s : State) : State :=
  { s with
    csr := Csrs.atReset s.freeDraws
    eng := Engine.idleAt s.freeDraws
    ide := IdePort.atReset
    inv := none
    buf := none
    raced := []
    freeDraws := s.freeDraws + 1
    trace := s.resetEvents ++ s.trace }

/-- The CSR access of a cycle, if there is one. -/
def State.hostPort (s : State) (a : Option CsrAccess) : State :=
  match a with
  | none => s
  | some a => s.hostAccess a

/-- The CSR access of a cycle with `rst_n = 0`, if there is one. -/
def State.hostPortInReset (s : State) (a : Option CsrAccess) : State :=
  match a with
  | none => s
  | some a => s.hostAccessInReset a

/-- The BUF accesses of other agents in a cycle, in order. -/
def State.agentPort (s : State) (l : List AgentAccess) : State := l.foldl State.agentAccess s

/-- One cycle's pins (70 R240; log 10). The first cycle with `rst_n` sampled 1 already accepts a CMD write: the model's
reading of "the next clock cycle" of 70 R242 (DESIGN CHOICE, log 10). -/
def State.applyPins (s : State) (p : Pins) : State :=
  if p.rst then (s.blockReset.hostPortInReset p.csr).agentPort p.agent
  else (s.hostPort p.csr).agentPort p.agent

/-- The inputs of the next cycle land. `wait_done` reads STATUS, and is over when DONE reads 1 (30 R87); no reset and no other
agent's access lands in its cycles (DESIGN CHOICE, log 28). -/
def State.applyInputs (s : State) : State :=
  match s.inputs with
  | [] => s
  | .cycle p :: rest => { s with inputs := rest }.applyPins p
  | .bus a :: rest => { s with inputs := rest }.hostPort (s.select a)
  | .waitDone :: rest =>
    if s.csr.done then { s with inputs := rest }.hostAccess (.read Csr.status.offset)
    else s.hostAccess (.read Csr.status.offset)

/-- One clock cycle. -/
def State.tick (s : State) : State := s.applyInputs.endCycle

end Sys2Proof.Machine
end

