-- ==== Sys2Proof/Machine/Ops.lean ====
section
/-! DEFINITION. The operations the meanings share: the pseudocode primitives of 00 R12, the waits of 42 R175, R176, the command
sequencer of 41 R131, and the one way an operation ends (60 R212 to R215). -/

namespace Sys2Proof.Machine

/-- How a piece of pseudocode stops before its end. -/
inductive Exit where
  /-- `raise E` (00 R12): nothing further of the operation runs, then `finish(code(E))`. -/
  | raised (e : Err)
  /-- The operation goes no further: block reset abandoned it (70 R240), or a BUF access is never answered (20 R71). -/
  | halted
  deriving DecidableEq, Repr

/-- Pseudocode of the engine over the state. -/
abbrev EngineM := EStateM Exit State

/-- The state a piece of pseudocode leaves, however it ends. -/
def finalState {α : Type} (x : EngineM α) (s : State) : State :=
  match x s with
  | .ok _ t => t
  | .error _ t => t

/-- `raise E` (00 R12). -/
def raise {α : Type} (e : Err) : EngineM α := throw (.raised e)

/-- An update of the engine's internal state. -/
def setEngine (f : Engine → Engine) : EngineM Unit := modify fun s => { s with eng := f s.eng }

/-- An update of the registers. -/
def setCsr (f : Csrs → Csrs) : EngineM Unit := modify fun s => { s with csr := f s.csr }

/-- An update of the IDE port's outputs. -/
def setIde (f : IdePort → IdePort) : EngineM Unit := modify fun s => { s with ide := f s.ide }

/-- One more event. -/
def note (e : Event) : EngineM Unit := modify fun s => s.record e

/-- The engine's position in its pseudocode (10 R33). -/
def goto (p : Pos) : EngineM Unit := setEngine fun e => { e with step := some p }

/-- One clock cycle inside an operation. A block reset in it abandons the operation (70 R240). -/
def clock : EngineM Unit := fun s =>
  if s.tick.busy then .ok () s.tick else .error .halted s.tick

/-- `n` clock cycles with the outputs held, counted by the engine's cycle counter (10 R34, 60 R223). That it counts down, the
cycle under way included, is the model's choice (DESIGN CHOICE, log 29). -/
def hold : Nat → EngineM Unit
  | 0 => pure ()
  | n + 1 => do
    setEngine fun e => { e with count := n + 1 }
    clock
    hold n

/-- `Idle(n)` (00 R12, 40 R106). Its event is recorded before its first clock cycle, also where a block reset then cuts it
(DESIGN CHOICE, log 30). -/
def idle (n : Nat) : EngineM Unit := do
  note (.idle n)
  hold n

/-! ## Bus cycles (40 R104, R105) -/

/-- One phase of a bus cycle. -/
def busPhase (p : BusPhase) (n : Nat) : EngineM Unit := do
  setEngine fun e => { e with busPhase := some p }
  hold n

/-- The value the Device drives when the engine samples the bus, recorded as an event (00 R8, 20 R64; log 1). -/
def sampleBus (reg : IdeReg) (kind : Kind) : EngineM Half := fun s =>
  match s.device with
  | v :: rest => .ok v ({ s with device := rest }.record (.ideRead reg kind v))
  | [] =>
    .ok (Config.deviceDraw s.deviceDraws)
      ({ s with deviceDraws := s.deviceDraws + 1 }.record (.ideRead reg kind (Config.deviceDraw s.deviceDraws)))

/-- The timing entries of the coming bus cycle: the profile is taken from MODE.COMPAT (40 R101). -/
def cycleTimes (kind : Kind) : EngineM CycleTimes := do
  let s ← get
  return s.params.times kind s.csr.compat

/-- `IdeRead(reg, kind)` (40 R104, R109). -/
def ideRead (reg : IdeReg) (kind : Kind) : EngineM Half := do
  let t ← cycleTimes kind
  setIde fun p => { p with da := reg, cs0N := false, dd := none }
  busPhase .addressSetup t.tAS
  setIde fun p => { p with diorN := false }
  busPhase .pulse t.tPW
  let v ← sampleBus reg kind
  setIde fun p => { p with diorN := true }
  busPhase .hold t.tDH
  setIde fun p => { p with cs0N := true }
  busPhase .recovery t.tREC
  setEngine fun e => { e with busPhase := none }
  if reg = 7 then setCsr fun c => { c with lastStatus := v.lo }
  return v

/-- `IdeWrite(reg, v, kind)` (40 R105). -/
def ideWrite (reg : IdeReg) (v : Half) (kind : Kind) : EngineM Unit := do
  let t ← cycleTimes kind
  setIde fun p => { p with da := reg, cs0N := false, dd := some v }
  busPhase .addressSetup t.tAS
  setIde fun p => { p with diowN := false }
  busPhase .pulse t.tPW
  setIde fun p => { p with diowN := true }
  note (.ideWrite reg kind v)
  busPhase .hold t.tDH
  setIde fun p => { p with dd := none, cs0N := true }
  busPhase .recovery t.tREC
  setEngine fun e => { e with busPhase := none }

/-- `Read8(reg)` (40 R108). -/
def read8 (reg : IdeReg) : EngineM Byte := do
  let v ← ideRead reg .reg
  return v.lo

/-- `Write8(reg, b)`: the high byte is driven 0 (40 R108). -/
def write8 (reg : IdeReg) (b : Byte) : EngineM Unit := ideWrite reg ((0 : Byte) ++ b) .reg

/-! ## BUF accesses (10 R38; 20 R66, R71, R74) -/

/-- The memory's answer to the next access: after how many cycles, or none for never (20 R71, 93 B19; log 12). -/
def takeAnswer : EngineM (Option Nat) := fun s =>
  match s.bufAnswers with
  | a :: rest => .ok a { s with bufAnswers := rest }
  | [] => .ok s.params.bufWait s

/-- One access on the BUF port, up to its answer. One that is never answered leaves the engine waiting (20 R71). A block reset
before the answer withdraws it without effect (DESIGN CHOICE, log 27). -/
def bufHandshake (a : BufAccess) : EngineM Unit := do
  modify fun s => { s with buf := some a }
  match ← takeAnswer with
  | none => throw .halted
  | some n => hold n
  modify fun s => { s with buf := none }

/-- The values a byte had since the operation was accepted, before the latest (20 R74; log 13). -/
def State.oldBytes (s : State) (a : Nat) : List Byte := (s.raced.filter fun c => decide (c.1 = a)).map Prod.snd

/-- The byte the engine's read takes: the memory's, or for a raced byte any of the old and new ones (20 R74; log 13). -/
def takeByte (a : Nat) : EngineM Byte := fun s =>
  match s.oldBytes a with
  | [] => .ok (s.mem.read a) s
  | old :: olds =>
    .ok ((s.mem.read a :: old :: olds).getD (Config.freeChoice s.freeDraws % (olds.length + 2)) (s.mem.read a))
      { s with freeDraws := s.freeDraws + 1 }

/-- `MemRead(a, 2)` (20 R66). -/
def memRead (a : Nat) : EngineM Half := do
  let s ← get
  bufHandshake (.read (a % s.bufSize))
  let lo ← takeByte (a % s.bufSize)
  let hi ← takeByte ((a + 1) % s.bufSize)
  note (.bufRead (a % s.bufSize) (hi ++ lo))
  return hi ++ lo

/-- `MemWrite(a, 2, v)` (20 R66). The bytes change when the memory answers, and not where a reset comes first (log 27). -/
def memWrite (a : Nat) (v : Half) : EngineM Unit := do
  let s ← get
  bufHandshake (.write (a % s.bufSize) v)
  modify fun s => { s with mem := s.mem.writeHalf s.bufSize a v }
  note (.bufWrite (a % s.bufSize) v)

/-! ## Waits (42 R175, R176) -/

/-- A wait loop of at most `n` polls of the status register, each decided by `verdict`; `Idle(T_POLL_GAP)` between two
polls and none after the last (42 R175, R176, R207). `pollsLeft` counts the poll under way, and keeps that value through the
gap after it: the spec leaves open when within an iteration it counts down (DESIGN CHOICE, log 29). -/
def poll (verdict : Byte → Verdict) : Nat → EngineM Byte
  | 0 => raise .timeout
  | n + 1 => do
    setEngine fun e => { e with pollsLeft := n + 1 }
    let st ← read8 7
    match verdict st with
    | .ready => return st
    | .failed => raise .deviceError
    | .again => do
      if n ≠ 0 then idle (← get).params.tPollGap
      poll verdict n

/-- `WaitDRQ(POLL_BUDGET_DRQ)` (42 R175). -/
def waitDrq : EngineM Byte := do
  goto .drqWait
  let s ← get
  poll (drqVerdict s.params.errMaskedByBsy) s.params.budgetDrq

/-- `WaitNotBusy(budget)` (42 R176). -/
def waitNotBusy (budget : Nat) : EngineM Byte := poll notBusyVerdict budget

/-! ## The command sequencer (41 R130, R131, R141) -/

/-- The writes of a command sequence, in order (41 R131). -/
def writeSeq : List SeqEntry → EngineM Unit
  | [] => pure ()
  | (r, b) :: rest => do
    write8 r b
    writeSeq rest

/-- `IssueCommandNoWait(seq)` (41 R131). -/
def issueCommandNoWait (seq : List SeqEntry) : EngineM Unit := do
  writeSeq seq
  goto .settle
  idle (← get).params.tCmdSettle

/-- `IssueCommand(seq)` (41 R131). -/
def issueCommand (seq : List SeqEntry) : EngineM Unit := do
  let s ← get
  if s.params.precmdWait then
    goto .precmdWait
    let _ ← waitNotBusy s.params.budgetPrecmd
  goto .cmdWrites
  issueCommandNoWait seq

/-- `CompleteNoData(budget)` (41 R141). -/
def completeNoData (budget : Nat) : EngineM Unit := do
  goto .noDataWait
  let st ← waitNotBusy budget
  if err st then raise .deviceError

/-- `for i in i0 .. i0 + k - 1: body(i)`. -/
def forRange (body : Nat → EngineM Unit) : Nat → Nat → EngineM Unit
  | 0, _ => pure ()
  | k + 1, i => do
    body i
    forRange body k (i + 1)

/-- `try x on Timeout: h` (00 R12, 42 R181). -/
def onTimeout {α : Type} (x h : EngineM α) : EngineM α := fun s =>
  match x s with
  | .error (.raised .timeout) t => h t
  | r => r

/-! ## How an operation starts and ends (60 R212 to R215) -/

/-- The engine takes up an operation: `phase`, `op`, and `step` at the first statement (10 R33). BUF races of the cycle that
accepted it stay (70 R248). -/
def enter (op : Option Instr) : EngineM Unit := modify fun s =>
  { s with
    eng := { s.eng with phase := .executing, op := op, step := some .entry, busPhase := none }
    buf := none }

/-- An error is the end of the pseudocode with the error's code: nothing is rolled back (60 R213, R215). -/
def codeOf (x : EngineM Word) : EngineM Word := fun s =>
  match x s with
  | .error (.raised e) t => .ok e.code t
  | r => r

/-- The four writes of `finish(code)`: RESULT, BUSY, DONE and phase (60 R212). The loop state is not defined in Idle
(10 R34, log 7). -/
def State.complete (s : State) (code : Word) : State :=
  ({ s with
    csr := { s.csr with result := code, done := true }
    eng := Engine.idleAt s.freeDraws
    raced := []
    freeDraws := s.freeDraws + 1 } : State).record (.finish code)

/-- `finish(code)` (60 R212), in one clock cycle: a host write to STATUS in it comes first, so that the engine's DONE wins
(10 R23; log 10). -/
def finish (code : Word) : EngineM Unit := fun s =>
  if s.applyInputs.busy then .ok () (s.applyInputs.complete code).endCycle
  else .error .halted s.applyInputs.endCycle

/-- A whole operation: its first statement to `finish`. The two latencies are the implementation's (70 R255). Where they are
not 0, the cycle in which a register statement of the pseudocode takes effect is the model's choice (DESIGN CHOICE, log 17):
after the start latency (41 R143's clearing of ID_VALID) and before the finish latency (R143's setting of it, and R145's
GEOM_HEADS and GEOM_SPT). -/
def operation (op : Instr) (body : EngineM Word) : EngineM Unit := do
  enter (some op)
  hold (← get).params.startLatency
  let code ← codeOf body
  goto .finishing
  hold (← get).params.finishLatency
  finish code

/-- The state after an operation. Where a BUF access is never answered it is a state that still executes (20 R71). -/
def runOperation (op : Instr) (body : EngineM Word) (s : State) : Host.Outcome State Fault Refusal :=
  .next (finalState (operation op body) s)

/-- A CMD word that decodes to no operation: "An Illegal operation finishes at once" (30 R82). -/
def runIllegal (s : State) : Host.Outcome State Fault Refusal :=
  .next (finalState (do enter none; finish Err.illegal.code) s)

end Sys2Proof.Machine
end

