-- ==== Sys2Proof/Machine/NonTransfer.lean ====
section
/-! DEFINITION. The non-transfer operations (41 R143 to R147). -/

namespace Sys2Proof.Machine

/-- One word of the identify data: `IDBUF[i] <- IdeRead(0, WORD)` (R143). -/
def identifyWord (i : Nat) : EngineM Unit := do
  setEngine fun e => { e with word := i }
  let v ← ideRead 0 .word
  setCsr fun c => { c with idbuf := c.idbuf.setIfInBounds i v }

/-- IDENTIFY (R143). -/
def bodyIdentify : EngineM Word := do
  setCsr fun c => { c with idValid := false }
  issueCommand (← get).identifySeq
  let _ ← waitDrq
  goto .dataPhase
  forRange identifyWord wordsPerSector 0
  setCsr fun c => { c with idValid := true }
  return 0

/-- One word of GETID's copy: `MemWrite(buf + 2*i, 2, IDBUF[i])` (R144). -/
def copyIdWord (i : Nat) : EngineM Unit := do
  setEngine fun e => { e with word := i }
  let s ← get
  memWrite (s.bufAddr + 2 * i) (s.csr.idbuf.toList.getD i 0)

/-- GETID (R144). -/
def bodyGetid : EngineM Word := do
  if !(← get).csr.idValid then raise .noData
  goto .copyOut
  forRange copyIdWord wordsPerSector 0
  return 512

/-- SETGEOM (R145). -/
def bodySetgeom (heads spt : Byte) : EngineM Word := do
  if !geometryLegal heads spt then raise .outOfRange
  issueCommand (setgeomSeq heads spt)
  completeNoData (← get).params.budgetNodata
  setCsr fun c => { c with geomHeads := heads, geomSpt := spt }
  return 0

/-- FLUSH_DEV (R146). -/
def bodyFlushDev : EngineM Word := do
  issueCommand (← get).flushSeq
  completeNoData (← get).params.budgetFlush
  return 0

/-- The pulse on the drive's reset line (R147). The event is recorded before its first clock cycle, so that a block reset in that
cycle leaves the event though the line never fell, and one in a later cycle cuts the pulse with no event of its own
(DESIGN CHOICE, log 30). -/
def resetPulse : EngineM Unit := do
  goto .resetPulse
  note .resetPulse
  setIde fun p => { p with resetN := false }
  hold (← get).params.tRstPw
  setIde fun p => { p with resetN := true }

/-- RESET (R147): the ERR bit after reset is not checked. -/
def bodyReset : EngineM Word := do
  resetPulse
  goto .resetSettle
  idle (← get).params.tRstSettle
  goto .resetWait
  let _ ← waitNotBusy (← get).params.budgetReset
  return 0

/-- IDENTIFY (R143). -/
def execIdentify (s : State) : Host.Outcome State Fault Refusal := runOperation .identify bodyIdentify s

/-- GETID (R144). -/
def execGetid (s : State) : Host.Outcome State Fault Refusal := runOperation .getid bodyGetid s

/-- SETGEOM (R145). -/
def execSetgeom (heads spt : Byte) (s : State) : Host.Outcome State Fault Refusal :=
  runOperation (.setgeom heads spt) (bodySetgeom heads spt) s

/-- FLUSH_DEV (R146). -/
def execFlushDev (s : State) : Host.Outcome State Fault Refusal := runOperation .flushDev bodyFlushDev s

/-- RESET (R147). -/
def execReset (s : State) : Host.Outcome State Fault Refusal := runOperation .reset bodyReset s

end Sys2Proof.Machine
end

