-- ==== Sys2Proof/Machine/Raw.lean ====
section
/-! DEFINITION. The raw register operations (40 R110 to R112). -/

namespace Sys2Proof.Machine

/-- REG_RD8 (R110). -/
def bodyRegRd8 (reg : Nat) : EngineM Word := do
  goto .rawCycle
  let v ← ideRead (BitVec.ofNat 3 reg) .reg
  return v.lo.setWidth 32

/-- REG_WR8 (R111). -/
def bodyRegWr8 (reg : Nat) (val : Byte) : EngineM Word := do
  goto .rawCycle
  ideWrite (BitVec.ofNat 3 reg) ((0 : Byte) ++ val) .reg
  return 0

/-- REG_RD16 (R112): REG timing, even for register 0. -/
def bodyRegRd16 (reg : Nat) : EngineM Word := do
  goto .rawCycle
  let v ← ideRead (BitVec.ofNat 3 reg) .reg
  return v.setWidth 32

/-- REG_RD8 (R110). -/
def execRegRd8 (reg : Nat) (s : State) : Host.Outcome State Fault Refusal :=
  runOperation (.regRd8 reg) (bodyRegRd8 reg) s

/-- REG_WR8 (R111). -/
def execRegWr8 (reg : Nat) (val : Byte) (s : State) : Host.Outcome State Fault Refusal :=
  runOperation (.regWr8 reg val) (bodyRegWr8 reg val) s

/-- REG_RD16 (R112). -/
def execRegRd16 (reg : Nat) (s : State) : Host.Outcome State Fault Refusal :=
  runOperation (.regRd16 reg) (bodyRegRd16 reg) s

end Sys2Proof.Machine
end

