-- ==== Sys2Proof/Machine/Transfer.lean ====
section
/-! DEFINITION. The sector transfer engine: READ and WRITE (42 R170 to R187). -/

namespace Sys2Proof.Machine

/-- `Validate(dir)`: every check raises OutOfRange (R172, R173). -/
def validate (dir : Dir) : EngineM Unit := do
  if !(← get).valid dir then raise .outOfRange

/-- `Invalidate(lba, count)`: the output is valid for exactly one clock cycle (R186). The event is recorded before that cycle, so
that a block reset in it leaves the event though the output never became valid (DESIGN CHOICE, log 30). -/
def invalidate : EngineM Unit := do
  goto .invalidate
  let s ← get
  note (.invalidate s.csr.argLba s.csr.argCount)
  modify fun s => { s with inv := some { lba := s.csr.argLba, count := s.csr.argCount } }
  clock
  modify fun s => { s with inv := none }

/-- One word of `ReadSectorData(a)` (R177). -/
def readWord (a w : Nat) : EngineM Unit := do
  setEngine fun e => { e with word := w }
  let v ← ideRead 0 .word
  memWrite (a + 2 * w) v

/-- One word of `WriteSectorData(a)` (R178). -/
def writeWord (a w : Nat) : EngineM Unit := do
  setEngine fun e => { e with word := w }
  let v ← memRead (a + 2 * w)
  ideWrite 0 v .word

/-- The data phase of one sector at BUF address `a` (R177, R178). -/
def sectorData (dir : Dir) (a : Nat) : EngineM Unit := do
  goto .dataPhase
  match dir with
  | .read => forRange (readWord a) wordsPerSector 0
  | .write => forRange (writeWord a) wordsPerSector 0

/-- One sector of a chunk: the DRQ wait, then the data phase at `buf + 512 * (chunkDone + s)` (R174). -/
def sectorStep (dir : Dir) (i : Nat) : EngineM Unit := do
  setEngine fun e => { e with sector := i }
  let _ ← waitDrq
  let s ← get
  sectorData dir (s.bufAddr + sectorBytes * (s.eng.chunkDone + s.eng.sector))

/-- One chunk of R174: at most `maxPerCmd(mode)` sectors under one command. -/
def chunkStep (dir : Dir) : EngineM Unit := do
  let s ← get
  let n := min s.eng.remaining s.addrMode.maxPerCmd
  setEngine fun e => { e with n := n }
  issueCommand (s.transferSeq dir s.eng.cur n)
  forRange (sectorStep dir) n 0
  setEngine fun e =>
    { e with cur := e.cur + e.n, chunkDone := e.chunkDone + e.n, remaining := e.remaining - e.n }

/-- `while remaining > 0` of R174. Each chunk moves at least one sector, so `fuel` chunks are enough for `fuel`
sectors. -/
def chunkLoop (dir : Dir) : Nat → EngineM Unit
  | 0 => pure ()
  | fuel + 1 => do
    if (← get).eng.remaining ≠ 0 then
      chunkStep dir
      chunkLoop dir fuel

/-- `Transfer(dir)` (R174). -/
def transfer (dir : Dir) : EngineM Unit := do
  let s ← get
  setEngine fun e => { e with remaining := s.sectors, cur := s.lba, chunkDone := 0 }
  chunkLoop dir s.sectors

/-- `Recover()`: one FLUSH CACHE (EXT) with no pre-command wait, and a second wait (R182). -/
def recover : EngineM Byte := do
  goto .recoverFlush
  issueCommandNoWait (← get).flushSeq
  goto .recoverWait
  waitNotBusy (← get).params.budgetRecover

/-- What a Timeout of the final wait leads to: a READ fails, a WRITE recovers (R181). -/
def onFinalTimeout : Dir → EngineM Byte
  | .read => raise .timeout
  | .write => recover

/-- `FinalWait(dir)` (R181). -/
def finalWait (dir : Dir) : EngineM Unit := do
  goto .finalWait
  let st ← onTimeout (waitNotBusy (← get).params.budgetFinal) (onFinalTimeout dir)
  if err st then raise .deviceError

/-- READ (R179). -/
def bodyRead : EngineM Word := do
  validate .read
  transfer .read
  finalWait .read
  return (← get).transferResult

/-- WRITE (R180). -/
def bodyWrite : EngineM Word := do
  validate .write
  invalidate
  transfer .write
  finalWait .write
  return (← get).transferResult

/-- READ (R179). -/
def execRead (s : State) : Host.Outcome State Fault Refusal := runOperation .read bodyRead s

/-- WRITE (R180). -/
def execWrite (s : State) : Host.Outcome State Fault Refusal := runOperation .write bodyWrite s

end Sys2Proof.Machine
end

