-- ==== Sys2Proof/Machine/Dispatch.lean ====
section
/-! DEFINITION. One arm per operation (30 R81). -/

namespace Sys2Proof.Machine

def exec (i : Instr) (s : State) : Host.Outcome State Fault Refusal :=
  match i with
  | .regRd8 reg => Sys2Proof.Machine.execRegRd8 reg s
  | .regWr8 reg val => Sys2Proof.Machine.execRegWr8 reg val s
  | .regRd16 reg => Sys2Proof.Machine.execRegRd16 reg s
  | .identify => Sys2Proof.Machine.execIdentify s
  | .read => Sys2Proof.Machine.execRead s
  | .write => Sys2Proof.Machine.execWrite s
  | .setgeom heads spt => Sys2Proof.Machine.execSetgeom heads spt s
  | .flushDev => Sys2Proof.Machine.execFlushDev s
  | .reset => Sys2Proof.Machine.execReset s
  | .getid => Sys2Proof.Machine.execGetid s

end Sys2Proof.Machine
end

