-- ==== Sys2Proof/Machine/Step.lean ====
section
/-! DEFINITION. One step of the machine (10 R22, R33; 30 R82; log 9). -/

namespace Sys2Proof.Machine

/-- The operation of an accepted CMD word runs; a word that decodes to none finishes Illegal (30 R82). -/
def runCommand (s : State) : Host.Outcome State Fault Refusal :=
  match decode s.csr.cmd with
  | .ok i => exec i s
  | .error _ => runIllegal s

/-- One clock cycle; and where a CMD write was accepted in it (the engine left Idle for Executing, 10 R22), the whole
operation that it starts. A state that still executes waits for a BUF answer that never comes (20 R71): the clock goes on. -/
def step (s : State) : Host.Outcome State Fault Refusal :=
  if s.busy then .next s.tick
  else if s.tick.busy then runCommand s.tick
  else .next s.tick

/-- The inputs with a write of the word to CMD in the next cycle (30 R80: the CMD word is written to offset 0x00). -/
def State.withFetchWord (s : State) (nbits w : Nat) : State :=
  { s with
    eng := { s.eng with phase := .idle }
    inputs :=
      .cycle { rst := false, csr := some (.write Csr.cmd.offset (BitVec.ofNat 32 (w % 2 ^ nbits))), agent := [] } ::
        s.inputs }

end Sys2Proof.Machine
end

