-- ==== Sys2Proof/Machine/HostAsm.lean ====
section
/-! DEFINITION. The host assembly of 30 R87 and R88, as the host inputs it stands for. -/

namespace Sys2Proof.Machine

/-- A statement of the host assembly (R87, R88). -/
inductive HostStmt where
  | csrw (off : Byte) (imm : Word)
  | csrr (off : Byte)
  | waitDone
  | regRd8 (r : Word)
  | regWr8 (r v : Word)
  | regRd16 (r : Word)
  | identify
  | read
  | write
  | setgeom (h s : Word)
  | flushDev
  | resetDrive
  | getid
  | setLba (x : Quad)
  | setBuf (a : Quad)
  | setTotal (t : Quad)
  | setChs (c h s : Word)
  | xferRead (l : Quad) (n : Word) (a : Quad)
  | xferWrite (l : Quad) (n : Word) (a : Quad)
  deriving DecidableEq, Repr

/-- `csrw off, imm`: one CSR write, in a cycle of its own. -/
def hostWrite (off : Byte) (imm : Word) : Input := .cycle { rst := false, csr := some (.write off imm), agent := [] }

/-- `csrr off`: one CSR read, in a cycle of its own. -/
def hostRead (off : Byte) : Input := .cycle { rst := false, csr := some (.read off), agent := [] }

/-- `set_lba x` (R88). -/
def hostSetLba (x : Quad) : List Input := [hostWrite Csr.argLbaLo.offset (loWord x), hostWrite Csr.argLbaHi.offset (hiWord x)]

/-- `set_buf a` (R88). -/
def hostSetBuf (a : Quad) : List Input := [hostWrite Csr.argBufLo.offset (loWord a), hostWrite Csr.argBufHi.offset (hiWord a)]

/-- The expansion of a statement (R88). -/
def HostStmt.expand : HostStmt → List Input
  | .csrw off imm => [hostWrite off imm]
  | .csrr off => [hostRead off]
  | .waitDone => [.waitDone]
  | .regRd8 r => [hostWrite Csr.cmd.offset (r <<< 4 ||| 0x1)]
  | .regWr8 r v => [hostWrite Csr.cmd.offset (v <<< 8 ||| r <<< 4 ||| 0x2)]
  | .regRd16 r => [hostWrite Csr.cmd.offset (r <<< 4 ||| 0x3)]
  | .identify => [hostWrite Csr.cmd.offset 0x00000004]
  | .read => [hostWrite Csr.cmd.offset 0x00000005]
  | .write => [hostWrite Csr.cmd.offset 0x00000006]
  | .setgeom h s => [hostWrite Csr.cmd.offset (s <<< 16 ||| h <<< 8 ||| 0x7)]
  | .flushDev => [hostWrite Csr.cmd.offset 0x00000008]
  | .resetDrive => [hostWrite Csr.cmd.offset 0x00000009]
  | .getid => [hostWrite Csr.cmd.offset 0x0000000A]
  | .setLba x => hostSetLba x
  | .setBuf a => hostSetBuf a
  | .setTotal t => [hostWrite Csr.totalLbaLo.offset (loWord t), hostWrite Csr.totalLbaHi.offset (hiWord t)]
  | .setChs c h s => [hostWrite Csr.geomCyl.offset c, hostWrite Csr.geomHeads.offset h, hostWrite Csr.geomSpt.offset s]
  | .xferRead l n a =>
    hostSetLba l ++ [hostWrite Csr.argCount.offset n] ++ hostSetBuf a ++ [hostWrite Csr.cmd.offset 0x00000005, .waitDone]
  | .xferWrite l n a =>
    hostSetLba l ++ [hostWrite Csr.argCount.offset n] ++ hostSetBuf a ++ [hostWrite Csr.cmd.offset 0x00000006, .waitDone]

/-- A host program: its statements one after another, each access in the clock cycle after the one before (DESIGN CHOICE,
log 28: R87 does not say how many cycles lie between two statements). -/
def hostProgram (p : List HostStmt) : List Input := p.flatMap HostStmt.expand

end Sys2Proof.Machine
end

