-- ==== Sys2Proof/Safety.lean ====
section
/-! DEFINITION. The words claims are stated in: what the outside may do during an operation, the stream of values the Device
returns, what an operation answers to that stream, and the invariant of the machine. -/

namespace Sys2Proof.Machine

/-! ## The outside -/

/-- `rst_n` stays 1 in the coming cycles (70 R240). -/
def State.noReset (s : State) : Bool :=
  s.inputs.all fun i => match i with
    | .cycle p => !p.rst
    | .bus _ => true
    | .waitDone => true

/-- No reset, and no other agent reaches BUF, in the coming cycles (70 R248). The host's CSR accesses are free. -/
def State.quiet (s : State) : Bool :=
  s.inputs.all fun i => match i with
    | .cycle p => !p.rst && p.agent.isEmpty
    | .bus _ => true
    | .waitDone => true

/-- No reset and no other agent at BUF to come, and none has written the operation's range since it was accepted (70 R248). -/
def State.undisturbed (s : State) : Bool := s.quiet && s.raced.isEmpty

/-- The memory answers every coming BUF access (20 R71). -/
def State.memoryAnswers (s : State) : Bool := s.params.bufWait.isSome && s.bufAnswers.all Option.isSome

/-- The value of the `j`-th coming device read (00 R8). -/
def State.upcoming (s : State) (j : Nat) : Half :=
  match s.device[j]? with
  | some v => v
  | none => Config.deviceDraw (s.deviceDraws + (j - s.device.length))

/-- The registers without STATUS and CTRL: what the host cannot change while BUSY = 1 (10 R27). -/
def Csrs.kernel (c : Csrs) : Csrs := { c with done := false, cmdOvr := false, cfgDrop := false, ie := false }

/-- The events of the engine, without the host's and the other agents' accesses. -/
def Event.byEngine : Event → Bool
  | .ideRead _ _ _ | .ideWrite _ _ _ | .strobeCut _ | .idle _ | .resetPulse | .invalidate _ _ | .bufRead _ _
  | .bufWrite _ _ | .finish _ | .blockReset => true
  | .csrRead _ _ | .csrWrite _ _ | .agentRead _ _ | .agentWrite _ _ => false

/-- The engine's events, newest first. -/
def State.engineEvents (s : State) : List Event := s.trace.filter Event.byEngine

/-- Whether an event is an IDE bus cycle. -/
def Event.isBusCycle : Event → Bool
  | .ideRead _ _ _ | .ideWrite _ _ _ => true
  | .strobeCut _ | .idle _ | .resetPulse | .invalidate _ _ | .bufRead _ _ | .bufWrite _ _ | .finish _ | .blockReset
  | .csrRead _ _ | .csrWrite _ _ | .agentRead _ _ | .agentWrite _ _ => false

/-- How many IDE bus cycles the machine has made (70 R254). -/
def State.busCycles (s : State) : Nat := s.trace.countP Event.isBusCycle

/-- The word an IDE write event of a data phase carries to the Device (42 R178). -/
def Event.sentWord : Event → Option Half
  | .ideWrite reg kind v => if reg = 0 ∧ kind = .word then some v else none
  | .ideRead _ _ _ | .strobeCut _ | .idle _ | .resetPulse | .invalidate _ _ | .bufRead _ _ | .bufWrite _ _ | .finish _
  | .blockReset | .csrRead _ _ | .csrWrite _ _ | .agentRead _ _ | .agentWrite _ _ => none

/-- The data words sent to the Device, newest first. -/
def State.sentWords (s : State) : List Half := s.trace.filterMap Event.sentWord

/-- The word an IDE read event of a data phase takes from the Device (41 R143, 42 R177). -/
def Event.receivedWord : Event → Option Half
  | .ideRead reg kind v => if reg = 0 ∧ kind = .word then some v else none
  | .ideWrite _ _ _ | .strobeCut _ | .idle _ | .resetPulse | .invalidate _ _ | .bufRead _ _ | .bufWrite _ _ | .finish _
  | .blockReset | .csrRead _ _ | .csrWrite _ _ | .agentRead _ _ | .agentWrite _ _ => none

/-- The entry of a command sequence that an IDE write event carries to the Device (41 R130). -/
def Event.taskWrite : Event → Option SeqEntry
  | .ideWrite reg kind v => if kind = .reg then some (reg, v.lo) else none
  | .ideRead _ _ _ | .strobeCut _ | .idle _ | .resetPulse | .invalidate _ _ | .bufRead _ _ | .bufWrite _ _ | .finish _
  | .blockReset | .csrRead _ _ | .csrWrite _ _ | .agentRead _ _ | .agentWrite _ _ => none

/-- The task-file writes, newest first. -/
def State.taskWrites (s : State) : List SeqEntry := s.trace.filterMap Event.taskWrite

/-- Whether an event is an invalidate pulse. -/
def Event.isInvalidate : Event → Bool
  | .invalidate _ _ => true
  | .ideRead _ _ _ | .ideWrite _ _ _ | .strobeCut _ | .idle _ | .resetPulse | .bufRead _ _ | .bufWrite _ _ | .finish _
  | .blockReset | .csrRead _ _ | .csrWrite _ _ | .agentRead _ _ | .agentWrite _ _ => false

/-- Whether an event is the end of an operation. -/
def Event.isFinish : Event → Bool
  | .finish _ => true
  | .ideRead _ _ _ | .ideWrite _ _ _ | .strobeCut _ | .idle _ | .resetPulse | .invalidate _ _ | .bufRead _ _
  | .bufWrite _ _ | .blockReset | .csrRead _ _ | .csrWrite _ _ | .agentRead _ _ | .agentWrite _ _ => false

/-- What LAST_STATUS holds after events, newest first: the latest status byte read among them (40 R109). -/
def statusFrom (b : Byte) : List Event → Byte
  | [] => b
  | .ideRead reg _ v :: es => if reg = 7 then v.lo else statusFrom b es
  | _ :: es => statusFrom b es

/-! ## How an operation ends -/

/-- The operation that started at `s` has finished at `t`: `finish(code)` came last, after `used` values of the Device and the
engine's events `es`, newest first (60 R212, R213; 20 R73). -/
structure Finished (code : Word) (used : Nat) (es : List Event) (s t : State) : Prop where
  idle : t.busy = false
  done : t.csr.done = true
  result : t.csr.result = code
  params : t.params = s.params
  stream : ∀ j, t.upcoming j = s.upcoming (used + j)
  events : t.engineEvents = .finish code :: es ++ s.engineEvents

/-- The outcomes that the table of 60 R211 lists for an operation started at `s`. -/
def State.listedOutcome (s : State) (i : Instr) (code : Word) : Prop :=
  match i with
  | .regRd8 _ => code.toNat < 256
  | .regWr8 _ _ => code = 0
  | .regRd16 _ => code.toNat < 65536
  | .identify => code = 0 ∨ code = Err.timeout.code ∨ code = Err.deviceError.code
  | .read | .write =>
    code = s.transferResult ∨ code = Err.outOfRange.code ∨ code = Err.timeout.code ∨ code = Err.deviceError.code
  | .setgeom _ _ => code = 0 ∨ code = Err.outOfRange.code ∨ code = Err.timeout.code ∨ code = Err.deviceError.code
  | .flushDev => code = 0 ∨ code = Err.timeout.code ∨ code = Err.deviceError.code
  | .reset => code = 0 ∨ code = Err.timeout.code
  | .getid => code = 512 ∨ code = Err.noData.code

/-- The block is as a reset leaves it (10 R42, 70 R240): every register, the engine and the ports. The latched CMD word and
`busPhase` are left free, since R42 gives them no value (logs 5 and 7). -/
structure State.AtReset (t : State) : Prop where
  csr : ∃ k w, t.csr = { Csrs.atReset k with cmd := w }
  eng : ∃ k p, t.eng = { Engine.idleAt k with busPhase := p }
  ide : t.ide = IdePort.atReset
  inv : t.inv = none
  buf : t.buf = none

/-! ## The fields of a CMD word -/

/-- The table of 30 R81: a legal OP, and every field that it does not use is 0. -/
def fieldsLegal (w : Word) : Bool :=
  let r0 := decide (w.extractLsb' 7 1 = 0)
  let r1 := decide (w.extractLsb' 24 8 = 0)
  let reg := decide (cmdReg w = 0)
  let val := decide (cmdVal w = 0)
  let val2 := decide (cmdVal2 w = 0)
  match (cmdOp w).toNat with
  | 0x1 => r0 && val && val2 && r1
  | 0x2 => r0 && val2 && r1
  | 0x3 => r0 && val && val2 && r1
  | 0x4 => reg && r0 && val && val2 && r1
  | 0x5 => reg && r0 && val && val2 && r1
  | 0x6 => reg && r0 && val && val2 && r1
  | 0x7 => reg && r0 && r1
  | 0x8 => reg && r0 && val && val2 && r1
  | 0x9 => reg && r0 && val && val2 && r1
  | 0xA => reg && r0 && val && val2 && r1
  | _ => false

/-! ## Time -/

/-- Two states that differ at most in times, ports, the host's coming accesses and the engine's records: what the outcome of
an operation depends on is equal (70 R255). -/
structure State.Alike (s s' : State) : Prop where
  params : s.params.timeless = s'.params.timeless
  kernel : s.csr.kernel = s'.csr.kernel
  mem : s.mem = s'.mem
  stream : ∀ j, s.upcoming j = s'.upcoming j

/-- The events of the engine that are not waiting (70 R255). -/
def Event.isAccess : Event → Bool
  | .ideRead _ _ _ | .ideWrite _ _ _ | .resetPulse | .invalidate _ _ | .bufRead _ _ | .bufWrite _ _ | .finish _ => true
  | .strobeCut _ | .idle _ | .blockReset | .csrRead _ _ | .csrWrite _ _ | .agentRead _ _ | .agentWrite _ _ => false

/-! ## The ports -/

/-- The address of an access on the BUF port. -/
def BufAccess.addr : BufAccess → Nat
  | .read a => a
  | .write a _ => a

/-- A 16-bit BUF access at an even address below the size of BUF: "no misaligned access can arise" (20 R66, R69; 10 R38). -/
def BufAccess.legal (size : Nat) (a : BufAccess) : Bool := decide (a.addr % 2 = 0) && decide (a.addr < size)

/-- What the ports show in any cycle: `ide_cs1_n` never asserted (10 R35); a strobe only under `ide_cs0_n`, and one at most;
data driven only in a write cycle (40 R104, R105); no bus cycle during a pulse of the reset line (41 R147) or an invalidate
pulse (42 R186); a BUF access at an even address below `size` (20 R66, R69). -/
def PortSample.legal (size : Nat) (p : PortSample) : Bool :=
  p.ide.cs1N &&
  (!p.ide.cs0N || (p.ide.diorN && p.ide.diowN && p.ide.dd.isNone)) &&
  (p.ide.diorN || (p.ide.diowN && p.ide.dd.isNone)) &&
  (p.ide.diowN || p.ide.dd.isSome) &&
  (p.ide.resetN || p.ide.cs0N) &&
  (p.inv.isNone || p.ide.cs0N) &&
  p.buf.all (BufAccess.legal size)

/-- A completed BUF access has such an address too; one that the memory answers at once shows in no cycle's outputs (log 12). -/
def Event.bufLegal (size : Nat) : Event → Bool
  | .bufRead a _ | .bufWrite a _ => decide (a % 2 = 0) && decide (a < size)
  | .ideRead _ _ _ | .ideWrite _ _ _ | .strobeCut _ | .idle _ | .resetPulse | .invalidate _ _ | .finish _ | .blockReset
  | .csrRead _ _ | .csrWrite _ _ | .agentRead _ _ | .agentWrite _ _ => true

/-- Every cycle so far, and every BUF access. -/
def State.portsLegal (s : State) : Bool :=
  s.wave.all (PortSample.legal s.bufSize) && s.trace.all (Event.bufLegal s.bufSize)

/-! ## What an operation answers to the Device

The functions below read the stream of coming values `s.upcoming` and nothing else of the Device: no clock, no ports, no host. -/

/-- What an operation ends with: RESULT, how many device values it read, and the data words that it moved: those it read
from the Device and kept, or for a WRITE those it sent from BUF. -/
structure Reply where
  code : Word
  used : Nat
  words : List Half
  deriving DecidableEq, Repr

/-- An operation that ends with an error after `k` device values, with the data words `ws` moved before. -/
def Reply.failed (e : Err) (k : Nat) (ws : List Half) : Reply := { code := e.code, used := k, words := ws }

/-- How a wait ends: with a status byte, or with an error; and how many device values were read by then. -/
inductive Waited where
  | ready (st : Byte) (k : Nat)
  | failed (e : Err) (k : Nat)
  deriving DecidableEq, Repr

/-- At most `n` polls from value `k` on (42 R175, R176): the first poll that decides ends the wait, and none is a Timeout. -/
def pollOn (verdict : Byte → Verdict) (f : Nat → Half) : Nat → Nat → Waited
  | 0, k => .failed .timeout k
  | n + 1, k =>
    match verdict (f k).lo with
    | .ready => .ready (f k).lo (k + 1)
    | .failed => .failed .deviceError (k + 1)
    | .again => pollOn verdict f n (k + 1)

/-- What follows a wait; its error ends the operation with the words `ws` moved so far (60 R213). -/
def Waited.andThen (r : Waited) (ws : List Half) (f : Byte → Nat → Reply) : Reply :=
  match r with
  | .ready st k => f st k
  | .failed e k => Reply.failed e k ws

/-- The pre-command wait, then `f` (41 R131). -/
def State.replyCommand (s : State) (ws : List Half) (k : Nat) (f : Nat → Reply) : Reply :=
  if s.params.precmdWait then
    (pollOn notBusyVerdict s.upcoming s.params.budgetPrecmd k).andThen ws fun _ k => f k
  else f k

/-- The pre-command wait of an operation's first command runs out: every one of its polls reads BSY = 1, so that nothing is
written (41 R131). -/
def State.precmdTimesOut (s : State) : Bool :=
  s.params.precmdWait && (List.range s.params.budgetPrecmd).all fun j => bsy (s.upcoming j).lo

/-- The DRQ wait, then `f` (42 R175). -/
def State.replyDrq (s : State) (ws : List Half) (k : Nat) (f : Nat → Reply) : Reply :=
  (pollOn (drqVerdict s.params.errMaskedByBsy) s.upcoming s.params.budgetDrq k).andThen ws fun _ k => f k

/-- A status byte with ERR = 1 is DeviceError, otherwise the code (41 R141, 42 R181). -/
def replyChecked (code : Word) (ws : List Half) (st : Byte) (k : Nat) : Reply :=
  if err st then Reply.failed .deviceError k ws else { code := code, used := k, words := ws }

/-- `CompleteNoData(budget)` (41 R141). -/
def State.replyNoData (s : State) (budget k : Nat) : Reply :=
  (pollOn notBusyVerdict s.upcoming budget k).andThen [] (replyChecked 0 [])

/-- The words of the stream from value `k` on. -/
def State.streamWords (s : State) (k n : Nat) : List Half := (List.range n).map fun i => s.upcoming (k + i)

/-- IDENTIFY (41 R143). -/
def State.identifyReply (s : State) : Reply :=
  s.replyCommand [] 0 fun k =>
    s.replyDrq [] k fun k => { code := 0, used := k + wordsPerSector, words := s.streamWords k wordsPerSector }

/-- SETGEOM (41 R145). -/
def State.setgeomReply (s : State) (heads spt : Byte) : Reply :=
  if geometryLegal heads spt then s.replyCommand [] 0 fun k => s.replyNoData s.params.budgetNodata k
  else Reply.failed .outOfRange 0 []

/-- FLUSH_DEV (41 R146). -/
def State.flushReply (s : State) : Reply :=
  s.replyCommand [] 0 fun k => s.replyNoData s.params.budgetFlush k

/-- RESET (41 R147). -/
def State.resetReply (s : State) : Reply :=
  (pollOn notBusyVerdict s.upcoming s.params.budgetReset 0).andThen [] fun _ k => { code := 0, used := k, words := [] }

/-- How many device values the data phase of a sector reads. -/
def dataReads : Dir → Nat
  | .read => wordsPerSector
  | .write => 0

/-- The 256 words of the next sector: the device values from `k` on, or the words of BUF after those sent so far
(42 R170, R177, R178). -/
def State.sectorWords (s : State) (dir : Dir) (ws : List Half) (k : Nat) : List Half :=
  match dir with
  | .read => s.streamWords k wordsPerSector
  | .write => s.mem.readHalves s.bufSize (s.bufAddr + 2 * ws.length) wordsPerSector

/-- `n` sectors of a chunk, then `f` (42 R174). -/
def State.replySectors (s : State) (dir : Dir) (f : List Half → Nat → Reply) : Nat → List Half → Nat → Reply
  | 0, ws, k => f ws k
  | n + 1, ws, k =>
    s.replyDrq ws k fun k => s.replySectors dir f n (ws ++ s.sectorWords dir ws k) (k + dataReads dir)

/-- The chunks of a transfer of `remaining` sectors, then `f` (42 R174). -/
def State.replyChunks (s : State) (dir : Dir) (f : List Half → Nat → Reply) : Nat → Nat → List Half → Nat → Reply
  | 0, _, ws, k => f ws k
  | fuel + 1, remaining, ws, k =>
    if remaining = 0 then f ws k
    else
      s.replyCommand ws k fun k =>
        s.replySectors dir
          (s.replyChunks dir f fuel (remaining - min remaining s.addrMode.maxPerCmd))
          (min remaining s.addrMode.maxPerCmd) ws k

/-- `FinalWait(dir)` with the recovery of a WRITE, then the success value (42 R181 to R183). -/
def State.replyFinal (s : State) (dir : Dir) (ws : List Half) (k : Nat) : Reply :=
  match pollOn notBusyVerdict s.upcoming s.params.budgetFinal k with
  | .ready st k => replyChecked s.transferResult ws st k
  | .failed e k =>
    match dir with
    | .read => Reply.failed e k ws
    | .write =>
      (pollOn notBusyVerdict s.upcoming s.params.budgetRecover k).andThen ws (replyChecked s.transferResult ws)

/-- The chunks of a transfer alone, up to the first poll of the final wait: code 0 when all are done (42 R174). -/
def State.chunksReply (s : State) (dir : Dir) : Reply :=
  s.replyChunks dir (fun ws k => { code := 0, used := k, words := ws }) s.sectors s.sectors [] 0

/-- READ and WRITE (42 R179, R180). -/
def State.transferReply (s : State) (dir : Dir) : Reply :=
  if s.valid dir then s.replyChunks dir (s.replyFinal dir) s.sectors s.sectors [] 0
  else Reply.failed .outOfRange 0 []

/-- The task-file writes of the chunks of a transfer of `remaining` sectors from `cur` on, in order (42 R174). -/
def State.chunkWrites (s : State) (dir : Dir) : Nat → Nat → Nat → List SeqEntry
  | 0, _, _ => []
  | fuel + 1, remaining, cur =>
    if remaining = 0 then []
    else
      s.transferSeq dir cur (min remaining s.addrMode.maxPerCmd) ++
        s.chunkWrites dir fuel (remaining - min remaining s.addrMode.maxPerCmd)
          (cur + min remaining s.addrMode.maxPerCmd)

/-! ## The bound of 42 R187 -/

/-- `Q`, the length of a transfer's command sequence (42 R187). -/
def AddrMode.seqLength : AddrMode → Nat
  | .chs => 6
  | .lba28 => 6
  | .lba48 => 10

/-- The bus cycles that the recovery of a WRITE adds to the bound (42 R182, R187). -/
def State.recoveryBound (s : State) : Dir → Nat
  | .read => 0
  | .write => 2 + s.params.budgetRecover

/-- The bound on the IDE bus cycles of a READ or WRITE (42 R187). -/
def State.cycleBound (s : State) (dir : Dir) : Nat :=
  (s.sectors + s.addrMode.maxPerCmd - 1) / s.addrMode.maxPerCmd *
      ((if s.params.precmdWait then s.params.budgetPrecmd else 0) + s.addrMode.seqLength) +
    s.sectors * (s.params.budgetDrq + 256) + s.params.budgetFinal + s.recoveryBound dir

/-! ## The invariant -/

/-- Outside a bus cycle and a reset pulse (40 R106). -/
def IdePort.isIdle (p : IdePort) : Bool := p.cs0N && p.cs1N && p.diorN && p.diowN && p.dd.isNone && p.resetN

/-- What LAST_STATUS holds after the events of a trace, newest first (10 R31, 40 R109; 70 R240). -/
def statusAfter : List Event → Byte
  | [] => 0
  | .ideRead reg _ v :: rest => if reg = 7 then v.lo else statusAfter rest
  | .blockReset :: _ => 0
  | _ :: rest => statusAfter rest

/-- What RESULT holds after the events of a trace, newest first (10 R24, 60 R212; 70 R240). -/
def resultAfter : List Event → Word
  | [] => 0
  | .finish code :: _ => code
  | .blockReset :: _ => 0
  | _ :: rest => resultAfter rest

/-- A success value, or one of the error codes that the block writes (60 R210). -/
def legalResult (w : Word) : Bool :=
  decide (0 ≤ w.toInt) || decide (w.toInt ∈ [-1, -2, -3, -5, -6])

/-- The invariant of the machine between steps. -/
structure State.Inv (s : State) : Prop where
  /-- the constraints of 00 R10 -/
  params : s.params.wf
  /-- BUF is in canonical form -/
  memWf : s.mem.wf = true
  /-- every BUF address is below 2^BUF_AW (20 R65) -/
  memBelow : s.mem.below s.bufSize = true
  /-- the hardwired bits of ARG_BUF are 0 (10 R26) -/
  argBuf : s.csr.argBuf &&& bufMask s.params.bufAw = s.csr.argBuf
  /-- "BUSY = 1 and DONE = 1 never hold together" (10 R23) -/
  notBoth : ¬(s.busy = true ∧ s.csr.done = true)
  /-- no operation is held while Idle (10 R33) -/
  noOp : s.busy = false → s.eng.op = none ∧ s.eng.step = none
  /-- the IDE port is idle and the invalidate output not valid (40 R106, 10 R36) -/
  ports : s.ide.isIdle = true ∧ s.inv = none
  /-- a BUF access is outstanding only while Executing (10 R38) -/
  bufPort : s.busy = false → s.buf = none
  /-- an outstanding BUF access has an even address below 2^BUF_AW (20 R66, R69) -/
  bufAccess : s.buf.all (BufAccess.legal s.bufSize) = true
  /-- LAST_STATUS is the latest status byte read (10 R31) -/
  lastStatus : s.csr.lastStatus = statusAfter s.trace
  /-- RESULT is the latest operation's code (10 R24) -/
  result : s.csr.result = resultAfter s.trace
  /-- RESULT is a code of the table of 60 R210 -/
  legal : legalResult s.csr.result = true

end Sys2Proof.Machine
end

