-- ==== Sys2Proof/Certificates/Slice0/Obligations.lean ====
section
/-! DEFINITION. The statements for the provers, in the order of OBLIGATIONS.json. -/

open Sys2Proof Sys2Proof.Machine

/-! ## Encoding (30_encoding.md) -/

/-- R80, R81, R84: decoding the CMD word of a well-formed operation gives the operation back, whatever its operands. -/
def Obligations.EncodeThenDecode : Prop := ∀ i : Instr, i.WellFormed → decode (encode i) = .ok i

/-- R82, R86: a word that decodes to an operation is that operation's one CMD word, and the operation is well formed. -/
def Obligations.DecodeThenEncode : Prop :=
  ∀ (w : Word) (i : Instr), decode w = .ok i → i.WellFormed ∧ encode i = w

/-- R81, R83: the words that decode are exactly those with a legal OP and every unused field 0; a reserved OP is rejected as
such and any other word for its fields. -/
def Obligations.IllegalWords : Prop :=
  ∀ w : Word,
    ((∃ i, decode w = .ok i) ↔ fieldsLegal w = true) ∧
    ((cmdOp w).toNat ∈ [0x0, 0xB, 0xC, 0xD, 0xE, 0xF] → decode w = .error .reservedOp) ∧
    (fieldsLegal w = false → (cmdOp w).toNat ∉ [0x0, 0xB, 0xC, 0xD, 0xE, 0xF] → decode w = .error .nonzeroField)

/-- R80, R81: some CMD words of 95_test_vectors.md, and what they stand for. -/
def Obligations.SpecWordsDecode : Prop :=
  decode 0x00000071 = .ok (.regRd8 7) ∧ decode 0x00005A22 = .ok (.regWr8 2 0x5A) ∧
  decode 0x00000073 = .ok (.regRd16 7) ∧ decode 0x00000004 = .ok .identify ∧ decode 0x00000005 = .ok .read ∧
  decode 0x00000006 = .ok .write ∧ decode 0x003F1007 = .ok (.setgeom 16 63) ∧ decode 0x00000008 = .ok .flushDev ∧
  decode 0x00000009 = .ok .reset ∧ decode 0x0000000A = .ok .getid ∧ decode 0x00000000 = .error .reservedOp ∧
  decode 0x000000F1 = .error .nonzeroField

/-- R88: the operation statements of the host assembly write the CMD word of their operation, for every operand in range. -/
def Obligations.AssemblyWritesCmd : Prop :=
  (∀ r : Nat, r < 8 →
    (HostStmt.regRd8 (BitVec.ofNat 32 r)).expand = [hostWrite 0x00 (encode (.regRd8 r))] ∧
    (HostStmt.regRd16 (BitVec.ofNat 32 r)).expand = [hostWrite 0x00 (encode (.regRd16 r))] ∧
    ∀ v : Byte, (HostStmt.regWr8 (BitVec.ofNat 32 r) (v.setWidth 32)).expand = [hostWrite 0x00 (encode (.regWr8 r v))]) ∧
  (∀ h s : Byte,
    (HostStmt.setgeom (h.setWidth 32) (s.setWidth 32)).expand = [hostWrite 0x00 (encode (.setgeom h s))]) ∧
  HostStmt.identify.expand = [hostWrite 0x00 (encode .identify)] ∧
  HostStmt.read.expand = [hostWrite 0x00 (encode .read)] ∧
  HostStmt.write.expand = [hostWrite 0x00 (encode .write)] ∧
  HostStmt.flushDev.expand = [hostWrite 0x00 (encode .flushDev)] ∧
  HostStmt.resetDrive.expand = [hostWrite 0x00 (encode .reset)] ∧
  HostStmt.getid.expand = [hostWrite 0x00 (encode .getid)]

/-! ## The step -/

/-- R22, R82: where the inputs of the cycle write to CMD while the block is Idle and the word decodes, the step is that cycle
followed by the operation: DONE cleared, the word latched, BUSY = 1, nothing else of the registers. The same for the placed
word of `withFetchWord`. One step for one operation is the model's choice (log 9). -/
def Obligations.StepRunsDecoded : Prop :=
  (∀ (s : State) (off : Byte) (w : Word) (agent : List AgentAccess) (rest : List Input) (i : Instr),
    s.busy = false → s.inputs = .cycle { rst := false, csr := some (.write off w), agent := agent } :: rest →
    csrAt off = some .cmd → decode w = .ok i →
      step s = exec i s.tick ∧ s.tick.busy = true ∧ s.tick.csr = { s.csr with done := false, cmd := w } ∧
      s.tick.inputs = rest ∧ s.tick.params = s.params ∧ (∀ j, s.tick.upcoming j = s.upcoming j)) ∧
  (∀ (s : State) (nbits w : Nat) (i : Instr), decodeTableWord nbits w = some i →
    step (s.withFetchWord nbits w) = exec i (s.withFetchWord nbits w).tick)

/-- R220: a step answers a next state in every state: no trap, no refusal. Where no CMD write is accepted in the cycle, or the
engine still executes, the step is one clock cycle: the model's choice of what a step is (log 9). -/
def Obligations.StepAlwaysAnswers : Prop :=
  ∀ s : State, (∃ t, step s = .next t) ∧ ((s.busy = true ∨ s.tick.busy = false) → step s = .next s.tick)

/-- R22: a write to CMD while BUSY = 0 clears DONE, sets BUSY, latches and decodes the word and leaves CMD_OVR, CFG_DROP and
every other register; while BUSY = 1 it is dropped by R27. A read of CMD returns 0. -/
def Obligations.CmdWrite : Prop :=
  ∀ (s : State) (w : Word),
    (s.busy = false →
      (s.writeCsr .cmd w).busy = true ∧ (s.writeCsr .cmd w).csr = { s.csr with done := false, cmd := w } ∧
      (s.writeCsr .cmd w).eng =
        { s.eng with phase := .executing, op := (s.writeCsr .cmd w).eng.op, step := some .entry } ∧
      (∀ i, (s.writeCsr .cmd w).eng.op = some i ↔ decode w = .ok i) ∧
      s.writeCsr .cmd w =
        { s with csr := (s.writeCsr .cmd w).csr, eng := (s.writeCsr .cmd w).eng, raced := [] }) ∧
    (s.busy = true → s.writeCsr .cmd w = { s with csr := { s.csr with cmdOvr := true } }) ∧
    s.readCsr .cmd = 0

/-- R82, R210: a CMD word that decodes to no operation finishes with -5: no bus cycle, no BUF access, and no register changed
but STATUS and RESULT. The step whose cycle accepts a write of such a word runs to that finish. That it takes one cycle, and
that the step runs it whole, is the model's choice (log 17, log 9). -/
def Obligations.IllegalFinishes : Prop :=
  (∀ (s : State) (r : Reject), s.undisturbed = true → decode s.csr.cmd = .error r →
    ∃ t, runCommand s = .next t ∧ Finished (BitVec.ofInt 32 (-5)) 0 [] s t ∧
      t.csr.kernel = { s.csr.kernel with result := BitVec.ofInt 32 (-5) } ∧ t.mem = s.mem) ∧
  (∀ (s : State) (off : Byte) (w : Word) (agent : List AgentAccess) (rest : List Input) (r : Reject),
    s.busy = false → s.inputs = .cycle { rst := false, csr := some (.write off w), agent := agent } :: rest →
    csrAt off = some .cmd → decode w = .error r →
      step s = runCommand s.tick ∧ s.tick.csr.cmd = w ∧
      (s.undisturbed = true →
        ∃ t, step s = .next t ∧ Finished (BitVec.ofInt 32 (-5)) 0 [] s t ∧
          t.csr.kernel = { s.csr.kernel with cmd := w, result := BitVec.ofInt 32 (-5) } ∧ t.mem = s.mem))

/-! ## The CSR window (10_state.md, 20_memory.md) -/

/-- R23: the fields of STATUS; a write is never dropped, a 1 clears DONE, CMD_OVR or CFG_DROP and a 0 leaves the bit; DONE is
set and BUSY cleared by `finish`, which wins over a host write to STATUS in the same cycle; DONE is cleared by an accepted CMD
write; dropped writes set CMD_OVR and CFG_DROP; BUSY and DONE never hold together (in a state that meets the invariant); all
are 0 after reset. -/
def Obligations.StatusRegister : Prop :=
  (∀ s : State,
    (s.readCsr .status).getLsbD 0 = s.busy ∧ (s.readCsr .status).getLsbD 1 = s.csr.done ∧
    (s.readCsr .status).getLsbD 2 = s.csr.cmdOvr ∧ (s.readCsr .status).getLsbD 3 = s.csr.cfgDrop ∧
    ∀ k, 4 ≤ k → (s.readCsr .status).getLsbD k = false) ∧
  (∀ (s : State) (w : Word),
    s.writeCsr .status w =
      { s with
        csr := { s.csr with
          done := s.csr.done && !w.getLsbD 1
          cmdOvr := s.csr.cmdOvr && !w.getLsbD 2
          cfgDrop := s.csr.cfgDrop && !w.getLsbD 3 } }) ∧
  (∀ (s : State) (w : Word) (r : Csr),
    (s.busy = false → (s.writeCsr .cmd w).csr.done = false ∧ (s.writeCsr .cmd w).busy = true) ∧
    (s.busy = true → (s.writeCsr .cmd w).csr.cmdOvr = true) ∧
    (s.busy = true → r.isConfig = true → (s.writeCsr r w).csr.cfgDrop = true)) ∧
  (∀ (s : State) (code : Word), s.busy = true → s.noReset = true →
    ∃ t, finish code s = .ok () t ∧ t.csr.done = true ∧ t.busy = false) ∧
  (∀ s : State, s.Inv → ¬(s.busy = true ∧ s.csr.done = true)) ∧
  State.reset.readCsr .status = 0

/-- R27: while BUSY = 1 a write to an operand, geometry or mode register changes nothing but CFG_DROP, and one to CMD nothing
but CMD_OVR; writes to read-only registers are ignored in any phase; STATUS and CTRL writes are as with BUSY = 0. So the
operand and configuration registers are constant for the whole of an operation, whatever the host writes in it, but for
SETGEOM's own update of GEOM_HEADS and GEOM_SPT. -/
def Obligations.SerialisedWrites : Prop :=
  (∀ (s : State) (r : Csr) (w : Word), s.busy = true → r.isConfig = true →
    s.writeCsr r w = { s with csr := { s.csr with cfgDrop := true } }) ∧
  (∀ (s : State) (w : Word), s.busy = true → s.writeCsr .cmd w = { s with csr := { s.csr with cmdOvr := true } }) ∧
  (∀ (s : State) (r : Csr) (w : Word), r ∈ [Csr.result, Csr.lastStatus, Csr.idStatus] → s.writeCsr r w = s) ∧
  (∀ (s : State) (w : Word), (s.writeCsr .status w).csr = s.csr.clearStatus w ∧ (s.writeCsr .ctrl w).csr.ie = w.getLsbD 0) ∧
  (∀ (i : Instr) (s t : State), s.noReset = true → exec i s = .next t →
    t.csr.argLba = s.csr.argLba ∧ t.csr.argCount = s.csr.argCount ∧ t.csr.argBuf = s.csr.argBuf ∧
    t.csr.geomCyl = s.csr.geomCyl ∧ t.csr.totalLba = s.csr.totalLba ∧ t.csr.mode = s.csr.mode ∧
    ((∀ heads spt, i ≠ .setgeom heads spt) →
      t.csr.geomHeads = s.csr.geomHeads ∧ t.csr.geomSpt = s.csr.geomSpt))

/-- R26: the operand registers while BUSY = 0. Every bit of ARG_LBA and ARG_COUNT is writable; ARG_BUF keeps bit 0 and the bits
from BUF_AW on at 0, so that ARG_BUF_HI reads 0 where BUF_AW is at most 32. Nothing else changes, and all are 0 after reset. -/
def Obligations.OperandRegisters : Prop :=
  (∀ (s : State) (w : Word), s.busy = false →
    s.writeCsr .argLbaLo w = { s with csr := { s.csr with argLba := hiWord s.csr.argLba ++ w } } ∧
    s.writeCsr .argLbaHi w = { s with csr := { s.csr with argLba := w ++ loWord s.csr.argLba } } ∧
    s.writeCsr .argCount w = { s with csr := { s.csr with argCount := w } } ∧
    (s.writeCsr .argLbaLo w).readCsr .argLbaLo = w ∧ (s.writeCsr .argLbaHi w).readCsr .argLbaHi = w ∧
    (s.writeCsr .argCount w).readCsr .argCount = w) ∧
  (∀ (s : State) (w : Word), s.busy = false → s.params.wf → s.csr.argBuf &&& bufMask s.params.bufAw = s.csr.argBuf →
    (∀ k, k < 32 → ((s.writeCsr .argBufLo w).readCsr .argBufLo).getLsbD k =
      (w.getLsbD k && decide (k ≠ 0 ∧ k < s.params.bufAw))) ∧
    (∀ k, k < 32 → ((s.writeCsr .argBufHi w).readCsr .argBufHi).getLsbD k =
      (w.getLsbD k && decide (k + 32 < s.params.bufAw))) ∧
    (s.writeCsr .argBufLo w).readCsr .argBufHi = s.readCsr .argBufHi ∧
    (s.writeCsr .argBufHi w).readCsr .argBufLo = s.readCsr .argBufLo ∧
    (s.params.bufAw ≤ 32 → s.readCsr .argBufHi = 0) ∧
    s.writeCsr .argBufLo w = { s with csr := { s.csr with argBuf := (s.writeCsr .argBufLo w).csr.argBuf } } ∧
    s.writeCsr .argBufHi w = { s with csr := { s.csr with argBuf := (s.writeCsr .argBufHi w).csr.argBuf } }) ∧
  State.reset.csr.argLba = 0 ∧ State.reset.csr.argCount = 0 ∧ State.reset.csr.argBuf = 0

/-- R28 to R30: the geometry, capacity and mode registers while BUSY = 0: each takes the bits of its width, the bits above read
0, and nothing else changes. R245: writing the same value to a configuration register twice, in any phase, leaves the state of
writing it once. -/
def Obligations.GeometryAndModeRegisters : Prop :=
  (∀ (s : State) (r : Csr) (w : Word), r.isConfig = true → (s.writeCsr r w).writeCsr r w = s.writeCsr r w) ∧
  ∀ (s : State) (w : Word), s.busy = false →
    s.writeCsr .geomCyl w = { s with csr := { s.csr with geomCyl := w.extractLsb' 0 16 } } ∧
    s.writeCsr .geomHeads w = { s with csr := { s.csr with geomHeads := w.extractLsb' 0 8 } } ∧
    s.writeCsr .geomSpt w = { s with csr := { s.csr with geomSpt := w.extractLsb' 0 8 } } ∧
    s.writeCsr .totalLbaLo w = { s with csr := { s.csr with totalLba := hiWord s.csr.totalLba ++ w } } ∧
    s.writeCsr .totalLbaHi w = { s with csr := { s.csr with totalLba := w ++ loWord s.csr.totalLba } } ∧
    s.writeCsr .mode w = { s with csr := { s.csr with mode := w.extractLsb' 0 4 } } ∧
    (s.writeCsr .geomCyl w).readCsr .geomCyl = w &&& 0xFFFF ∧ (s.writeCsr .geomHeads w).readCsr .geomHeads = w &&& 0xFF ∧
    (s.writeCsr .geomSpt w).readCsr .geomSpt = w &&& 0xFF ∧ (s.writeCsr .mode w).readCsr .mode = w &&& 0xF ∧
    (s.writeCsr .totalLbaLo w).readCsr .totalLbaLo = w ∧ (s.writeCsr .totalLbaHi w).readCsr .totalLbaHi = w ∧
    (s.writeCsr .mode w).csr.useLba = w.getLsbD 0 ∧ (s.writeCsr .mode w).csr.lba48Sup = w.getLsbD 1 ∧
    (s.writeCsr .mode w).csr.wp = w.getLsbD 2 ∧ (s.writeCsr .mode w).csr.compat = w.getLsbD 3

/-- R21, R61: bits 1:0 of an offset are ignored; every register answers at its offset of R21's map; from 0x44 on a read returns
0 and a write has no effect; a read changes nothing but the record of events. R24, R31, R32: what a read of RESULT,
LAST_STATUS and ID_STATUS returns. R224: an access by address is the port's access at the offset from CSR_BASE, and one
outside the 256 bytes of the window is not the block's (log 14). -/
def Obligations.CsrWindow : Prop :=
  ([0x00, 0x04, 0x08, 0x0C, 0x10, 0x14, 0x18, 0x1C, 0x20, 0x24, 0x28, 0x2C, 0x30, 0x34, 0x38, 0x3C, 0x40].map csrAt =
    [some .cmd, some .status, some .result, some .ctrl, some .argLbaLo, some .argLbaHi, some .argCount, some .argBufLo,
      some .argBufHi, some .geomCyl, some .geomHeads, some .geomSpt, some .totalLbaLo, some .totalLbaHi, some .mode,
      some .lastStatus, some .idStatus]) ∧
  (∀ s : State, s.readOffset 0x08 = s.csr.result ∧ s.readOffset 0x3C = (0 : BitVec 24) ++ s.csr.lastStatus ∧
    s.readOffset 0x40 = if s.csr.idValid then 1 else 0) ∧
  (∀ (s : State) (off : Byte) (w : Word),
    s.select (.read (s.params.csrBase + off.toNat)) = some (.read off) ∧
    s.select (.write (s.params.csrBase + off.toNat) w) = some (.write off w)) ∧
  (∀ (s : State) (a : Nat) (w : Word), a < s.params.csrBase ∨ s.params.csrBase + 256 ≤ a →
    s.select (.read a) = none ∧ s.select (.write a w) = none) ∧
  (∀ (s : State) (a : BusAccess) (rest : List Input), s.inputs = .bus a :: rest →
    s.tick = ({ s with inputs := .cycle { rst := false, csr := s.select a, agent := [] } :: rest } : State).tick) ∧
  (∀ off off' : Byte, off.extractLsb' 2 6 = off'.extractLsb' 2 6 → csrAt off = csrAt off') ∧
  (∀ r : Csr, csrAt r.offset = some r) ∧
  (∀ (s : State) (off : Byte) (w : Word), 0x44 ≤ off.toNat → s.readOffset off = 0 ∧ s.writeOffset off w = s) ∧
  (∀ (s : State) (off : Byte), s.hostAccess (.read off) = s.record (.csrRead off (s.readOffset off)))

/-- R25, R37, R217: bit 0 of CTRL is IE, the other bits read 0, and a CTRL write is never dropped. irq is DONE & IE, a level;
writing 1 to STATUS.DONE clears it and so does an accepted CMD write; setting IE while DONE = 1 raises it at once. IE is 0
after reset. -/
def Obligations.InterruptOutput : Prop :=
  (∀ (s : State) (w : Word),
    (s.readCsr .ctrl).getLsbD 0 = s.csr.ie ∧ (∀ k, 1 ≤ k → (s.readCsr .ctrl).getLsbD k = false) ∧
    s.writeCsr .ctrl w = { s with csr := { s.csr with ie := w.getLsbD 0 } } ∧
    s.irq = (s.csr.done && s.csr.ie) ∧ s.sample.irq = s.irq ∧
    (w.getLsbD 1 = true → (s.writeCsr .status w).irq = false) ∧
    (s.busy = false → (s.writeCsr .cmd w).irq = false) ∧
    (s.csr.done = true → (s.writeCsr .ctrl w).irq = w.getLsbD 0)) ∧
  State.reset.csr.ie = false ∧ State.reset.irq = false ∧
  ∀ s : State, s.blockReset.csr.ie = false ∧ s.blockReset.irq = false

/-! ## Reset (10_state.md R42, 70_reset_and_hazards.md) -/

/-- R42: what reset leaves, in `State.reset` and after a block reset of any state. -/
def Obligations.ResetValues : Prop :=
  ∀ (s t : State), t = State.reset ∨ t = s.blockReset →
    t.eng.phase = .idle ∧ t.readCsr .status = 0 ∧ t.csr.result = 0 ∧ t.csr.ie = false ∧ t.csr.argLba = 0 ∧
    t.csr.argCount = 0 ∧ t.csr.argBuf = 0 ∧ t.csr.geomCyl = 0 ∧ t.csr.geomHeads = 0 ∧ t.csr.geomSpt = 0 ∧
    t.csr.totalLba = 0 ∧ t.csr.mode = 0 ∧ t.csr.lastStatus = 0 ∧ t.csr.idValid = false ∧ t.ide.da = 0 ∧
    t.ide.cs0N = true ∧ t.ide.cs1N = true ∧ t.ide.diorN = true ∧ t.ide.diowN = true ∧ t.ide.dd = none ∧
    t.ide.resetN = true ∧ t.inv = none ∧ t.irq = false ∧ t.buf = none

/-- R240: in a cycle with `rst_n = 0`, whatever runs, the block takes the reset values, a CSR read returns 0 and a write is
ignored. An operation whose first clock cycle is such a cycle is abandoned. Whichever cycle of an operation it is, where a block
reset is among the events of the operation, it does not finish and leaves the reset values. That the CSR read of such a cycle
comes after the reset events in the trace, and other agents' accesses after it, is the model's choice of the order inside a
cycle (log 10). -/
def Obligations.ResetAbandons : Prop :=
  (∀ (s : State) (csr : Option CsrAccess) (agent : List AgentAccess) (rest : List Input),
    s.inputs = .cycle { rst := true, csr := csr, agent := agent } :: rest →
      s.tick.AtReset ∧ s.tick.busy = false ∧ s.tick.inputs = rest ∧
      ∀ off, csr = some (.read off) → ∃ l, s.tick.trace = l ++ .csrRead off 0 :: (s.resetEvents ++ s.trace)) ∧
  (∀ (i : Instr) (s : State) (csr : Option CsrAccess) (agent : List AgentAccess) (rest : List Input),
    s.memoryAnswers = true → s.inputs = .cycle { rst := true, csr := csr, agent := agent } :: rest →
      ∃ t, exec i s = .next t ∧ t.AtReset ∧ t.csr.result = 0 ∧ t.csr.done = false ∧
        t.trace.countP Event.isFinish = s.trace.countP Event.isFinish) ∧
  (∀ (i : Instr) (s t : State), exec i s = .next t →
    ∃ l, t.trace = l ++ s.trace ∧
      (Event.blockReset ∈ l →
        t.AtReset ∧ t.csr.result = 0 ∧ t.csr.done = false ∧ l.countP Event.isFinish = 0))

/-! ## Every operation -/

/-- R71, R212, R240: an operation ends in one of three ways: it finishes with a listed outcome, and `finish` is the engine's last
event; or a reset abandons it, with the reset values of R42; or a BUF access waits for an answer that never comes, with
BUSY = 1. -/
def Obligations.OperationEnds : Prop :=
  ∀ (i : Instr) (s : State), ∃ t, exec i s = .next t ∧ t.params = s.params ∧
    ((t.busy = false ∧ t.csr.done = true ∧ s.listedOutcome i t.csr.result ∧
        ∃ l, t.engineEvents = .finish t.csr.result :: l) ∨
      t.AtReset ∨
      (t.busy = true ∧ t.buf.isSome = true))

/-- R211, R212: without a reset and with a memory that answers, every operation finishes, with an outcome of R211's list,
whatever the Device returns and whatever the host and other agents do meanwhile. -/
def Obligations.OperationFinishes : Prop :=
  ∀ (i : Instr) (s : State), s.noReset = true → s.memoryAnswers = true →
    ∃ t, exec i s = .next t ∧ t.busy = false ∧ t.csr.done = true ∧ s.listedOutcome i t.csr.result ∧
      ∃ l, t.engineEvents = .finish t.csr.result :: l

/-- R23, R25, R41: no operation of itself changes CMD_OVR, CFG_DROP or IE: with a silent host they are as before. -/
def Obligations.FlagsOnlyFromHost : Prop :=
  ∀ (i : Instr) (s t : State), s.inputs = [] → exec i s = .next t →
    t.csr.cmdOvr = s.csr.cmdOvr ∧ t.csr.cfgDrop = s.csr.cfgDrop ∧ t.csr.ie = s.csr.ie

/-- R215: an operation that finishes with DeviceError leaves in LAST_STATUS a byte with ERR = 1. -/
def Obligations.DeviceErrorStatus : Prop :=
  ∀ (i : Instr) (s t : State), s.noReset = true → s.memoryAnswers = true → exec i s = .next t →
    t.csr.result = BitVec.ofInt 32 (-2) → err t.csr.lastStatus = true

/-- R255: the outcome of an operation does not depend on time. Two states with the same registers, BUF, budgets and coming
Device values, and any timings, latencies, handshakes and host accesses, reach the same registers and BUF with the same
accesses in the same order. -/
def Obligations.TimingIndependence : Prop :=
  ∀ (i : Instr) (s s' t t' : State), s.Alike s' → s.undisturbed = true → s'.undisturbed = true →
    s.memoryAnswers = true → s'.memoryAnswers = true → exec i s = .next t → exec i s' = .next t' →
      t.Alike t' ∧
      ∃ es es', t.engineEvents = es ++ s.engineEvents ∧ t'.engineEvents = es' ++ s'.engineEvents ∧
        es.filter Event.isAccess = es'.filter Event.isAccess

/-! ## Invariants -/

/-- 10 R23, R26, R31, R33, R36, R38, R40, 20 R65, R66, R69, 60 R210: every step keeps the invariant of the machine. -/
def Obligations.StepKeepsInvariant : Prop := ∀ s t : State, s.Inv → step s = .next t → t.Inv

/-- The state after reset meets the invariant. -/
def Obligations.ResetMeetsInvariant : Prop := State.reset.Inv

/-- 10 R35, R38, 20 R66, R69, 40 R104 to R106, 41 R142, R147, 42 R186: in no clock cycle of a step does the IDE port assert
`ide_cs1_n`, two strobes, a strobe without chip select, data outside a write cycle, or a bus cycle during a reset or invalidate
pulse; and every access of the BUF port has an even address below 2^BUF_AW, in each cycle in which it is outstanding and in
the event it makes. -/
def Obligations.PortsStayLegal : Prop :=
  ∀ s t : State, s.Inv → s.portsLegal = true → step s = .next t → t.portsLegal = true

/-! ## BUF (20_memory.md) -/

/-- R65: a write replaces one byte, every other byte reads as before, the canonical form is kept, and two memories in that form
with equal bytes are equal. -/
def Obligations.BufBytes : Prop :=
  (∀ (m : Memory) (a b : Nat) (v : Byte), m.wf = true →
    (m.write a v).wf = true ∧ (m.write a v).read b = if b = a then v else m.read b) ∧
  (∀ m m' : Memory, m.wf = true → m'.wf = true → (∀ a, m.read a = m'.read a) → m = m')

/-- R66, R67: the BUF primitives, on a memory that answers and that no other agent reaches: addresses mod 2^BUF_AW, the low
byte at the lower address, one access each, and every other byte as before. -/
def Obligations.BufPrimitives : Prop :=
  ∀ (s : State) (a : Nat) (v : Half), s.busy = true → s.undisturbed = true → s.memoryAnswers = true →
    s.raced = [] → s.mem.wf = true → s.params.wf →
    (∃ t, memRead a s = .ok (s.mem.read ((a + 1) % s.bufSize) ++ s.mem.read (a % s.bufSize)) t ∧ t.mem = s.mem ∧
      t.csr.kernel = s.csr.kernel ∧
      t.engineEvents = .bufRead (a % s.bufSize) (s.mem.read ((a + 1) % s.bufSize) ++ s.mem.read (a % s.bufSize)) ::
        s.engineEvents) ∧
    (∃ t, memWrite a v s = .ok () t ∧ t.csr.kernel = s.csr.kernel ∧
      t.engineEvents = .bufWrite (a % s.bufSize) v :: s.engineEvents ∧
      ∀ b, t.mem.read b =
        if b = (a + 1) % s.bufSize then v.extractLsb' 8 8 else if b = a % s.bufSize then v.extractLsb' 0 8 else s.mem.read b)

/-- R71: a BUF access that is never answered leaves the engine waiting: the operation does not finish, BUSY stays 1, RESULT and
DONE stay, and so it remains in every later cycle without a reset. -/
def Obligations.UnansweredAccessWaits : Prop :=
  (∀ s : State, s.inputs = [] → s.bufAnswers = [] → s.params.bufWait = none → s.csr.idValid = true →
    ∃ t, exec .getid s = .next t ∧ t.busy = true ∧ t.csr = s.csr ∧ t.mem = s.mem ∧
      t.buf = some (.write (s.bufAddr % s.bufSize) (s.csr.idbuf[0]))) ∧
  (∀ s : State, s.busy = true → s.noReset = true →
    step s = .next s.tick ∧ s.tick.busy = true ∧ s.tick.csr.result = s.csr.result ∧
    (s.tick.csr.done = true → s.csr.done = true) ∧ s.tick.buf = s.buf)

/-- R74, R248: from the accepted CMD write on, each write of another agent in the range of a running WRITE keeps the byte it
replaces beside the new one, and the engine's read takes one of all these; another agent's read in the range of a running
operation gets a free value (which one is the model's choice, log 13), and outside that range the byte of BUF. The range is the
bytes from ARG_BUF on that the operation moves, mod 2^BUF_AW. -/
def Obligations.BufRaces : Prop :=
  (∀ (s : State) (w : Word) (i : Instr), s.busy = false → decode w = .ok i →
    (s.writeCsr .cmd w).busy = true ∧ (s.writeCsr .cmd w).eng.op = some i) ∧
  (∀ (s : State) (i : Instr) (a : Nat), s.busy = true → s.eng.op = some i → a < s.bufSize →
    (s.inRunningRange a = true ↔
      ∃ j, j < (if i = .read ∨ i = .write then s.sectors * 512 else if i = .getid then 512 else 0) ∧
        a = (s.bufAddr + j) % s.bufSize)) ∧
  (∀ (s : State) (a : Nat) (b : Byte), s.eng.op = some .write → s.inRunningRange (a % s.bufSize) = true →
    s.mem.wf = true →
    (s.agentAccess (.write a b)).mem.read (a % s.bufSize) = b ∧
    (s.agentAccess (.write a b)).raced = (a % s.bufSize, s.mem.read (a % s.bufSize)) :: s.raced) ∧
  (∀ (s : State) (a : Nat), ∃ v t, takeByte a s = .ok v t ∧
    (v = s.mem.read a ∨ (a, v) ∈ s.raced) ∧ t.mem = s.mem ∧ t.csr = s.csr ∧ t.raced = s.raced ∧
    ((∀ b, (a, b) ∉ s.raced) → v = s.mem.read a)) ∧
  (∀ (s : State) (a : Nat), s.inRunningRange (a % s.bufSize) = false →
    s.agentAccess (.read a) = s.record (.agentRead (a % s.bufSize) (s.mem.read (a % s.bufSize)))) ∧
  (∀ (s : State) (a : Nat), s.inRunningRange (a % s.bufSize) = true →
    ∃ v, s.agentAccess (.read a) =
      { s.record (.agentRead (a % s.bufSize) v) with freeDraws := s.freeDraws + 1 })

/-! ## Bus cycles (40_bus_primitives.md) -/

/-- R104, R107, R109: the read bus cycle cycle by cycle: the port in each phase and its length, the value the Device returns,
one event, LAST_STATUS when the register is 7, and no other register. The bus is sampled in the last cycle of PW: a bus cycle
that a block reset cuts after j clock cycles has taken a value of the Device, and made its event, exactly where
tAS + tPW ≤ j, and is cut inside the strobe where j is among its cycles (that reading of the sampling point is log 15). -/
def Obligations.ReadCycleWaveform : Prop :=
  (∀ (s : State) (reg : IdeReg) (kind : Kind) (j : Nat) (rest : List Input),
    s.busy = true → s.ide.isIdle = true →
    s.inputs = List.replicate j (.cycle { rst := false, csr := none, agent := [] }) ++
      .cycle { rst := true, csr := none, agent := [] } :: rest →
    let p := s.params.times kind s.csr.compat
    j < p.total →
      ∃ t, ideRead reg kind s = .error .halted t ∧
        t.trace = (if p.tAS ≤ j ∧ j < p.tAS + p.tPW then [.blockReset, .strobeCut reg] else [.blockReset]) ++
          (if p.tAS + p.tPW ≤ j then [.ideRead reg kind (s.upcoming 0)] else []) ++ s.trace ∧
        ∀ i, t.upcoming i = s.upcoming ((if p.tAS + p.tPW ≤ j then 1 else 0) + i)) ∧
  ∀ (s : State) (reg : IdeReg) (kind : Kind), s.busy = true → s.inputs = [] → s.ide.isIdle = true →
    let p := s.params.times kind s.csr.compat
    let port := { s.ide with da := reg, cs0N := false }
    let strobe := { port with diorN := false }
    let rest := { port with cs0N := true }
    ∃ t, ideRead reg kind s = .ok (s.upcoming 0) t ∧
      t.wave = List.replicate p.tREC { s.sample with ide := rest } ++ List.replicate p.tDH { s.sample with ide := port } ++
        List.replicate p.tPW { s.sample with ide := strobe } ++ List.replicate p.tAS { s.sample with ide := port } ++
        s.wave ∧
      t.ide = rest ∧ t.trace = .ideRead reg kind (s.upcoming 0) :: s.trace ∧ (∀ j, t.upcoming j = s.upcoming (1 + j)) ∧
      t.csr = { s.csr with lastStatus := if reg = 7 then (s.upcoming 0).lo else s.csr.lastStatus } ∧ t.mem = s.mem

/-- R105, R107: the write bus cycle cycle by cycle: the port in each phase and its length, the event `write(reg, v)`, and no
register changed. The event is made at the rising edge of the strobe, after tAS + tPW clock cycles: a bus cycle that a block
reset cuts after j cycles has made it exactly where tAS + tPW ≤ j, and is cut inside the strobe where j is among its cycles
(that reading of the edge is log 15). -/
def Obligations.WriteCycleWaveform : Prop :=
  (∀ (s : State) (reg : IdeReg) (v : Half) (kind : Kind) (j : Nat) (rest : List Input),
    s.busy = true → s.ide.isIdle = true →
    s.inputs = List.replicate j (.cycle { rst := false, csr := none, agent := [] }) ++
      .cycle { rst := true, csr := none, agent := [] } :: rest →
    let p := s.params.times kind s.csr.compat
    j < p.total →
      ∃ t, ideWrite reg v kind s = .error .halted t ∧
        t.trace = (if p.tAS ≤ j ∧ j < p.tAS + p.tPW then [.blockReset, .strobeCut reg] else [.blockReset]) ++
          (if p.tAS + p.tPW ≤ j then [.ideWrite reg kind v] else []) ++ s.trace) ∧
  ∀ (s : State) (reg : IdeReg) (v : Half) (kind : Kind), s.busy = true → s.inputs = [] → s.ide.isIdle = true →
    let p := s.params.times kind s.csr.compat
    let port := { s.ide with da := reg, cs0N := false, dd := some v }
    let strobe := { port with diowN := false }
    let rest := { s.ide with da := reg }
    ∃ t, ideWrite reg v kind s = .ok () t ∧
      t.wave = List.replicate p.tREC { s.sample with ide := rest } ++ List.replicate p.tDH { s.sample with ide := port } ++
        List.replicate p.tPW { s.sample with ide := strobe } ++ List.replicate p.tAS { s.sample with ide := port } ++
        s.wave ∧
      t.ide = rest ∧ t.trace = .ideWrite reg kind v :: s.trace ∧ (∀ j, t.upcoming j = s.upcoming j) ∧
      t.csr = s.csr ∧ t.mem = s.mem

/-- R100, R101, R107: whatever the host and other agents do, a bus cycle never fails and takes exactly the cycles of its kind
under the profile that MODE.COMPAT names. -/
def Obligations.BusCycleLatency : Prop :=
  ∀ (s : State) (reg : IdeReg) (v : Half) (kind : Kind), s.busy = true → s.noReset = true →
    (∃ x t, ideRead reg kind s = .ok x t ∧ t.busy = true ∧
      t.cycle = s.cycle + (s.params.times kind (s.csr.mode.getLsbD 3)).total) ∧
    (∃ t, ideWrite reg v kind s = .ok () t ∧ t.busy = true ∧
      t.cycle = s.cycle + (s.params.times kind (s.csr.mode.getLsbD 3)).total)

/-- R106: `Idle(n)` keeps the idle port for n cycles. -/
def Obligations.IdleHoldsPort : Prop :=
  ∀ (s : State) (n : Nat), s.busy = true → s.noReset = true → s.ide.isIdle = true →
    ∃ t l, idle n s = .ok () t ∧ t.wave = l ++ s.wave ∧ l.length = n ∧
      ∀ p ∈ l, p.ide.cs0N = true ∧ p.ide.cs1N = true ∧ p.ide.diorN = true ∧ p.ide.diowN = true ∧ p.ide.dd = none ∧
        p.ide.resetN = true ∧ p.ide.da = s.ide.da

/-! ## Raw register operations (40_bus_primitives.md R110 to R112) -/

/-- R110: REG_RD8 makes one read cycle of REG timing and finishes with the low byte. LAST_STATUS changes when the register is
7; no other register and no byte of BUF does. -/
def Obligations.RegRd8Result : Prop :=
  ∀ (reg : Nat) (s : State), reg < 8 → s.undisturbed = true →
    ∃ t, exec (.regRd8 reg) s = .next t ∧
      Finished (((s.upcoming 0).extractLsb' 0 8).setWidth 32) 1 [.ideRead (BitVec.ofNat 3 reg) .reg (s.upcoming 0)] s t ∧
      t.csr.kernel =
        { s.csr.kernel with
          result := ((s.upcoming 0).extractLsb' 0 8).setWidth 32
          lastStatus := if reg = 7 then (s.upcoming 0).extractLsb' 0 8 else s.csr.lastStatus } ∧
      t.mem = s.mem

/-- R111: REG_WR8 makes one write cycle of REG timing with the high byte 0 and finishes with 0; nothing else changes. -/
def Obligations.RegWr8Result : Prop :=
  ∀ (reg : Nat) (val : Byte) (s : State), reg < 8 → s.undisturbed = true →
    ∃ t, exec (.regWr8 reg val) s = .next t ∧
      Finished 0 0 [.ideWrite (BitVec.ofNat 3 reg) .reg ((0 : BitVec 8) ++ val)] s t ∧
      t.csr.kernel = { s.csr.kernel with result := 0 } ∧ t.mem = s.mem

/-- R112: REG_RD16 makes one read cycle of REG timing, for register 0 too, and finishes with the 16-bit word. -/
def Obligations.RegRd16Result : Prop :=
  ∀ (reg : Nat) (s : State), reg < 8 → s.undisturbed = true →
    ∃ t, exec (.regRd16 reg) s = .next t ∧
      Finished ((s.upcoming 0).setWidth 32) 1 [.ideRead (BitVec.ofNat 3 reg) .reg (s.upcoming 0)] s t ∧
      t.csr.kernel =
        { s.csr.kernel with
          result := (s.upcoming 0).setWidth 32
          lastStatus := if reg = 7 then (s.upcoming 0).extractLsb' 0 8 else s.csr.lastStatus } ∧
      t.mem = s.mem

/-! ## Waits (42_sector_transfer.md R175, R176) -/

/-- R175, R176: the first poll that is not "again" ends a wait, and only if all n are "again" is it a Timeout. R175, R214: one
poll of WaitDRQ: ERR first, whatever BSY and DRQ are (unless ERR_MASKED_BY_BSY and BSY = 1), then BSY = 0
with DRQ = 1, otherwise again. One poll of WaitNotBusy looks at BSY alone (R176). -/
def Obligations.PollVerdicts : Prop :=
  (∀ (verdict : Byte → Verdict) (f : Nat → Half) (n k : Nat),
    (∀ j, j < n → (∀ i, i < j → verdict (f (k + i)).lo = .again) → verdict (f (k + j)).lo = .ready →
      pollOn verdict f n k = .ready (f (k + j)).lo (k + j + 1)) ∧
    (∀ j, j < n → (∀ i, i < j → verdict (f (k + i)).lo = .again) → verdict (f (k + j)).lo = .failed →
      pollOn verdict f n k = .failed .deviceError (k + j + 1)) ∧
    ((∀ i, i < n → verdict (f (k + i)).lo = .again) → pollOn verdict f n k = .failed .timeout (k + n))) ∧
  ∀ (masked : Bool) (st : Byte),
    (drqVerdict masked st = .failed ↔ st.getLsbD 0 = true ∧ ¬(masked = true ∧ st.getLsbD 7 = true)) ∧
    (drqVerdict masked st = .ready ↔
      ¬(st.getLsbD 0 = true ∧ ¬(masked = true ∧ st.getLsbD 7 = true)) ∧ st.getLsbD 7 = false ∧ st.getLsbD 3 = true) ∧
    (notBusyVerdict st = .ready ↔ st.getLsbD 7 = false) ∧ notBusyVerdict st ≠ .failed ∧
    drqVerdict false 0x59 = .failed ∧ drqVerdict false 0xFF = .failed ∧
    drqVerdict true 0x81 = .again ∧ drqVerdict true 0xFF = .again

/-- R175: WaitDRQ reads register 7 with REG timing until a poll decides or POLL_BUDGET_DRQ polls are spent, with
`Idle(T_POLL_GAP)` between two polls and none after the last; LAST_STATUS is the last byte read. -/
def Obligations.WaitDrqRuns : Prop :=
  ∀ s : State, s.busy = true → s.undisturbed = true →
    ∃ t k, (∀ j, t.upcoming j = s.upcoming (k + j)) ∧ k ≤ s.params.budgetDrq ∧ (1 ≤ s.params.budgetDrq → 1 ≤ k) ∧
      t.engineEvents = (((List.range k).map fun j => Event.ideRead 7 .reg (s.upcoming j)).reverse.intersperse
        (.idle s.params.tPollGap)) ++ s.engineEvents ∧
      t.mem = s.mem ∧
      t.csr.kernel = { s.csr.kernel with lastStatus := if k = 0 then s.csr.lastStatus else (s.upcoming (k - 1)).lo } ∧
      match pollOn (drqVerdict s.params.errMaskedByBsy) s.upcoming s.params.budgetDrq 0 with
      | .ready st k' => waitDrq s = .ok st t ∧ k' = k
      | .failed e k' => waitDrq s = .error (.raised e) t ∧ k' = k

/-- R176: WaitNotBusy(budget), in the same way; it can raise Timeout alone. -/
def Obligations.WaitNotBusyRuns : Prop :=
  ∀ (s : State) (budget : Nat), s.busy = true → s.undisturbed = true →
    ∃ t k, (∀ j, t.upcoming j = s.upcoming (k + j)) ∧ k ≤ budget ∧ (1 ≤ budget → 1 ≤ k) ∧
      t.engineEvents = (((List.range k).map fun j => Event.ideRead 7 .reg (s.upcoming j)).reverse.intersperse
        (.idle s.params.tPollGap)) ++ s.engineEvents ∧
      t.mem = s.mem ∧
      t.csr.kernel = { s.csr.kernel with lastStatus := if k = 0 then s.csr.lastStatus else (s.upcoming (k - 1)).lo } ∧
      match pollOn notBusyVerdict s.upcoming budget 0 with
      | .ready st k' => waitNotBusy budget s = .ok st t ∧ k' = k
      | .failed e k' => waitNotBusy budget s = .error (.raised e) t ∧ k' = k ∧ e = .timeout

/-- R207: a wait of k polls, WaitNotBusy or WaitDRQ, however it ends, takes k REG bus cycles and k - 1 poll gaps, and no other
clock cycle. -/
def Obligations.PollSpacing : Prop :=
  ∀ (s : State) (budget : Nat), s.busy = true → s.undisturbed = true →
    let length := fun k => k * (s.params.times .reg s.csr.compat).total + (k - 1) * s.params.tPollGap
    (match pollOn notBusyVerdict s.upcoming budget 0 with
      | .ready _ k => (finalState (waitNotBusy budget) s).cycle = s.cycle + length k
      | .failed _ k => (finalState (waitNotBusy budget) s).cycle = s.cycle + length k) ∧
    (match pollOn (drqVerdict s.params.errMaskedByBsy) s.upcoming s.params.budgetDrq 0 with
      | .ready _ k => (finalState waitDrq s).cycle = s.cycle + length k
      | .failed _ k => (finalState waitDrq s).cycle = s.cycle + length k)

/-! ## Commands (41_command_sequencer.md) -/

/-- R135, R173: the CHS translation of every sector of a valid transfer fits its fields, and names that sector and no other. -/
def Obligations.ChsTranslation : Prop :=
  ∀ (s : State) (dir : Dir) (j : Nat), s.valid dir = true → s.addrMode = .chs → j < s.sectors →
    let spt := s.csr.geomSpt.toNat
    let heads := s.csr.geomHeads.toNat
    let a := chsOf heads spt (s.lba + j)
    1 ≤ a.sector ∧ a.sector ≤ spt ∧ a.head < heads ∧ a.head < 16 ∧ a.cylinder < s.csr.geomCyl.toNat ∧
      (a.cylinder * heads + a.head) * spt + (a.sector - 1) = s.lba + j ∧
      a.sector = (s.lba + j) % spt + 1 ∧ a.head = (s.lba + j) / spt % heads ∧ a.cylinder = (s.lba + j) / spt / heads

/-- R133, R137 to R140, R174: the registers the command of a chunk writes in each addressing mode, in order, with the number of
sectors mod 256 or mod 65536: in CHS mode the translation by GEOM_HEADS and GEOM_SPT, in the LBA modes the address whole: no
address bit of a valid transfer is lost. -/
def Obligations.TransferSequences : Prop :=
  ∀ (s : State) (dir : Dir) (lba n : Nat),
    let heads := s.csr.geomHeads.toNat
    let spt := s.csr.geomSpt.toNat
    (s.addrMode = .chs → ∃ b6 b2 b3 b4 b5, s.transferSeq dir lba n =
        [(6, b6), (2, b2), (3, b3), (4, b4), (5, b5), (7, if dir = .read then 0x20 else 0x30)] ∧
      b2.toNat = n % 256 ∧
      (lba / spt % heads < 16 → b6.toNat = 0xA0 + lba / spt % heads) ∧ b3.toNat = (lba % spt + 1) % 256 ∧
      (lba / spt / heads < 65536 → b4.toNat + 256 * b5.toNat = lba / spt / heads)) ∧
    (s.addrMode = .lba28 → ∃ b6 b2 b3 b4 b5, s.transferSeq dir lba n =
        [(6, b6), (2, b2), (3, b3), (4, b4), (5, b5), (7, if dir = .read then 0x20 else 0x30)] ∧
      b2.toNat = n % 256 ∧
      (lba < 2 ^ 28 → 0xE0 ≤ b6.toNat ∧
        b3.toNat + 2 ^ 8 * b4.toNat + 2 ^ 16 * b5.toNat + 2 ^ 24 * (b6.toNat - 0xE0) = lba)) ∧
    (s.addrMode = .lba48 → ∃ c1 l3 l4 l5 c0 l0 l1 l2, s.transferSeq dir lba n =
        [(6, 0xE0), (2, c1), (3, l3), (4, l4), (5, l5), (2, c0), (3, l0), (4, l1), (5, l2),
          (7, if dir = .read then 0x24 else 0x34)] ∧
      c0.toNat + 256 * c1.toNat = n % 65536 ∧
      (lba < 2 ^ 48 → l0.toNat + 2 ^ 8 * l1.toNat + 2 ^ 16 * l2.toNat + 2 ^ 24 * l3.toNat + 2 ^ 32 * l4.toNat +
        2 ^ 40 * l5.toNat = lba))

/-- R131: a command: the pre-command wait where PRECMD_WAIT is set, whose Timeout ends it with nothing written; then every
entry of the sequence in order as an 8-bit write, and `Idle(T_CMD_SETTLE)`. -/
def Obligations.IssueCommandRuns : Prop :=
  ∀ (s : State) (seq : List SeqEntry), s.busy = true → s.undisturbed = true →
    let writes := (seq.map fun p => Event.ideWrite p.1 .reg ((0 : BitVec 8) ++ p.2)).reverse
    (s.params.precmdWait = false →
      ∃ t, issueCommand seq s = .ok () t ∧
        t.engineEvents = .idle s.params.tCmdSettle :: writes ++ s.engineEvents ∧ t.csr.kernel = s.csr.kernel ∧
        t.mem = s.mem) ∧
    (s.params.precmdWait = true →
      match pollOn notBusyVerdict s.upcoming s.params.budgetPrecmd 0 with
      | .ready _ k => ∃ t polls, issueCommand seq s = .ok () t ∧ polls.countP Event.isBusCycle = k ∧
          polls.filterMap Event.taskWrite = [] ∧
          t.engineEvents = .idle s.params.tCmdSettle :: writes ++ (polls ++ s.engineEvents) ∧ t.mem = s.mem
      | .failed e k => ∃ t polls, issueCommand seq s = .error (.raised e) t ∧ e = .timeout ∧
          polls.countP Event.isBusCycle = k ∧ polls.filterMap Event.taskWrite = [] ∧
          t.engineEvents = polls ++ s.engineEvents ∧ t.mem = s.mem)

/-- R143, R102, R32, R211: IDENTIFY, against every Device: the outcome is that of the pre-command wait, the command and the DRQ
wait; on success ID_VALID is 1 and IDBUF holds the 256 words that follow, the last 256 events being their reads of register 0
with WORD timing; otherwise ID_VALID is 0 and IDBUF is unchanged. Where the pre-command wait runs out no task-file register is
written, and otherwise the whole sequence is, whatever the outcome (R131, R132). LAST_STATUS is the last status byte read; no
geometry, mode or operand register changes and no byte of BUF does. -/
def Obligations.IdentifyResult : Prop :=
  ∀ s : State, s.undisturbed = true →
    ∃ t es, exec .identify s = .next t ∧ Finished s.identifyReply.code s.identifyReply.used es s t ∧
      t.mem = s.mem ∧
      (s.identifyReply.code = 0 ∨ s.identifyReply.code = BitVec.ofInt 32 (-2) ∨
        s.identifyReply.code = BitVec.ofInt 32 (-3)) ∧
      es.filterMap Event.taskWrite =
        (if s.precmdTimesOut then [] else [(7, 0xEC), (6, if s.csr.mode.getLsbD 0 then 0xE0 else 0xA0)]) ∧
      (s.identifyReply.code = 0 → t.csr.idValid = true ∧ t.csr.idbuf.toList = s.identifyReply.words ∧
        (s.identifyReply.words.map fun v => Event.ideRead 0 .word v).reverse <+: es) ∧
      (s.identifyReply.code ≠ 0 → t.csr.idValid = false ∧ t.csr.idbuf = s.csr.idbuf) ∧
      t.csr.kernel =
        { s.csr.kernel with
          result := s.identifyReply.code
          lastStatus := statusFrom s.csr.lastStatus es
          idValid := t.csr.idValid
          idbuf := t.csr.idbuf }

/-- R144, R67: GETID with ID_VALID = 1 writes the 256 words of IDBUF at ARG_BUF, low byte first, addresses mod 2^BUF_AW, and
finishes with 512; no bus cycle, no other register, no other byte. With ID_VALID = 0 it finishes with NoData and no BUF
access. -/
def Obligations.GetidResult : Prop :=
  ∀ s : State, s.undisturbed = true → s.memoryAnswers = true → s.mem.wf = true → s.params.wf →
    (s.csr.idValid = true →
      ∃ t es, exec .getid s = .next t ∧ Finished 512 0 es s t ∧ es.countP Event.isBusCycle = 0 ∧
        t.csr.kernel = { s.csr.kernel with result := 512 } ∧
        (512 ≤ s.bufSize → ∀ (j : Nat) (hj : j < 256),
          t.mem.read ((s.bufAddr + 2 * j) % s.bufSize) = (s.csr.idbuf[j]).extractLsb' 0 8 ∧
          t.mem.read ((s.bufAddr + 2 * j + 1) % s.bufSize) = (s.csr.idbuf[j]).extractLsb' 8 8) ∧
        ∀ a, (∀ j, j < 512 → a ≠ (s.bufAddr + j) % s.bufSize) → t.mem.read a = s.mem.read a) ∧
    (s.csr.idValid = false →
      ∃ t, exec .getid s = .next t ∧ Finished (BitVec.ofInt 32 (-6)) 0 [] s t ∧
        t.csr.kernel = { s.csr.kernel with result := BitVec.ofInt 32 (-6) } ∧ t.mem = s.mem)

/-- R145, R131, R134: SETGEOM. Illegal arguments finish with OutOfRange and no bus cycle. Otherwise the outcome is that of the
pre-command wait and the completion wait; nothing was written where the pre-command wait runs out, and the three writes were
sent otherwise; on success GEOM_HEADS and GEOM_SPT hold the arguments, and on an error they are unchanged. No other register
but LAST_STATUS and RESULT changes, and no byte of BUF. -/
def Obligations.SetgeomResult : Prop :=
  ∀ (heads spt : Byte) (s : State), s.undisturbed = true →
    (heads = 0 ∨ 16 < heads.toNat ∨ spt = 0 →
      ∃ t, exec (.setgeom heads spt) s = .next t ∧ Finished (BitVec.ofInt 32 (-1)) 0 [] s t ∧
        t.csr.kernel = { s.csr.kernel with result := BitVec.ofInt 32 (-1) } ∧ t.mem = s.mem) ∧
    (heads ≠ 0 → heads.toNat ≤ 16 → spt ≠ 0 →
      ∃ t es, exec (.setgeom heads spt) s = .next t ∧
        Finished (s.setgeomReply heads spt).code (s.setgeomReply heads spt).used es s t ∧ t.mem = s.mem ∧
        es.filterMap Event.taskWrite =
          (if s.precmdTimesOut then [] else [(7, 0x91), (2, spt), (6, BitVec.ofNat 8 (0xA0 + (heads.toNat - 1)))]) ∧
        ((s.setgeomReply heads spt).code = 0 →
          t.csr.kernel =
            { s.csr.kernel with
              result := 0
              lastStatus := statusFrom s.csr.lastStatus es
              geomHeads := heads
              geomSpt := spt }) ∧
        ((s.setgeomReply heads spt).code ≠ 0 →
          ((s.setgeomReply heads spt).code = BitVec.ofInt 32 (-2) ∨ (s.setgeomReply heads spt).code = BitVec.ofInt 32 (-3)) ∧
          t.csr.kernel =
            { s.csr.kernel with
              result := (s.setgeomReply heads spt).code
              lastStatus := statusFrom s.csr.lastStatus es }))

/-- R146, R131, R132, R134: FLUSH_DEV: FLUSH CACHE EXT in LBA48 mode and FLUSH CACHE otherwise, and nothing written where the
pre-command wait runs out; the outcome is that of the pre-command wait and the completion wait. -/
def Obligations.FlushDevResult : Prop :=
  ∀ s : State, s.undisturbed = true →
    ∃ t es, exec .flushDev s = .next t ∧ Finished s.flushReply.code s.flushReply.used es s t ∧ t.mem = s.mem ∧
      es.filterMap Event.taskWrite =
        (if s.precmdTimesOut then []
          else [(7, if s.addrMode = .lba48 then 0xEA else 0xE7), (6, if s.csr.mode.getLsbD 0 then 0xE0 else 0xA0)]) ∧
      (s.flushReply.code = 0 ∨ s.flushReply.code = BitVec.ofInt 32 (-2) ∨ s.flushReply.code = BitVec.ofInt 32 (-3)) ∧
      t.csr.kernel =
        { s.csr.kernel with result := s.flushReply.code, lastStatus := statusFrom s.csr.lastStatus es }

/-- R147: RESET: one pulse of the reset line, `Idle(T_RST_SETTLE)`, then polls alone; the outcome is 0 or Timeout, whatever ERR
is. ID_VALID, IDBUF, geometry and MODE are unchanged. R106: `ide_reset_n` is 0 in exactly T_RST_PW clock cycles of a RESET that
no block reset cuts, and in none of any other operation. -/
def Obligations.ResetResult : Prop :=
  (∀ (i : Instr) (s t : State), s.noReset = true → s.ide.resetN = true → exec i s = .next t →
    t.ide.resetN = true ∧
    (t.wave.countP fun p => !p.ide.resetN) =
      (s.wave.countP fun p => !p.ide.resetN) + (if i = .reset then s.params.tRstPw else 0)) ∧
  ∀ s : State, s.undisturbed = true →
    ∃ t polls, exec .reset s = .next t ∧
      Finished s.resetReply.code s.resetReply.used (polls ++ [.idle s.params.tRstSettle, .resetPulse]) s t ∧ t.mem = s.mem ∧
      polls.countP Event.isBusCycle = s.resetReply.used ∧ polls.filterMap Event.taskWrite = [] ∧
      (s.resetReply.code = 0 ∨ s.resetReply.code = BitVec.ofInt 32 (-3)) ∧
      t.csr.kernel =
        { s.csr.kernel with result := s.resetReply.code, lastStatus := statusFrom s.csr.lastStatus polls }

/-! ## Transfers (42_sector_transfer.md) -/

/-- R133: the addressing mode that MODE selects and its limit on the sectors of one command. R171: the capacity. R172, R173: what
a valid transfer is. -/
def Obligations.ValidTransfers : Prop :=
  ∀ (s : State) (dir : Dir),
    s.addrMode = (if s.csr.mode.getLsbD 0 then (if s.csr.mode.getLsbD 1 then .lba48 else .lba28) else .chs) ∧
    s.capacity =
      (if s.csr.mode.getLsbD 0 then s.csr.totalLba.toNat
        else s.csr.geomCyl.toNat * s.csr.geomHeads.toNat * s.csr.geomSpt.toNat) ∧
    AddrMode.chs.maxPerCmd = 256 ∧ AddrMode.lba28.maxPerCmd = 256 ∧ AddrMode.lba48.maxPerCmd = 65536 ∧
    (s.valid dir = true ↔
      ¬(dir = .write ∧ s.csr.mode.getLsbD 2 = true) ∧ 1 ≤ s.sectors ∧ s.sectors ≤ 0x003FFFFF ∧
      s.lba + s.sectors ≤ s.capacity ∧
      (s.addrMode = .lba28 → s.lba + s.sectors ≤ 2 ^ 28) ∧ (s.addrMode = .lba48 → s.lba + s.sectors ≤ 2 ^ 48) ∧
      (s.addrMode = .chs → s.csr.geomHeads.toNat ≤ 16))

/-- R172: a transfer that is not valid finishes with OutOfRange before any bus cycle, invalidate pulse or BUF access. R136, R244:
no transfer is valid with no heads or no sectors per track in CHS mode, nor from the registers a reset leaves. -/
def Obligations.InvalidTransferRejected : Prop :=
  (∀ s : State, s.undisturbed = true →
    (s.valid .read = false →
      ∃ t, exec .read s = .next t ∧ Finished (BitVec.ofInt 32 (-1)) 0 [] s t ∧
        t.csr.kernel = { s.csr.kernel with result := BitVec.ofInt 32 (-1) } ∧ t.mem = s.mem) ∧
    (s.valid .write = false →
      ∃ t, exec .write s = .next t ∧ Finished (BitVec.ofInt 32 (-1)) 0 [] s t ∧
        t.csr.kernel = { s.csr.kernel with result := BitVec.ofInt 32 (-1) } ∧ t.mem = s.mem)) ∧
  (∀ (s : State) (dir : Dir), s.addrMode = .chs → s.csr.geomSpt = 0 ∨ s.csr.geomHeads = 0 →
    s.capacity = 0 ∧ s.valid dir = false) ∧
  ∀ (s : State) (dir : Dir) (w : Word),
    (State.reset.accept w).valid dir = false ∧ (s.blockReset.accept w).valid dir = false

/-- R177, R178, R72: the data phase of one sector: 256 words, each IdeRead followed by its MemWrite, or each MemRead followed
by its IdeWrite, at increasing addresses. -/
def Obligations.SectorDataOrder : Prop :=
  ∀ (s : State) (a : Nat), s.busy = true → s.undisturbed = true → s.memoryAnswers = true → s.raced = [] →
    (∃ t, sectorData .read a s = .ok () t ∧
      t.engineEvents =
        ((List.range 256).flatMap fun w =>
          [Event.ideRead 0 .word (s.upcoming w), .bufWrite ((a + 2 * w) % s.bufSize) (s.upcoming w)]).reverse ++
            s.engineEvents ∧
      t.mem = s.mem.writeHalves s.bufSize a ((List.range 256).map s.upcoming)) ∧
    (∃ t, sectorData .write a s = .ok () t ∧
      t.engineEvents =
        ((List.range 256).flatMap fun w =>
          [Event.bufRead ((a + 2 * w) % s.bufSize) (s.mem.readHalf s.bufSize (a + 2 * w)),
            .ideWrite 0 .word (s.mem.readHalf s.bufSize (a + 2 * w))]).reverse ++ s.engineEvents ∧
      t.mem = s.mem)

/-- R170, R174, R179, R181, R183, R184: READ, against every Device. The outcome, the device values read and the words kept are
those of the chunk loop and the final wait. The words kept are all those read from register 0 with WORD timing (R102, R177),
and BUF changes by them alone, at ARG_BUF on, in whole sectors; on success by all `count` sectors, RESULT is count * 512 and
the commands of all chunks were sent, in order. -/
def Obligations.ReadResult : Prop :=
  ∀ s : State, s.undisturbed = true → s.memoryAnswers = true → s.valid .read = true →
    ∃ t es m, exec .read s = .next t ∧
      Finished (s.transferReply .read).code (s.transferReply .read).used es s t ∧
      m ≤ s.sectors ∧ (s.transferReply .read).words.length = 256 * m ∧
      es.filterMap Event.receivedWord = (s.transferReply .read).words.reverse ∧
      t.mem = s.mem.writeHalves s.bufSize s.bufAddr (s.transferReply .read).words ∧
      (es.filterMap Event.taskWrite).reverse <+: s.chunkWrites .read s.sectors s.sectors s.lba ∧
      ((s.transferReply .read).code = BitVec.ofNat 32 (s.sectors * 512) → m = s.sectors ∧
        (es.filterMap Event.taskWrite).reverse = s.chunkWrites .read s.sectors s.sectors s.lba) ∧
      ((s.transferReply .read).code = BitVec.ofNat 32 (s.sectors * 512) ∨
        (s.transferReply .read).code = BitVec.ofInt 32 (-2) ∨ (s.transferReply .read).code = BitVec.ofInt 32 (-3)) ∧
      t.csr.kernel =
        { s.csr.kernel with
          result := (s.transferReply .read).code
          lastStatus := statusFrom s.csr.lastStatus es }

/-- R185: after a READ, aborted or not, BUF holds the words of the whole sectors completed, and every byte outside them is
unchanged. -/
def Obligations.BufferAfterRead : Prop :=
  ∀ s t : State, s.undisturbed = true → s.memoryAnswers = true → s.mem.wf = true → s.params.wf →
    exec .read s = .next t →
      ∃ m, (s.transferReply .read).words.length = 256 * m ∧ m ≤ s.sectors ∧
        (512 * m ≤ s.bufSize → ∀ (j : Nat) (hj : j < (s.transferReply .read).words.length),
          t.mem.read ((s.bufAddr + 2 * j) % s.bufSize) = ((s.transferReply .read).words[j]).extractLsb' 0 8 ∧
          t.mem.read ((s.bufAddr + 2 * j + 1) % s.bufSize) = ((s.transferReply .read).words[j]).extractLsb' 8 8) ∧
        ∀ a, (∀ j, j < 512 * m → a ≠ (s.bufAddr + j) % s.bufSize) → t.mem.read a = s.mem.read a

/-- R170, R174, R180 to R184: WRITE, against every Device. The invalidate pulse comes before everything else; the words sent are
those of BUF at ARG_BUF on, in whole sectors, all `count` of them on success; BUF is unchanged; the commands are those of the
chunks, and last one FLUSH CACHE (EXT) exactly where every chunk was done and all POLL_BUDGET_FINAL polls after it read
BSY = 1. -/
def Obligations.WriteResult : Prop :=
  ∀ s : State, s.undisturbed = true → s.memoryAnswers = true → s.valid .write = true →
    ∃ t es m, exec .write s = .next t ∧
      Finished (s.transferReply .write).code (s.transferReply .write).used
        (es ++ [.invalidate s.csr.argLba s.csr.argCount]) s t ∧
      m ≤ s.sectors ∧ (s.transferReply .write).words = s.mem.readHalves s.bufSize s.bufAddr (256 * m) ∧
      es.filterMap Event.sentWord = (s.transferReply .write).words.reverse ∧ t.mem = s.mem ∧
      ((s.chunksReply .write).code ≠ 0 →
        (s.transferReply .write).code = (s.chunksReply .write).code ∧
        (es.filterMap Event.taskWrite).reverse <+: s.chunkWrites .write s.sectors s.sectors s.lba) ∧
      ((s.chunksReply .write).code = 0 → m = s.sectors ∧
        (es.filterMap Event.taskWrite).reverse =
          s.chunkWrites .write s.sectors s.sectors s.lba ++
            (if ∀ j, j < s.params.budgetFinal → bsy (s.upcoming ((s.chunksReply .write).used + j)).lo = true then s.flushSeq
              else [])) ∧
      ((s.transferReply .write).code = BitVec.ofNat 32 (s.sectors * 512) → (s.chunksReply .write).code = 0) ∧
      ((s.transferReply .write).code = BitVec.ofNat 32 (s.sectors * 512) ∨
        (s.transferReply .write).code = BitVec.ofInt 32 (-2) ∨ (s.transferReply .write).code = BitVec.ofInt 32 (-3)) ∧
      t.csr.kernel =
        { s.csr.kernel with
          result := (s.transferReply .write).code
          lastStatus := statusFrom s.csr.lastStatus es }

/-- R143, R145 to R147, R179, R180, R211: with a Device whose every answer shows BSY = 0, DRQ = 1 and ERR = 0, every operation
that uses one finishes with its success value. -/
def Obligations.ReadyDeviceSucceeds : Prop :=
  ∀ s : State, s.undisturbed = true → s.memoryAnswers = true → s.params.wf →
    (∀ v ∈ s.device, v.getLsbD 7 = false ∧ v.getLsbD 3 = true ∧ v.getLsbD 0 = false) →
    258 * s.sectors + 258 ≤ s.device.length →
    (∃ t, exec .identify s = .next t ∧ t.csr.done = true ∧ t.csr.result = 0 ∧ t.csr.idValid = true) ∧
    (∀ heads spt : Byte, heads ≠ 0 → heads.toNat ≤ 16 → spt ≠ 0 →
      ∃ t, exec (.setgeom heads spt) s = .next t ∧ t.csr.done = true ∧ t.csr.result = 0 ∧ t.csr.geomHeads = heads ∧
        t.csr.geomSpt = spt) ∧
    (∃ t, exec .flushDev s = .next t ∧ t.csr.done = true ∧ t.csr.result = 0) ∧
    (∃ t, exec .reset s = .next t ∧ t.csr.done = true ∧ t.csr.result = 0) ∧
    (s.valid .read = true →
      ∃ t, exec .read s = .next t ∧ t.csr.done = true ∧ t.csr.result = BitVec.ofNat 32 (s.sectors * 512)) ∧
    (s.valid .write = true →
      ∃ t, exec .write s = .next t ∧ t.csr.done = true ∧ t.csr.result = BitVec.ofNat 32 (s.sectors * 512))

/-- R181, R182: after all sectors: BSY = 0 within POLL_BUDGET_FINAL polls leads to the ERR check; a spent budget is a Timeout of
a READ, and of a WRITE only if the polls of the recovery run out too; the ERR check follows a recovery that succeeds. -/
def Obligations.FinalWaitOutcome : Prop :=
  ∀ (s : State) (dir : Dir) (ws : List Half) (k j : Nat),
    (j < s.params.budgetFinal → (∀ i, i < j → bsy (s.upcoming (k + i)).lo = true) → bsy (s.upcoming (k + j)).lo = false →
      s.replyFinal dir ws k = replyChecked s.transferResult ws (s.upcoming (k + j)).lo (k + j + 1)) ∧
    ((∀ i, i < s.params.budgetFinal → bsy (s.upcoming (k + i)).lo = true) →
      s.replyFinal .read ws k = Reply.failed .timeout (k + s.params.budgetFinal) ws ∧
      (j < s.params.budgetRecover →
        (∀ i, i < j → bsy (s.upcoming (k + s.params.budgetFinal + i)).lo = true) →
        bsy (s.upcoming (k + s.params.budgetFinal + j)).lo = false →
        s.replyFinal .write ws k =
          replyChecked s.transferResult ws (s.upcoming (k + s.params.budgetFinal + j)).lo
            (k + s.params.budgetFinal + j + 1)) ∧
      ((∀ i, i < s.params.budgetRecover → bsy (s.upcoming (k + s.params.budgetFinal + i)).lo = true) →
        s.replyFinal .write ws k =
          Reply.failed .timeout (k + s.params.budgetFinal + s.params.budgetRecover) ws))

/-- R174: a transfer takes ceil(count / maxPerCmd) commands, each full but possibly the last. -/
def Obligations.ChunkCount : Prop :=
  ∀ (s : State) (dir : Dir),
    (s.chunkWrites dir s.sectors s.sectors s.lba).countP (fun p => decide (p.1 = 7)) =
      (s.sectors + s.addrMode.maxPerCmd - 1) / s.addrMode.maxPerCmd

/-- R187: a READ or WRITE makes at most the bounded number of IDE bus cycles. -/
def Obligations.TransferBusBound : Prop :=
  ∀ (s t : State) (dir : Dir), s.undisturbed = true → s.memoryAnswers = true →
    exec (if dir = .read then .read else .write) s = .next t →
      t.busy = false ∧ t.busCycles ≤ s.busCycles + s.cycleBound dir

/-- R183: the success value of a transfer is count * 512 exactly, and positive. -/
def Obligations.SuccessValuePositive : Prop :=
  ∀ (s : State) (dir : Dir), s.valid dir = true →
    s.transferResult.toInt = s.sectors * 512 ∧ 0 < s.transferResult.toInt ∧ s.transferResult.toNat ≤ 0x7FFFFE00

/-- R186, R36: the invalidate output is valid in exactly one clock cycle of a valid WRITE, with the range of the transfer, and in
none of any other operation. -/
def Obligations.InvalidateOnce : Prop :=
  ∀ (i : Instr) (s t : State), s.noReset = true → s.inv = none → exec i s = .next t →
    t.inv = none ∧
    t.wave.filterMap (fun p => p.inv) =
      (if i = .write ∧ s.valid .write = true then [{ lba := s.csr.argLba, count := s.csr.argCount }] else []) ++
        s.wave.filterMap fun p => p.inv
end

