-- ==== Sys2Proof/Laws/State.lean ====
section
/-! SUPPORT. One lemma per field per update of State: true by unfolding once, so that no later proof unfolds a record update. -/

namespace Sys2Proof.Machine

/-! ## `record` -/

@[simp] theorem State.record_params (s : State) (e : Event) : (s.record e).params = s.params := rfl
@[simp] theorem State.record_csr (s : State) (e : Event) : (s.record e).csr = s.csr := rfl
@[simp] theorem State.record_eng (s : State) (e : Event) : (s.record e).eng = s.eng := rfl
@[simp] theorem State.record_ide (s : State) (e : Event) : (s.record e).ide = s.ide := rfl
@[simp] theorem State.record_inv (s : State) (e : Event) : (s.record e).inv = s.inv := rfl
@[simp] theorem State.record_buf (s : State) (e : Event) : (s.record e).buf = s.buf := rfl
@[simp] theorem State.record_mem (s : State) (e : Event) : (s.record e).mem = s.mem := rfl
@[simp] theorem State.record_raced (s : State) (e : Event) : (s.record e).raced = s.raced := rfl
@[simp] theorem State.record_bufAnswers (s : State) (e : Event) : (s.record e).bufAnswers = s.bufAnswers := rfl
@[simp] theorem State.record_device (s : State) (e : Event) : (s.record e).device = s.device := rfl
@[simp] theorem State.record_deviceDraws (s : State) (e : Event) : (s.record e).deviceDraws = s.deviceDraws := rfl
@[simp] theorem State.record_inputs (s : State) (e : Event) : (s.record e).inputs = s.inputs := rfl
@[simp] theorem State.record_freeDraws (s : State) (e : Event) : (s.record e).freeDraws = s.freeDraws := rfl
@[simp] theorem State.record_trace (s : State) (e : Event) : (s.record e).trace = e :: s.trace := rfl
@[simp] theorem State.record_wave (s : State) (e : Event) : (s.record e).wave = s.wave := rfl
@[simp] theorem State.record_cycle (s : State) (e : Event) : (s.record e).cycle = s.cycle := rfl
@[simp] theorem State.record_busy (s : State) (e : Event) : (s.record e).busy = s.busy := rfl

/-! ## `endCycle` -/

@[simp] theorem State.endCycle_params (s : State) : (s.endCycle).params = s.params := rfl
@[simp] theorem State.endCycle_csr (s : State) : (s.endCycle).csr = s.csr := rfl
@[simp] theorem State.endCycle_eng (s : State) : (s.endCycle).eng = s.eng := rfl
@[simp] theorem State.endCycle_ide (s : State) : (s.endCycle).ide = s.ide := rfl
@[simp] theorem State.endCycle_inv (s : State) : (s.endCycle).inv = s.inv := rfl
@[simp] theorem State.endCycle_buf (s : State) : (s.endCycle).buf = s.buf := rfl
@[simp] theorem State.endCycle_mem (s : State) : (s.endCycle).mem = s.mem := rfl
@[simp] theorem State.endCycle_raced (s : State) : (s.endCycle).raced = s.raced := rfl
@[simp] theorem State.endCycle_bufAnswers (s : State) : (s.endCycle).bufAnswers = s.bufAnswers := rfl
@[simp] theorem State.endCycle_device (s : State) : (s.endCycle).device = s.device := rfl
@[simp] theorem State.endCycle_deviceDraws (s : State) : (s.endCycle).deviceDraws = s.deviceDraws := rfl
@[simp] theorem State.endCycle_inputs (s : State) : (s.endCycle).inputs = s.inputs := rfl
@[simp] theorem State.endCycle_freeDraws (s : State) : (s.endCycle).freeDraws = s.freeDraws := rfl
@[simp] theorem State.endCycle_trace (s : State) : (s.endCycle).trace = s.trace := rfl
@[simp] theorem State.endCycle_wave (s : State) : (s.endCycle).wave = s.sample :: s.wave := rfl
@[simp] theorem State.endCycle_cycle (s : State) : (s.endCycle).cycle = s.cycle + 1 := rfl
@[simp] theorem State.endCycle_busy (s : State) : s.endCycle.busy = s.busy := rfl

/-! ## `accept` -/

@[simp] theorem State.accept_params (s : State) (w : Word) : (s.accept w).params = s.params := rfl
@[simp] theorem State.accept_csr (s : State) (w : Word) : (s.accept w).csr = { s.csr with done := false, cmd := w } := rfl
@[simp] theorem State.accept_eng (s : State) (w : Word) : (s.accept w).eng = 
    { s.eng with phase := .executing, op := decodedOp w, step := some .entry } := rfl
@[simp] theorem State.accept_ide (s : State) (w : Word) : (s.accept w).ide = s.ide := rfl
@[simp] theorem State.accept_inv (s : State) (w : Word) : (s.accept w).inv = s.inv := rfl
@[simp] theorem State.accept_buf (s : State) (w : Word) : (s.accept w).buf = s.buf := rfl
@[simp] theorem State.accept_mem (s : State) (w : Word) : (s.accept w).mem = s.mem := rfl
@[simp] theorem State.accept_raced (s : State) (w : Word) : (s.accept w).raced = [] := rfl
@[simp] theorem State.accept_bufAnswers (s : State) (w : Word) : (s.accept w).bufAnswers = s.bufAnswers := rfl
@[simp] theorem State.accept_device (s : State) (w : Word) : (s.accept w).device = s.device := rfl
@[simp] theorem State.accept_deviceDraws (s : State) (w : Word) : (s.accept w).deviceDraws = s.deviceDraws := rfl
@[simp] theorem State.accept_inputs (s : State) (w : Word) : (s.accept w).inputs = s.inputs := rfl
@[simp] theorem State.accept_freeDraws (s : State) (w : Word) : (s.accept w).freeDraws = s.freeDraws := rfl
@[simp] theorem State.accept_trace (s : State) (w : Word) : (s.accept w).trace = s.trace := rfl
@[simp] theorem State.accept_wave (s : State) (w : Word) : (s.accept w).wave = s.wave := rfl
@[simp] theorem State.accept_cycle (s : State) (w : Word) : (s.accept w).cycle = s.cycle := rfl
@[simp] theorem State.accept_busy (s : State) (w : Word) : (s.accept w).busy = true := rfl

/-! ## `blockReset` -/

@[simp] theorem State.blockReset_params (s : State) : (s.blockReset).params = s.params := rfl
@[simp] theorem State.blockReset_csr (s : State) : (s.blockReset).csr = Csrs.atReset s.freeDraws := rfl
@[simp] theorem State.blockReset_eng (s : State) : (s.blockReset).eng = Engine.idleAt s.freeDraws := rfl
@[simp] theorem State.blockReset_ide (s : State) : (s.blockReset).ide = IdePort.atReset := rfl
@[simp] theorem State.blockReset_inv (s : State) : (s.blockReset).inv = none := rfl
@[simp] theorem State.blockReset_buf (s : State) : (s.blockReset).buf = none := rfl
@[simp] theorem State.blockReset_mem (s : State) : (s.blockReset).mem = s.mem := rfl
@[simp] theorem State.blockReset_raced (s : State) : (s.blockReset).raced = [] := rfl
@[simp] theorem State.blockReset_bufAnswers (s : State) : (s.blockReset).bufAnswers = s.bufAnswers := rfl
@[simp] theorem State.blockReset_device (s : State) : (s.blockReset).device = s.device := rfl
@[simp] theorem State.blockReset_deviceDraws (s : State) : (s.blockReset).deviceDraws = s.deviceDraws := rfl
@[simp] theorem State.blockReset_inputs (s : State) : (s.blockReset).inputs = s.inputs := rfl
@[simp] theorem State.blockReset_freeDraws (s : State) : (s.blockReset).freeDraws = s.freeDraws + 1 := rfl
@[simp] theorem State.blockReset_trace (s : State) : (s.blockReset).trace = s.resetEvents ++ s.trace := rfl
@[simp] theorem State.blockReset_wave (s : State) : (s.blockReset).wave = s.wave := rfl
@[simp] theorem State.blockReset_cycle (s : State) : (s.blockReset).cycle = s.cycle := rfl
@[simp] theorem State.blockReset_busy (s : State) : s.blockReset.busy = false := rfl

@[simp] theorem Engine.idleAt_phase (k : Nat) : (Engine.idleAt k).phase = .idle := rfl
@[simp] theorem Engine.idleAt_op (k : Nat) : (Engine.idleAt k).op = none := rfl
@[simp] theorem Engine.idleAt_step (k : Nat) : (Engine.idleAt k).step = none := rfl
@[simp] theorem Csrs.atReset_done (k : Nat) : (Csrs.atReset k).done = false := rfl
@[simp] theorem Csrs.atReset_result (k : Nat) : (Csrs.atReset k).result = 0 := rfl
@[simp] theorem Csrs.atReset_lastStatus (k : Nat) : (Csrs.atReset k).lastStatus = 0 := rfl
@[simp] theorem Csrs.atReset_argBuf (k : Nat) : (Csrs.atReset k).argBuf = 0 := rfl

theorem State.busy_iff (s : State) : s.busy = true ↔ s.eng.phase = .executing := by simp [State.busy]

theorem State.busy_false_iff (s : State) : s.busy = false ↔ s.eng.phase = .idle := by
  cases h : s.eng.phase <;> simp [State.busy, h]

end Sys2Proof.Machine
end

