-- ==== Sys2Proof/Laws/Memory.lean ====
section
/-! SUPPORT. The laws of BUF: read after write, and the canonical form (20 R65, R66). -/

namespace Sys2Proof.Machine

@[simp] theorem Memory.read_nil (a : Nat) : Memory.read [] a = unlistedByte := rfl

/-- A smaller lower bound holds as well. -/
theorem Memory.wfFrom_mono {lo lo' : Nat} (h : lo' ≤ lo) : ∀ {m : Memory}, Memory.wfFrom lo m → Memory.wfFrom lo' m
  | [], _ => rfl
  | (k, b) :: rest, hm => by
    simp only [Memory.wfFrom, Bool.and_eq_true, decide_eq_true_eq] at hm ⊢
    exact ⟨⟨by omega, hm.1.2⟩, hm.2⟩

/-- Below the first key a well-formed memory lists nothing. -/
theorem Memory.read_of_lt : ∀ {m : Memory} {lo a : Nat}, Memory.wfFrom lo m → a < lo → m.read a = unlistedByte
  | [], _, _, _, _ => rfl
  | (k, b) :: rest, lo, a, hm, ha => by
    simp only [Memory.wfFrom, Bool.and_eq_true, decide_eq_true_eq] at hm
    have hne : a ≠ k := by omega
    simpa [Memory.read, hne] using Memory.read_of_lt hm.2 (by omega)

/-- Reading the written address gives the written byte; every other address reads as before. -/
theorem Memory.read_write : ∀ {m : Memory} {lo : Nat} (_ : Memory.wfFrom lo m) (a : Nat) (v : Byte) (x : Nat),
    (m.write a v).read x = if x = a then v else m.read x
  | [], _, _, a, v, x => by
    simp only [Memory.write]
    split <;> simp_all [Memory.read]
  | (k, b) :: rest, lo, hm, a, v, x => by
    simp only [Memory.wfFrom, Bool.and_eq_true, decide_eq_true_eq] at hm
    simp only [Memory.write]
    split
    · rename_i hlt
      have hlow : ∀ y, y < k → Memory.read ((k, b) :: rest) y = unlistedByte := fun y hy => by
        have hne : y ≠ k := by omega
        simpa [Memory.read, hne] using Memory.read_of_lt hm.2 (show y < k + 1 by omega)
      split
      · rename_i hv
        by_cases hx : x = a
        · subst hx; simp [hlow _ hlt, hv]
        · simp [hx]
      · by_cases hx : x = a <;> simp [Memory.read, hx]
    · split
      · rename_i hak
        subst hak
        split
        · rename_i hv
          by_cases hx : x = a
          · subst hx; simp [Memory.read_of_lt hm.2 (Nat.lt_succ_self x), hv]
          · simp [Memory.read, hx]
        · by_cases hx : x = a <;> simp [Memory.read, hx]
      · rename_i hge hne
        have ih := Memory.read_write hm.2 a v x
        by_cases hxk : x = k
        · have : x ≠ a := by omega
          simp [Memory.read, hxk, show k ≠ a by omega]
        · simp [Memory.read, hxk, ih]

/-- A write keeps the canonical form. -/
theorem Memory.wfFrom_write : ∀ {m : Memory} {lo : Nat} (_ : Memory.wfFrom lo m) (a : Nat) (v : Byte) (_ : lo ≤ a),
    Memory.wfFrom lo (m.write a v)
  | [], lo, _, a, v, ha => by
    simp only [Memory.write]
    split <;> simp_all [Memory.wfFrom]
  | (k, b) :: rest, lo, hm, a, v, ha => by
    have hm0 := hm
    simp only [Memory.wfFrom, Bool.and_eq_true, decide_eq_true_eq] at hm
    simp only [Memory.write]
    split
    · split
      · exact hm0
      · simp_all [Memory.wfFrom]
    · split
      · rename_i hak
        subst hak
        split
        · exact Memory.wfFrom_mono (by omega) hm.2
        · simp_all [Memory.wfFrom]
      · have ih := Memory.wfFrom_write hm.2 a v (by omega)
        simp_all [Memory.wfFrom]

theorem Memory.wf_write {m : Memory} (hm : m.wf = true) (a : Nat) (v : Byte) : (m.write a v).wf = true :=
  Memory.wfFrom_write hm a v (Nat.zero_le a)

theorem Memory.wf_read_write {m : Memory} (hm : m.wf = true) (a : Nat) (v : Byte) (x : Nat) :
    (m.write a v).read x = if x = a then v else m.read x := Memory.read_write hm a v x

/-- A write at an address below the bound keeps every key below it. -/
theorem Memory.below_write {bound a : Nat} (ha : a < bound) (v : Byte) :
    ∀ {m : Memory}, m.below bound = true → (m.write a v).below bound = true
  | [], _ => by
    simp only [Memory.write]
    split <;> simp [Memory.below, ha]
  | (k, b) :: rest, hm => by
    have hm' : k < bound ∧ Memory.below rest bound = true := by simpa [Memory.below] using hm
    have ih := Memory.below_write ha v hm'.2
    simp only [Memory.write]
    split
    · split
      · exact hm
      · simpa [Memory.below, ha] using hm'
    · split
      · split
        · exact hm'.2
        · simpa [Memory.below, ha] using hm'.2
      · simpa [Memory.below, hm'.1] using ih

theorem Memory.wf_writeHalf {m : Memory} (hm : m.wf = true) (size a : Nat) (v : Half) :
    (m.writeHalf size a v).wf = true := Memory.wf_write (Memory.wf_write hm _ _) _ _

theorem Memory.below_writeHalf {m : Memory} {size : Nat} (hs : 0 < size) (hm : m.below size = true) (a : Nat) (v : Half) :
    (m.writeHalf size a v).below size = true :=
  Memory.below_write (Nat.mod_lt _ hs) _ (Memory.below_write (Nat.mod_lt _ hs) _ hm)

theorem Memory.wf_writeHalves (size : Nat) : ∀ (ws : List Half) {m : Memory} (a : Nat), m.wf = true →
    (Memory.writeHalves size m a ws).wf = true
  | [], _, _, hm => hm
  | v :: ws, _, a, hm => Memory.wf_writeHalves size ws (a + 2) (Memory.wf_writeHalf hm size a v)

/-- Words written one after another: first some, then the rest behind them. -/
theorem Memory.writeHalves_append (size : Nat) : ∀ (ws ws' : List Half) (m : Memory) (a : Nat),
    Memory.writeHalves size m a (ws ++ ws') =
      Memory.writeHalves size (Memory.writeHalves size m a ws) (a + 2 * ws.length) ws'
  | [], _, _, _ => rfl
  | v :: ws, ws', m, a => by
    simp only [List.cons_append, Memory.writeHalves, List.length_cons]
    rw [Memory.writeHalves_append size ws ws']
    congr 1
    omega

/-- The two bytes of a word read back as the word. -/
theorem Half.hi_append_lo (v : Half) : v.hi ++ v.lo = v := by
  apply BitVec.eq_of_getLsbD_eq
  intro i hi
  simp only [Half.hi, Half.lo, BitVec.getLsbD_append, BitVec.getLsbD_extractLsb']
  by_cases h : i < 8
  · simp [h]
  · have h8 : i - 8 < 8 := by omega
    have h9 : 8 + (i - 8) = i := by omega
    simp [h, h8, h9]

end Sys2Proof.Machine
end

