-- ==== Sys2Proof/Laws/Clock.lean ====
section
/-! SUPPORT. What one clock cycle can do (10 R27, 20 R74, 70 R240): inversion of the inputs and of `tick`. -/

namespace Sys2Proof.Machine

/-! ## What a cycle without reset leaves alone while an operation runs -/

/-- What the outside can do to a running operation in a cycle without reset: STATUS and CTRL bits, BUF and its races, and
events that are not the engine's. Nothing else changes (10 R27). -/
structure Landed (s t : State) : Prop where
  params : t.params = s.params
  eng : t.eng = s.eng
  ide : t.ide = s.ide
  inv : t.inv = s.inv
  buf : t.buf = s.buf
  bufAnswers : t.bufAnswers = s.bufAnswers
  device : t.device = s.device
  deviceDraws : t.deviceDraws = s.deviceDraws
  kernel : t.csr.kernel = s.csr.kernel
  done : t.csr.done = true → s.csr.done = true
  events : ∃ es, t.trace = es ++ s.trace ∧ ∀ e ∈ es, e.byEngine = false
  inputs : t.inputs <:+ s.inputs

theorem Landed.refl (s : State) : Landed s s :=
  ⟨rfl, rfl, rfl, rfl, rfl, rfl, rfl, rfl, rfl, id, ⟨[], rfl, by simp⟩, List.suffix_rfl⟩

theorem Landed.trans {s t u : State} (h : Landed s t) (h' : Landed t u) : Landed s u where
  params := h'.params.trans h.params
  eng := h'.eng.trans h.eng
  ide := h'.ide.trans h.ide
  inv := h'.inv.trans h.inv
  buf := h'.buf.trans h.buf
  bufAnswers := h'.bufAnswers.trans h.bufAnswers
  device := h'.device.trans h.device
  deviceDraws := h'.deviceDraws.trans h.deviceDraws
  kernel := h'.kernel.trans h.kernel
  done := h.done ∘ h'.done
  events := by
    obtain ⟨es, he, hn⟩ := h.events
    obtain ⟨es', he', hn'⟩ := h'.events
    refine ⟨es' ++ es, by simp [he', he], fun e hm => ?_⟩
    exact (List.mem_append.mp hm).elim (hn' e) (hn e)
  inputs := h'.inputs.trans h.inputs

theorem Landed.busy {s t : State} (h : Landed s t) : t.busy = s.busy := by simp [State.busy, h.eng]

theorem Csrs.kernel_clearStatus (c : Csrs) (w : Word) : (c.clearStatus w).kernel = c.kernel := rfl

/-- A register write while BUSY = 1 changes STATUS and CTRL bits only (10 R23, R25, R27). -/
theorem State.writeCsr_busy {s : State} (hb : s.busy = true) (r : Csr) (w : Word) :
    ∃ c, s.writeCsr r w = { s with csr := c } ∧ c.kernel = s.csr.kernel ∧ (c.done = true → s.csr.done = true) := by
  by_cases hc : r.isConfig = true
  · exact ⟨{ s.csr with cfgDrop := true }, by cases r <;> simp_all [State.writeCsr, Csr.isConfig], rfl, id⟩
  · cases r with
    | cmd => exact ⟨{ s.csr with cmdOvr := true }, by simp [State.writeCsr, hb], rfl, id⟩
    | status =>
      refine ⟨s.csr.clearStatus w, rfl, rfl, fun h => ?_⟩
      simp only [Csrs.clearStatus, Bool.and_eq_true] at h
      exact h.1
    | ctrl => exact ⟨{ s.csr with ie := w.getLsbD 0 }, rfl, rfl, id⟩
    | result | lastStatus | idStatus => exact ⟨s.csr, rfl, rfl, id⟩
    | _ => exact absurd rfl hc

theorem Landed.of_csr_event {s t : State} {c : Csrs} {e : Event} (ht : t = ({ s with csr := c } : State).record e)
    (hk : c.kernel = s.csr.kernel) (hd : c.done = true → s.csr.done = true) (he : e.byEngine = false) : Landed s t := by
  subst ht
  exact ⟨rfl, rfl, rfl, rfl, rfl, rfl, rfl, rfl, hk, hd, ⟨[e], rfl, by simpa using he⟩, List.suffix_rfl⟩

theorem State.hostAccess_landed {s : State} (hb : s.busy = true) (a : CsrAccess) : Landed s (s.hostAccess a) := by
  cases a with
  | read off => exact Landed.of_csr_event (c := s.csr) rfl rfl id rfl
  | write off w =>
    simp only [State.hostAccess, State.writeOffset]
    split
    · obtain ⟨c, hc, hk, hd⟩ := State.writeCsr_busy hb ‹Csr› w
      rw [hc]
      exact Landed.of_csr_event rfl hk hd rfl
    · exact Landed.of_csr_event (c := s.csr) rfl rfl id rfl

theorem State.hostPort_landed {s : State} (hb : s.busy = true) (a : Option CsrAccess) : Landed s (s.hostPort a) := by
  cases a with
  | none => exact Landed.refl s
  | some a => exact State.hostAccess_landed hb a

theorem State.agentAccess_landed (s : State) (a : AgentAccess) : Landed s (s.agentAccess a) := by
  cases a with
  | read a =>
    simp only [State.agentAccess]
    split <;>
      exact ⟨rfl, rfl, rfl, rfl, rfl, rfl, rfl, rfl, rfl, id, ⟨[_], rfl, by simp [Event.byEngine]⟩, List.suffix_rfl⟩
  | write a b =>
    exact ⟨rfl, rfl, rfl, rfl, rfl, rfl, rfl, rfl, rfl, id, ⟨[_], rfl, by simp [Event.byEngine]⟩, List.suffix_rfl⟩

theorem State.agentPort_landed : ∀ (l : List AgentAccess) (s : State), Landed s (s.agentPort l)
  | [], s => Landed.refl s
  | a :: l, s => (State.agentAccess_landed s a).trans (State.agentPort_landed l (s.agentAccess a))

theorem Landed.of_inputs {s t : State} {l : List Input} (hl : l <:+ s.inputs)
    (h : Landed { s with inputs := l } t) : Landed s t :=
  ⟨h.params, h.eng, h.ide, h.inv, h.buf, h.bufAnswers, h.device, h.deviceDraws, h.kernel, h.done, h.events,
    h.inputs.trans hl⟩

theorem State.noReset_of_suffix {s t : State} (h : t.inputs <:+ s.inputs) (hr : s.noReset = true) : t.noReset = true := by
  obtain ⟨l, hl⟩ := h
  simp only [State.noReset, ← hl, List.all_append, Bool.and_eq_true] at hr ⊢
  exact hr.2

theorem State.quiet_of_suffix {s t : State} (h : t.inputs <:+ s.inputs) (hr : s.quiet = true) :
    t.quiet = true := by
  obtain ⟨l, hl⟩ := h
  simp only [State.quiet, ← hl, List.all_append, Bool.and_eq_true] at hr ⊢
  exact hr.2

theorem State.noReset_of_quiet {s : State} (h : s.quiet = true) : s.noReset = true := by
  simp only [State.quiet, State.noReset, List.all_eq_true] at h ⊢
  intro i hi
  have := h i hi
  cases i <;> simp_all

/-- The inputs of a cycle without reset, while an operation runs. -/
theorem State.applyInputs_landed {s : State} (hb : s.busy = true) (hr : s.noReset = true) :
    Landed s s.applyInputs := by
  unfold State.applyInputs
  split
  · exact Landed.refl s
  · rename_i p rest hin
    have hp : p.rst = false := by
      have := hr
      simp only [State.noReset, hin, List.all_cons, Bool.and_eq_true, Bool.not_eq_true'] at this
      exact this.1
    refine Landed.of_inputs (l := rest) (by rw [hin]; exact List.suffix_cons _ _) ?_
    simp only [State.applyPins, hp, Bool.false_eq_true, if_false]
    exact (State.hostPort_landed (by exact hb) p.csr).trans (State.agentPort_landed _ _)
  · rename_i a rest hin
    exact Landed.of_inputs (l := rest) (by rw [hin]; exact List.suffix_cons _ _)
      (State.hostPort_landed (by exact hb) _)
  · rename_i rest hin
    split
    · refine Landed.of_inputs (l := rest) (by rw [hin]; exact List.suffix_cons _ _) ?_
      exact State.hostAccess_landed (by exact hb) _
    · exact State.hostAccess_landed hb _

/-- One clock cycle without reset, while an operation runs. -/
theorem State.tick_landed {s : State} (hb : s.busy = true) (hr : s.noReset = true) : Landed s s.tick := by
  have h := State.applyInputs_landed hb hr
  exact ⟨h.params, h.eng, h.ide, h.inv, h.buf, h.bufAnswers, h.device, h.deviceDraws, h.kernel, h.done, h.events,
    h.inputs⟩

/-- With no other agent at BUF, the memory and the free values stay as well. -/
theorem State.applyInputs_mem {s : State} (hu : s.quiet = true) (hb : s.busy = true) :
    s.applyInputs.mem = s.mem ∧ s.applyInputs.raced = s.raced ∧ s.applyInputs.freeDraws = s.freeDraws := by
  have key : ∀ (s : State) (a : Option CsrAccess), s.busy = true →
      (s.hostPort a).mem = s.mem ∧ (s.hostPort a).raced = s.raced ∧ (s.hostPort a).freeDraws = s.freeDraws := by
    intro s a hb
    cases a with
    | none => exact ⟨rfl, rfl, rfl⟩
    | some a =>
      cases a with
      | read off => exact ⟨rfl, rfl, rfl⟩
      | write off w =>
        simp only [State.hostPort, State.hostAccess, State.writeOffset]
        split
        · obtain ⟨c, hc, -, -⟩ := State.writeCsr_busy hb ‹Csr› w
          simp [hc]
        · exact ⟨rfl, rfl, rfl⟩
  unfold State.applyInputs
  split
  · exact ⟨rfl, rfl, rfl⟩
  · rename_i p rest hin
    have := hu
    simp only [State.quiet, hin, List.all_cons, Bool.and_eq_true, Bool.not_eq_true', List.isEmpty_iff] at this
    simp only [State.applyPins, this.1.1, this.1.2, Bool.false_eq_true, if_false, State.agentPort, List.foldl_nil]
    exact key { s with inputs := rest } p.csr hb
  · exact key _ _ hb
  · split <;> exact ⟨rfl, rfl, rfl⟩

/-! ## Properties that every cycle keeps -/

/-- A property of states that everything the outside does in a cycle keeps. -/
structure TickClosed (P : State → Prop) : Prop where
  inputs : ∀ s l, P s → P { s with inputs := l }
  host : ∀ s a, P s → P (s.hostAccess a)
  hostInReset : ∀ s a, P s → P (s.hostAccessInReset a)
  agent : ∀ s a, P s → P (s.agentAccess a)
  reset : ∀ s, P s → P s.blockReset
  endCycle : ∀ s, P s → P s.endCycle

theorem TickClosed.agentPort {P : State → Prop} (h : TickClosed P) : ∀ (l : List AgentAccess) (s : State),
    P s → P (s.agentPort l)
  | [], _, hs => hs
  | a :: l, s, hs => h.agentPort l (s.agentAccess a) (h.agent s a hs)

theorem TickClosed.applyInputs {P : State → Prop} (h : TickClosed P) {s : State} (hs : P s) : P s.applyInputs := by
  unfold State.applyInputs
  split
  · exact hs
  · rename_i p rest _
    have h0 := h.inputs s rest hs
    simp only [State.applyPins]
    split
    · refine h.agentPort _ _ ?_
      cases hc : p.csr with
      | none => exact h.reset _ h0
      | some a => exact h.hostInReset _ a (h.reset _ h0)
    · refine h.agentPort _ _ ?_
      cases hc : p.csr with
      | none => exact h0
      | some a => exact h.host _ a h0
  · rename_i a rest _
    have h0 := h.inputs s rest hs
    cases hc : s.select a with
    | none => exact h0
    | some a => exact h.host _ a h0
  · split
    · exact h.host _ _ (h.inputs s _ hs)
    · exact h.host _ _ hs

theorem TickClosed.tick {P : State → Prop} (h : TickClosed P) {s : State} (hs : P s) : P s.tick :=
  h.endCycle _ (h.applyInputs hs)

theorem State.writeCsr_params (s : State) (r : Csr) (w : Word) : (s.writeCsr r w).params = s.params := by
  cases hb : s.busy <;> cases r <;> simp [State.writeCsr, State.accept, hb]

/-- No clock cycle changes the parameters, a reset neither (00 R10). -/
theorem params_tickClosed (p : Params) : TickClosed fun s => s.params = p where
  inputs := fun _ _ h => h
  host := fun s a h => by
    cases a with
    | read off => exact h
    | write off w =>
      rw [← h]
      show (s.writeOffset off w).params = s.params
      unfold State.writeOffset
      split
      · exact State.writeCsr_params _ _ _
      · rfl
  hostInReset := fun s a h => by cases a <;> exact h
  agent := fun s a h => (State.agentAccess_landed s a).params.trans h
  reset := fun _ h => h
  endCycle := fun _ h => h

theorem State.tick_params (s : State) : s.tick.params = s.params := (params_tickClosed s.params).tick rfl

/-! ## Where a running operation is abandoned -/

/-- Just after a block reset (10 R42): what the abandoned operation leaves (70 R240). -/
structure AfterReset (t : State) : Prop where
  eng : ∃ k, t.eng = Engine.idleAt k
  csr : ∃ k, t.csr = Csrs.atReset k
  ide : t.ide = IdePort.atReset
  inv : t.inv = none
  buf : t.buf = none
  status : statusAfter t.trace = 0
  outcome : resultAfter t.trace = 0

/-- Events that are not the engine's say nothing about LAST_STATUS and RESULT. -/
theorem statusAfter_append {es : List Event} (h : ∀ e ∈ es, e.byEngine = false) (l : List Event) :
    statusAfter (es ++ l) = statusAfter l ∧ resultAfter (es ++ l) = resultAfter l := by
  induction es with
  | nil => exact ⟨rfl, rfl⟩
  | cons e es ih =>
    have he := h e (by simp)
    have := ih fun e' he' => h e' (by simp [he'])
    cases e <;> first | exact this | exact absurd he (by simp [Event.byEngine])

theorem AfterReset.busy {t : State} (h : AfterReset t) : t.busy = false := by
  obtain ⟨k, hk⟩ := h.eng
  simp [State.busy, hk]

theorem AfterReset.agentPort : ∀ (l : List AgentAccess) {t : State}, AfterReset t → AfterReset (t.agentPort l)
  | [], _, h => h
  | a :: l, t, h => by
    have hl := State.agentAccess_landed t a
    refine AfterReset.agentPort l (t := t.agentAccess a) ⟨?_, ?_, by rw [hl.ide, h.ide], by rw [hl.inv, h.inv],
      by rw [hl.buf, h.buf], ?_, ?_⟩
    · rw [hl.eng]; exact h.eng
    rotate_left
    · obtain ⟨es, he, hn⟩ := hl.events
      rw [he, (statusAfter_append hn _).1, h.status]
    · obtain ⟨es, he, hn⟩ := hl.events
      rw [he, (statusAfter_append hn _).2, h.outcome]
    · have : (t.agentAccess a).csr = t.csr := by
        cases a with
        | read a => simp only [State.agentAccess]; split <;> rfl
        | write a b => rfl
      rw [this]; exact h.csr

/-- The inputs of a cycle either land on the running operation, or `rst_n` is 0 and the operation is abandoned. -/
theorem State.applyInputs_cases {s : State} (hb : s.busy = true) :
    Landed s s.applyInputs ∨ AfterReset s.applyInputs := by
  unfold State.applyInputs
  split
  · exact .inl (Landed.refl s)
  · rename_i p rest hin
    have hsuf : rest <:+ s.inputs := by rw [hin]; exact List.suffix_cons _ _
    simp only [State.applyPins]
    split
    · right
      refine AfterReset.agentPort _ ?_
      have h0 : AfterReset ({ s with inputs := rest } : State).blockReset := by
        refine ⟨⟨_, rfl⟩, ⟨_, rfl⟩, rfl, rfl, rfl, ?_, ?_⟩ <;>
          (simp only [State.blockReset_trace, State.resetEvents]; split <;> rfl)
      cases hc : p.csr with
      | none => exact h0
      | some a => cases a <;> exact ⟨h0.eng, h0.csr, h0.ide, h0.inv, h0.buf, h0.status, h0.outcome⟩
    · left
      refine Landed.of_inputs hsuf ?_
      exact (State.hostPort_landed (by exact hb) p.csr).trans (State.agentPort_landed _ _)
  · rename_i a rest hin
    exact .inl (Landed.of_inputs (l := rest) (by rw [hin]; exact List.suffix_cons _ _)
      (State.hostPort_landed (by exact hb) _))
  · rename_i rest hin
    left
    split
    · exact Landed.of_inputs (l := rest) (by rw [hin]; exact List.suffix_cons _ _)
        (State.hostAccess_landed (by exact hb) _)
    · exact State.hostAccess_landed hb _

/-- One cycle of a running operation. -/
theorem State.tick_cases {s : State} (hb : s.busy = true) : Landed s s.tick ∨ AfterReset s.tick := by
  rcases State.applyInputs_cases hb with h | h
  · exact .inl ⟨h.params, h.eng, h.ide, h.inv, h.buf, h.bufAnswers, h.device, h.deviceDraws, h.kernel, h.done, h.events,
      h.inputs⟩
  · exact .inr ⟨h.eng, h.csr, h.ide, h.inv, h.buf, h.status, h.outcome⟩

end Sys2Proof.Machine
end

