-- ==== Sys2Proof/Laws/Calm.lean ====
section
/-! SUPPORT. One lemma per shared operation: what it does while the operation runs undisturbed (no reset, no other agent at
BUF; the host's CSR accesses are free). Each says where the pseudocode goes on and what it has done by then: device values
read, engine events made, memory written by those events, and everything else as before. -/

namespace Sys2Proof.Machine

/-! ## Running pseudocode -/

theorem bind_ok {α β : Type} {x : EngineM α} {f : α → EngineM β} {s t : State} {a : α} (h : x s = .ok a t) :
    (x >>= f) s = f a t := by simp [bind, EStateM.bind, h]

theorem bind_error {α β : Type} {x : EngineM α} {f : α → EngineM β} {s t : State} {e : Exit} (h : x s = .error e t) :
    (x >>= f) s = .error e t := by simp [bind, EStateM.bind, h]

@[simp] theorem pure_run {α : Type} (a : α) (s : State) : (pure a : EngineM α) s = .ok a s := rfl
@[simp] theorem raise_run {α : Type} (e : Err) (s : State) : (raise e : EngineM α) s = .error (.raised e) s := rfl
@[simp] theorem get_run (s : State) : (get : EngineM State) s = .ok s s := rfl
@[simp] theorem modify_run (f : State → State) (s : State) : (modify f : EngineM Unit) s = .ok () (f s) := rfl
@[simp] theorem setEngine_run (f : Engine → Engine) (s : State) :
    setEngine f s = .ok () { s with eng := f s.eng } := rfl
@[simp] theorem setCsr_run (f : Csrs → Csrs) (s : State) : setCsr f s = .ok () { s with csr := f s.csr } := rfl
@[simp] theorem setIde_run (f : IdePort → IdePort) (s : State) : setIde f s = .ok () { s with ide := f s.ide } := rfl
@[simp] theorem note_run (e : Event) (s : State) : note e s = .ok () (s.record e) := rfl
@[simp] theorem goto_run (p : Pos) (s : State) :
    goto p s = .ok () { s with eng := { s.eng with step := some p } } := rfl
@[simp] theorem cycleTimes_run (k : Kind) (s : State) :
    cycleTimes k s = .ok (s.params.times k s.csr.compat) s := rfl

/-- `get`, then the rest at the state got. -/
theorem get_bind {β : Type} (f : State → EngineM β) (s : State) : (get >>= f) s = f s s := rfl

/-- The memory after the engine's BUF writes among the events, newest first. -/
def memAfter (size : Nat) : List Event → Memory → Memory
  | [], m => m
  | .bufWrite a v :: es, m => (memAfter size es m).writeHalf size a v
  | _ :: es, m => memAfter size es m

theorem memAfter_append (size : Nat) : ∀ (es es' : List Event) (m : Memory),
    memAfter size (es ++ es') m = memAfter size es (memAfter size es' m)
  | [], _, _ => rfl
  | e :: es, es', m => by cases e <;> simp [memAfter, memAfter_append size es es' m]

/-- The loop registers of R34 that the transfer engine reads back. -/
def Engine.loop (e : Engine) : Nat × Nat × Nat × Nat × Nat := (e.remaining, e.cur, e.chunkDone, e.n, e.sector)

/-- An operation runs, and neither a reset nor another BUF agent is to come. -/
def State.calm (s : State) : Prop := s.busy = true ∧ s.quiet = true

theorem statusFrom_append (b : Byte) : ∀ (es es' : List Event),
    statusFrom b (es ++ es') = statusFrom (statusFrom b es') es
  | [], _ => rfl
  | e :: es, es' => by cases e <;> simp [statusFrom, statusFrom_append b es es']

/-- From `s` to `t` the engine read `k` device values and made the events `es` (newest first); BUF changed by those events
alone, and the registers, operands and parameters are as before (LAST_STATUS apart). -/
structure Flow (k : Nat) (es : List Event) (s t : State) : Prop where
  calm : t.calm
  params : t.params = s.params
  kernel : { t.csr.kernel with lastStatus := 0 } = { s.csr.kernel with lastStatus := 0 }
  op : t.eng.op = s.eng.op
  stream : ∀ j, t.upcoming j = s.upcoming (k + j)
  events : t.engineEvents = es ++ s.engineEvents
  mem : t.mem = memAfter s.bufSize es s.mem
  raced : t.raced = s.raced
  answers : s.memoryAnswers = true → t.memoryAnswers = true

/-- Flow in which LAST_STATUS follows the status bytes read. -/
structure Progress (k : Nat) (es : List Event) (s t : State) : Prop extends Flow k es s t where
  status : t.csr.lastStatus = statusFrom s.csr.lastStatus es

/-- Progress that leaves the loop registers. -/
structure Adv (k : Nat) (es : List Event) (s t : State) : Prop extends Progress k es s t where
  loop : t.eng.loop = s.eng.loop

theorem Flow.bufSize {k es} {s t : State} (h : Flow k es s t) : t.bufSize = s.bufSize := by
  simp [State.bufSize, h.params]

theorem Flow.trans {k k' es es'} {s t u : State} (h : Flow k es s t) (h' : Flow k' es' t u) :
    Flow (k + k') (es' ++ es) s u where
  calm := h'.calm
  params := h'.params.trans h.params
  kernel := h'.kernel.trans h.kernel
  op := h'.op.trans h.op
  stream := fun j => by rw [h'.stream, h.stream, Nat.add_assoc]
  events := by rw [h'.events, h.events, List.append_assoc]
  mem := by rw [h'.mem, h.mem, h.bufSize, memAfter_append]
  raced := h'.raced.trans h.raced
  answers := h'.answers ∘ h.answers

theorem Progress.trans {k k' es es'} {s t u : State} (h : Progress k es s t) (h' : Progress k' es' t u) :
    Progress (k + k') (es' ++ es) s u :=
  ⟨h.toFlow.trans h'.toFlow, by rw [h'.status, h.status, statusFrom_append]⟩

theorem Adv.trans {k k' es es'} {s t u : State} (h : Adv k es s t) (h' : Adv k' es' t u) :
    Adv (k + k') (es' ++ es) s u :=
  ⟨h.toProgress.trans h'.toProgress, h'.loop.trans h.loop⟩

theorem Flow.refl {s : State} (h : s.calm) : Flow 0 [] s s :=
  ⟨h, rfl, rfl, rfl, fun j => by simp, rfl, rfl, rfl, id⟩

theorem Adv.refl {s : State} (h : s.calm) : Adv 0 [] s s := ⟨⟨Flow.refl h, rfl⟩, rfl⟩

theorem Progress.cast {k k' es es'} {s t : State} (h : Progress k es s t) (hk : k = k') (he : es = es') :
    Progress k' es' s t := by
  subst hk he; exact h

theorem Adv.cast {k k' es es'} {s t : State} (h : Adv k es s t) (hk : k = k') (he : es = es') : Adv k' es' s t := by
  subst hk he; exact h

/-- An update of the engine that leaves what `Adv` speaks of. -/
theorem Adv.engine {s : State} (h : s.calm) {e : Engine} (hp : e.phase = s.eng.phase) (ho : e.op = s.eng.op)
    (hl : e.loop = s.eng.loop) : Adv 0 [] s { s with eng := e } :=
  ⟨⟨⟨⟨by have := h.1; simp_all [State.busy], h.2⟩, rfl, rfl, ho, fun j => by simp [State.upcoming], rfl, rfl, rfl, id⟩,
    rfl⟩, hl⟩

theorem Adv.ide {s : State} (h : s.calm) (p : IdePort) : Adv 0 [] s { s with ide := p } :=
  ⟨⟨⟨h, rfl, rfl, rfl, fun j => by simp [State.upcoming], rfl, rfl, rfl, id⟩, rfl⟩, rfl⟩

theorem Adv.buf {s : State} (h : s.calm) (p : Option BufAccess) : Adv 0 [] s { s with buf := p } :=
  ⟨⟨⟨h, rfl, rfl, rfl, fun j => by simp [State.upcoming], rfl, rfl, rfl, id⟩, rfl⟩, rfl⟩

theorem Adv.inv {s : State} (h : s.calm) (p : Option InvRange) : Adv 0 [] s { s with inv := p } :=
  ⟨⟨⟨h, rfl, rfl, rfl, fun j => by simp [State.upcoming], rfl, rfl, rfl, id⟩, rfl⟩, rfl⟩

theorem Flow.lastStatus {s : State} (h : s.calm) (b : Byte) :
    Flow 0 [] s { s with csr := { s.csr with lastStatus := b } } :=
  ⟨h, rfl, rfl, rfl, fun j => by simp [State.upcoming], rfl, rfl, rfl, id⟩

theorem State.engineEvents_record (s : State) (e : Event) :
    (s.record e).engineEvents = (if e.byEngine then [e] else []) ++ s.engineEvents := by
  simp only [State.engineEvents, State.record_trace, List.filter_cons]
  split <;> simp

/-- An event of the engine that writes no memory and reads no status. -/
theorem Adv.note {s : State} (h : s.calm) {e : Event} (he : e.byEngine = true) (hm : ∀ m, memAfter s.bufSize [e] m = m)
    (hs : ∀ b, statusFrom b [e] = b) : Adv 0 [e] s (s.record e) :=
  ⟨⟨⟨h, rfl, rfl, rfl, fun j => by simp [State.upcoming], by simp [State.engineEvents_record, he],
    by simp [hm], rfl, id⟩, by simp [hs]⟩, rfl⟩

theorem engineEvents_of_landed {s t : State} (h : Landed s t) : t.engineEvents = s.engineEvents := by
  obtain ⟨es, he, hn⟩ := h.events
  have : es.filter Event.byEngine = [] := by
    rw [List.filter_eq_nil_iff]
    intro e hm
    simp [hn e hm]
  simp [State.engineEvents, he, this]

theorem Adv.of_landed {s t : State} (hs : s.calm) (h : Landed s t)
    (hm : t.mem = s.mem ∧ t.raced = s.raced ∧ t.freeDraws = s.freeDraws) : Adv 0 [] s t where
  calm := ⟨h.busy.trans hs.1, State.quiet_of_suffix h.inputs hs.2⟩
  params := h.params
  kernel := by rw [h.kernel]
  op := by rw [h.eng]
  stream := fun j => by simp [State.upcoming, h.device, h.deviceDraws]
  events := by simpa using engineEvents_of_landed h
  mem := by simpa [memAfter] using hm.1
  raced := hm.2.1
  answers := by simp [State.memoryAnswers, h.params, h.bufAnswers]
  status := by
    have := congrArg Csrs.lastStatus h.kernel
    exact this
  loop := by rw [h.eng]

/-! ## The clock -/

/-- One cycle: the outputs are held. -/
theorem clock_calm {s : State} (h : s.calm) :
    clock s = .ok () s.tick ∧ Adv 0 [] s s.tick ∧ Landed s s.tick := by
  have hl := State.tick_landed h.1 (State.noReset_of_quiet h.2)
  refine ⟨?_, Adv.of_landed h hl (State.applyInputs_mem h.2 h.1), hl⟩
  simp [clock, hl.busy, h.1]

theorem hold_calm : ∀ (n : Nat) {s : State}, s.calm →
    ∃ t, hold n s = .ok () t ∧ Adv 0 [] s t ∧ t.ide = s.ide ∧ t.inv = s.inv
  | 0, s, h => ⟨s, rfl, Adv.refl h, rfl, rfl⟩
  | n + 1, s, h => by
    have h1 : Adv 0 [] s { s with eng := { s.eng with count := n + 1 } } := Adv.engine h rfl rfl rfl
    obtain ⟨hc, ha, hl⟩ := clock_calm h1.calm
    obtain ⟨t, ht, hat, hi, hv⟩ := hold_calm n ha.calm
    refine ⟨t, ?_, by simpa using (h1.trans ha).trans hat, by rw [hi, hl.ide], by rw [hv, hl.inv]⟩
    rw [hold, bind_ok (setEngine_run _ _), bind_ok hc, ht]

theorem idle_calm (n : Nat) {s : State} (h : s.calm) : ∃ t, idle n s = .ok () t ∧ Adv 0 [.idle n] s t := by
  have h1 := Adv.note h (e := .idle n) rfl (fun _ => rfl) (fun _ => rfl)
  obtain ⟨t, ht, ha, -, -⟩ := hold_calm n h1.calm
  exact ⟨t, by rw [idle, bind_ok (note_run _ _), ht], by simpa using h1.trans ha⟩

/-! ## Bus cycles -/

theorem busPhase_calm (p : BusPhase) (n : Nat) {s : State} (h : s.calm) :
    ∃ t, busPhase p n s = .ok () t ∧ Adv 0 [] s t := by
  have h1 : Adv 0 [] s { s with eng := { s.eng with busPhase := some p } } := Adv.engine h rfl rfl rfl
  obtain ⟨t, ht, ha, -, -⟩ := hold_calm n h1.calm
  exact ⟨t, by rw [busPhase, bind_ok (setEngine_run _ _), ht], by simpa using h1.trans ha⟩

/-- The stream of coming device values after one of them is taken. -/
theorem sampleBus_calm (reg : IdeReg) (kind : Kind) {s : State} (h : s.calm) :
    ∃ t, sampleBus reg kind s = .ok (s.upcoming 0) t ∧ Flow 1 [.ideRead reg kind (s.upcoming 0)] s t ∧
      t.eng = s.eng ∧ t.csr = s.csr := by
  cases hd : s.device with
  | nil =>
    have hv : s.upcoming 0 = Config.deviceDraw s.deviceDraws := by simp [State.upcoming, hd]
    refine ⟨({ s with deviceDraws := s.deviceDraws + 1 } : State).record (.ideRead reg kind (s.upcoming 0)),
      by simp only [sampleBus, hd, hv], ⟨h, rfl, rfl, rfl, fun j => ?_, rfl, rfl, rfl, id⟩, rfl, rfl⟩
    simp only [State.upcoming, hd, State.record_device, State.record_deviceDraws, List.getElem?_nil, List.length_nil,
      Nat.sub_zero]
    congr 1; omega
  | cons v rest =>
    have hv : s.upcoming 0 = v := by simp [State.upcoming, hd]
    have hd' : s.device.length = rest.length + 1 := by simp [hd]
    refine ⟨({ s with device := rest } : State).record (.ideRead reg kind (s.upcoming 0)),
      by simp only [sampleBus, hd, hv], ⟨h, rfl, rfl, rfl, fun j => ?_, rfl, rfl, rfl, ?_⟩, rfl, rfl⟩
    · have hj : s.device[1 + j]? = rest[j]? := by simp [hd, Nat.add_comm 1 j]
      simp only [State.upcoming, hj, hd', State.record_device, State.record_deviceDraws]
      cases rest[j]? with
      | some v => rfl
      | none => simp only []; congr 1; omega
    · exact id

/-- One read bus cycle: the next device value, one event. -/
theorem ideRead_calm (reg : IdeReg) (kind : Kind) {s : State} (h : s.calm) :
    ∃ t, ideRead reg kind s = .ok (s.upcoming 0) t ∧ Adv 1 [.ideRead reg kind (s.upcoming 0)] s t := by
  have a1 := Adv.ide h { s.ide with da := reg, cs0N := false, dd := none }
  obtain ⟨t2, e2, a2⟩ := busPhase_calm .addressSetup (s.params.times kind s.csr.compat).tAS a1.calm
  have a3 := Adv.ide a2.calm { t2.ide with diorN := false }
  obtain ⟨t4, e4, a4⟩ := busPhase_calm .pulse (s.params.times kind s.csr.compat).tPW a3.calm
  have a14 := ((a1.trans a2).trans a3).trans a4
  have hv : t4.upcoming 0 = s.upcoming 0 := a14.stream 0
  obtain ⟨t5, e5, a5, he5, hc5⟩ := sampleBus_calm reg kind a4.calm
  rw [hv] at e5 a5
  have a6 := Adv.ide a5.calm { t5.ide with diorN := true }
  obtain ⟨t7, e7, a7⟩ := busPhase_calm .hold (s.params.times kind s.csr.compat).tDH a6.calm
  have a8 := Adv.ide a7.calm { t7.ide with cs0N := true }
  obtain ⟨t9, e9, a9⟩ := busPhase_calm .recovery (s.params.times kind s.csr.compat).tREC a8.calm
  have a10 : Adv 0 [] t9 { t9 with eng := { t9.eng with busPhase := none } } := Adv.engine a9.calm rfl rfl rfl
  have a610 := (((a6.trans a7).trans a8).trans a9).trans a10
  have a := (a14.toFlow.trans a5).trans a610.toFlow
  have hloop : t9.eng.loop = s.eng.loop := by
    have h1 := a610.loop
    have h2 := a14.loop
    rw [he5] at h1
    exact h1.trans h2
  have hstat : t9.csr.lastStatus = s.csr.lastStatus := by
    have h1 := a610.status
    have h2 := a14.status
    rw [hc5] at h1
    exact h1.trans h2
  have run : ∀ f : Half → EngineM Half,
      (do
        let t ← cycleTimes kind
        setIde fun p => { p with da := reg, cs0N := false, dd := none }
        busPhase .addressSetup t.tAS
        setIde fun p => { p with diorN := false }
        busPhase .pulse t.tPW
        let v ← sampleBus reg kind
        setIde fun p => { p with diorN := true }
        busPhase .hold t.tDH
        setIde fun p => { p with cs0N := true }
        busPhase .recovery t.tREC
        setEngine fun e => { e with busPhase := none }
        f v) s = f (s.upcoming 0) { t9 with eng := { t9.eng with busPhase := none } } := by
    intro f
    rw [bind_ok (cycleTimes_run _ _), bind_ok (setIde_run _ _), bind_ok e2, bind_ok (setIde_run _ _), bind_ok e4,
      bind_ok e5, bind_ok (setIde_run _ _), bind_ok e7, bind_ok (setIde_run _ _), bind_ok e9,
      bind_ok (setEngine_run _ _)]
  by_cases hr : reg = 7
  · have a11 := Flow.lastStatus a10.calm (s.upcoming 0).lo
    have hf := a.trans a11
    simp only [Nat.zero_add, Nat.add_zero, List.nil_append, List.append_nil] at hf
    refine ⟨_, ?_, ⟨⟨hf, (if_pos hr).symm⟩, hloop⟩⟩
    rw [ideRead, run]
    simp only [hr, if_true]
    rw [bind_ok (setCsr_run _ _)]
    rfl
  · simp only [Nat.zero_add, Nat.add_zero, List.nil_append, List.append_nil] at a
    refine ⟨_, ?_, ⟨⟨a, hstat.trans (if_neg hr).symm⟩, hloop⟩⟩
    rw [ideRead, run]
    simp only [hr, if_false]
    rfl

/-- One write bus cycle: one event. -/
theorem ideWrite_calm (reg : IdeReg) (v : Half) (kind : Kind) {s : State} (h : s.calm) :
    ∃ t, ideWrite reg v kind s = .ok () t ∧ Adv 0 [.ideWrite reg kind v] s t := by
  have a1 := Adv.ide h { s.ide with da := reg, cs0N := false, dd := some v }
  obtain ⟨t2, e2, a2⟩ := busPhase_calm .addressSetup (s.params.times kind s.csr.compat).tAS a1.calm
  have a3 := Adv.ide a2.calm { t2.ide with diowN := false }
  obtain ⟨t4, e4, a4⟩ := busPhase_calm .pulse (s.params.times kind s.csr.compat).tPW a3.calm
  have a5 := Adv.ide a4.calm { t4.ide with diowN := true }
  have a6 := Adv.note a5.calm (e := .ideWrite reg kind v) rfl (fun _ => rfl) (fun _ => rfl)
  obtain ⟨t7, e7, a7⟩ := busPhase_calm .hold (s.params.times kind s.csr.compat).tDH a6.calm
  have a8 := Adv.ide a7.calm { t7.ide with dd := none, cs0N := true }
  obtain ⟨t9, e9, a9⟩ := busPhase_calm .recovery (s.params.times kind s.csr.compat).tREC a8.calm
  have a10 : Adv 0 [] t9 { t9 with eng := { t9.eng with busPhase := none } } := Adv.engine a9.calm rfl rfl rfl
  refine ⟨_, ?_, (((((((((a1.trans a2).trans a3).trans a4).trans a5).trans a6).trans a7).trans a8).trans a9).trans
    a10).cast (by simp) (by simp)⟩
  rw [ideWrite, bind_ok (cycleTimes_run _ _), bind_ok (setIde_run _ _), bind_ok e2, bind_ok (setIde_run _ _), bind_ok e4,
    bind_ok (setIde_run _ _), bind_ok (note_run _ _), bind_ok e7, bind_ok (setIde_run _ _), bind_ok e9,
    setEngine_run]

theorem read8_calm (reg : IdeReg) {s : State} (h : s.calm) :
    ∃ t, read8 reg s = .ok (s.upcoming 0).lo t ∧ Adv 1 [.ideRead reg .reg (s.upcoming 0)] s t := by
  obtain ⟨t, e, a⟩ := ideRead_calm reg .reg h
  exact ⟨t, by rw [read8, bind_ok e]; rfl, a⟩

theorem write8_calm (reg : IdeReg) (b : Byte) {s : State} (h : s.calm) :
    ∃ t, write8 reg b s = .ok () t ∧ Adv 0 [.ideWrite reg .reg ((0 : Byte) ++ b)] s t :=
  ideWrite_calm reg _ .reg h

end Sys2Proof.Machine
end

