-- ==== Sys2Proof/Laws/Keeps.lean ====
section
/-! SUPPORT. What pseudocode keeps in any environment: resets, other BUF agents, a memory that never answers. One lemma per
shared operation; `Fine` asks for the smallest updates, `Stable` for whole bus cycles and accesses. -/

namespace Sys2Proof.Machine

/-- `P` of the state that is left; `F` where the operation is halted. -/
def After {α : Type} (P F : State → Prop) : EStateM.Result Exit State α → Prop
  | .ok _ t => P t
  | .error (.raised _) t => P t
  | .error .halted t => F t

/-- Pseudocode keeps `P`, also where it raises an error; where the operation is halted, `F` holds. -/
def Keeps {α : Type} (P F : State → Prop) (x : EngineM α) : Prop := ∀ s, P s → After P F (x s)

section
variable {P F : State → Prop} {α β : Type}

theorem Keeps.pure (a : α) : Keeps P F (pure a : EngineM α) := fun _ h => h

theorem Keeps.raise (e : Err) : Keeps P F (raise e : EngineM α) := fun _ h => h

theorem Keeps.bind {x : EngineM α} {f : α → EngineM β} (hx : Keeps P F x) (hf : ∀ a, Keeps P F (f a)) :
    Keeps P F (x >>= f) := by
  intro s hs
  have h := hx s hs
  cases hr : x s with
  | ok a t =>
    rw [hr] at h
    rw [bind_ok hr]
    exact hf a t h
  | error e t =>
    rw [hr] at h
    rw [bind_error hr]
    cases e <;> exact h

/-- After `get` the rest may use what `P` says of the state got. -/
theorem Keeps.get {f : State → EngineM β} (hf : ∀ s, P s → Keeps P F (f s)) : Keeps P F (MonadState.get >>= f) :=
  fun s hs => hf s hs s hs

theorem Keeps.modify {f : State → State} (hf : ∀ s, P s → P (f s)) : Keeps P F (modify f : EngineM Unit) :=
  fun s hs => hf s hs

theorem Keeps.ite {c : Prop} [Decidable c] {x y : EngineM α} (hx : Keeps P F x) (hy : Keeps P F y) :
    Keeps P F (if c then x else y) := by
  split
  · exact hx
  · exact hy

theorem After.and {P' F' : State → Prop} {r : EStateM.Result Exit State α} (h : After P F r) (h' : After P' F' r) :
    After (fun s => P s ∧ P' s) (fun s => F s ∧ F' s) r := by
  match r with
  | .ok _ _ => exact ⟨h, h'⟩
  | .error (.raised _) _ => exact ⟨h, h'⟩
  | .error .halted _ => exact ⟨h, h'⟩

theorem After.imp {P' F' : State → Prop} {r : EStateM.Result Exit State α} (h : After P F r) (hP : ∀ s, P s → P' s)
    (hF : ∀ s, F s → F' s) : After P' F' r := by
  match r with
  | .ok _ _ => exact hP _ h
  | .error (.raised _) _ => exact hP _ h
  | .error .halted _ => exact hF _ h

theorem Keeps.and {P' F' : State → Prop} {x : EngineM α} (h : Keeps P F x) (h' : Keeps P' F' x) :
    Keeps (fun s => P s ∧ P' s) (fun s => F s ∧ F' s) x := fun s hs => (h s hs.1).and (h' s hs.2)

theorem Keeps.forRange {body : Nat → EngineM Unit} (h : ∀ i, Keeps P F (body i)) : ∀ k i, Keeps P F (forRange body k i)
  | 0, _ => Keeps.pure ()
  | k + 1, i => Keeps.bind (h i) fun _ => Keeps.forRange h k (i + 1)

theorem Keeps.onTimeout {x h : EngineM α} (hx : Keeps P F x) (hh : Keeps P F h) : Keeps P F (onTimeout x h) := by
  intro s hs
  have h1 := hx s hs
  unfold Sys2Proof.Machine.onTimeout
  match hr : x s with
  | .ok a t => rw [hr] at h1; exact h1
  | .error .halted t => rw [hr] at h1; exact h1
  | .error (.raised e) t =>
    rw [hr] at h1
    cases e with
    | timeout => exact hh t h1
    | _ => exact h1

theorem Keeps.codeOf {x : EngineM Word} (hx : Keeps P F x) : Keeps P F (codeOf x) := by
  intro s hs
  have h1 := hx s hs
  unfold Sys2Proof.Machine.codeOf
  match hr : x s with
  | .ok a t => rw [hr] at h1; exact h1
  | .error .halted t => rw [hr] at h1; exact h1
  | .error (.raised e) t => rw [hr] at h1; exact h1

end

/-! ## From the smallest updates -/

/-- The events that pseudocode notes, an invalidate pulse apart. -/
def Event.isNote : Event → Bool
  | .ideWrite _ _ _ | .idle _ | .resetPulse | .bufRead _ _ | .bufWrite _ _ => true
  | _ => false

/-- Closed under every small update that the shared operations make. -/
structure Fine (P F : State → Prop) : Prop where
  engine : ∀ s e, P s → e.phase = s.eng.phase → e.op = s.eng.op → P { s with eng := e }
  ide : ∀ s p, P s → P { s with ide := p }
  buf : ∀ s b, P s → P { s with buf := b }
  clock : Keeps P F clock
  note : ∀ s e, P s → e.isNote = true → P (s.record e)
  sample : ∀ s reg kind v l d, P s → P (({ s with device := l, deviceDraws := d } : State).record (.ideRead reg kind v))
  status : ∀ s b, P s → P { s with csr := { s.csr with lastStatus := b } }
  answer : ∀ s, P s → s.buf.isSome = true →
    (∃ n t, takeAnswer s = .ok (some n) t ∧ P t) ∨ (∃ t, takeAnswer s = .ok none t ∧ F t)
  draw : ∀ s n, P s → P { s with freeDraws := n }
  mem : ∀ s a v, P s → P { s with mem := s.mem.writeHalf s.bufSize a v }

/-- The memory's next answer, or none ever. -/
theorem takeAnswer_cases {P F : State → Prop} (ha : ∀ s l, P s → P { s with bufAnswers := l }) 
    (hF : ∀ s, P s → s.buf.isSome = true → F s) (s : State) (hs : P s) (hw : s.buf.isSome = true) :
    (∃ n t, takeAnswer s = .ok (some n) t ∧ P t) ∨ (∃ t, takeAnswer s = .ok none t ∧ F t) := by
  cases hb : s.bufAnswers with
  | nil =>
    cases hw' : s.params.bufWait with
    | none => exact .inr ⟨s, by simp only [takeAnswer, hb, hw'], hF s hs hw⟩
    | some n => exact .inl ⟨n, s, by simp only [takeAnswer, hb, hw'], hs⟩
  | cons a rest =>
    cases a with
    | none => exact .inr ⟨_, by simp only [takeAnswer, hb], hF _ (ha s rest hs) hw⟩
    | some n => exact .inl ⟨n, _, by simp only [takeAnswer, hb], ha s rest hs⟩

/-- An address at an even distance from ARG_BUF, in some state with `P`: "every offset the engine adds is a multiple of 2"
(20 R69). -/
def EvenFrom (P : State → Prop) (a : Nat) : Prop := ∃ s, P s ∧ a % 2 = s.bufAddr % 2

theorem EvenFrom.add {P : State → Prop} {a : Nat} (h : EvenFrom P a) (w : Nat) : EvenFrom P (a + 2 * w) := by
  obtain ⟨s, hs, ha⟩ := h
  exact ⟨s, hs, by omega⟩

theorem EvenFrom.imp {P Q : State → Prop} {a : Nat} (h : EvenFrom P a) (hq : ∀ s, P s → Q s) : EvenFrom Q a := by
  obtain ⟨s, hs, ha⟩ := h
  exact ⟨s, hq s hs, ha⟩

/-- Kept by bus cycles, gaps and BUF accesses as wholes. -/
structure Stable (P F : State → Prop) : Prop where
  engine : ∀ s e, P s → e.phase = s.eng.phase → e.op = s.eng.op → P { s with eng := e }
  hold : ∀ n, Keeps P F (hold n)
  idle : ∀ n, Keeps P F (idle n)
  ideRead : ∀ reg kind, Keeps P F (ideRead reg kind)
  ideWrite : ∀ reg v kind, Keeps P F (ideWrite reg v kind)
  memRead : ∀ a, EvenFrom P a → Keeps P F (memRead a)
  memWrite : ∀ a v, EvenFrom P a → Keeps P F (memWrite a v)

section
variable {P F : State → Prop}

/-- An engine update keeps `P` where phase and op stay. -/
theorem keeps_setEngine (h : ∀ s e, P s → e.phase = s.eng.phase → e.op = s.eng.op → P { s with eng := e })
    {f : Engine → Engine} (hf : ∀ e, (f e).phase = e.phase ∧ (f e).op = e.op) : Keeps P F (setEngine f) :=
  Keeps.modify fun s hs => h s _ hs (hf _).1 (hf _).2

theorem keeps_hold (he : ∀ s e, P s → e.phase = s.eng.phase → e.op = s.eng.op → P { s with eng := e })
    (hc : Keeps P F clock) : ∀ n, Keeps P F (hold n)
  | 0 => Keeps.pure ()
  | n + 1 => Keeps.bind (keeps_setEngine he fun _ => ⟨rfl, rfl⟩) fun _ => hc.bind fun _ => keeps_hold he hc n

theorem Fine.hold (h : Fine P F) (n : Nat) : Keeps P F (hold n) := keeps_hold h.engine h.clock n

theorem Fine.setEngine (h : Fine P F) {f : Engine → Engine} (hf : ∀ e, (f e).phase = e.phase ∧ (f e).op = e.op) :
    Keeps P F (setEngine f) := keeps_setEngine h.engine hf

theorem Fine.setIde (h : Fine P F) (f : IdePort → IdePort) : Keeps P F (setIde f) :=
  Keeps.modify fun s hs => h.ide s _ hs

theorem Fine.noted (h : Fine P F) {e : Event} (he : e.isNote = true) : Keeps P F (Machine.note e) :=
  Keeps.modify fun s hs => h.note s e hs he

theorem Fine.busPhase (h : Fine P F) (p : BusPhase) (n : Nat) : Keeps P F (busPhase p n) :=
  Keeps.bind (h.setEngine fun _ => ⟨rfl, rfl⟩) fun _ => h.hold n

theorem keeps_cycleTimes (kind : Kind) : Keeps P F (cycleTimes kind) := fun _ hs => hs

theorem keeps_sample {P F : State → Prop} (reg : IdeReg) (kind : Kind)
    
    (h : ∀ s v l d, P s → P (({ s with device := l, deviceDraws := d } : State).record (.ideRead reg kind v))) :
    Keeps P F (sampleBus reg kind) := by
  intro s hs
  unfold sampleBus
  split
  · exact h s _ _ s.deviceDraws hs
  · exact h s _ s.device _ hs

theorem Fine.sampled (h : Fine P F) (reg : IdeReg) (kind : Kind) : Keeps P F (sampleBus reg kind) :=
  keeps_sample reg kind fun s v l d hs => h.sample s reg kind v l d hs

theorem Fine.ideRead (h : Fine P F) (reg : IdeReg) (kind : Kind) : Keeps P F (ideRead reg kind) :=
  (keeps_cycleTimes kind).bind fun _ => (h.setIde _).bind fun _ => (h.busPhase _ _).bind fun _ =>
    (h.setIde _).bind fun _ => (h.busPhase _ _).bind fun _ => (h.sampled reg kind).bind fun v =>
    (h.setIde _).bind fun _ => (h.busPhase _ _).bind fun _ => (h.setIde _).bind fun _ => (h.busPhase _ _).bind fun _ =>
    Keeps.bind (h.setEngine fun _ => ⟨rfl, rfl⟩) fun _ => by
      exact Keeps.ite (Keeps.bind (Keeps.modify fun s hs => h.status s _ hs) fun _ => Keeps.pure _) (Keeps.pure _)

theorem Fine.ideWrite (h : Fine P F) (reg : IdeReg) (v : Half) (kind : Kind) : Keeps P F (ideWrite reg v kind) :=
  (keeps_cycleTimes kind).bind fun _ => (h.setIde _).bind fun _ => (h.busPhase _ _).bind fun _ =>
    (h.setIde _).bind fun _ => (h.busPhase _ _).bind fun _ => (h.setIde _).bind fun _ => (h.noted rfl).bind fun _ =>
    (h.busPhase _ _).bind fun _ => (h.setIde _).bind fun _ => (h.busPhase _ _).bind fun _ =>
    h.setEngine fun _ => ⟨rfl, rfl⟩

/-- A handshake keeps what the outstanding access, the clock and the answer keep. -/
theorem keeps_bufHandshake (hb : ∀ s b, P s → P { s with buf := b }) (hh : ∀ n, Keeps P F (hold n))
    (ha : ∀ s, P s → s.buf.isSome = true →
      (∃ n t, takeAnswer s = .ok (some n) t ∧ P t) ∨ (∃ t, takeAnswer s = .ok none t ∧ F t))
    (a : BufAccess) : Keeps P F (bufHandshake a) := by
  intro s0 hs0
  have hs := hb s0 (some a) hs0
  rw [Sys2Proof.Machine.bufHandshake, bind_ok (modify_run _ _)]
  generalize hs' : ({ s0 with buf := some a } : State) = s at hs
  have hw : s.buf.isSome = true := by rw [← hs']; rfl
  rcases ha s hs hw with ⟨n, t, e, ht⟩ | ⟨t, e, ht⟩
  · rw [bind_ok e]
    exact (Keeps.bind (hh n) fun _ => Keeps.modify fun s hs => hb s _ hs) t ht
  · rw [bind_ok e]
    exact ht

theorem Fine.bufHandshake (h : Fine P F) (a : BufAccess) : Keeps P F (bufHandshake a) :=
  keeps_bufHandshake h.buf h.hold h.answer a

theorem Fine.takeByte (h : Fine P F) (a : Nat) : Keeps P F (takeByte a) := by
  intro s hs
  unfold Sys2Proof.Machine.takeByte
  split
  · exact hs
  · exact h.draw s _ hs

theorem Fine.memRead (h : Fine P F) (a : Nat) : Keeps P F (memRead a) :=
  Keeps.get fun _ _ => (h.bufHandshake _).bind fun _ => (h.takeByte _).bind fun _ => (h.takeByte _).bind fun _ =>
    (h.noted rfl).bind fun _ => Keeps.pure _

theorem Fine.memWrite (h : Fine P F) (a : Nat) (v : Half) : Keeps P F (memWrite a v) :=
  Keeps.get fun _ _ => (h.bufHandshake _).bind fun _ => (Keeps.modify fun s hs => h.mem s a v hs).bind fun _ =>
    h.noted rfl

theorem Fine.stable (h : Fine P F) : Stable P F where
  engine := h.engine
  hold := h.hold
  idle := fun n => (h.noted rfl).bind fun _ => h.hold n
  ideRead := h.ideRead
  ideWrite := h.ideWrite
  memRead := fun a _ => h.memRead a
  memWrite := fun a v _ => h.memWrite a v

/-! ## Up to an operation's body -/

theorem Stable.setEngine (h : Stable P F) {f : Engine → Engine} (hf : ∀ e, (f e).phase = e.phase ∧ (f e).op = e.op) :
    Keeps P F (setEngine f) := keeps_setEngine h.engine hf

theorem Stable.goto (h : Stable P F) (p : Pos) : Keeps P F (goto p) := h.setEngine fun _ => ⟨rfl, rfl⟩

theorem Stable.write8 (h : Stable P F) (reg : IdeReg) (b : Byte) : Keeps P F (write8 reg b) := h.ideWrite _ _ _

theorem Stable.poll (h : Stable P F) (verdict : Byte → Verdict) : ∀ n, Keeps P F (poll verdict n)
  | 0 => Keeps.raise _
  | n + 1 => by
    refine Keeps.bind (h.setEngine fun _ => ⟨rfl, rfl⟩) fun _ => ((h.ideRead 7 .reg).bind fun v => Keeps.pure _).bind fun st => ?_
    cases verdict st with
    | ready => exact Keeps.pure _
    | failed => exact Keeps.raise _
    | again =>
      exact Keeps.ite (Keeps.get fun s _ => Keeps.bind (h.idle _) fun _ => Stable.poll h verdict n) (Stable.poll h verdict n)

theorem Stable.waitDrq (h : Stable P F) : Keeps P F waitDrq :=
  (h.goto _).bind fun _ => Keeps.get fun _ _ => h.poll _ _

theorem Stable.writeSeq (h : Stable P F) : ∀ seq, Keeps P F (writeSeq seq)
  | [] => Keeps.pure ()
  | (r, b) :: rest => (h.write8 r b).bind fun _ => Stable.writeSeq h rest

theorem Stable.issueCommandNoWait (h : Stable P F) (seq : List SeqEntry) : Keeps P F (issueCommandNoWait seq) :=
  (h.writeSeq seq).bind fun _ => (h.goto _).bind fun _ => Keeps.get fun _ _ => h.idle _

theorem Stable.issueCommand (h : Stable P F) (seq : List SeqEntry) : Keeps P F (issueCommand seq) :=
  Keeps.get fun _ _ =>
    Keeps.ite
      ((h.goto _).bind fun _ => Keeps.bind (h.poll _ _) fun _ => (h.goto _).bind fun _ => h.issueCommandNoWait seq)
      ((h.goto _).bind fun _ => h.issueCommandNoWait seq)

theorem Stable.completeNoData (h : Stable P F) (budget : Nat) : Keeps P F (completeNoData budget) :=
  (h.goto _).bind fun _ => (h.poll _ _).bind fun _ => Keeps.ite (Keeps.raise _) (Keeps.pure _)

theorem Stable.readWord (h : Stable P F) {a : Nat} (ha : EvenFrom P a) (w : Nat) : Keeps P F (readWord a w) :=
  Keeps.bind (h.setEngine fun _ => ⟨rfl, rfl⟩) fun _ => (h.ideRead _ _).bind fun _ => h.memWrite _ _ (ha.add w)

theorem Stable.writeWord (h : Stable P F) {a : Nat} (ha : EvenFrom P a) (w : Nat) : Keeps P F (writeWord a w) :=
  Keeps.bind (h.setEngine fun _ => ⟨rfl, rfl⟩) fun _ => (h.memRead _ (ha.add w)).bind fun _ => h.ideWrite _ _ _

theorem Stable.sectorData (h : Stable P F) (dir : Dir) {a : Nat} (ha : EvenFrom P a) : Keeps P F (sectorData dir a) :=
  (h.goto _).bind fun _ => by
    cases dir with
    | read => exact Keeps.forRange (h.readWord ha) _ _
    | write => exact Keeps.forRange (h.writeWord ha) _ _

theorem Stable.copyIdWord (h : Stable P F) (i : Nat) : Keeps P F (copyIdWord i) :=
  Keeps.bind (h.setEngine fun _ => ⟨rfl, rfl⟩) fun _ => Keeps.get fun s hs =>
    h.memWrite _ _ (EvenFrom.add ⟨s, hs, rfl⟩ i)

theorem Stable.identifyWord (h : Stable P F) (hi : ∀ s v, P s → P { s with csr := { s.csr with idbuf := v } }) (i : Nat) :
    Keeps P F (identifyWord i) :=
  Keeps.bind (h.setEngine fun _ => ⟨rfl, rfl⟩) fun _ => (h.ideRead _ _).bind fun _ =>
    Keeps.modify fun s hs => hi s _ hs

theorem Stable.sectorStep (h : Stable P F) (dir : Dir) (i : Nat) : Keeps P F (sectorStep dir i) :=
  Keeps.bind (h.setEngine fun _ => ⟨rfl, rfl⟩) fun _ => h.waitDrq.bind fun _ => Keeps.get fun s hs =>
    h.sectorData dir ⟨s, hs, by simp only [sectorBytes]; omega⟩

theorem Stable.chunkLoop (h : Stable P F) (dir : Dir) : ∀ fuel, Keeps P F (chunkLoop dir fuel)
  | 0 => Keeps.pure ()
  | fuel + 1 => Keeps.get fun s _ => by
    refine Keeps.ite (Keeps.bind (Keeps.get fun _ _ => ?_) fun _ => Stable.chunkLoop h dir fuel) (Keeps.pure ())
    exact Keeps.bind (h.setEngine fun _ => ⟨rfl, rfl⟩) fun _ => (h.issueCommand _).bind fun _ =>
      (Keeps.forRange (h.sectorStep dir) _ _).bind fun _ => h.setEngine fun _ => ⟨rfl, rfl⟩

theorem Stable.transfer (h : Stable P F) (dir : Dir) : Keeps P F (transfer dir) :=
  Keeps.get fun _ _ => Keeps.bind (h.setEngine fun _ => ⟨rfl, rfl⟩) fun _ => h.chunkLoop dir _

theorem Stable.finalWait (h : Stable P F) (dir : Dir) : Keeps P F (finalWait dir) := by
  refine (h.goto _).bind fun _ => Keeps.get fun _ _ => ?_
  refine Keeps.bind (Keeps.onTimeout (h.poll _ _) ?_) fun _ => Keeps.ite (Keeps.raise _) (Keeps.pure _)
  cases dir with
  | read => exact Keeps.raise _
  | write =>
    exact (h.goto _).bind fun _ => Keeps.get fun _ _ => (h.issueCommandNoWait _).bind fun _ => (h.goto _).bind fun _ =>
      Keeps.get fun _ _ => h.poll _ _

theorem keeps_validate (dir : Dir) : Keeps P F (validate dir) :=
  Keeps.get fun _ _ => Keeps.ite (Keeps.raise _) (Keeps.pure _)

/-- The pseudocode of an operation (30 R81). -/
def bodyOf : Instr → EngineM Word
  | .regRd8 reg => bodyRegRd8 reg
  | .regWr8 reg val => bodyRegWr8 reg val
  | .regRd16 reg => bodyRegRd16 reg
  | .identify => bodyIdentify
  | .read => bodyRead
  | .write => bodyWrite
  | .setgeom heads spt => bodySetgeom heads spt
  | .flushDev => bodyFlushDev
  | .reset => bodyReset
  | .getid => bodyGetid

/-- What an operation's own updates need beside the shared operations. -/
structure OwnUpdates (P F : State → Prop) (i : Instr) : Prop where
  invalidate : i = .write → Keeps P F invalidate
  pulse : i = .reset → Keeps P F resetPulse
  idValid : i = .identify → ∀ s b, P s → P { s with csr := { s.csr with idValid := b } }
  idbuf : i = .identify → ∀ s v, P s → P { s with csr := { s.csr with idbuf := v } }
  geometry : ∀ heads spt, i = .setgeom heads spt →
    ∀ s, P s → P { s with csr := { s.csr with geomHeads := heads, geomSpt := spt } }

/-- The own updates of any operation, for what the smallest updates keep. -/
theorem Fine.own {P F : State → Prop} (h : Fine P F) (hv : ∀ s r, P s → P { s with inv := r })
    (hn : ∀ s a n, P s → P (s.record (.invalidate a n)))
    (hid : ∀ s b w, P s → P { s with csr := { s.csr with idValid := b, idbuf := w } })
    (hg : ∀ s a b, P s → P { s with csr := { s.csr with geomHeads := a, geomSpt := b } }) (i : Instr) :
    OwnUpdates P F i where
  invalidate := fun _ =>
    (h.stable.goto _).bind fun _ => Keeps.get fun s _ => Keeps.bind (Keeps.modify fun s hs => hn s _ _ hs) fun _ =>
      Keeps.bind (Keeps.modify fun s hs => hv s _ hs) fun _ => h.clock.bind fun _ => Keeps.modify fun s hs => hv s _ hs
  pulse := fun _ =>
    (h.stable.goto _).bind fun _ => (h.noted rfl).bind fun _ => (h.setIde _).bind fun _ => Keeps.get fun _ _ =>
      (h.hold _).bind fun _ => h.setIde _
  idValid := fun _ s b hs => hid s b s.csr.idbuf hs
  idbuf := fun _ s w hs => hid s s.csr.idValid w hs
  geometry := fun _ _ _ s hs => hg s _ _ hs

theorem Stable.body (h : Stable P F) {i : Instr} (ho : OwnUpdates P F i) : Keeps P F (bodyOf i) := by
  cases i with
  | regRd8 reg => exact (h.goto _).bind fun _ => (h.ideRead _ _).bind fun _ => Keeps.pure _
  | regWr8 reg val => exact (h.goto _).bind fun _ => (h.ideWrite _ _ _).bind fun _ => Keeps.pure _
  | regRd16 reg => exact (h.goto _).bind fun _ => (h.ideRead _ _).bind fun _ => Keeps.pure _
  | identify =>
    refine Keeps.bind (Keeps.modify fun s hs => ho.idValid rfl s _ hs) fun _ => Keeps.get fun _ _ =>
      (h.issueCommand _).bind fun _ => h.waitDrq.bind fun _ => (h.goto _).bind fun _ => Keeps.bind (Keeps.forRange ?_ _ _)
      fun _ => Keeps.bind (Keeps.modify fun s hs => ho.idValid rfl s _ hs) fun _ => Keeps.pure _
    exact h.identifyWord (ho.idbuf rfl)
  | read =>
    exact (keeps_validate _).bind fun _ => (h.transfer _).bind fun _ => (h.finalWait _).bind fun _ =>
      Keeps.get fun _ _ => Keeps.pure _
  | write =>
    exact (keeps_validate _).bind fun _ => (ho.invalidate rfl).bind fun _ => (h.transfer _).bind fun _ =>
      (h.finalWait _).bind fun _ => Keeps.get fun _ _ => Keeps.pure _
  | setgeom heads spt =>
    refine Keeps.ite (Keeps.bind (Keeps.raise _) fun _ => ?_) ?_ <;>
      exact (h.issueCommand _).bind fun _ => Keeps.get fun _ _ => (h.completeNoData _).bind fun _ =>
        Keeps.bind (Keeps.modify fun s hs => ho.geometry heads spt rfl s hs) fun _ => Keeps.pure _
  | flushDev =>
    exact Keeps.get fun _ _ => (h.issueCommand _).bind fun _ => Keeps.get fun _ _ => (h.completeNoData _).bind fun _ =>
      Keeps.pure _
  | reset =>
    exact (ho.pulse rfl).bind fun _ => (h.goto _).bind fun _ => Keeps.get fun _ _ => (h.idle _).bind fun _ =>
      (h.goto _).bind fun _ => Keeps.get fun _ _ => (h.poll _ _).bind fun _ => Keeps.pure _
  | getid =>
    refine Keeps.get fun _ _ => Keeps.ite (Keeps.bind (Keeps.raise _) fun _ => ?_) ?_ <;>
      exact (h.goto _).bind fun _ => (Keeps.forRange h.copyIdWord _ _).bind fun _ => Keeps.pure _

end

/-- An operation is its body between `enter` and `finish` (60 R212). -/
theorem exec_eq (i : Instr) (s : State) : exec i s = .next (finalState (operation i (bodyOf i)) s) := by
  cases i <;> rfl

end Sys2Proof.Machine
end

