-- ==== Sys2Proof/Laws/Whole.lean ====
section
/-! SUPPORT. Whole operations in any environment: what the operation keeps from its first statement to `finish` (60 R212). -/

namespace Sys2Proof.Machine

/-- The state in which an operation's first statement runs (10 R33). -/
def State.entered (s : State) (op : Option Instr) : State :=
  { s with
    eng := { s.eng with phase := .executing, op := op, step := some .entry, busPhase := none }
    buf := none }

/-- The state after `finish(code)` (60 R212). -/
def State.finished (s : State) (code : Word) : State := (s.applyInputs.complete code).endCycle

/-- Holding the outputs raises no error. -/
theorem hold_not_raised : ∀ (n : Nat) (s : State) (e : Err) (t : State), hold n s ≠ .error (.raised e) t
  | 0, s, e, t => by simp [hold]
  | n + 1, s, e, t => by
    rw [hold, bind_ok (setEngine_run _ _)]
    intro h
    by_cases hb : ({ s with eng := { s.eng with count := n + 1 } } : State).tick.busy = true
    · rw [bind_ok (a := ()) (by simp only [clock, hb, if_true]; rfl)] at h
      exact hold_not_raised n _ e t h
    · rw [bind_error (e := .halted) (by simp only [clock, hb]; rfl)] at h
      simp at h

/-- An operation from a state whose entry has `P`: it halts with `F`, or `finish` comes at a state with `P`. -/
theorem operation_final {P F : State → Prop} {i : Instr} {s : State} (h : Stable P F) (ho : OwnUpdates P F i)
    (h0 : P (s.entered (some i))) :
    (∃ t, operation i (bodyOf i) s = .error .halted t ∧ F t) ∨
      ∃ s1 code, P s1 ∧ operation i (bodyOf i) s = finish code s1 ∧
        ∃ sb tb, P sb ∧ codeOf (bodyOf i) sb = .ok code tb ∧ P tb ∧
          hold tb.params.finishLatency { tb with eng := { tb.eng with step := some .finishing } } = .ok () s1 := by
  have step : ∀ {α : Type} (x : EngineM α) (s : State), Keeps P F x → P s →
      (∃ t, x s = .error .halted t ∧ F t) ∨ (∃ a t, x s = .ok a t ∧ P t) ∨ ∃ e t, x s = .error (.raised e) t ∧ P t := by
    intro α x s hx hs
    have h1 := hx s hs
    match hr : x s with
    | .ok a t => rw [hr] at h1; exact .inr (.inl ⟨a, t, rfl, h1⟩)
    | .error (.raised e) t => rw [hr] at h1; exact .inr (.inr ⟨e, t, rfl, h1⟩)
    | .error .halted t => rw [hr] at h1; exact .inl ⟨t, rfl, h1⟩
  have e0 : enter (some i) s = .ok () (s.entered (some i)) := rfl
  have hold_ok : ∀ (n : Nat) (s : State), P s → (∃ t, hold n s = .error .halted t ∧ F t) ∨ ∃ t, hold n s = .ok () t ∧ P t := by
    intro n s hs
    rcases step (hold n) s (h.hold n) hs with h1 | ⟨_, t, e, ht⟩ | ⟨e, t, he, -⟩
    · exact .inl h1
    · exact .inr ⟨t, e, ht⟩
    · exact absurd he (hold_not_raised n s e t)
  unfold operation
  rw [bind_ok e0, Sys2Proof.Machine.get_bind]
  rcases hold_ok (s.entered (some i)).params.startLatency _ h0 with ⟨t, e1, hF⟩ | ⟨s1, e1, h1⟩
  · exact .inl ⟨t, by rw [bind_error e1], hF⟩
  · rw [bind_ok e1]
    have hc : (∃ t, codeOf (bodyOf i) s1 = .error .halted t ∧ F t) ∨ ∃ code t, codeOf (bodyOf i) s1 = .ok code t ∧ P t := by
      rcases step (bodyOf i) s1 (h.body ho) h1 with ⟨t, e, hF⟩ | ⟨a, t, e, ht⟩ | ⟨er, t, e, ht⟩
      · exact .inl ⟨t, by simp [codeOf, e], hF⟩
      · exact .inr ⟨a, t, by simp [codeOf, e], ht⟩
      · exact .inr ⟨er.code, t, by simp [codeOf, e], ht⟩
    rcases hc with ⟨t, e2, hF⟩ | ⟨code, t, e2, ht⟩
    · exact .inl ⟨t, by rw [bind_error e2], hF⟩
    · rw [bind_ok e2, bind_ok (goto_run _ _), Sys2Proof.Machine.get_bind]
      have hg := h.engine t { t.eng with step := some .finishing } ht rfl rfl
      rcases hold_ok t.params.finishLatency _ hg with ⟨u, e3, hF⟩ | ⟨u, e3, hu⟩
      · exact .inl ⟨u, by rw [bind_error (by exact e3)], hF⟩
      · exact .inr ⟨u, code, hu, by rw [bind_ok (by exact e3)], s1, t, h1, e2, ht, e3⟩

/-! ## Predicates over the registers, the parameters and the operation -/

/-- An operation runs, and what `f` sees of the registers, the parameters and the operation are as given. -/
structure Held {α : Type} (f : Csrs → α) (v : α) (p : Params) (o : Option Instr) (s : State) : Prop where
  busy : s.busy = true
  params : s.params = p
  op : s.eng.op = o
  view : f s.csr = v

/-- What a halted operation leaves: the state after a block reset, or one that still waits for an answer of BUF. -/
def HeldOrReset {α : Type} (f : Csrs → α) (v : α) (p : Params) (o : Option Instr) (s : State) : Prop :=
  s.params = p ∧ (AfterReset s ∨ (Held f v p o s ∧ s.buf.isSome = true))

theorem Landed.view {α : Type} {f : Csrs → α} (hf : ∀ c : Csrs, f { c.kernel with lastStatus := 0 } = f c) {s t : State}
    (h : Landed s t) : f t.csr = f s.csr := by
  rw [← hf t.csr, h.kernel, hf]

theorem Landed.held {α : Type} {f : Csrs → α} (hf : ∀ c : Csrs, f { c.kernel with lastStatus := 0 } = f c) {v : α}
    {p : Params} {o : Option Instr} {s t : State} (h : Landed s t) (hs : Held f v p o s) : Held f v p o t :=
  ⟨h.busy.trans hs.busy, h.params.trans hs.params, (congrArg Engine.op h.eng).trans hs.op, (h.view hf).trans hs.view⟩

theorem keeps_clock {P F : State → Prop} (hb : ∀ s, P s → s.busy = true) (hl : ∀ s, P s → Landed s s.tick → P s.tick)
    (hr : ∀ s, P s → AfterReset s.tick → F s.tick) : Keeps P F clock := by
  intro s hs
  rcases State.tick_cases (hb s hs) with h | h
  · have : s.tick.busy = true := h.busy.trans (hb s hs)
    simp only [clock, this, if_true]
    exact hl s hs h
  · have : s.tick.busy = false := h.busy
    simp only [clock, this, Bool.false_eq_true, if_false]
    exact hr s hs h

/-- What the registers hold, seen through `f`, is kept by every operation, resets apart (10 R27). -/
theorem fine_held {α : Type} {f : Csrs → α} (hf : ∀ c : Csrs, f { c.kernel with lastStatus := 0 } = f c) (v : α)
    (p : Params) (o : Option Instr) : Fine (Held f v p o) (HeldOrReset f v p o) where
  engine := fun s e hs hp ho =>
    ⟨by have := hs.busy; simp only [State.busy, hp] at this ⊢; exact this, hs.params, ho.trans hs.op, hs.view⟩
  ide := fun _ _ hs => ⟨hs.busy, hs.params, hs.op, hs.view⟩
  buf := fun _ _ hs => ⟨hs.busy, hs.params, hs.op, hs.view⟩
  clock := keeps_clock (fun _ hs => hs.busy) (fun _ hs h => h.held hf hs)
    fun s hs h => ⟨(State.tick_params s).trans hs.params, .inl h⟩
  note := fun _ _ hs _ => ⟨hs.busy, hs.params, hs.op, hs.view⟩
  sample := fun _ _ _ _ _ _ hs => ⟨hs.busy, hs.params, hs.op, hs.view⟩
  status := fun s b hs =>
    ⟨hs.busy, hs.params, hs.op, by rw [← hs.view, ← hf { s.csr with lastStatus := b }, ← hf s.csr]; rfl⟩
  answer := takeAnswer_cases (fun _ _ hs => ⟨hs.busy, hs.params, hs.op, hs.view⟩) fun _ hs hw => ⟨hs.params, .inr ⟨hs, hw⟩⟩
  draw := fun _ _ hs => ⟨hs.busy, hs.params, hs.op, hs.view⟩
  mem := fun _ _ _ hs => ⟨hs.busy, hs.params, hs.op, hs.view⟩

/-- The operation's own updates keep a view of the registers that does not see what they write. -/
theorem own_held {α : Type} {f : Csrs → α} (hf : ∀ c : Csrs, f { c.kernel with lastStatus := 0 } = f c) (v : α)
    (p : Params) (o : Option Instr) {i : Instr}
    (hid : i = .identify → ∀ (c : Csrs) b w, f { c with idValid := b, idbuf := w } = f c)
    (hg : ∀ heads spt, i = .setgeom heads spt → ∀ c : Csrs, f { c with geomHeads := heads, geomSpt := spt } = f c) :
    OwnUpdates (Held f v p o) (HeldOrReset f v p o) i where
  invalidate := fun _ =>
    ((fine_held hf v p o).stable.goto _).bind fun _ => Keeps.get fun _ _ =>
      Keeps.bind (Keeps.modify fun _ hs => ⟨hs.busy, hs.params, hs.op, hs.view⟩) fun _ =>
      Keeps.bind (Keeps.modify fun _ hs => ⟨hs.busy, hs.params, hs.op, hs.view⟩) fun _ =>
      (fine_held hf v p o).clock.bind fun _ => Keeps.modify fun _ hs => ⟨hs.busy, hs.params, hs.op, hs.view⟩
  pulse := fun _ =>
    ((fine_held hf v p o).stable.goto _).bind fun _ => ((fine_held hf v p o).noted rfl).bind fun _ =>
      ((fine_held hf v p o).setIde _).bind fun _ => Keeps.get fun _ _ => ((fine_held hf v p o).hold _).bind fun _ =>
      (fine_held hf v p o).setIde _
  idValid := fun hi s b hs => ⟨hs.busy, hs.params, hs.op, (hid hi s.csr b s.csr.idbuf).trans hs.view⟩
  idbuf := fun hi s w hs => ⟨hs.busy, hs.params, hs.op, (hid hi s.csr s.csr.idValid w).trans hs.view⟩
  geometry := fun heads spt hi s hs => ⟨hs.busy, hs.params, hs.op, (hg heads spt hi s.csr).trans hs.view⟩

/-! ## Without reset, and with a memory that answers -/

theorem State.noReset_tick {s : State} (hb : s.busy = true) (h : s.noReset = true) : s.tick.noReset = true :=
  State.noReset_of_suffix (State.tick_landed hb h).inputs h

theorem clock_unreset {s : State} (hb : s.busy = true) (h : s.noReset = true) : clock s = .ok () s.tick := by
  have : s.tick.busy = true := (State.tick_landed hb h).busy.trans hb
  simp [clock, this]

/-- Without reset an operation halts only where it waits for a BUF answer: what it keeps holds there too (20 R71). -/
theorem Fine.unreset {P F : State → Prop} (h : Fine P F) (hb : ∀ s, P s → s.busy = true)
    (ha : ∀ s l, P s → P { s with bufAnswers := l }) :
    Fine (fun s => P s ∧ s.noReset = true) (fun s => P s ∧ s.noReset = true) where
  engine := fun s e hs hp ho => ⟨h.engine s e hs.1 hp ho, hs.2⟩
  ide := fun s p hs => ⟨h.ide s p hs.1, hs.2⟩
  buf := fun s b hs => ⟨h.buf s b hs.1, hs.2⟩
  clock := fun s hs => by
    have h1 := h.clock s hs.1
    have e := clock_unreset (hb s hs.1) hs.2
    rw [e] at h1 ⊢
    exact ⟨h1, State.noReset_tick (hb s hs.1) hs.2⟩
  note := fun s e hs he => ⟨h.note s e hs.1 he, hs.2⟩
  sample := fun s reg kind v l d hs => ⟨h.sample s reg kind v l d hs.1, hs.2⟩
  status := fun s b hs => ⟨h.status s b hs.1, hs.2⟩
  answer := takeAnswer_cases (fun s l hs => ⟨ha s l hs.1, hs.2⟩) fun _ hs _ => hs
  draw := fun s n hs => ⟨h.draw s n hs.1, hs.2⟩
  mem := fun s a v hs => ⟨h.mem s a v hs.1, hs.2⟩

theorem Landed.memoryAnswers {s t : State} (h : Landed s t) (hm : s.memoryAnswers = true) : t.memoryAnswers = true := by
  simpa [State.memoryAnswers, h.params, h.bufAnswers] using hm

/-- Without reset, and where the memory answers, nothing halts (20 R71, 42 R175, R176). -/
theorem Fine.answered {P F : State → Prop} (h : Fine P F) (hb : ∀ s, P s → s.busy = true)
    (ha : ∀ s l, P s → P { s with bufAnswers := l }) :
    Fine (fun s => (P s ∧ s.noReset = true) ∧ s.memoryAnswers = true) (fun _ => False) where
  engine := fun s e hs hp ho => ⟨(h.unreset hb ha).engine s e hs.1 hp ho, hs.2⟩
  ide := fun s p hs => ⟨(h.unreset hb ha).ide s p hs.1, hs.2⟩
  buf := fun s b hs => ⟨(h.unreset hb ha).buf s b hs.1, hs.2⟩
  clock := fun s hs => by
    have h1 := (h.unreset hb ha).clock s hs.1
    have e := clock_unreset (hb s hs.1.1) hs.1.2
    rw [e] at h1 ⊢
    exact ⟨h1, (State.tick_landed (hb s hs.1.1) hs.1.2).memoryAnswers hs.2⟩
  note := fun s e hs he => ⟨(h.unreset hb ha).note s e hs.1 he, hs.2⟩
  sample := fun s reg kind v l d hs => ⟨(h.unreset hb ha).sample s reg kind v l d hs.1, hs.2⟩
  status := fun s b hs => ⟨(h.unreset hb ha).status s b hs.1, hs.2⟩
  answer := fun s hs _ => by
    have hm := hs.2
    simp only [State.memoryAnswers, Bool.and_eq_true, List.all_eq_true] at hm
    left
    cases hb' : s.bufAnswers with
    | nil =>
      obtain ⟨n, hn⟩ := Option.isSome_iff_exists.mp hm.1
      exact ⟨n, s, by simp only [takeAnswer, hb', hn], hs⟩
    | cons a rest =>
      obtain ⟨n, hn⟩ := Option.isSome_iff_exists.mp (hm.2 a (by simp [hb']))
      refine ⟨n, { s with bufAnswers := rest }, by simp only [takeAnswer, hb', hn], ⟨ha s rest hs.1.1, hs.1.2⟩, ?_⟩
      have := hs.2
      simp only [State.memoryAnswers, hb', List.all_cons, Bool.and_eq_true] at this ⊢
      exact ⟨this.1, this.2.2⟩
  draw := fun s n hs => ⟨(h.unreset hb ha).draw s n hs.1, hs.2⟩
  mem := fun s a v hs => ⟨(h.unreset hb ha).mem s a v hs.1, hs.2⟩

/-- An operation runs, no reset is to come, and the memory answers. -/
def State.running (s : State) : Prop := (s.busy = true ∧ s.noReset = true) ∧ s.memoryAnswers = true

theorem busy_fine : Fine (fun s => s.busy = true) (fun _ => True) where
  engine := fun s e hs hp _ => by simp only [State.busy, hp] at hs ⊢; exact hs
  ide := fun _ _ hs => hs
  buf := fun _ _ hs => hs
  clock := keeps_clock (fun _ hs => hs) (fun _ hs h => h.busy.trans hs) fun _ _ _ => trivial
  note := fun _ _ hs _ => hs
  sample := fun _ _ _ _ _ _ hs => hs
  status := fun _ _ hs => hs
  answer := takeAnswer_cases (fun _ _ hs => hs) fun _ _ _ => trivial
  draw := fun _ _ hs => hs
  mem := fun _ _ _ hs => hs

/-- While the block runs so, nothing halts. -/
theorem running_fine : Fine State.running (fun _ => False) := busy_fine.answered (fun _ hs => hs) fun _ _ hs => hs

theorem running_own (i : Instr) : OwnUpdates State.running (fun _ => False) i :=
  running_fine.own (fun _ _ hs => hs) (fun _ _ _ hs => hs) (fun _ _ _ hs => hs) (fun _ _ _ hs => hs) i

theorem busy_own (i : Instr) : OwnUpdates (fun s => s.busy = true) (fun _ => True) i :=
  busy_fine.own (fun _ _ hs => hs) (fun _ _ _ hs => hs) (fun _ _ _ hs => hs) (fun _ _ _ hs => hs) i

theorem Stable.and {P F P' F' : State → Prop} (h : Stable P F) (h' : Stable P' F') :
    Stable (fun s => P s ∧ P' s) (fun s => F s ∧ F' s) where
  engine := fun s e hs hp ho => ⟨h.engine s e hs.1 hp ho, h'.engine s e hs.2 hp ho⟩
  hold := fun n => (h.hold n).and (h'.hold n)
  idle := fun n => (h.idle n).and (h'.idle n)
  ideRead := fun reg kind => (h.ideRead reg kind).and (h'.ideRead reg kind)
  ideWrite := fun reg v kind => (h.ideWrite reg v kind).and (h'.ideWrite reg v kind)
  memRead := fun a ha => (h.memRead a (ha.imp fun _ hs => hs.1)).and (h'.memRead a (ha.imp fun _ hs => hs.2))
  memWrite := fun a v ha => (h.memWrite a v (ha.imp fun _ hs => hs.1)).and (h'.memWrite a v (ha.imp fun _ hs => hs.2))

theorem OwnUpdates.and {P F P' F' : State → Prop} {i : Instr} (h : OwnUpdates P F i) (h' : OwnUpdates P' F' i) :
    OwnUpdates (fun s => P s ∧ P' s) (fun s => F s ∧ F' s) i where
  invalidate := fun hi => (h.invalidate hi).and (h'.invalidate hi)
  pulse := fun hi => (h.pulse hi).and (h'.pulse hi)
  idValid := fun hi s b hs => ⟨h.idValid hi s b hs.1, h'.idValid hi s b hs.2⟩
  idbuf := fun hi s v hs => ⟨h.idbuf hi s v hs.1, h'.idbuf hi s v hs.2⟩
  geometry := fun heads spt hi s hs => ⟨h.geometry heads spt hi s hs.1, h'.geometry heads spt hi s hs.2⟩

theorem State.running_entered {s : State} (hn : s.noReset = true) (hm : s.memoryAnswers = true) (op : Option Instr) :
    (s.entered op).running := ⟨⟨rfl, hn⟩, hm⟩

/-- Without reset `finish` comes to its end (60 R212). -/
theorem finish_running (code : Word) {s : State} (h : s.running) : finish code s = .ok () (s.finished code) := by
  have : s.applyInputs.busy = true := (State.applyInputs_landed h.1.1 h.1.2).busy.trans h.1.1
  simp only [finish, this, if_true]
  rfl

/-- Without reset and with a memory that answers, every operation finishes; what its pseudocode keeps holds just before
`finish`, and the code is its body's (60 R212). -/
theorem exec_running {P F : State → Prop} {i : Instr} {s : State} (h : Stable P F) (ho : OwnUpdates P F i)
    (h0 : P (s.entered (some i))) (hn : s.noReset = true) (hm : s.memoryAnswers = true) :
    ∃ s1 code sb tb, P s1 ∧ s1.running ∧ exec i s = .next (s1.finished code) ∧ P sb ∧ sb.running ∧
      codeOf (bodyOf i) sb = .ok code tb ∧ P tb ∧ tb.running ∧
      hold tb.params.finishLatency { tb with eng := { tb.eng with step := some .finishing } } = .ok () s1 := by
  rcases operation_final (h.and running_fine.stable) (ho.and (running_own i)) ⟨h0, s.running_entered hn hm _⟩ with
    ⟨t, -, hF⟩ | ⟨s1, code, h1, e, sb, tb, hsb, hc, htb, hh⟩
  · exact hF.2.elim
  · refine ⟨s1, code, sb, tb, h1.1, h1.2, ?_, hsb.1, hsb.2, hc, htb.1, htb.2, hh⟩
    rw [exec_eq]
    simp only [finalState, e, finish_running code h1.2]

/-- What `Keeps` says where pseudocode ends with a value. -/
theorem Keeps.ok {α : Type} {P F : State → Prop} {x : EngineM α} (h : Keeps P F x) {s t : State} {a : α} (hs : P s)
    (hx : x s = .ok a t) : P t := by
  have := h s hs
  rw [hx] at this
  exact this

/-- While the outputs are held the registers stay, but for what the host writes to STATUS and CTRL (10 R27). -/
theorem hold_kernel {n : Nat} {s t : State} (hb : s.busy = true) (hn : s.noReset = true) (h : hold n s = .ok () t) :
    t.csr.kernel = s.csr.kernel := by
  have hk : Keeps (fun u : State => (u.busy = true ∧ u.noReset = true) ∧ u.csr.kernel = s.csr.kernel) (fun _ => True)
      (hold n) :=
    keeps_hold
      (fun u e hu hp _ => ⟨⟨by have := hu.1.1; simp only [State.busy, hp] at this ⊢; exact this, hu.1.2⟩, hu.2⟩)
      (fun u hu => by
        rw [clock_unreset hu.1.1 hu.1.2]
        have hl := State.tick_landed hu.1.1 hu.1.2
        exact ⟨⟨hl.busy.trans hu.1.1, State.noReset_tick hu.1.1 hu.1.2⟩, hl.kernel.trans hu.2⟩) n
  exact (hk.ok ⟨⟨hb, hn⟩, rfl⟩ h).2

/-! ## The codes an operation can finish with (60 R210) -/

theorem bind_eq_ok {α β : Type} {x : EngineM α} {f : α → EngineM β} {s t : State} {b : β} (h : (x >>= f) s = .ok b t) :
    ∃ a u, x s = .ok a u ∧ f a u = .ok b t := by
  cases hr : x s with
  | ok a u => rw [bind_ok hr] at h; exact ⟨a, u, rfl, h⟩
  | error e u => rw [bind_error hr] at h; cases h

theorem legalResult_err (e : Err) : legalResult e.code = true := by cases e <;> decide

theorem legalResult_of_lt {w : Word} (h : w.toNat < 2 ^ 31) : legalResult w = true := by
  have : 0 ≤ w.toInt := by
    rw [BitVec.toInt_eq_toNat_of_lt (by omega)]
    exact Int.natCast_nonneg _
  simp [legalResult, this]

theorem validate_ok {dir : Dir} {s t : State} {u : Unit} (h : validate dir s = .ok u t) : t = s ∧ s.valid dir = true := by
  by_cases hv : s.valid dir = true
  · simp [validate, hv, bind, EStateM.bind, get, getThe, MonadStateOf.get, EStateM.get] at h
    simp_all
  · simp [validate, hv, bind, EStateM.bind, get, getThe, MonadStateOf.get, EStateM.get] at h

theorem transferResult_lt {s : State} {dir : Dir} (hv : s.valid dir = true) : s.transferResult.toNat < 2 ^ 31 := by
  simp only [State.valid, Bool.and_eq_true, decide_eq_true_eq] at hv
  have : s.sectors ≤ 0x003FFFFF := hv.1.1.1.2
  simp only [State.transferResult, BitVec.toNat_ofNat, sectorBytes]
  omega

/-- The success value of an operation that runs from `s` (60 R211); of a transfer, that it was valid too. -/
def State.successOf (s : State) (i : Instr) (code : Word) : Prop :=
  match i with
  | .regRd8 _ => code.toNat < 256
  | .regRd16 _ => code.toNat < 65536
  | .regWr8 _ _ | .identify | .setgeom _ _ | .flushDev | .reset => code = 0
  | .read => code = s.transferResult ∧ s.valid .read = true
  | .write => code = s.transferResult ∧ s.valid .write = true
  | .getid => code = 512

theorem State.successOf.lt {s : State} {i : Instr} {code : Word} (h : s.successOf i code) : code.toNat < 2 ^ 31 := by
  cases i with
  | regRd8 reg => exact Nat.lt_trans h (by decide)
  | regRd16 reg => exact Nat.lt_trans h (by decide)
  | read => rw [h.1]; exact transferResult_lt h.2
  | write => rw [h.1]; exact transferResult_lt h.2
  | regWr8 reg val => rw [show code = 0 from h]; decide
  | identify => rw [show code = 0 from h]; decide
  | setgeom heads spt => rw [show code = 0 from h]; decide
  | flushDev => rw [show code = 0 from h]; decide
  | reset => rw [show code = 0 from h]; decide
  | getid => rw [show code = 512 from h]; decide

/-- Pseudocode that comes to its end without an error ends with the success value of its operation. -/
theorem body_success {i : Instr} {s t : State} {code : Word} (hb : s.busy = true) (h : bodyOf i s = .ok code t) :
    s.successOf i code := by
  have hst := (fine_held (f := Csrs.argCount) (fun _ => rfl) s.csr.argCount s.params s.eng.op).stable
  have how := own_held (f := Csrs.argCount) (fun _ => rfl) s.csr.argCount s.params s.eng.op (i := i)
    (fun _ _ _ _ => rfl) fun _ _ _ _ => rfl
  have h0 : Held Csrs.argCount s.csr.argCount s.params s.eng.op s := ⟨hb, rfl, rfl, rfl⟩
  cases i with
  | regRd8 reg =>
    obtain ⟨_, _, -, h⟩ := bind_eq_ok h
    obtain ⟨v, _, -, h⟩ := bind_eq_ok h
    cases h
    have := (Half.lo v).isLt
    simp only [State.successOf, BitVec.toNat_setWidth]
    omega
  | regWr8 reg val =>
    obtain ⟨_, _, -, h⟩ := bind_eq_ok h
    obtain ⟨_, _, -, h⟩ := bind_eq_ok h
    cases h
    rfl
  | regRd16 reg =>
    obtain ⟨_, _, -, h⟩ := bind_eq_ok h
    obtain ⟨v, _, -, h⟩ := bind_eq_ok h
    cases h
    have := v.isLt
    simp only [State.successOf, BitVec.toNat_setWidth]
    omega
  | identify =>
    obtain ⟨_, _, -, h⟩ := bind_eq_ok h
    obtain ⟨_, _, -, h⟩ := bind_eq_ok h
    obtain ⟨_, _, -, h⟩ := bind_eq_ok h
    obtain ⟨_, _, -, h⟩ := bind_eq_ok h
    obtain ⟨_, _, -, h⟩ := bind_eq_ok h
    obtain ⟨_, _, -, h⟩ := bind_eq_ok h
    obtain ⟨_, _, -, h⟩ := bind_eq_ok h
    cases h
    rfl
  | read =>
    have hf : Held Csrs.argCount s.csr.argCount s.params s.eng.op t := (hst.body how).ok h0 h
    obtain ⟨_, _, hv, h⟩ := bind_eq_ok h
    obtain ⟨rfl, hv⟩ := validate_ok hv
    obtain ⟨_, _, -, h⟩ := bind_eq_ok h
    obtain ⟨_, _, -, h⟩ := bind_eq_ok h
    obtain ⟨_, _, -, h⟩ := bind_eq_ok h
    obtain ⟨_, _, hg, h⟩ := bind_eq_ok h
    cases hg
    cases h
    exact ⟨by simp only [State.transferResult, State.sectors, hf.view], hv⟩
  | write =>
    have hf : Held Csrs.argCount s.csr.argCount s.params s.eng.op t := (hst.body how).ok h0 h
    obtain ⟨_, _, hv, h⟩ := bind_eq_ok h
    obtain ⟨rfl, hv⟩ := validate_ok hv
    obtain ⟨_, _, -, h⟩ := bind_eq_ok h
    obtain ⟨_, _, -, h⟩ := bind_eq_ok h
    obtain ⟨_, _, -, h⟩ := bind_eq_ok h
    obtain ⟨_, _, -, h⟩ := bind_eq_ok h
    obtain ⟨_, _, hg, h⟩ := bind_eq_ok h
    cases hg
    cases h
    exact ⟨by simp only [State.transferResult, State.sectors, hf.view], hv⟩
  | setgeom heads spt =>
    by_cases hl : (!geometryLegal heads spt) = true
    · simp only [bodyOf, bodySetgeom, hl, if_true] at h
      obtain ⟨_, _, hr, -⟩ := bind_eq_ok h
      cases hr
    · simp only [bodyOf, bodySetgeom, hl, if_false, Bool.false_eq_true] at h
      obtain ⟨_, _, -, h⟩ := bind_eq_ok h
      obtain ⟨_, _, -, h⟩ := bind_eq_ok h
      obtain ⟨_, _, -, h⟩ := bind_eq_ok h
      obtain ⟨_, _, -, h⟩ := bind_eq_ok h
      cases h
      rfl
  | flushDev =>
    obtain ⟨_, _, -, h⟩ := bind_eq_ok h
    obtain ⟨_, _, -, h⟩ := bind_eq_ok h
    obtain ⟨_, _, -, h⟩ := bind_eq_ok h
    obtain ⟨_, _, -, h⟩ := bind_eq_ok h
    cases h
    rfl
  | reset =>
    obtain ⟨_, _, -, h⟩ := bind_eq_ok h
    obtain ⟨_, _, -, h⟩ := bind_eq_ok h
    obtain ⟨_, _, -, h⟩ := bind_eq_ok h
    obtain ⟨_, _, -, h⟩ := bind_eq_ok h
    obtain ⟨_, _, -, h⟩ := bind_eq_ok h
    obtain ⟨_, _, -, h⟩ := bind_eq_ok h
    obtain ⟨_, _, -, h⟩ := bind_eq_ok h
    cases h
    rfl
  | getid =>
    obtain ⟨u, t', hg, h⟩ := bind_eq_ok h
    cases hg
    split at h
    · obtain ⟨_, _, hr, -⟩ := bind_eq_ok h
      cases hr
    · obtain ⟨_, _, -, h⟩ := bind_eq_ok h
      obtain ⟨_, _, -, h⟩ := bind_eq_ok h
      cases h
      rfl

/-- The code of a body: its success value, or the code of an error that it raised. -/
theorem codeOf_cases {x : EngineM Word} {s t : State} {code : Word} (h : codeOf x s = .ok code t) :
    x s = .ok code t ∨ ∃ e, x s = .error (.raised e) t ∧ code = e.code := by
  unfold codeOf at h
  split at h
  · rename_i e u hr
    cases h
    exact .inr ⟨e, hr, rfl⟩
  · exact .inl h

/-- Every code an operation can finish with is one of the table. -/
theorem code_legal {i : Instr} {s t : State} {code : Word} (hb : s.busy = true)
    (h : codeOf (bodyOf i) s = .ok code t) : legalResult code = true := by
  rcases codeOf_cases h with h | ⟨e, -, rfl⟩
  · exact legalResult_of_lt (body_success hb h).lt
  · exact legalResult_err e

end Sys2Proof.Machine
end

