-- ==== Sys2Proof/Laws/Invariant.lean ====
section
/-! SUPPORT. The parts of the invariant of Sys2Proof/Safety.lean, each kept by a clock cycle and by every operation. -/

namespace Sys2Proof.Machine

/-! ## Registers, memory and records -/

/-- The part of the invariant that every small update keeps. -/
structure State.CoreInv (s : State) : Prop where
  params : s.params.wf
  memWf : s.mem.wf = true
  memBelow : s.mem.below s.bufSize = true
  argBuf : s.csr.argBuf &&& bufMask s.params.bufAw = s.csr.argBuf
  notBoth : ¬(s.busy = true ∧ s.csr.done = true)
  noOp : s.busy = false → s.eng.op = none ∧ s.eng.step = none
  bufPort : s.busy = false → s.buf = none
  result : s.csr.result = resultAfter s.trace
  legal : legalResult s.csr.result = true

theorem State.bufSize_pos (s : State) : 0 < s.bufSize := Nat.two_pow_pos _

theorem mask_absorb (x m : Quad) : x &&& m &&& m = x &&& m := by rw [BitVec.and_assoc, BitVec.and_self]

theorem resultAfter_note {e : Event} (h : e.isNote = true) (es : List Event) : resultAfter (e :: es) = resultAfter es := by
  cases e with
  | finish c => exact absurd h (by simp [Event.isNote])
  | blockReset => exact absurd h (by simp [Event.isNote])
  | _ => rfl

/-- A register write keeps the part of the invariant that the registers have. -/
theorem State.CoreInv.writeCsr {s : State} (h : s.CoreInv) (r : Csr) (w : Word) : (s.writeCsr r w).CoreInv := by
  have conf : r.isConfig = true → s.busy = false → ({ s with csr := s.csr.writeConfig s.params.bufAw r w } : State).CoreInv := by
    intro hc hb
    have hd : (s.csr.writeConfig s.params.bufAw r w).done = s.csr.done ∧
        (s.csr.writeConfig s.params.bufAw r w).result = s.csr.result := by
      cases r <;> exact ⟨rfl, rfl⟩
    refine ⟨h.params, h.memWf, h.memBelow, ?_, ?_, h.noOp, h.bufPort, hd.2.trans h.result, by rw [hd.2]; exact h.legal⟩
    · cases r with
      | argBufLo => exact mask_absorb _ _
      | argBufHi => exact mask_absorb _ _
      | _ => exact h.argBuf
    · intro hh
      have h1 : s.busy = true := hh.1
      rw [hb] at h1
      cases h1
  have drop : s.busy = true → ({ s with csr := { s.csr with cfgDrop := true } } : State).CoreInv := fun _ =>
    ⟨h.params, h.memWf, h.memBelow, h.argBuf, h.notBoth, h.noOp, h.bufPort, h.result, h.legal⟩
  have both : r.isConfig = true → (if s.busy then { s with csr := { s.csr with cfgDrop := true } }
      else { s with csr := s.csr.writeConfig s.params.bufAw r w } : State).CoreInv := by
    intro hc
    cases hb : s.busy with
    | true => exact drop hb
    | false => exact conf hc hb
  cases r with
  | cmd =>
    unfold State.writeCsr
    simp only []
    split
    · exact ⟨h.params, h.memWf, h.memBelow, h.argBuf, h.notBoth, h.noOp, h.bufPort, h.result, h.legal⟩
    · exact ⟨h.params, h.memWf, h.memBelow, h.argBuf, fun hh => by simp at hh, fun hb => by simp at hb,
        fun hb => by simp at hb, h.result, h.legal⟩
  | status =>
    refine ⟨h.params, h.memWf, h.memBelow, h.argBuf, ?_, h.noOp, h.bufPort, h.result, h.legal⟩
    rintro ⟨h1, h2⟩
    simp only [State.writeCsr, Csrs.clearStatus, Bool.and_eq_true] at h2
    exact h.notBoth ⟨h1, h2.1⟩
  | ctrl => exact ⟨h.params, h.memWf, h.memBelow, h.argBuf, h.notBoth, h.noOp, h.bufPort, h.result, h.legal⟩
  | result | lastStatus | idStatus => exact h
  | _ => exact both rfl

theorem coreInv_tickClosed : TickClosed State.CoreInv where
  inputs := fun s l h => ⟨h.params, h.memWf, h.memBelow, h.argBuf, h.notBoth, h.noOp, h.bufPort, h.result, h.legal⟩
  host := fun s a h => by
    cases a with
    | read off => exact ⟨h.params, h.memWf, h.memBelow, h.argBuf, h.notBoth, h.noOp, h.bufPort, h.result, h.legal⟩
    | write off w =>
      have : (s.writeOffset off w).CoreInv := by
        unfold State.writeOffset
        split
        · exact h.writeCsr _ w
        · exact h
      exact ⟨this.params, this.memWf, this.memBelow, this.argBuf, this.notBoth, this.noOp, this.bufPort, this.result,
        this.legal⟩
  hostInReset := fun s a h => by
    cases a <;> exact ⟨h.params, h.memWf, h.memBelow, h.argBuf, h.notBoth, h.noOp, h.bufPort, h.result, h.legal⟩
  agent := fun s a h => by
    cases a with
    | read a =>
      unfold State.agentAccess
      simp only []
      split <;>
        exact ⟨h.params, h.memWf, h.memBelow, h.argBuf, h.notBoth, h.noOp, h.bufPort, h.result, h.legal⟩
    | write a b =>
      exact ⟨h.params, Memory.wf_write h.memWf _ _, Memory.below_write (Nat.mod_lt _ s.bufSize_pos) b h.memBelow, h.argBuf,
        h.notBoth, h.noOp, h.bufPort, h.result, h.legal⟩
  reset := fun s h => by
    refine ⟨h.params, h.memWf, h.memBelow, ?_, ?_, fun _ => ⟨rfl, rfl⟩, fun _ => rfl, ?_, ?_⟩
    · show (0 : Quad) &&& bufMask s.params.bufAw = 0
      simp
    · simp
    · unfold State.blockReset State.resetEvents
      simp only []
      split <;> rfl
    · show legalResult 0 = true
      decide
  endCycle := fun s h => ⟨h.params, h.memWf, h.memBelow, h.argBuf, h.notBoth, h.noOp, h.bufPort, h.result, h.legal⟩

/-- A clock cycle of an operation keeps what every clock cycle keeps. -/
theorem TickClosed.keeps_clock {P : State → Prop} (h : TickClosed P) :
    Keeps (fun s => P s ∧ s.busy = true) P clock := by
  intro s hs
  have ht := h.tick hs.1
  unfold clock
  by_cases hb : s.tick.busy = true
  · rw [if_pos hb]; exact ⟨ht, hb⟩
  · rw [if_neg hb]; exact ht

theorem coreInv_fine : Fine (fun s => s.CoreInv ∧ s.busy = true) State.CoreInv where
  engine := fun s e h hp ho => by
    have hb : ({ s with eng := e } : State).busy = true := by
      have := h.2
      simp only [State.busy, hp] at this ⊢
      exact this
    refine ⟨⟨h.1.params, h.1.memWf, h.1.memBelow, h.1.argBuf, ?_, fun hh => ?_, fun hh => ?_, h.1.result, h.1.legal⟩, hb⟩
    · exact fun hh => h.1.notBoth ⟨h.2, hh.2⟩
    · rw [hb] at hh; simp at hh
    · rw [hb] at hh; simp at hh
  ide := fun s p h =>
    ⟨⟨h.1.params, h.1.memWf, h.1.memBelow, h.1.argBuf, h.1.notBoth, h.1.noOp, h.1.bufPort, h.1.result, h.1.legal⟩, h.2⟩
  buf := fun s b h =>
    ⟨⟨h.1.params, h.1.memWf, h.1.memBelow, h.1.argBuf, h.1.notBoth, h.1.noOp, fun hh => by
      rw [show ({ s with buf := b } : State).busy = true from h.2] at hh; simp at hh, h.1.result, h.1.legal⟩, h.2⟩
  clock := coreInv_tickClosed.keeps_clock
  note := fun s e h he =>
    ⟨⟨h.1.params, h.1.memWf, h.1.memBelow, h.1.argBuf, h.1.notBoth, h.1.noOp, h.1.bufPort,
      h.1.result.trans (resultAfter_note he s.trace).symm, h.1.legal⟩, h.2⟩
  sample := fun s reg kind v l d h =>
    ⟨⟨h.1.params, h.1.memWf, h.1.memBelow, h.1.argBuf, h.1.notBoth, h.1.noOp, h.1.bufPort, h.1.result, h.1.legal⟩, h.2⟩
  status := fun s b h =>
    ⟨⟨h.1.params, h.1.memWf, h.1.memBelow, h.1.argBuf, h.1.notBoth, h.1.noOp, h.1.bufPort, h.1.result, h.1.legal⟩, h.2⟩
  answer := takeAnswer_cases (fun s l h =>
    ⟨⟨h.1.params, h.1.memWf, h.1.memBelow, h.1.argBuf, h.1.notBoth, h.1.noOp, h.1.bufPort, h.1.result, h.1.legal⟩, h.2⟩)
    fun s h _ => h.1
  draw := fun s n h =>
    ⟨⟨h.1.params, h.1.memWf, h.1.memBelow, h.1.argBuf, h.1.notBoth, h.1.noOp, h.1.bufPort, h.1.result, h.1.legal⟩, h.2⟩
  mem := fun s a v h =>
    ⟨⟨h.1.params, Memory.wf_writeHalf h.1.memWf _ _ _, Memory.below_writeHalf s.bufSize_pos h.1.memBelow _ _, h.1.argBuf,
      h.1.notBoth, h.1.noOp, h.1.bufPort, h.1.result, h.1.legal⟩, h.2⟩

/-- The operation's own updates keep that part of the invariant. -/
theorem coreInv_own (i : Instr) : OwnUpdates (fun s => s.CoreInv ∧ s.busy = true) State.CoreInv i where
  invalidate := fun _ =>
    (coreInv_fine.stable.goto _).bind fun _ => Keeps.get fun _ _ =>
      Keeps.bind (Keeps.modify fun _ h =>
        ⟨⟨h.1.params, h.1.memWf, h.1.memBelow, h.1.argBuf, h.1.notBoth, h.1.noOp, h.1.bufPort, h.1.result, h.1.legal⟩,
          h.2⟩) fun _ =>
      Keeps.bind (Keeps.modify fun _ h =>
        ⟨⟨h.1.params, h.1.memWf, h.1.memBelow, h.1.argBuf, h.1.notBoth, h.1.noOp, h.1.bufPort, h.1.result, h.1.legal⟩,
          h.2⟩) fun _ =>
      coreInv_fine.clock.bind fun _ => Keeps.modify fun _ h =>
        ⟨⟨h.1.params, h.1.memWf, h.1.memBelow, h.1.argBuf, h.1.notBoth, h.1.noOp, h.1.bufPort, h.1.result, h.1.legal⟩,
          h.2⟩
  pulse := fun _ =>
    (coreInv_fine.stable.goto _).bind fun _ => (coreInv_fine.noted rfl).bind fun _ => (coreInv_fine.setIde _).bind fun _ =>
      Keeps.get fun _ _ => (coreInv_fine.hold _).bind fun _ => coreInv_fine.setIde _
  idValid := fun _ _ _ h =>
    ⟨⟨h.1.params, h.1.memWf, h.1.memBelow, h.1.argBuf, h.1.notBoth, h.1.noOp, h.1.bufPort, h.1.result, h.1.legal⟩, h.2⟩
  idbuf := fun _ _ _ h =>
    ⟨⟨h.1.params, h.1.memWf, h.1.memBelow, h.1.argBuf, h.1.notBoth, h.1.noOp, h.1.bufPort, h.1.result, h.1.legal⟩, h.2⟩
  geometry := fun _ _ _ _ h =>
    ⟨⟨h.1.params, h.1.memWf, h.1.memBelow, h.1.argBuf, h.1.notBoth, h.1.noOp, h.1.bufPort, h.1.result, h.1.legal⟩, h.2⟩

/-! ## The ports -/

/-- The IDE port is idle and the invalidate output is not valid (40 R106, 10 R36). -/
def State.portsIdle (s : State) : Prop := s.ide.isIdle = true ∧ s.inv = none

/-- The port outputs of the state before, or those of a block reset. -/
theorem ports_tickClosed : TickClosed State.portsIdle where
  inputs := fun _ _ h => h
  host := fun s a h => by
    cases a with
    | read off => exact h
    | write off w =>
      have : (s.writeOffset off w).ide = s.ide ∧ (s.writeOffset off w).inv = s.inv := by
        unfold State.writeOffset
        split
        · rename_i r _
          cases r with
          | cmd => simp only [State.writeCsr]; split <;> exact ⟨rfl, rfl⟩
          | status | ctrl | result | lastStatus | idStatus => exact ⟨rfl, rfl⟩
          | _ => simp only [State.writeCsr]; split <;> exact ⟨rfl, rfl⟩
        · exact ⟨rfl, rfl⟩
      exact ⟨(congrArg IdePort.isIdle this.1).trans h.1, this.2.trans h.2⟩
  hostInReset := fun s a h => by cases a <;> exact h
  agent := fun s a h =>
    ⟨(congrArg IdePort.isIdle (State.agentAccess_landed s a).ide).trans h.1, (State.agentAccess_landed s a).inv.trans h.2⟩
  reset := fun s _ => ⟨rfl, rfl⟩
  endCycle := fun _ h => h

/-- The outputs are as given, while an operation runs. -/
def State.portsAre (s : State) (p : IdePort) (v : Option InvRange) : Prop := s.busy = true ∧ s.ide = p ∧ s.inv = v

theorem State.afterReset_portsIdle {s : State} (h : AfterReset s) : s.portsIdle := ⟨by rw [h.ide]; rfl, h.inv⟩

/-- The clock holds the outputs, or a block reset makes them idle. -/
theorem keeps_clock_ports (p : IdePort) (v : Option InvRange) :
    Keeps (fun s => s.portsAre p v) State.portsIdle clock :=
  keeps_clock (fun _ h => h.1) (fun _ h hl => ⟨hl.busy.trans h.1, hl.ide.trans h.2.1, hl.inv.trans h.2.2⟩)
    fun _ _ h => State.afterReset_portsIdle h

/-- `Q` of the state that is left, and no error raised; `F` where the operation is halted. -/
def Went {α : Type} (Q F : State → Prop) : EStateM.Result Exit State α → Prop
  | .ok _ t => Q t
  | .error (.raised _) _ => False
  | .error .halted t => F t

/-- Pseudocode that raises nothing leads from `P` to `Q`; where the operation is halted, `F` holds. -/
def Leads {α : Type} (P Q F : State → Prop) (x : EngineM α) : Prop := ∀ s, P s → Went Q F (x s)

theorem Leads.bind {α β : Type} {P Q R F : State → Prop} {x : EngineM α} {f : α → EngineM β} (hx : Leads P Q F x)
    (hf : ∀ a, Leads Q R F (f a)) : Leads P R F (x >>= f) := by
  intro s hs
  have h := hx s hs
  match hr : x s with
  | .ok a t => rw [hr] at h; rw [bind_ok hr]; exact hf a t h
  | .error (.raised e) t => rw [hr] at h; exact h.elim
  | .error .halted t => rw [hr] at h; rw [bind_error hr]; exact h

theorem Leads.pure {α : Type} {P F : State → Prop} (a : α) : Leads P P F (pure a : EngineM α) := fun _ h => h

theorem Leads.modify {P Q F : State → Prop} {f : State → State} (h : ∀ s, P s → Q (f s)) :
    Leads P Q F (modify f : EngineM Unit) := fun s hs => h s hs

theorem Leads.keeps {α : Type} {P F : State → Prop} {x : EngineM α} (h : Leads P P F x) : Keeps P F x := by
  intro s hs
  have h1 := h s hs
  match hr : x s with
  | .ok a t => rw [hr] at h1; exact h1
  | .error (.raised e) t => rw [hr] at h1; exact h1.elim
  | .error .halted t => rw [hr] at h1; exact h1

theorem leads_hold {P F : State → Prop} (he : ∀ s e, P s → e.phase = s.eng.phase → e.op = s.eng.op → P { s with eng := e })
    (hc : Keeps P F clock) (n : Nat) : Leads P P F (hold n) := by
  intro s hs
  have h1 := keeps_hold he hc n s hs
  match hr : hold n s with
  | .ok a t => rw [hr] at h1; exact h1
  | .error (.raised e) t => exact hold_not_raised n s e t hr
  | .error .halted t => rw [hr] at h1; exact h1

/-- What a bus cycle, a gap and a BUF access do to a predicate that only the clock, the port, the events and LAST_STATUS
could break. -/
theorem portsAre_engine (p : IdePort) (v : Option InvRange) (s : State) (e : Engine) (h : s.portsAre p v)
    (hp : e.phase = s.eng.phase) (_ : e.op = s.eng.op) : ({ s with eng := e } : State).portsAre p v := by
  refine ⟨?_, h.2⟩
  have := h.1
  simp only [State.busy, hp] at this ⊢
  exact this

theorem leads_setEngine_ports {f : Engine → Engine} (hf : ∀ e, (f e).phase = e.phase ∧ (f e).op = e.op) (p : IdePort)
    (v : Option InvRange) :
    Leads (fun s => s.portsAre p v) (fun s => s.portsAre p v) State.portsIdle (setEngine f) :=
  Leads.modify fun s h => portsAre_engine p v s _ h (hf _).1 (hf _).2

theorem leads_hold_ports (p : IdePort) (v : Option InvRange) (n : Nat) :
    Leads (fun s => s.portsAre p v) (fun s => s.portsAre p v) State.portsIdle (hold n) :=
  leads_hold (portsAre_engine p v) (keeps_clock_ports p v) n

theorem leads_busPhase_ports (b : BusPhase) (p : IdePort) (v : Option InvRange) (n : Nat) :
    Leads (fun s => s.portsAre p v) (fun s => s.portsAre p v) State.portsIdle (busPhase b n) :=
  Leads.bind (leads_setEngine_ports (fun _ => ⟨rfl, rfl⟩) p v) fun _ => leads_hold_ports p v n

theorem leads_setIde_ports (f : IdePort → IdePort) (p : IdePort) (v : Option InvRange) :
    Leads (fun s => s.portsAre p v) (fun s => s.portsAre (f p) v) State.portsIdle (setIde f) :=
  Leads.modify fun _ h => ⟨h.1, congrArg f h.2.1, h.2.2⟩

theorem leads_cycleTimes {P F : State → Prop} (kind : Kind) : Leads P P F (cycleTimes kind) := fun _ h => h

theorem leads_sample {P Q F : State → Prop} (reg : IdeReg) (kind : Kind)
    (h : ∀ s v l d, P s → Q (({ s with device := l, deviceDraws := d } : State).record (.ideRead reg kind v))) :
    Leads P Q F (sampleBus reg kind) := by
  intro s hs
  unfold sampleBus
  split
  · exact h s _ _ s.deviceDraws hs
  · exact h s _ s.device _ hs

/-- The port of a bus cycle's end, from an idle port (40 R104). -/
theorem leads_ideRead_ports (reg : IdeReg) (kind : Kind) (p : IdePort) (v : Option InvRange) :
    Leads (fun s => s.portsAre p v)
      (fun s => s.portsAre { p with da := reg, cs0N := true, dd := none, diorN := true } v) State.portsIdle
      (ideRead reg kind) :=
  (leads_cycleTimes kind).bind fun _ => (leads_setIde_ports _ p v).bind fun _ => (leads_busPhase_ports _ _ v _).bind fun _ =>
    (leads_setIde_ports _ _ v).bind fun _ => (leads_busPhase_ports _ _ v _).bind fun _ =>
    (leads_sample reg kind fun _ _ _ _ h => h).bind fun _ => (leads_setIde_ports _ _ v).bind fun _ =>
    (leads_busPhase_ports _ _ v _).bind fun _ => (leads_setIde_ports _ _ v).bind fun _ =>
    (leads_busPhase_ports _ _ v _).bind fun _ =>
    Leads.bind (leads_setEngine_ports (fun _ => ⟨rfl, rfl⟩) _ v) fun _ => by
      split
      · refine Leads.bind (Q := fun s => s.portsAre { p with da := reg, cs0N := true, dd := none, diorN := true } v)
          (Leads.modify fun _ h => h) fun _ => Leads.pure _
      · exact Leads.pure _

theorem leads_ideWrite_ports (reg : IdeReg) (b : Half) (kind : Kind) (p : IdePort) (v : Option InvRange) :
    Leads (fun s => s.portsAre p v)
      (fun s => s.portsAre { p with da := reg, cs0N := true, dd := none, diowN := true } v) State.portsIdle
      (ideWrite reg b kind) :=
  (leads_cycleTimes kind).bind fun _ => (leads_setIde_ports _ p v).bind fun _ => (leads_busPhase_ports _ _ v _).bind fun _ =>
    (leads_setIde_ports _ _ v).bind fun _ => (leads_busPhase_ports _ _ v _).bind fun _ =>
    (leads_setIde_ports _ _ v).bind fun _ => Leads.bind (Leads.modify fun _ h => h) fun _ =>
    (leads_busPhase_ports _ _ v _).bind fun _ => (leads_setIde_ports _ _ v).bind fun _ =>
    (leads_busPhase_ports _ _ v _).bind fun _ => leads_setEngine_ports (fun _ => ⟨rfl, rfl⟩) _ v

/-- While an operation runs, between its bus cycles. -/
def State.portsRun (s : State) : Prop := s.portsIdle ∧ s.busy = true

/-- Every idle port is some port. -/
theorem keeps_of_ports {α : Type} {x : EngineM α} {g : IdePort → IdePort} (hg : ∀ p : IdePort, p.isIdle = true → (g p).isIdle = true)
    (h : ∀ p v, Leads (fun s => s.portsAre p v) (fun s => s.portsAre (g p) v) State.portsIdle x) :
    Keeps State.portsRun State.portsIdle x := by
  intro s hs
  have h1 := h s.ide s.inv s ⟨hs.2, rfl, rfl⟩
  match hr : x s with
  | .ok a t =>
    rw [hr] at h1
    exact ⟨⟨by rw [h1.2.1]; exact hg _ hs.1.1, by rw [h1.2.2]; exact hs.1.2⟩, h1.1⟩
  | .error (.raised e) t => rw [hr] at h1; exact h1.elim
  | .error .halted t => rw [hr] at h1; exact h1

theorem portsRun_engine (s : State) (e : Engine) (h : s.portsRun) (hp : e.phase = s.eng.phase) (_ : e.op = s.eng.op) :
    ({ s with eng := e } : State).portsRun := by
  refine ⟨h.1, ?_⟩
  have := h.2
  simp only [State.busy, hp] at this ⊢
  exact this

theorem keeps_hold_ports (n : Nat) : Keeps State.portsRun State.portsIdle (hold n) :=
  keeps_hold portsRun_engine ports_tickClosed.keeps_clock n

theorem keeps_handshake_ports (a : BufAccess) : Keeps State.portsRun State.portsIdle (bufHandshake a) :=
  keeps_bufHandshake (fun _ _ h => h) keeps_hold_ports (takeAnswer_cases (fun _ _ h => h) fun _ h _ => h.1) a

theorem keeps_takeByte_ports (a : Nat) : Keeps State.portsRun State.portsIdle (takeByte a) := by
  intro s hs
  unfold takeByte
  split <;> exact hs

theorem ports_stable : Stable State.portsRun State.portsIdle where
  engine := portsRun_engine
  hold := keeps_hold_ports
  idle := fun n => Keeps.bind (Keeps.modify fun _ h => h) fun _ => keeps_hold_ports n
  ideRead := fun reg kind => keeps_of_ports (fun p h => by simp_all [IdePort.isIdle]) (leads_ideRead_ports reg kind)
  ideWrite := fun reg b kind => keeps_of_ports (fun p h => by simp_all [IdePort.isIdle]) (leads_ideWrite_ports reg b kind)
  memRead := fun a _ => Keeps.get fun _ _ => (keeps_handshake_ports _).bind fun _ => (keeps_takeByte_ports _).bind fun _ =>
    (keeps_takeByte_ports _).bind fun _ => Keeps.bind (Keeps.modify fun _ h => h) fun _ => Keeps.pure _
  memWrite := fun a v _ => Keeps.get fun _ _ => (keeps_handshake_ports _).bind fun _ =>
    Keeps.bind (Keeps.modify fun _ h => h) fun _ => Keeps.modify fun _ h => h

/-- The invalidate and reset pulses end with the outputs idle (42 R186, 41 R147). -/
theorem ports_own (i : Instr) : OwnUpdates State.portsRun State.portsIdle i where
  invalidate := fun _ => by
    intro s hs
    have h : Leads State.portsRun State.portsRun State.portsIdle invalidate := by
      refine Leads.bind (Q := State.portsRun) (Leads.modify fun _ h => h) fun _ => ?_
      intro s hs
      have hl := ((Leads.modify (F := State.portsIdle) (P := fun s => s.portsRun)
          (Q := fun s' => s'.busy = true ∧ s'.ide.isIdle = true) (f := fun s' =>
            { s'.record (.invalidate s.csr.argLba s.csr.argCount) with
              inv := some { lba := s.csr.argLba, count := s.csr.argCount } }) fun _ h => ⟨h.2, h.1.1⟩).bind fun _ =>
        Leads.bind (Q := fun s' => s'.busy = true ∧ s'.ide.isIdle = true) (f := fun _ =>
            (modify fun s => { s with inv := none } : EngineM Unit)) (R := State.portsRun) (x := clock) (by
          intro s hs
          rcases State.tick_cases hs.1 with h | h
          · have : s.tick.busy = true := h.busy.trans hs.1
            simp only [clock, this, if_true]
            exact ⟨this, by rw [h.ide]; exact hs.2⟩
          · have : s.tick.busy = false := h.busy
            simp only [clock, this, Bool.false_eq_true, if_false]
            exact State.afterReset_portsIdle h) fun _ => Leads.modify fun _ h => ⟨⟨h.2, rfl⟩, h.1⟩)
      exact hl s hs
    exact h.keeps s hs
  pulse := fun _ => by
    refine keeps_of_ports (g := fun p => { p with resetN := true }) (fun p h => by simp_all [IdePort.isIdle]) fun p v => ?_
    exact Leads.bind (leads_setEngine_ports (fun _ => ⟨rfl, rfl⟩) p v) fun _ =>
      Leads.bind (Leads.modify fun _ h => h) fun _ => (leads_setIde_ports _ p v).bind fun _ => fun s hs =>
      ((leads_hold_ports { p with resetN := false } v s.params.tRstPw).bind fun _ => leads_setIde_ports _ _ v) s hs
  idValid := fun _ _ _ h => h
  idbuf := fun _ _ _ h => h
  geometry := fun _ _ _ _ h => h

/-! ## LAST_STATUS -/

/-- LAST_STATUS is the latest status byte read (10 R31, 40 R109). -/
def State.statusInv (s : State) : Prop := s.csr.lastStatus = statusAfter s.trace

/-- While an operation runs, between its bus cycles. -/
def State.statusRun (s : State) : Prop := s.statusInv ∧ s.busy = true

theorem statusInv_tickClosed : TickClosed State.statusInv where
  inputs := fun _ _ h => h
  host := fun s a h => by
    cases a with
    | read off => exact h
    | write off w =>
      have : (s.writeOffset off w).csr.lastStatus = s.csr.lastStatus ∧ (s.writeOffset off w).trace = s.trace := by
        unfold State.writeOffset
        split
        · rename_i r _
          cases r with
          | cmd => simp only [State.writeCsr]; split <;> exact ⟨rfl, rfl⟩
          | status | ctrl | result | lastStatus | idStatus => exact ⟨rfl, rfl⟩
          | _ => simp only [State.writeCsr]; split <;> exact ⟨rfl, rfl⟩
        · exact ⟨rfl, rfl⟩
      show (s.writeOffset off w).csr.lastStatus = statusAfter (s.writeOffset off w).trace
      rw [this.1, this.2]
      exact h
  hostInReset := fun s a h => by cases a <;> exact h
  agent := fun s a h => by
    have hl := State.agentAccess_landed s a
    have hk : (s.agentAccess a).csr.lastStatus = s.csr.lastStatus := (congrArg Csrs.lastStatus hl.kernel : _)
    obtain ⟨es, he, hn⟩ := hl.events
    show (s.agentAccess a).csr.lastStatus = statusAfter (s.agentAccess a).trace
    rw [hk, he, (statusAfter_append hn _).1]
    exact h
  reset := fun s _ => by
    show (0 : Byte) = statusAfter (s.resetEvents ++ s.trace)
    unfold State.resetEvents
    split <;> rfl
  endCycle := fun _ h => h

/-- While an operation runs, the trace says that the latest status byte read is `b`. -/
def State.statusIs (b : Byte) (s : State) : Prop := statusAfter s.trace = b ∧ s.busy = true

theorem Landed.statusAfter {s t : State} (h : Landed s t) :
    Sys2Proof.Machine.statusAfter t.trace = Sys2Proof.Machine.statusAfter s.trace := by
  obtain ⟨es, he, hn⟩ := h.events
  rw [he, (statusAfter_append hn _).1]

theorem AfterReset.statusInv {s : State} (h : AfterReset s) : s.statusInv := by
  obtain ⟨k, hk⟩ := h.csr
  show s.csr.lastStatus = Sys2Proof.Machine.statusAfter s.trace
  rw [hk, h.status]
  rfl

theorem statusIs_engine (b : Byte) (s : State) (e : Engine) (h : s.statusIs b) (hp : e.phase = s.eng.phase)
    (_ : e.op = s.eng.op) : ({ s with eng := e } : State).statusIs b := by
  refine ⟨h.1, ?_⟩
  have := h.2
  simp only [State.busy, hp] at this ⊢
  exact this

theorem keeps_clock_status (b : Byte) : Keeps (State.statusIs b) State.statusInv clock :=
  keeps_clock (fun _ h => h.2) (fun _ h hl => ⟨hl.statusAfter.trans h.1, hl.busy.trans h.2⟩) fun _ _ h => h.statusInv

theorem leads_busPhase_status (b : Byte) (p : BusPhase) (n : Nat) :
    Leads (State.statusIs b) (State.statusIs b) State.statusInv (busPhase p n) :=
  Leads.bind (Leads.modify fun s h => statusIs_engine b s _ h rfl rfl) fun _ =>
    leads_hold (statusIs_engine b) (keeps_clock_status b) n

theorem leads_same_status {f : State → State} (b : Byte) (hf : ∀ s, (f s).trace = s.trace ∧ (f s).busy = s.busy) :
    Leads (State.statusIs b) (State.statusIs b) State.statusInv (modify f : EngineM Unit) :=
  Leads.modify fun s h => ⟨by rw [(hf s).1]; exact h.1, by rw [(hf s).2]; exact h.2⟩

theorem statusRun_engine (s : State) (e : Engine) (h : s.statusRun) (hp : e.phase = s.eng.phase) (_ : e.op = s.eng.op) :
    ({ s with eng := e } : State).statusRun := by
  refine ⟨h.1, ?_⟩
  have := h.2
  simp only [State.busy, hp] at this ⊢
  exact this

theorem keeps_hold_statusRun (n : Nat) : Keeps State.statusRun State.statusInv (hold n) :=
  keeps_hold statusRun_engine statusInv_tickClosed.keeps_clock n

theorem keeps_busPhase_statusRun (p : BusPhase) (n : Nat) : Keeps State.statusRun State.statusInv (busPhase p n) :=
  Keeps.bind (keeps_setEngine statusRun_engine fun _ => ⟨rfl, rfl⟩) fun _ => keeps_hold_statusRun n

/-- The rest of a read cycle after its sampling point: LAST_STATUS follows where the register is 7 (40 R109). -/
theorem keeps_ideRead_statusRun (reg : IdeReg) (kind : Kind) : Keeps State.statusRun State.statusInv (ideRead reg kind) := by
  refine (keeps_cycleTimes kind).bind fun t => Keeps.bind (Keeps.modify fun _ h => h) fun _ =>
    (keeps_busPhase_statusRun _ _).bind fun _ => Keeps.bind (Keeps.modify fun _ h => h) fun _ =>
    (keeps_busPhase_statusRun _ _).bind fun _ => ?_
  by_cases hr : reg = 7
  · intro s hs
    have step : ∀ v, Leads (State.statusIs v.lo) State.statusRun State.statusInv (do
        setIde fun p => { p with diorN := true }
        busPhase .hold t.tDH
        setIde fun p => { p with cs0N := true }
        busPhase .recovery t.tREC
        setEngine fun e => { e with busPhase := none }
        if reg = 7 then setCsr fun c => { c with lastStatus := v.lo }
        return v : EngineM Half) := by
      intro v
      refine Leads.bind (leads_same_status _ fun _ => ⟨rfl, rfl⟩) fun _ => (leads_busPhase_status _ _ _).bind fun _ =>
        Leads.bind (leads_same_status _ fun _ => ⟨rfl, rfl⟩) fun _ => (leads_busPhase_status _ _ _).bind fun _ =>
        Leads.bind (leads_same_status _ fun _ => ⟨rfl, rfl⟩) fun _ => ?_
      rw [if_pos hr]
      exact Leads.bind (Q := State.statusRun) (Leads.modify fun _ h => ⟨h.1.symm, h.2⟩) fun _ => Leads.pure v
    have fin : ∀ (v : Half) (s' : State), s'.statusIs v.lo → After State.statusRun State.statusInv ((do
        setIde fun p => { p with diorN := true }
        busPhase .hold t.tDH
        setIde fun p => { p with cs0N := true }
        busPhase .recovery t.tREC
        setEngine fun e => { e with busPhase := none }
        if reg = 7 then setCsr fun c => { c with lastStatus := v.lo }
        return v : EngineM Half) s') := by
      intro v s' hs'
      have h1 := step v s' hs'
      revert h1
      generalize (do
        setIde fun p => { p with diorN := true }
        busPhase .hold t.tDH
        setIde fun p => { p with cs0N := true }
        busPhase .recovery t.tREC
        setEngine fun e => { e with busPhase := none }
        if reg = 7 then setCsr fun c => { c with lastStatus := v.lo }
        return v : EngineM Half) s' = r
      intro h1
      match r with
      | .ok _ _ => exact h1
      | .error (.raised _) _ => exact h1.elim
      | .error .halted _ => exact h1
    have hrec : ∀ (u : State) (v : Half), u.busy = true → (u.record (.ideRead reg kind v)).statusIs v.lo := fun u v hu =>
      ⟨by simp [Sys2Proof.Machine.statusAfter, hr], hu⟩
    cases hd : s.device with
    | nil =>
      rw [bind_ok (a := Config.deviceDraw s.deviceDraws) (by simp only [sampleBus, hd]; rfl)]
      exact fin _ _ (hrec _ _ hs.2)
    | cons v rest =>
      rw [bind_ok (a := v) (by simp only [sampleBus, hd]; rfl)]
      exact fin _ _ (hrec _ _ hs.2)
  · refine Keeps.bind (keeps_sample reg kind fun s v l d hs => ⟨?_, hs.2⟩) fun v => ?_
    · show s.csr.lastStatus = Sys2Proof.Machine.statusAfter (.ideRead reg kind v :: s.trace)
      rw [hs.1, Sys2Proof.Machine.statusAfter, if_neg hr]
    · simp only [if_neg hr]
      exact Keeps.bind (Keeps.modify fun _ h => h) fun _ => (keeps_busPhase_statusRun _ _).bind fun _ =>
        Keeps.bind (Keeps.modify fun _ h => h) fun _ => (keeps_busPhase_statusRun _ _).bind fun _ =>
        Keeps.bind (keeps_setEngine statusRun_engine fun _ => ⟨rfl, rfl⟩) fun _ => Keeps.pure _

theorem keeps_ideWrite_statusRun (reg : IdeReg) (v : Half) (kind : Kind) :
    Keeps State.statusRun State.statusInv (ideWrite reg v kind) :=
  (keeps_cycleTimes kind).bind fun _ => Keeps.bind (Keeps.modify fun _ h => h) fun _ =>
    (keeps_busPhase_statusRun _ _).bind fun _ => Keeps.bind (Keeps.modify fun _ h => h) fun _ =>
    (keeps_busPhase_statusRun _ _).bind fun _ => Keeps.bind (Keeps.modify fun _ h => h) fun _ =>
    Keeps.bind (Keeps.modify fun _ h => h) fun _ => (keeps_busPhase_statusRun _ _).bind fun _ =>
    Keeps.bind (Keeps.modify fun _ h => h) fun _ => (keeps_busPhase_statusRun _ _).bind fun _ =>
    keeps_setEngine statusRun_engine fun _ => ⟨rfl, rfl⟩

theorem keeps_handshake_status (a : BufAccess) : Keeps State.statusRun State.statusInv (bufHandshake a) :=
  keeps_bufHandshake (fun _ _ h => h) keeps_hold_statusRun (takeAnswer_cases (fun _ _ h => h) fun _ h _ => h.1) a

theorem keeps_takeByte_status (a : Nat) : Keeps State.statusRun State.statusInv (takeByte a) := by
  intro s hs
  unfold takeByte
  split <;> exact hs

theorem status_stable : Stable State.statusRun State.statusInv where
  engine := statusRun_engine
  hold := keeps_hold_statusRun
  idle := fun n => Keeps.bind (Keeps.modify fun _ h => h) fun _ => keeps_hold_statusRun n
  ideRead := keeps_ideRead_statusRun
  ideWrite := keeps_ideWrite_statusRun
  memRead := fun a _ => Keeps.get fun _ _ => (keeps_handshake_status _).bind fun _ => (keeps_takeByte_status _).bind fun _ =>
    (keeps_takeByte_status _).bind fun _ => Keeps.bind (Keeps.modify fun _ h => h) fun _ => Keeps.pure _
  memWrite := fun a v _ => Keeps.get fun _ _ => (keeps_handshake_status _).bind fun _ =>
    Keeps.bind (Keeps.modify fun _ h => h) fun _ => Keeps.modify fun _ h => h

theorem status_own (i : Instr) : OwnUpdates State.statusRun State.statusInv i where
  invalidate := fun _ =>
    (status_stable.goto _).bind fun _ => Keeps.get fun _ _ => Keeps.bind (Keeps.modify fun _ h => h) fun _ =>
      Keeps.bind (Keeps.modify fun _ h => h) fun _ => statusInv_tickClosed.keeps_clock.bind fun _ =>
      Keeps.modify fun _ h => h
  pulse := fun _ =>
    (status_stable.goto _).bind fun _ => Keeps.bind (Keeps.modify fun _ h => h) fun _ =>
      Keeps.bind (Keeps.modify fun _ h => h) fun _ => Keeps.get fun _ _ => (keeps_hold_statusRun _).bind fun _ =>
      Keeps.modify fun _ h => h
  idValid := fun _ _ _ h => h
  idbuf := fun _ _ _ h => h
  geometry := fun _ _ _ _ h => h

/-! ## The BUF port -/

/-- While an operation runs, between its BUF accesses (10 R38). -/
def State.bufFree (s : State) : Prop := s.buf = none ∧ s.busy = true

/-- While an operation runs, with a BUF access outstanding or not. -/
def State.bufIs (b : Option BufAccess) (s : State) : Prop := s.buf = b ∧ s.busy = true

theorem bufIs_engine (b : Option BufAccess) (s : State) (e : Engine) (h : s.bufIs b) (hp : e.phase = s.eng.phase)
    (_ : e.op = s.eng.op) : ({ s with eng := e } : State).bufIs b := by
  refine ⟨h.1, ?_⟩
  have := h.2
  simp only [State.busy, hp] at this ⊢
  exact this

theorem keeps_clock_buf (b : Option BufAccess) : Keeps (State.bufIs b) (fun _ => True) clock :=
  keeps_clock (fun _ h => h.2) (fun _ h hl => ⟨hl.buf.trans h.1, hl.busy.trans h.2⟩) fun _ _ _ => trivial

theorem keeps_handshake_buf (a : BufAccess) : Keeps State.bufFree (fun _ => True) (bufHandshake a) := by
  refine Leads.keeps (Leads.bind (Q := State.bufIs (some a)) (Leads.modify fun _ h => ⟨rfl, h.2⟩) fun _ => fun s hs => ?_)
  rcases takeAnswer_cases (P := State.bufIs (some a)) (F := fun _ => True) (fun _ _ h => h) (fun _ _ _ => trivial) s hs
      (by rw [hs.1]; rfl) with
    ⟨n, t, e, ht⟩ | ⟨t, e, -⟩
  · rw [bind_ok e]
    have free : Leads (State.bufIs (some a)) State.bufFree (fun _ => True)
        (modify fun s => { s with buf := none } : EngineM Unit) := Leads.modify fun _ h => ⟨rfl, h.2⟩
    exact (Leads.bind (leads_hold (bufIs_engine _) (keeps_clock_buf _) n) fun _ => free) t ht
  · rw [bind_ok e]
    trivial

/-- A predicate that neither the port outputs nor the events could break, kept by everything but BUF accesses. -/
theorem bufFree_stable : Stable State.bufFree (fun _ => True) where
  engine := bufIs_engine none
  hold := keeps_hold (bufIs_engine none) (keeps_clock_buf none)
  idle := fun n => Keeps.bind (Keeps.modify fun _ h => h) fun _ => keeps_hold (bufIs_engine none) (keeps_clock_buf none) n
  ideRead := fun reg kind =>
    (keeps_cycleTimes kind).bind fun _ => Keeps.bind (Keeps.modify fun _ h => h) fun _ => (phase _ _).bind fun _ =>
      Keeps.bind (Keeps.modify fun _ h => h) fun _ => (phase _ _).bind fun _ =>
      (keeps_sample reg kind fun _ _ _ _ h => h).bind fun _ => Keeps.bind (Keeps.modify fun _ h => h) fun _ =>
      (phase _ _).bind fun _ => Keeps.bind (Keeps.modify fun _ h => h) fun _ => (phase _ _).bind fun _ =>
      Keeps.bind (keeps_setEngine (bufIs_engine none) fun _ => ⟨rfl, rfl⟩) fun _ =>
      Keeps.ite (Keeps.bind (Keeps.modify fun _ h => h) fun _ => Keeps.pure _) (Keeps.pure _)
  ideWrite := fun reg v kind =>
    (keeps_cycleTimes kind).bind fun _ => Keeps.bind (Keeps.modify fun _ h => h) fun _ => (phase _ _).bind fun _ =>
      Keeps.bind (Keeps.modify fun _ h => h) fun _ => (phase _ _).bind fun _ => Keeps.bind (Keeps.modify fun _ h => h)
      fun _ => Keeps.bind (Keeps.modify fun _ h => h) fun _ => (phase _ _).bind fun _ =>
      Keeps.bind (Keeps.modify fun _ h => h) fun _ => (phase _ _).bind fun _ =>
      keeps_setEngine (bufIs_engine none) fun _ => ⟨rfl, rfl⟩
  memRead := fun a _ => Keeps.get fun _ _ => (keeps_handshake_buf _).bind fun _ => (byte _).bind fun _ =>
    (byte _).bind fun _ => Keeps.bind (Keeps.modify fun _ h => h) fun _ => Keeps.pure _
  memWrite := fun a v _ => Keeps.get fun _ _ => (keeps_handshake_buf _).bind fun _ =>
    Keeps.bind (Keeps.modify fun _ h => h) fun _ => Keeps.modify fun _ h => h
where
  phase (p : BusPhase) (n : Nat) : Keeps State.bufFree (fun _ => True) (busPhase p n) :=
    Keeps.bind (keeps_setEngine (bufIs_engine none) fun _ => ⟨rfl, rfl⟩) fun _ =>
      keeps_hold (bufIs_engine none) (keeps_clock_buf none) n
  byte (a : Nat) : Keeps State.bufFree (fun _ => True) (takeByte a) := by
    intro s hs
    unfold takeByte
    split <;> exact hs

theorem bufFree_own (i : Instr) : OwnUpdates State.bufFree (fun _ => True) i where
  invalidate := fun _ =>
    (bufFree_stable.goto _).bind fun _ => Keeps.get fun _ _ => Keeps.bind (Keeps.modify fun _ h => h) fun _ =>
      Keeps.bind (Keeps.modify fun _ h => h) fun _ => (keeps_clock_buf none).bind fun _ => Keeps.modify fun _ h => h
  pulse := fun _ =>
    (bufFree_stable.goto _).bind fun _ => Keeps.bind (Keeps.modify fun _ h => h) fun _ =>
      Keeps.bind (Keeps.modify fun _ h => h) fun _ => Keeps.get fun _ _ => (bufFree_stable.hold _).bind fun _ =>
      Keeps.modify fun _ h => h
  idValid := fun _ _ _ h => h
  idbuf := fun _ _ _ h => h
  geometry := fun _ _ _ _ h => h

end Sys2Proof.Machine
end

