-- ==== Sys2Proof/Laws/BufPort.lean ====
section
/-! SUPPORT. Every BUF access of an operation has an even address below 2^BUF_AW (10 R38; 20 R66, R69), in any environment. -/

namespace Sys2Proof.Machine

/-- An outstanding access is legal, and so is every one since the records were `w0` and `l0`. -/
def State.bufSince (w0 : List PortSample) (l0 : List Event) (s : State) : Prop :=
  s.buf.all (BufAccess.legal s.bufSize) = true ∧
  (∃ w, s.wave = w ++ w0 ∧ ∀ p ∈ w, p.buf.all (BufAccess.legal s.bufSize) = true) ∧
  ∃ l, s.trace = l ++ l0 ∧ ∀ e ∈ l, e.bufLegal s.bufSize = true

section
variable {w0 : List PortSample} {l0 : List Event}

theorem State.bufSince_start {s : State} (h : s.buf.all (BufAccess.legal s.bufSize) = true) : s.bufSince s.wave s.trace :=
  ⟨h, ⟨[], rfl, by simp⟩, ⟨[], rfl, by simp⟩⟩

/-- Legal events may follow. -/
theorem State.bufSince.events {s : State} (h : s.bufSince w0 l0) {es : List Event} (he : ∀ e ∈ es, e.bufLegal s.bufSize = true) :
    ({ s with trace := es ++ s.trace } : State).bufSince w0 l0 := by
  obtain ⟨h1, h2, l, h3, h4⟩ := h
  refine ⟨h1, h2, es ++ l, ?_, fun e hm => ?_⟩
  · simp only [h3, List.append_assoc]
  · exact (List.mem_append.mp hm).elim (he e) (h4 e)

theorem State.bufSince.record {s : State} (h : s.bufSince w0 l0) {e : Event} (he : e.bufLegal s.bufSize = true) :
    (s.record e).bufSince w0 l0 := h.events (es := [e]) (by simpa using he)

theorem State.bufSince.of_eq {s t : State} (h : s.bufSince w0 l0) (hp : t.params = s.params) (hb : t.buf = s.buf)
    (hw : t.wave = s.wave) (ht : t.trace = s.trace) : t.bufSince w0 l0 := by
  have hs : t.bufSize = s.bufSize := congrArg (fun p : Params => 2 ^ p.bufAw) hp
  unfold State.bufSince
  rw [hs, hb, hw, ht]
  exact h

theorem State.bufSince.trans {s t : State} (h : s.bufSince w0 l0) (ht : t.bufSince s.wave s.trace) (hp : t.params = s.params) :
    t.bufSince w0 l0 := by
  have hs : t.bufSize = s.bufSize := congrArg (fun p : Params => 2 ^ p.bufAw) hp
  obtain ⟨-, ⟨w, h2, h3⟩, l, h4, h5⟩ := h
  obtain ⟨h1', ⟨w', h2', h3'⟩, l', h4', h5'⟩ := ht
  refine ⟨h1', ⟨w' ++ w, by rw [h2', h2, List.append_assoc], fun p hp => ?_⟩, l' ++ l,
    by rw [h4', h4, List.append_assoc], fun e he => ?_⟩
  · exact (List.mem_append.mp hp).elim (h3' p) fun hp => by rw [hs]; exact h3 p hp
  · exact (List.mem_append.mp he).elim (h5' e) fun he => by rw [hs]; exact h5 e he

/-- A register write touches neither the BUF port nor the records. -/
theorem State.writeOffset_same (s : State) (off : Byte) (w : Word) :
    (s.writeOffset off w).params = s.params ∧ (s.writeOffset off w).buf = s.buf ∧ (s.writeOffset off w).wave = s.wave ∧
      (s.writeOffset off w).trace = s.trace := by
  unfold State.writeOffset
  split
  · rename_i r _
    cases r with
    | status | ctrl | result | lastStatus | idStatus => exact ⟨rfl, rfl, rfl, rfl⟩
    | _ => simp only [State.writeCsr]; split <;> exact ⟨rfl, rfl, rfl, rfl⟩
  · exact ⟨rfl, rfl, rfl, rfl⟩

theorem bufSince_tickClosed : TickClosed (State.bufSince w0 l0) where
  inputs := fun _ _ h => h
  host := fun s a h => by
    cases a with
    | read off => exact h.record rfl
    | write off w =>
      obtain ⟨h1, h2, h3, h4⟩ := s.writeOffset_same off w
      exact (h.of_eq h1 h2 h3 h4).record rfl
  hostInReset := fun s a h => by cases a <;> exact h.record rfl
  agent := fun s a h => by
    cases a with
    | read a =>
      unfold State.agentAccess
      simp only []
      split <;> exact h.record rfl
    | write a b => exact h.record rfl
  reset := fun s h => by
    obtain ⟨-, h2, h3⟩ := h.events (es := s.resetEvents) (by
      unfold State.resetEvents
      split <;> simp [Event.bufLegal])
    exact ⟨rfl, h2, h3⟩
  endCycle := fun s h => by
    obtain ⟨h1, ⟨w, h2, h3⟩, h4⟩ := h
    refine ⟨h1, ⟨s.sample :: w, ?_, fun p hp => ?_⟩, h4⟩
    · show s.sample :: s.wave = _
      rw [h2, List.cons_append]
    · rcases List.mem_cons.mp hp with rfl | hp
      · exact h1
      · exact h3 p hp

/-! ## While an operation runs -/

/-- An operation runs, with ARG_BUF and the parameters as given, and its BUF accesses are legal. -/
def State.bufRun (w0 : List PortSample) (l0 : List Event) (v : Quad) (p : Params) (s : State) : Prop :=
  s.bufSince w0 l0 ∧ s.busy = true ∧ s.params = p ∧ s.csr.argBuf = v

variable {v : Quad} {p : Params}

theorem bufRun_engine (s : State) (e : Engine) (h : s.bufRun w0 l0 v p) (hp : e.phase = s.eng.phase)
    (_ : e.op = s.eng.op) : ({ s with eng := e } : State).bufRun w0 l0 v p := by
  refine ⟨h.1, ?_, h.2.2⟩
  have := h.2.1
  simp only [State.busy, hp] at this ⊢
  exact this

theorem keeps_clock_bufRun : Keeps (State.bufRun w0 l0 v p) (State.bufSince w0 l0) clock :=
  keeps_clock (fun _ h => h.2.1)
    (fun s h hl => ⟨bufSince_tickClosed.tick h.1, hl.busy.trans h.2.1, hl.params.trans h.2.2.1,
      (congrArg Csrs.argBuf hl.kernel : _).trans h.2.2.2⟩)
    fun _ h _ => bufSince_tickClosed.tick h.1

theorem keeps_hold_bufRun (n : Nat) : Keeps (State.bufRun w0 l0 v p) (State.bufSince w0 l0) (hold n) :=
  keeps_hold bufRun_engine keeps_clock_bufRun n

theorem keeps_busPhase_bufRun (b : BusPhase) (n : Nat) :
    Keeps (State.bufRun w0 l0 v p) (State.bufSince w0 l0) (busPhase b n) :=
  Keeps.bind (keeps_setEngine bufRun_engine fun _ => ⟨rfl, rfl⟩) fun _ => keeps_hold_bufRun n

theorem keeps_note_bufRun {e : Event} (he : e.bufLegal (2 ^ p.bufAw) = true) :
    Keeps (State.bufRun w0 l0 v p) (State.bufSince w0 l0) (note e) :=
  Keeps.modify fun s h => ⟨h.1.record (by rw [State.bufSize, h.2.2.1]; exact he), h.2⟩

theorem keeps_takeByte_bufRun (a : Nat) : Keeps (State.bufRun w0 l0 v p) (State.bufSince w0 l0) (takeByte a) := by
  intro s hs
  unfold takeByte
  split <;> exact hs

/-- An even address taken mod 2^BUF_AW is even and below it (20 R66). -/
theorem legal_mod {n a : Nat} (hn : 1 ≤ n) (ha : a % 2 = 0) :
    (decide (a % 2 ^ n % 2 = 0) && decide (a % 2 ^ n < 2 ^ n)) = true := by
  have h2 : 2 ∣ 2 ^ n := Nat.pow_dvd_pow 2 hn
  rw [Nat.mod_mod_of_dvd a h2, ha]
  simp [Nat.mod_lt a (Nat.two_pow_pos n)]

theorem keeps_handshake_bufRun {a : BufAccess} (ha : a.legal (2 ^ p.bufAw) = true) :
    Keeps (State.bufRun w0 l0 v p) (State.bufSince w0 l0) (bufHandshake a) := by
  have set : ∀ b : Option BufAccess, b.all (BufAccess.legal (2 ^ p.bufAw)) = true → ∀ s : State, s.bufRun w0 l0 v p →
      ({ s with buf := b } : State).bufRun w0 l0 v p := fun b hb s h =>
    ⟨⟨by simpa only [State.bufSize, h.2.2.1] using hb, h.1.2⟩, h.2⟩
  refine Keeps.bind (Keeps.modify (set (some a) ha)) fun _ => Keeps.bind (fun s h => ?_) fun n => ?_
  · unfold takeAnswer
    split <;> exact h
  · cases n with
    | none => exact fun s h => h.1
    | some n => exact Keeps.bind (keeps_hold_bufRun n) fun _ => Keeps.modify (set none rfl)

/-- Every BUF access that the pseudocode makes is legal: ARG_BUF is even, and BUF has an even size (20 R69). -/
theorem bufRun_stable (hv : v.toNat % 2 = 0) (hp : 1 ≤ p.bufAw) :
    Stable (State.bufRun w0 l0 v p) (State.bufSince w0 l0) where
  engine := bufRun_engine
  hold := keeps_hold_bufRun
  idle := fun n => (keeps_note_bufRun rfl).bind fun _ => keeps_hold_bufRun n
  ideRead := fun reg kind =>
    (keeps_cycleTimes kind).bind fun _ => Keeps.bind (Keeps.modify fun _ h => h) fun _ =>
      (keeps_busPhase_bufRun _ _).bind fun _ => Keeps.bind (Keeps.modify fun _ h => h) fun _ =>
      (keeps_busPhase_bufRun _ _).bind fun _ =>
      (keeps_sample reg kind fun _ _ _ _ h => ⟨State.bufSince.record h.1 rfl, h.2⟩).bind fun _ =>
      Keeps.bind (Keeps.modify fun _ h => h) fun _ => (keeps_busPhase_bufRun _ _).bind fun _ =>
      Keeps.bind (Keeps.modify fun _ h => h) fun _ => (keeps_busPhase_bufRun _ _).bind fun _ =>
      Keeps.bind (keeps_setEngine bufRun_engine fun _ => ⟨rfl, rfl⟩) fun _ =>
      Keeps.ite (Keeps.bind (Keeps.modify fun _ h => h) fun _ => Keeps.pure _) (Keeps.pure _)
  ideWrite := fun reg b kind =>
    (keeps_cycleTimes kind).bind fun _ => Keeps.bind (Keeps.modify fun _ h => h) fun _ =>
      (keeps_busPhase_bufRun _ _).bind fun _ => Keeps.bind (Keeps.modify fun _ h => h) fun _ =>
      (keeps_busPhase_bufRun _ _).bind fun _ => Keeps.bind (Keeps.modify fun _ h => h) fun _ =>
      (keeps_note_bufRun rfl).bind fun _ => (keeps_busPhase_bufRun _ _).bind fun _ =>
      Keeps.bind (Keeps.modify fun _ h => h) fun _ => (keeps_busPhase_bufRun _ _).bind fun _ =>
      keeps_setEngine bufRun_engine fun _ => ⟨rfl, rfl⟩
  memRead := fun a ha => Keeps.get fun s hs => by
    have hl := legal_mod hp (even ha)
    rw [show s.bufSize = 2 ^ p.bufAw by rw [State.bufSize, hs.2.2.1]]
    exact (keeps_handshake_bufRun (a := .read _) hl).bind fun _ => (keeps_takeByte_bufRun _).bind fun _ =>
      (keeps_takeByte_bufRun _).bind fun _ => (keeps_note_bufRun (e := .bufRead _ _) hl).bind fun _ => Keeps.pure _
  memWrite := fun a b ha => Keeps.get fun s hs => by
    have hl := legal_mod hp (even ha)
    rw [show s.bufSize = 2 ^ p.bufAw by rw [State.bufSize, hs.2.2.1]]
    exact (keeps_handshake_bufRun (a := .write _ _) hl).bind fun _ => Keeps.bind (Keeps.modify fun _ h => h) fun _ =>
      keeps_note_bufRun (e := .bufWrite _ _) hl
where
  even {a : Nat} (ha : EvenFrom (State.bufRun w0 l0 v p) a) : a % 2 = 0 := by
    obtain ⟨s, hs, h⟩ := ha
    rw [h, State.bufAddr, hs.2.2.2, hv]

theorem bufRun_own (i : Instr) : OwnUpdates (State.bufRun w0 l0 v p) (State.bufSince w0 l0) i where
  invalidate := fun _ =>
    Keeps.bind (keeps_setEngine bufRun_engine fun _ => ⟨rfl, rfl⟩) fun _ => Keeps.get fun _ _ =>
      (keeps_note_bufRun rfl).bind fun _ => Keeps.bind (Keeps.modify fun _ h => h) fun _ => keeps_clock_bufRun.bind fun _ =>
      Keeps.modify fun _ h => h
  pulse := fun _ =>
    Keeps.bind (keeps_setEngine bufRun_engine fun _ => ⟨rfl, rfl⟩) fun _ => (keeps_note_bufRun rfl).bind fun _ =>
      Keeps.bind (Keeps.modify fun _ h => h) fun _ => Keeps.get fun _ _ => (keeps_hold_bufRun _).bind fun _ =>
      Keeps.modify fun _ h => h
  idValid := fun _ _ _ h => h
  idbuf := fun _ _ _ h => h
  geometry := fun _ _ _ _ h => h

/-- The hardwired bits of ARG_BUF make it even (10 R26). -/
theorem argBuf_even {v : Quad} {n : Nat} (hn : 1 ≤ n) (h : v &&& bufMask n = v) : v.toNat % 2 = 0 := by
  have h0 : v.getLsbD 0 = false := by
    rw [← h, BitVec.getLsbD_and, bufMask, BitVec.getLsbD_ofNat]
    have : (2 ^ n - 2).testBit 0 = false := by
      obtain ⟨m, rfl⟩ := Nat.exists_eq_add_of_le' hn
      rw [Nat.testBit_zero, Nat.pow_succ, decide_eq_false_iff_not]
      have := Nat.two_pow_pos m
      omega
    simp [this]
  rw [BitVec.getLsbD, Nat.testBit_zero, decide_eq_false_iff_not] at h0
  omega

/-- Where the clauses of the invariant for the parameters and ARG_BUF hold, an operation makes legal BUF accesses alone. -/
theorem exec_bufSince {s t : State} (i : Instr) (hp : s.params.wf) (ha : s.csr.argBuf &&& bufMask s.params.bufAw = s.csr.argBuf)
    (he : exec i s = .next t) : t.bufSince s.wave s.trace := by
  have hn : 1 ≤ s.params.bufAw := hp.1.1
  rw [exec_eq] at he
  cases he
  have h0 : (s.entered (some i)).bufRun s.wave s.trace s.csr.argBuf s.params :=
    ⟨State.bufSince_start (s := s.entered (some i)) rfl, rfl, rfl, rfl⟩
  rcases operation_final (bufRun_stable (argBuf_even hn ha) hn) (bufRun_own i) h0 with ⟨t, e, hF⟩ | ⟨s1, code, h1, e, -⟩
  · simpa only [finalState, e] using hF
  · have hi := bufSince_tickClosed.applyInputs h1.1
    simp only [finalState, e, finish]
    split
    · rename_i u hu
      split at hu
      · cases hu
        refine bufSince_tickClosed.endCycle _ ?_
        exact hi.record rfl
      · cases hu
    · rename_i u hu
      split at hu
      · cases hu
      · cases hu
        exact bufSince_tickClosed.endCycle _ hi

end

end Sys2Proof.Machine
end

