-- ==== Sys2Proof/Laws/CalmOps.lean ====
section
/-! SUPPORT. The shared operations above the bus cycle, undisturbed: BUF accesses, waits, command sequences, loops. -/

namespace Sys2Proof.Machine

/-! ## BUF accesses -/

theorem Memory.writeHalf_mod (m : Memory) (size a : Nat) (v : Half) : m.writeHalf size (a % size) v = m.writeHalf size a v := by
  simp [Memory.writeHalf, Nat.add_mod]

theorem Memory.readHalf_mod (m : Memory) (size a : Nat) : m.readHalf size (a % size) = m.readHalf size a := by
  simp [Memory.readHalf, Nat.add_mod]

theorem takeAnswer_calm {s : State} (h : s.calm) (hm : s.memoryAnswers = true) :
    ∃ n t, takeAnswer s = .ok (some n) t ∧ Adv 0 [] s t := by
  simp only [State.memoryAnswers, Bool.and_eq_true, List.all_eq_true] at hm
  cases hb : s.bufAnswers with
  | nil =>
    obtain ⟨n, hn⟩ := Option.isSome_iff_exists.mp hm.1
    exact ⟨n, s, by simp only [takeAnswer, hb, hn], Adv.refl h⟩
  | cons a rest =>
    obtain ⟨n, hn⟩ := Option.isSome_iff_exists.mp (hm.2 a (by simp [hb]))
    refine ⟨n, { s with bufAnswers := rest }, by simp only [takeAnswer, hb, hn],
      ⟨⟨⟨h, rfl, rfl, rfl, fun j => by simp [State.upcoming], rfl, rfl, rfl, fun ha => ?_⟩, rfl⟩, rfl⟩⟩
    simp only [State.memoryAnswers, hb, List.all_cons, Bool.and_eq_true] at ha ⊢
    exact ⟨ha.1, ha.2.2⟩

/-- One access is answered, and the port is free again (10 R38). -/
theorem bufHandshake_calm (a : BufAccess) {s : State} (h : s.calm) (hm : s.memoryAnswers = true) :
    ∃ t, bufHandshake a s = .ok () t ∧ Adv 0 [] s t := by
  have a1 := Adv.buf h (some a)
  obtain ⟨n, t2, e2, a2⟩ := takeAnswer_calm a1.calm (a1.answers hm)
  obtain ⟨t3, e3, a3, -, -⟩ := hold_calm n a2.calm
  have a4 := Adv.buf a3.calm none
  refine ⟨_, ?_, (((a1.trans a2).trans a3).trans a4).cast (by simp) (by simp)⟩
  rw [bufHandshake, bind_ok (modify_run _ _), bind_ok e2]
  simp only []
  rw [bind_ok e3, modify_run]

/-- Where no byte is raced, the engine's read takes the memory's byte (20 R66). -/
theorem takeByte_unraced (a : Nat) {s : State} (h : s.raced = []) : takeByte a s = .ok (s.mem.read a) s := by
  simp [takeByte, State.oldBytes, h]

/-- The word of memory, where no byte is raced (20 R66). -/
theorem memRead_calm (a : Nat) {s : State} (h : s.calm) (hm : s.memoryAnswers = true) (hr : s.raced = []) :
    ∃ t, memRead a s = .ok (s.mem.readHalf s.bufSize a) t ∧
      Adv 0 [.bufRead (a % s.bufSize) (s.mem.readHalf s.bufSize a)] s t := by
  obtain ⟨t1, e1, a1⟩ := bufHandshake_calm (.read (a % s.bufSize)) h hm
  have hmem : t1.mem = s.mem := a1.mem
  have hraced : t1.raced = [] := a1.raced.trans hr
  have hb : ∀ x, takeByte x t1 = .ok (s.mem.read x) t1 := fun x => by
    rw [takeByte_unraced x hraced, hmem]
  have a2 := Adv.note a1.calm (e := .bufRead (a % s.bufSize) (s.mem.readHalf s.bufSize a)) rfl (fun _ => rfl) (fun _ => rfl)
  refine ⟨_, ?_, (a1.trans a2).cast (by simp) (by simp)⟩
  rw [memRead, get_bind, bind_ok e1, bind_ok (hb _), bind_ok (hb _), bind_ok (note_run _ _)]
  rfl

/-- The word is in memory, and nothing else changed (20 R66). -/
theorem memWrite_calm (a : Nat) (v : Half) {s : State} (h : s.calm) (hm : s.memoryAnswers = true) :
    ∃ t, memWrite a v s = .ok () t ∧ Adv 0 [.bufWrite (a % s.bufSize) v] s t := by
  obtain ⟨t1, e1, a1⟩ := bufHandshake_calm (.write (a % s.bufSize) v) h hm
  have hmem : t1.mem = s.mem := a1.mem
  have hsize : t1.bufSize = s.bufSize := a1.bufSize
  have a2 : Adv 0 [.bufWrite (a % s.bufSize) v] t1
      (({ t1 with mem := t1.mem.writeHalf t1.bufSize a v } : State).record (.bufWrite (a % s.bufSize) v)) :=
    ⟨⟨⟨a1.calm, rfl, rfl, rfl, fun j => by simp [State.upcoming],
      by simp [State.engineEvents_record, Event.byEngine]; rfl,
      by simp [memAfter, Memory.writeHalf_mod, hsize], rfl, id⟩, rfl⟩, rfl⟩
  refine ⟨_, ?_, (a1.trans a2).cast (by simp) (by simp)⟩
  rw [memWrite, get_bind, bind_ok e1, bind_ok (modify_run _ _), note_run]

/-! ## Waits -/

/-- How many device values a wait that starts at value `k` has read. -/
def Waited.used (k : Nat) : Waited → Nat
  | .ready _ k' => k' - k
  | .failed _ k' => k' - k

/-- A wait on the stream of `s` from value `k` is the wait on the stream of a state `k` values later. -/
theorem pollOn_shift (verdict : Byte → Verdict) {f g : Nat → Half} {d : Nat} (h : ∀ j, g j = f (d + j)) :
    ∀ (n k : Nat), pollOn verdict f n (d + k) =
      match pollOn verdict g n k with
      | .ready st k' => .ready st (d + k')
      | .failed e k' => .failed e (d + k')
  | 0, k => rfl
  | n + 1, k => by
    simp only [pollOn, h]
    cases verdict (f (d + k)).lo with
    | ready => rfl
    | failed => rfl
    | again => exact pollOn_shift verdict h n (k + 1)

theorem pollOn_cast (verdict : Byte → Verdict) {f g : Nat → Half} {d : Nat} (h : ∀ j, g j = f (d + j)) (n : Nat) :
    pollOn verdict f n d =
      match pollOn verdict g n 0 with
      | .ready st k' => .ready st (d + k')
      | .failed e k' => .failed e (d + k') := pollOn_shift verdict h n 0

/-- Events of a wait: polls of register 7 and gaps. -/
def Event.isPoll : Event → Bool
  | .ideRead reg kind _ => decide (reg = 7) && decide (kind = .reg)
  | .idle _ => true
  | _ => false

/-- A wait ends as `pollOn` says of the coming values, having read as many of them (42 R175, R176). -/
theorem poll_calm (verdict : Byte → Verdict) : ∀ (n : Nat) {s : State}, s.calm →
    ∃ es t, (∀ e ∈ es, e.isPoll = true) ∧ es.countP Event.isBusCycle ≤ n ∧
      match pollOn verdict s.upcoming n 0 with
      | .ready st k => poll verdict n s = .ok st t ∧ Adv k es s t
      | .failed e k => poll verdict n s = .error (.raised e) t ∧ Adv k es s t
  | 0, s, h => ⟨[], s, by simp, by simp, rfl, Adv.refl h⟩
  | n + 1, s, h => by
    have a1 : Adv 0 [] s { s with eng := { s.eng with pollsLeft := n + 1 } } := Adv.engine h rfl rfl rfl
    obtain ⟨t2, e2, a2⟩ := read8_calm 7 a1.calm
    have hup : ({ s with eng := { s.eng with pollsLeft := n + 1 } } : State).upcoming 0 = s.upcoming 0 := by
      simpa using a1.stream 0
    rw [hup] at e2 a2
    have a12 := a1.trans a2
    have run : poll verdict (n + 1) s =
        (match verdict (s.upcoming 0).lo with
         | .ready => pure (s.upcoming 0).lo
         | .failed => raise .deviceError
         | .again => do
            if n ≠ 0 then idle (← get).params.tPollGap
            poll verdict n : EngineM Byte) t2 := by
      rw [poll, bind_ok (setEngine_run _ _), bind_ok e2]
      all_goals cases verdict (s.upcoming 0).lo <;> rfl
    rw [run]
    simp only [pollOn]
    cases verdict (s.upcoming 0).lo with
    | ready =>
      exact ⟨[.ideRead 7 .reg (s.upcoming 0)], t2, by simp [Event.isPoll], by simp [Event.isBusCycle], rfl,
        a12.cast (by simp) (by simp)⟩
    | failed =>
      exact ⟨[.ideRead 7 .reg (s.upcoming 0)], t2, by simp [Event.isPoll], by simp [Event.isBusCycle], rfl,
        a12.cast (by simp) (by simp)⟩
    | again =>
      have key : ∀ {u : State} {es : List Event}, Adv 0 es t2 u → (∀ e ∈ es, e.isPoll = true) →
          es.countP Event.isBusCycle = 0 →
          ∃ es t, (∀ e ∈ es, e.isPoll = true) ∧ es.countP Event.isBusCycle ≤ n + 1 ∧
            match pollOn verdict s.upcoming n (0 + 1) with
            | .ready st k => poll verdict n u = .ok st t ∧ Adv k es s t
            | .failed e k => poll verdict n u = .error (.raised e) t ∧ Adv k es s t := by
        intro u es au hes hc
        have a3 := a12.trans au
        obtain ⟨es', t, hes', hc', hm⟩ := poll_calm verdict n a3.calm
        have hsh := pollOn_cast verdict (f := s.upcoming) (g := u.upcoming) (d := 0 + 1)
          (fun j => by rw [a3.stream]; ) n
        refine ⟨es' ++ (es ++ [.ideRead 7 .reg (s.upcoming 0)]), t, ?_, ?_, ?_⟩
        · intro e he
          simp only [List.mem_append, List.mem_singleton] at he
          rcases he with he | he | he
          · exact hes' e he
          · exact hes e he
          · subst he; rfl
        · simp only [List.countP_append, hc, List.countP_singleton, Event.isBusCycle, if_true]
          omega
        · rw [hsh]
          cases hp : pollOn verdict u.upcoming n 0 with
          | ready st k =>
            rw [hp] at hm
            exact ⟨hm.1, (a3.trans hm.2).cast (by omega) (by simp)⟩
          | failed e k =>
            rw [hp] at hm
            exact ⟨hm.1, (a3.trans hm.2).cast (by omega) (by simp)⟩
      by_cases hn : n = 0
      · subst hn
        simpa using key (Adv.refl a12.calm) (by simp) (by simp)
      · obtain ⟨u, eu, au⟩ := idle_calm t2.params.tPollGap a12.calm
        have : (do
            if n ≠ 0 then idle (← get).params.tPollGap
            poll verdict n : EngineM Byte) t2 = poll verdict n u := by
          simp only [ne_eq, hn, not_false_eq_true, if_true]
          rw [get_bind, bind_ok eu]
        simp only [this]
        exact key au (by simp [Event.isPoll]) (by simp [Event.isBusCycle])

end Sys2Proof.Machine
end

