-- ==== Sys2Proof/Laws/CalmCommand.lean ====
section
/-! SUPPORT. Command sequences, completion and whole operations, undisturbed (41 R131, R141; 60 R212). -/

namespace Sys2Proof.Machine

/-- The events of a command sequence's writes, newest first (41 R130). -/
def writeEvents (seq : List SeqEntry) : List Event :=
  (seq.map fun p => Event.ideWrite p.1 .reg ((0 : Byte) ++ p.2)).reverse

theorem memAfter_writeEvents (size : Nat) (seq : List SeqEntry) (m : Memory) : memAfter size (writeEvents seq) m = m := by
  have : ∀ es : List Event, (∀ e ∈ es, ∃ p : SeqEntry, e = Event.ideWrite p.1 .reg ((0 : Byte) ++ p.2)) →
      memAfter size es m = m := by
    intro es
    induction es with
    | nil => intro _; rfl
    | cons e es ih =>
      intro h
      obtain ⟨p, rfl⟩ := h e (by simp)
      exact ih fun e' he' => h e' (by simp [he'])
  exact this _ fun e he => by
    simp only [writeEvents, List.mem_reverse, List.mem_map] at he
    obtain ⟨p, -, rfl⟩ := he
    exact ⟨p, rfl⟩

theorem writeSeq_calm : ∀ (seq : List SeqEntry) {s : State}, s.calm →
    ∃ t, writeSeq seq s = .ok () t ∧ Adv 0 (writeEvents seq) s t
  | [], s, h => ⟨s, rfl, Adv.refl h⟩
  | (r, b) :: rest, s, h => by
    obtain ⟨t1, e1, a1⟩ := write8_calm r b h
    obtain ⟨t2, e2, a2⟩ := writeSeq_calm rest a1.calm
    exact ⟨t2, by rw [writeSeq, bind_ok e1, e2], (a1.trans a2).cast (by simp) (by simp [writeEvents])⟩

theorem goto_calm (p : Pos) {s : State} (h : s.calm) :
    Adv 0 [] s { s with eng := { s.eng with step := some p } } := Adv.engine h rfl rfl rfl

theorem issueCommandNoWait_calm (seq : List SeqEntry) {s : State} (h : s.calm) :
    ∃ t, issueCommandNoWait seq s = .ok () t ∧ Adv 0 (.idle s.params.tCmdSettle :: writeEvents seq) s t := by
  obtain ⟨t1, e1, a1⟩ := writeSeq_calm seq h
  have a2 := goto_calm .settle a1.calm
  obtain ⟨t3, e3, a3⟩ := idle_calm s.params.tCmdSettle a2.calm
  refine ⟨t3, ?_, ((a1.trans a2).trans a3).cast (by simp) (by simp)⟩
  rw [issueCommandNoWait, bind_ok e1, bind_ok (goto_run _ _), get_bind]
  have hp : t1.params.tCmdSettle = s.params.tCmdSettle := congrArg Params.tCmdSettle a1.params
  show idle t1.params.tCmdSettle _ = _
  rw [hp, e3]

/-- The pre-command wait on a stream: none where PRECMD_WAIT is false (41 R131). -/
def State.precmd (s : State) : Waited :=
  if s.params.precmdWait then pollOn notBusyVerdict s.upcoming s.params.budgetPrecmd 0 else .ready 0 0

theorem issueCommand_calm (seq : List SeqEntry) {s : State} (h : s.calm) :
    ∃ es t, (∀ e ∈ es, e.isPoll = true) ∧
      es.countP Event.isBusCycle ≤ (if s.params.precmdWait then s.params.budgetPrecmd else 0) ∧
      match s.precmd with
      | .ready _ k => issueCommand seq s = .ok () t ∧
          Adv k (.idle s.params.tCmdSettle :: writeEvents seq ++ es) s t
      | .failed e k => issueCommand seq s = .error (.raised e) t ∧ Adv k es s t := by
  by_cases hp : s.params.precmdWait = true
  · have a1 := goto_calm .precmdWait h
    obtain ⟨es, t2, hes, hc, hm⟩ := poll_calm notBusyVerdict s.params.budgetPrecmd a1.calm
    have hup : ({ s with eng := { s.eng with step := some .precmdWait } } : State).upcoming = s.upcoming := rfl
    rw [hup] at hm
    simp only [State.precmd, hp, if_true]
    cases hw : pollOn notBusyVerdict s.upcoming s.params.budgetPrecmd 0 with
    | ready st k =>
      rw [hw] at hm
      have a2 := a1.trans hm.2
      have a3 := goto_calm .cmdWrites a2.calm
      obtain ⟨t4, e4, a4⟩ := issueCommandNoWait_calm seq a3.calm
      have hpar : t2.params = s.params := a2.params
      refine ⟨es, t4, hes, hc, ?_, ((a2.trans a3).trans a4).cast (by simp) (by simp [hpar])⟩
      rw [issueCommand, get_bind]
      simp only [hp, if_true]
      rw [bind_ok (goto_run _ _), waitNotBusy, bind_ok hm.1, bind_ok (goto_run _ _), e4]
    | failed e k =>
      rw [hw] at hm
      refine ⟨es, t2, hes, hc, ?_, (a1.trans hm.2).cast (by simp) (by simp)⟩
      rw [issueCommand, get_bind]
      simp only [hp, if_true]
      rw [bind_ok (goto_run _ _), waitNotBusy, bind_error hm.1]
  · simp only [Bool.not_eq_true] at hp
    have a3 := goto_calm .cmdWrites h
    obtain ⟨t4, e4, a4⟩ := issueCommandNoWait_calm seq a3.calm
    simp only [State.precmd, hp, Bool.false_eq_true, if_false]
    refine ⟨[], t4, by simp, by simp, ?_, (a3.trans a4).cast (by simp) (by simp)⟩
    rw [issueCommand, get_bind]
    simp only [hp, Bool.false_eq_true, if_false]
    rw [bind_ok (goto_run _ _), e4]

/-- `WaitDRQ` on a stream (42 R175). -/
def State.drqWait (s : State) : Waited :=
  pollOn (drqVerdict s.params.errMaskedByBsy) s.upcoming s.params.budgetDrq 0

theorem waitDrq_calm {s : State} (h : s.calm) :
    ∃ es t, (∀ e ∈ es, e.isPoll = true) ∧ es.countP Event.isBusCycle ≤ s.params.budgetDrq ∧
      match s.drqWait with
      | .ready st k => waitDrq s = .ok st t ∧ Adv k es s t
      | .failed e k => waitDrq s = .error (.raised e) t ∧ Adv k es s t := by
  have a1 := goto_calm .drqWait h
  obtain ⟨es, t2, hes, hc, hm⟩ := poll_calm (drqVerdict s.params.errMaskedByBsy) s.params.budgetDrq a1.calm
  have hup : ({ s with eng := { s.eng with step := some .drqWait } } : State).upcoming = s.upcoming := rfl
  rw [hup] at hm
  have run : waitDrq s = poll (drqVerdict s.params.errMaskedByBsy) s.params.budgetDrq
      { s with eng := { s.eng with step := some .drqWait } } := by
    rw [waitDrq, bind_ok (goto_run _ _), get_bind]
  refine ⟨es, t2, hes, hc, ?_⟩
  rw [run]
  simp only [State.drqWait]
  cases hw : pollOn (drqVerdict s.params.errMaskedByBsy) s.upcoming s.params.budgetDrq 0 with
  | ready st k => rw [hw] at hm; exact ⟨hm.1, (a1.trans hm.2).cast (by simp) (by simp)⟩
  | failed e k => rw [hw] at hm; exact ⟨hm.1, (a1.trans hm.2).cast (by simp) (by simp)⟩

/-- `CompleteNoData(budget)` (41 R141). -/
theorem completeNoData_calm (budget : Nat) {s : State} (h : s.calm) :
    ∃ es t, (∀ e ∈ es, e.isPoll = true) ∧
      match pollOn notBusyVerdict s.upcoming budget 0 with
      | .ready st k =>
          (if err st then completeNoData budget s = .error (.raised .deviceError) t
           else completeNoData budget s = .ok () t) ∧ Adv k es s t
      | .failed e k => completeNoData budget s = .error (.raised e) t ∧ Adv k es s t := by
  have a1 := goto_calm .noDataWait h
  obtain ⟨es, t2, hes, -, hm⟩ := poll_calm notBusyVerdict budget a1.calm
  have hup : ({ s with eng := { s.eng with step := some .noDataWait } } : State).upcoming = s.upcoming := rfl
  rw [hup] at hm
  refine ⟨es, t2, hes, ?_⟩
  cases hw : pollOn notBusyVerdict s.upcoming budget 0 with
  | ready st k =>
    rw [hw] at hm
    have run : completeNoData budget s = (if err st then raise .deviceError else pure () : EngineM Unit) t2 := by
      rw [completeNoData, bind_ok (goto_run _ _), waitNotBusy, bind_ok hm.1]
    refine ⟨?_, (a1.trans hm.2).cast (by simp) (by simp)⟩
    rw [run]
    by_cases he : err st = true <;> simp [he]
  | failed e k =>
    rw [hw] at hm
    refine ⟨?_, (a1.trans hm.2).cast (by simp) (by simp)⟩
    rw [completeNoData, bind_ok (goto_run _ _), waitNotBusy, bind_error hm.1]

/-! ## Whole operations -/

/-- The state in which an operation's first statement runs (10 R33). -/
structure Entered (op : Option Instr) (s t : State) : Prop where
  calm : t.calm
  params : t.params = s.params
  kernel : t.csr.kernel = s.csr.kernel
  op : t.eng.op = op
  stream : ∀ j, t.upcoming j = s.upcoming j
  events : t.engineEvents = s.engineEvents
  mem : t.mem = s.mem
  raced : t.raced = []
  answers : s.memoryAnswers = true → t.memoryAnswers = true

/-- The state after `finish(code)` (60 R212): RESULT and DONE written, Idle, and nothing else of the operation's changed. -/
structure Closed (code : Word) (s t : State) : Prop where
  idle : t.busy = false
  done : t.csr.done = true
  kernel : t.csr.kernel = { s.csr.kernel with result := code }
  params : t.params = s.params
  stream : ∀ j, t.upcoming j = s.upcoming j
  events : t.engineEvents = .finish code :: s.engineEvents
  mem : t.mem = s.mem
  answers : s.memoryAnswers = true → t.memoryAnswers = true

theorem Closed.result {code : Word} {s t : State} (h : Closed code s t) : t.csr.result = code := by
  have := congrArg Csrs.result h.kernel
  exact this

theorem enter_calm (op : Option Instr) {s : State} (hu : s.undisturbed = true) :
    ∃ t, enter op s = .ok () t ∧ Entered op s t := by
  simp only [State.undisturbed, Bool.and_eq_true, List.isEmpty_iff] at hu
  exact ⟨_, modify_run _ _, ⟨by simp [State.busy], hu.1⟩, rfl, rfl, rfl, fun j => rfl, rfl, rfl, hu.2, id⟩

theorem finish_calm (code : Word) {s : State} (h : s.calm) : ∃ t, finish code s = .ok () t ∧ Closed code s t := by
  have hl := State.applyInputs_landed h.1 (State.noReset_of_quiet h.2)
  have hm := State.applyInputs_mem h.2 h.1
  have hb : s.applyInputs.busy = true := hl.busy.trans h.1
  have ha := Adv.of_landed h hl hm
  refine ⟨(s.applyInputs.complete code).endCycle, by simp only [finish, hb, if_true], rfl, rfl, ?_, ha.params,
    fun j => ?_, ?_, hm.1, ha.answers⟩
  · have := hl.kernel
    simp only [Csrs.kernel, State.complete, State.endCycle_csr, State.record_csr, Csrs.mk.injEq] at this ⊢
    simp_all
  · have := ha.stream j
    rw [Nat.zero_add] at this
    exact this
  · have := ha.events
    simp only [State.engineEvents, State.complete, State.endCycle_trace, State.record_trace, List.filter_cons,
      Event.byEngine, if_true, List.nil_append] at this ⊢
    rw [this]

/-- An operation undisturbed: its body runs from a state that differs from the given one in phase and operation only, and
what the body ends with, a code or an error's code, is what the operation finishes with. -/
theorem runOperation_calm (op : Instr) (body : EngineM Word) {s : State} (hu : s.undisturbed = true) :
    ∃ s1, Entered (some op) s s1 ∧
      ∀ code t, (body s1 = .ok code t ∨ ∃ e, body s1 = .error (.raised e) t ∧ code = e.code) → t.calm →
        ∃ u, runOperation op body s = .next u ∧ Closed code t u := by
  obtain ⟨s0, e0, h0⟩ := enter_calm (some op) hu
  obtain ⟨s1, e1, a1, -, -⟩ := hold_calm s0.params.startLatency h0.calm
  have hk : s1.csr.kernel = s0.csr.kernel := by
    have h1 := a1.kernel
    have h2 := a1.status
    simp only [Csrs.kernel, statusFrom, Csrs.mk.injEq] at h1 h2 ⊢
    simp_all
  have hr : s1.raced = [] := a1.raced.trans h0.raced
  refine ⟨s1, ⟨a1.calm, a1.params.trans h0.params, hk.trans h0.kernel, a1.op.trans h0.op, fun j => ?_, ?_,
    ?_, hr, a1.answers ∘ h0.answers⟩, fun code t hb ht => ?_⟩
  · rw [a1.stream, h0.stream, Nat.zero_add]
  · rw [a1.events, h0.events]; rfl
  · rw [a1.mem, h0.mem]; rfl
  · have hc : codeOf body s1 = .ok code t := by
      rcases hb with hb | ⟨e, hb, rfl⟩ <;> simp [codeOf, hb]
    have a2 := goto_calm .finishing ht
    obtain ⟨t3, e3, a3, -, -⟩ := hold_calm t.params.finishLatency a2.calm
    obtain ⟨u, e4, h4⟩ := finish_calm code a3.calm
    have a := a2.trans a3
    have hkk : t3.csr.kernel = t.csr.kernel := by
      have h1 := a.kernel
      have h2 := a.status
      simp only [Csrs.kernel, statusFrom, List.append_nil, Csrs.mk.injEq] at h1 h2 ⊢
      simp_all
    refine ⟨u, ?_, h4.idle, h4.done, by rw [h4.kernel, hkk], h4.params.trans a.params, fun j => ?_, ?_, ?_,
      h4.answers ∘ a.answers⟩
    · have run : operation op body s = .ok () u := by
        rw [operation, bind_ok e0, get_bind, bind_ok e1, bind_ok hc, bind_ok (goto_run _ _), get_bind, bind_ok e3, e4]
      simp [runOperation, finalState, run]
    · rw [h4.stream, a.stream]; simp
    · rw [h4.events, a.events]; rfl
    · rw [h4.mem, a.mem]; rfl

end Sys2Proof.Machine
end

