-- ==== Sys2Proof/Laws/CalmTransfer.lean ====
section
/-! SUPPORT. The sector transfer engine, undisturbed, against the replies of Sys2Proof/Safety.lean (42 R170 to R187). -/

namespace Sys2Proof.Machine

/-! ## What events move -/

/-- What the events of a piece of a transfer moved: `m` whole sectors between the stream or the Device and BUF from address
`a` on (42 R177, R178). -/
def Moved (dir : Dir) (m a size : Nat) (mem : Memory) (ws : List Half) (es : List Event) : Prop :=
  match dir with
  | .read => ws.length = 256 * m ∧ (∀ M, memAfter size es M = Memory.writeHalves size M a ws) ∧
      es.filterMap Event.sentWord = [] ∧ es.filterMap Event.receivedWord = ws.reverse
  | .write => ws = mem.readHalves size a (256 * m) ∧ (∀ M, memAfter size es M = M) ∧
      es.filterMap Event.sentWord = ws.reverse

theorem Memory.readHalves_append (m : Memory) (size : Nat) : ∀ (n n' a : Nat),
    m.readHalves size a (n + n') = m.readHalves size a n ++ m.readHalves size (a + 2 * n) n'
  | 0, n', a => by simp [Memory.readHalves]
  | n + 1, n', a => by
    have : n + 1 + n' = (n + n') + 1 := by omega
    rw [this]
    simp only [Memory.readHalves, List.cons_append, Memory.readHalves_append m size n n' (a + 2)]
    rw [show a + 2 + 2 * n = a + 2 * (n + 1) by omega]

theorem Moved.append {dir : Dir} {m m' a size : Nat} {mem : Memory} {ws ws' : List Half} {es es' : List Event}
    (h : Moved dir m a size mem ws es) (h' : Moved dir m' (a + 512 * m) size mem ws' es') :
    Moved dir (m + m') a size mem (ws ++ ws') (es' ++ es) := by
  cases dir with
  | read =>
    obtain ⟨h1, h2, h3, h4⟩ := h
    obtain ⟨h1', h2', h3', h4'⟩ := h'
    refine ⟨by simp [h1, h1', Nat.mul_add], fun M => ?_, by simp [h3, h3'],
      by rw [List.filterMap_append, h4, h4', List.reverse_append]⟩
    rw [memAfter_append, h2, h2', Memory.writeHalves_append, h1]
    congr 1; omega
  | write =>
    obtain ⟨h1, h2, h3⟩ := h
    obtain ⟨h1', h2', h3'⟩ := h'
    refine ⟨?_, fun M => by rw [memAfter_append, h2, h2'], by rw [List.filterMap_append, h3, h3', List.reverse_append]⟩
    rw [h1, h1', Nat.mul_add, Memory.readHalves_append]
    congr 2; omega

theorem Memory.readHalves_length (m : Memory) (size : Nat) : ∀ (n a : Nat), (m.readHalves size a n).length = n
  | 0, _ => rfl
  | n + 1, a => by simp [Memory.readHalves, Memory.readHalves_length m size n (a + 2)]

theorem Moved.length {dir : Dir} {m a size : Nat} {mem : Memory} {ws : List Half} {es : List Event}
    (h : Moved dir m a size mem ws es) : ws.length = 256 * m := by
  cases dir with
  | read => exact h.1
  | write => rw [h.1, Memory.readHalves_length]

theorem Moved.mem_write {dir : Dir} {m a size : Nat} {mem : Memory} {ws : List Half} {es : List Event}
    (h : Moved dir m a size mem ws es) (hd : dir = .write) (M : Memory) : memAfter size es M = M := by
  subst hd
  exact h.2.1 M

/-- Events that write no byte of BUF. -/
def Event.sparesBuf : Event → Bool
  | .bufWrite _ _ => false
  | _ => true

theorem memAfter_sparesBuf {es : List Event} (h : ∀ e ∈ es, e.sparesBuf = true) (size : Nat) (M : Memory) :
    memAfter size es M = M := by
  induction es with
  | nil => rfl
  | cons e es ih =>
    have he := h e (by simp)
    have := ih (fun e' he' => h e' (by simp [he']))
    cases e with
    | bufWrite a v => exact absurd he (by simp [Event.sparesBuf])
    | _ => exact this

/-- Events that move no data. -/
def Event.isQuiet (e : Event) : Bool := e.sparesBuf && e.sentWord.isNone && e.receivedWord.isNone

theorem Event.sparesBuf_of_isQuiet {e : Event} (h : e.isQuiet = true) : e.sparesBuf = true := by
  simp only [Event.isQuiet, Bool.and_eq_true] at h
  exact h.1.1

theorem Moved.of_quiet {dir : Dir} {a size : Nat} {mem : Memory} {es : List Event} (h : ∀ e ∈ es, e.isQuiet = true) :
    Moved dir 0 a size mem [] es := by
  have hm := memAfter_sparesBuf (fun e he => Event.sparesBuf_of_isQuiet (h e he)) size
  have hs : es.filterMap Event.sentWord = [] ∧ es.filterMap Event.receivedWord = [] := by
    simp only [Event.isQuiet, Bool.and_eq_true, Option.isNone_iff_eq_none] at h
    exact ⟨List.filterMap_eq_nil_iff.mpr fun e he => (h e he).1.2, List.filterMap_eq_nil_iff.mpr fun e he => (h e he).2⟩
  cases dir
  · exact ⟨rfl, hm, hs.1, hs.2⟩
  · exact ⟨by simp [Memory.readHalves], hm, hs.1⟩

theorem Event.isQuiet_of_isPoll {e : Event} (h : e.isPoll = true) : e.isQuiet = true := by
  cases e with
  | ideRead reg kind v =>
    simp only [Event.isPoll, Bool.and_eq_true, decide_eq_true_eq] at h
    simp [Event.isQuiet, Event.sparesBuf, Event.sentWord, Event.receivedWord, h.1]
  | idle n => rfl
  | _ => exact absurd h (by simp [Event.isPoll])

theorem taskWrite_of_isPoll {es : List Event} (h : ∀ e ∈ es, e.isPoll = true) : es.filterMap Event.taskWrite = [] := by
  rw [List.filterMap_eq_nil_iff]
  intro e he
  have := h e he
  cases e with
  | ideWrite reg kind v => exact absurd this (by simp [Event.isPoll])
  | _ => rfl

theorem taskWrite_writeEvents (seq : List SeqEntry) : (writeEvents seq).filterMap Event.taskWrite = seq.reverse := by
  rw [writeEvents, List.filterMap_reverse, List.filterMap_map]
  congr 1
  have : Event.taskWrite ∘ (fun p : SeqEntry => Event.ideWrite p.1 .reg ((0 : Byte) ++ p.2)) = some := by
    funext p
    have : Half.lo ((0 : Byte) ++ p.2) = p.2 := BitVec.extractLsb'_append_eq_right
    show (if Kind.reg = Kind.reg then some (p.1, Half.lo ((0 : Byte) ++ p.2)) else none) = some p
    rw [if_pos rfl, this]
  rw [this, List.filterMap_some]

theorem isQuiet_writeEvents (seq : List SeqEntry) : ∀ e ∈ writeEvents seq, e.isQuiet = true := by
  intro e he
  simp only [writeEvents, List.mem_reverse, List.mem_map] at he
  obtain ⟨p, -, rfl⟩ := he
  simp [Event.isQuiet, Event.sparesBuf, Event.sentWord, Event.receivedWord]

/-! ## The data phase -/

theorem State.streamWords_succ (s : State) (k n : Nat) : s.streamWords k (n + 1) = s.upcoming k :: s.streamWords (k + 1) n := by
  simp only [State.streamWords, List.range_succ_eq_map, List.map_cons, List.map_map, Nat.add_zero, List.cons.injEq,
    true_and]
  apply List.map_congr_left
  intro i _
  simp only [Function.comp]
  congr 1; omega

theorem State.streamWords_shift {s t : State} {k : Nat} (h : ∀ j, t.upcoming j = s.upcoming (k + j)) (i n : Nat) :
    t.streamWords i n = s.streamWords (k + i) n := by
  simp only [State.streamWords]
  apply List.map_congr_left
  intro j _
  rw [h]; congr 1; omega

@[simp] theorem State.streamWords_length (s : State) (k n : Nat) : (s.streamWords k n).length = n := by
  simp [State.streamWords]

/-- The words of a read data phase. -/
theorem readWords_calm (a : Nat) : ∀ (n i : Nat) {s : State}, s.calm → s.memoryAnswers = true →
    ∃ es t, forRange (readWord a) n i s = .ok () t ∧ Adv n es s t ∧ es.countP Event.isBusCycle = n ∧
      (∀ M, memAfter s.bufSize es M = Memory.writeHalves s.bufSize M (a + 2 * i) (s.streamWords 0 n)) ∧
      es.filterMap Event.sentWord = [] ∧ es.filterMap Event.receivedWord = (s.streamWords 0 n).reverse ∧
      es.filterMap Event.taskWrite = []
  | 0, i, s, h, _ =>
    ⟨[], s, rfl, Adv.refl h, rfl, fun M => by simp [State.streamWords, Memory.writeHalves, memAfter], rfl, rfl, rfl⟩
  | n + 1, i, s, h, hm => by
    have a1 : Adv 0 [] s { s with eng := { s.eng with word := i } } := Adv.engine h rfl rfl rfl
    obtain ⟨t2, e2, a2⟩ := ideRead_calm 0 .word a1.calm
    have hup : ({ s with eng := { s.eng with word := i } } : State).upcoming 0 = s.upcoming 0 := by simpa using a1.stream 0
    rw [hup] at e2 a2
    have a12 := a1.trans a2
    obtain ⟨t3, e3, a3⟩ := memWrite_calm (a + 2 * i) (s.upcoming 0) a12.calm (a12.answers hm)
    have a13 := a12.trans a3
    obtain ⟨es, t4, e4, a4, hc, hmem, hsent, hrec, htask⟩ := readWords_calm a n (i + 1) a13.calm (a13.answers hm)
    have hsize := a12.bufSize
    have hsize3 := a13.bufSize
    refine ⟨_, t4, ?_, (a13.trans a4).cast (by omega) rfl, ?_, fun M => ?_, ?_, ?_, ?_⟩
    · rw [forRange, bind_ok (t := t3) (a := ()), e4]
      rw [readWord, bind_ok (setEngine_run _ _), bind_ok e2, e3]
    · simp [List.countP_append, hc, List.countP_cons, Event.isBusCycle]
    · rw [hsize3] at hmem
      rw [memAfter_append, hmem, State.streamWords_succ, State.streamWords_shift a13.stream]
      simp only [Memory.writeHalves, memAfter, List.append_nil, List.cons_append, List.nil_append, hsize,
        Memory.writeHalf_mod]
      rw [show a + 2 * (i + 1) = a + 2 * i + 2 by omega]
    · simp [hsent, Event.sentWord]
    · rw [List.filterMap_append, hrec, State.streamWords_succ, State.streamWords_shift a13.stream]
      simp [List.filterMap_cons, Event.receivedWord]
    · simp [htask, Event.taskWrite]

/-- The words of a write data phase. -/
theorem writeWords_calm (a : Nat) : ∀ (n i : Nat) {s : State}, s.calm → s.memoryAnswers = true → s.raced = [] →
    ∃ es t, forRange (writeWord a) n i s = .ok () t ∧ Adv 0 es s t ∧ es.countP Event.isBusCycle = n ∧
      (∀ M, memAfter s.bufSize es M = M) ∧
      es.filterMap Event.sentWord = (s.mem.readHalves s.bufSize (a + 2 * i) n).reverse ∧
      es.filterMap Event.taskWrite = []
  | 0, i, s, h, _, _ => ⟨[], s, rfl, Adv.refl h, rfl, fun _ => rfl, by simp [Memory.readHalves], rfl⟩
  | n + 1, i, s, h, hm, hr => by
    have a1 : Adv 0 [] s { s with eng := { s.eng with word := i } } := Adv.engine h rfl rfl rfl
    obtain ⟨t2, e2, a2⟩ := memRead_calm (a + 2 * i) a1.calm (a1.answers hm) (a1.raced.trans hr)
    have hsz : ({ s with eng := { s.eng with word := i } } : State).bufSize = s.bufSize := rfl
    rw [hsz] at e2 a2
    obtain ⟨t3, e3, a3⟩ := ideWrite_calm 0 (s.mem.readHalf s.bufSize (a + 2 * i)) .word a2.calm
    have a13 := (a1.trans a2).trans a3
    have hmem3 : t3.mem = s.mem := a13.mem
    have hsize3 : t3.bufSize = s.bufSize := a13.bufSize
    obtain ⟨es, t4, e4, a4, hc, hmem, hsent, htask⟩ :=
      writeWords_calm a n (i + 1) a13.calm (a13.answers hm) (a13.raced.trans hr)
    refine ⟨_, t4, ?_, (a13.trans a4).cast (by omega) rfl, ?_, fun M => ?_, ?_, ?_⟩
    · rw [forRange, bind_ok (t := t3) (a := ()), e4]
      rw [writeWord, bind_ok (setEngine_run _ _), bind_ok e2, e3]
    · simp [List.countP_append, hc, List.countP_cons, Event.isBusCycle]
    · rw [hsize3] at hmem
      rw [memAfter_append, hmem]
      rfl
    · rw [List.filterMap_append, hsent, hmem3, hsize3, show a + 2 * (i + 1) = a + 2 * i + 2 by omega]
      simp [Event.sentWord, Memory.readHalves]
    · simp [htask, Event.taskWrite]

/-- The data phase of one sector moves exactly that sector (42 R177, R178). -/
theorem sectorData_calm (dir : Dir) (a : Nat) {s : State} (h : s.calm) (hm : s.memoryAnswers = true) (hr : s.raced = []) :
    ∃ es t, sectorData dir a s = .ok () t ∧ Adv (dataReads dir) es s t ∧ es.countP Event.isBusCycle = 256 ∧
      Moved dir 1 a s.bufSize s.mem (match dir with
        | .read => s.streamWords 0 wordsPerSector
        | .write => s.mem.readHalves s.bufSize a wordsPerSector) es ∧ es.filterMap Event.taskWrite = [] := by
  have a1 := goto_calm .dataPhase h
  cases dir with
  | read =>
    obtain ⟨es, t, e, ad, hc, hmem, hs, hrec, htask⟩ := readWords_calm a wordsPerSector 0 a1.calm (a1.answers hm)
    refine ⟨es, t, ?_, (a1.trans ad).cast (by simp [dataReads]) (by simp), hc, ⟨?_, ?_, hs, ?_⟩, htask⟩
    · rw [sectorData, bind_ok (goto_run _ _)]; exact e
    · simp [dataReads, wordsPerSector]
    · intro M
      have := hmem M
      rw [State.streamWords_shift a1.stream] at this
      exact this
    · rw [State.streamWords_shift a1.stream] at hrec
      exact hrec
  | write =>
    obtain ⟨es, t, e, ad, hc, hmem, hs, htask⟩ := writeWords_calm a wordsPerSector 0 a1.calm (a1.answers hm) (a1.raced.trans hr)
    refine ⟨es, t, ?_, (a1.trans ad).cast (by simp [dataReads]) (by simp), hc, ⟨?_, hmem, ?_⟩, htask⟩
    · rw [sectorData, bind_ok (goto_run _ _)]; exact e
    · rfl
    · exact hs

/-! ## Sectors and chunks against the replies -/

/-- A state that lies `k` device values after `s0` in the same operation. -/
structure At (s0 : State) (k : Nat) (s : State) : Prop where
  calm : s.calm
  answers : s.memoryAnswers = true
  raced : s.raced = []
  params : s.params = s0.params
  kernel : { s.csr.kernel with lastStatus := 0 } = { s0.csr.kernel with lastStatus := 0 }
  stream : ∀ j, s.upcoming j = s0.upcoming (k + j)

theorem At.next {s0 s t : State} {k k' : Nat} {es : List Event} (h : At s0 k s) (p : Progress k' es s t) :
    At s0 (k + k') t where
  calm := p.calm
  answers := p.answers h.answers
  raced := p.raced.trans h.raced
  params := p.params.trans h.params
  kernel := p.kernel.trans h.kernel
  stream := fun j => by rw [p.stream, h.stream, Nat.add_assoc]

theorem At.kernelEq {s0 s : State} {k : Nat} (h : At s0 k s) {α : Type} (f : Csrs → α)
    (hf : ∀ c : Csrs, f { c.kernel with lastStatus := 0 } = f c) : f s.csr = f s0.csr := by
  rw [← hf s.csr, h.kernel, hf]

theorem At.bufAddr {s0 s : State} {k : Nat} (h : At s0 k s) : s.bufAddr = s0.bufAddr :=
  h.kernelEq (fun c => c.argBuf.toNat) fun _ => rfl

theorem At.bufSize {s0 s : State} {k : Nat} (h : At s0 k s) : s.bufSize = s0.bufSize := by
  simp [State.bufSize, h.params]

theorem At.addrMode {s0 s : State} {k : Nat} (h : At s0 k s) : s.addrMode = s0.addrMode :=
  h.kernelEq (fun c => if c.useLba then (if c.lba48Sup then AddrMode.lba48 else .lba28) else .chs) fun _ => rfl

theorem At.transferSeq {s0 s : State} {k : Nat} (h : At s0 k s) (dir : Dir) (lba n : Nat) :
    s.transferSeq dir lba n = s0.transferSeq dir lba n := by
  have h1 := h.addrMode
  have h2 := h.kernelEq (fun c => c.geomHeads) fun _ => rfl
  have h3 := h.kernelEq (fun c => c.geomSpt) fun _ => rfl
  simp only [State.transferSeq, h1, h2, h3]

theorem At.flushSeq {s0 s : State} {k : Nat} (h : At s0 k s) : s.flushSeq = s0.flushSeq := by
  have h1 := h.addrMode
  have h2 := h.kernelEq (fun c => c.useLba) fun _ => rfl
  simp only [State.flushSeq, State.plainHead, h1, h2]

theorem At.transferResult {s0 s : State} {k : Nat} (h : At s0 k s) : s.transferResult = s0.transferResult :=
  h.kernelEq (fun c => BitVec.ofNat 32 (c.argCount.toNat * sectorBytes)) fun _ => rfl

/-- The wait of a state `k` values later is the wait of the stream from value `k`. -/
theorem At.pollOn {s0 s : State} {k : Nat} (h : At s0 k s) (verdict : Byte → Verdict) (n : Nat) :
    pollOn verdict s0.upcoming n k =
      match pollOn verdict s.upcoming n 0 with
      | .ready st k' => .ready st (k + k')
      | .failed e k' => .failed e (k + k') := pollOn_cast verdict h.stream n

/-- One sector: the DRQ wait and the data phase, or the wait's error. -/
theorem sectorStep_calm (dir : Dir) (i : Nat) {s0 s : State} {k : Nat} (h : At s0 k s)
    (hmem0 : dir = .write → s.mem = s0.mem) :
    ∃ es t k' m ws, Progress k' es s t ∧
      (t.eng.remaining, t.eng.cur, t.eng.chunkDone, t.eng.n) = (s.eng.remaining, s.eng.cur, s.eng.chunkDone, s.eng.n) ∧
      es.countP Event.isBusCycle ≤ s0.params.budgetDrq + 256 ∧ m ≤ 1 ∧
      Moved dir m (s0.bufAddr + 512 * (s.eng.chunkDone + i)) s0.bufSize s.mem ws es ∧
      es.filterMap Event.taskWrite = [] ∧
      ((sectorStep dir i s = .ok () t ∧ m = 1 ∧
          ∀ ws0 f, ws0.length = 256 * (s.eng.chunkDone + i) →
            s0.replyDrq ws0 k f = f (k + k' - dataReads dir) ∧ ws = s0.sectorWords dir ws0 (k + k' - dataReads dir) ∧
            dataReads dir ≤ k + k') ∨
       ∃ e, sectorStep dir i s = .error (.raised e) t ∧ ws = [] ∧
          ∀ ws0 f, s0.replyDrq ws0 k f = Reply.failed e (k + k') ws0) := by
  have p1 : Progress 0 [] s { s with eng := { s.eng with sector := i } } :=
    ⟨⟨h.calm, rfl, rfl, rfl, fun j => by simp [State.upcoming], rfl, rfl, rfl, id⟩, rfl⟩
  have h1 := h.next p1
  obtain ⟨es, t2, hes, hc, hm⟩ := waitDrq_calm h1.calm
  have hd : ({ s with eng := { s.eng with sector := i } } : State).drqWait = s.drqWait := rfl
  rw [hd] at hm
  have hp := h.pollOn (drqVerdict s.params.errMaskedByBsy) s.params.budgetDrq
  have hquiet : ∀ e ∈ es, e.isQuiet = true := fun e he => Event.isQuiet_of_isPoll (hes e he)
  have hc' : es.countP Event.isBusCycle ≤ s0.params.budgetDrq := by
    have : s.params.budgetDrq = s0.params.budgetDrq := by rw [h.params]
    rw [← this]; exact hc
  simp only [State.replyDrq, ← h.params, hp]
  simp only [State.drqWait] at hm
  cases hw : pollOn (drqVerdict s.params.errMaskedByBsy) s.upcoming s.params.budgetDrq 0 with
  | failed e k1 =>
    rw [hw] at hm
    obtain ⟨e2, a2⟩ := hm
    refine ⟨es, t2, k1, 0, [], (p1.trans a2.toProgress).cast (by simp) (by simp), ?_, by rw [h.params]; omega, by omega,
      Moved.of_quiet hquiet, taskWrite_of_isPoll hes, .inr ⟨e, ?_, rfl, fun _ _ => rfl⟩⟩
    · have := a2.loop
      simp only [Engine.loop, Prod.mk.injEq] at this ⊢
      exact ⟨this.1, this.2.1, this.2.2.1, this.2.2.2.1⟩
    · rw [sectorStep, bind_ok (setEngine_run _ _), bind_error e2]
  | ready st k1 =>
    rw [hw] at hm
    obtain ⟨e2, a2⟩ := hm
    have h2 := h1.next a2.toProgress
    have hloop := a2.loop
    simp only [Engine.loop, Prod.mk.injEq] at hloop
    obtain ⟨es3, t3, e3, a3, hc3, hmv, htask⟩ :=
      sectorData_calm dir (s0.bufAddr + 512 * (s.eng.chunkDone + i)) h2.calm h2.answers h2.raced
    have hsz := h2.bufSize
    have hmem : t2.mem = s.mem := by
      have := a2.mem
      rw [this]
      have hq : Moved .write 0 0 s.bufSize s.mem [] es := Moved.of_quiet hquiet
      exact hq.2.1 s.mem
    rw [hsz, hmem] at hmv
    obtain ⟨W, hW⟩ : ∃ W, W = (match dir with
      | .read => t2.streamWords 0 wordsPerSector
      | .write => s.mem.readHalves s0.bufSize (s0.bufAddr + 512 * (s.eng.chunkDone + i)) wordsPerSector) := ⟨_, rfl⟩
    rw [← hW] at hmv
    have hk2 : ∀ n, t2.streamWords 0 n = s0.streamWords (k + k1) n := fun n => by
      rw [State.streamWords_shift h2.stream]; congr 1
    refine ⟨es3 ++ es, t3, k1 + dataReads dir, 1, W,
      (p1.trans (a2.trans a3).toProgress).cast (by simp) (by simp), ?_, ?_, by omega, ?_,
      by rw [List.filterMap_append, htask, taskWrite_of_isPoll hes]; rfl, .inl ⟨?_, rfl, fun ws0 f hlen => ⟨?_, ?_, by omega⟩⟩⟩
    · have := a3.loop
      simp only [Engine.loop, Prod.mk.injEq] at this ⊢
      exact ⟨this.1.trans hloop.1, this.2.1.trans hloop.2.1, this.2.2.1.trans hloop.2.2.1,
        this.2.2.2.1.trans hloop.2.2.2.1⟩
    · rw [List.countP_append, hc3]; rw [h.params]; omega
    · have := (Moved.of_quiet (dir := dir) (a := s0.bufAddr + 512 * (s.eng.chunkDone + i)) (size := s0.bufSize)
        (mem := s.mem) hquiet).append (m' := 1) (es' := es3) (by rw [Nat.mul_zero, Nat.add_zero]; exact hmv)
      rw [List.nil_append] at this
      exact this
    · rw [sectorStep, bind_ok (setEngine_run _ _), bind_ok e2, get_bind, h2.bufAddr]
      have hcd : t2.eng.chunkDone = s.eng.chunkDone := hloop.2.2.1
      have hse : t2.eng.sector = i := hloop.2.2.2.2
      rw [hcd, hse]
      exact e3
    · simp only [Waited.andThen]
      congr 1; omega
    · rw [hW]
      cases dir with
      | read =>
        have hk : k + (k1 + dataReads .read) - dataReads .read = k + k1 := by omega
        simp only [State.sectorWords]
        rw [hk2, hk]
      | write =>
        simp only [State.sectorWords]
        rw [hlen, hmem0 rfl, show s0.bufAddr + 2 * (256 * (s.eng.chunkDone + i)) =
          s0.bufAddr + 512 * (s.eng.chunkDone + i) by omega]

/-- Data written to BUF leaves what a WRITE reads from it. -/
theorem Moved.mem_of {dir : Dir} {m m' a a' size : Nat} {mem mem' : Memory} {ws ws' : List Half} {es es' : List Event}
    (h : Moved dir m a size mem ws es) (hm : mem' = memAfter size es mem) (h' : Moved dir m' a' size mem' ws' es') :
    Moved dir m' a' size mem ws' es' := by
  cases dir with
  | read => exact h'
  | write => rw [hm, h.2.1] at h'; exact h'

/-- The sectors of a chunk: all of them, or those before a wait's error (42 R174, R185). -/
theorem sectors_calm (dir : Dir) {s0 : State} : ∀ (n i : Nat) {s : State} {k : Nat}, At s0 k s →
    (dir = .write → s.mem = s0.mem) → ∃ es t k' m ws, Progress k' es s t ∧
      (t.eng.remaining, t.eng.cur, t.eng.chunkDone, t.eng.n) = (s.eng.remaining, s.eng.cur, s.eng.chunkDone, s.eng.n) ∧
      es.countP Event.isBusCycle ≤ n * (s0.params.budgetDrq + 256) ∧ m ≤ n ∧
      Moved dir m (s0.bufAddr + 512 * (s.eng.chunkDone + i)) s0.bufSize s.mem ws es ∧
      es.filterMap Event.taskWrite = [] ∧
      ((forRange (sectorStep dir) n i s = .ok () t ∧ m = n ∧
          ∀ ws0 f, ws0.length = 256 * (s.eng.chunkDone + i) →
            s0.replySectors dir f n ws0 k = f (ws0 ++ ws) (k + k')) ∨
       ∃ e, forRange (sectorStep dir) n i s = .error (.raised e) t ∧
          ∀ ws0 f, ws0.length = 256 * (s.eng.chunkDone + i) →
            s0.replySectors dir f n ws0 k = Reply.failed e (k + k') (ws0 ++ ws))
  | 0, i, s, k, h, _ =>
    ⟨[], s, 0, 0, [], ⟨Flow.refl h.calm, rfl⟩, rfl, by simp, by omega, Moved.of_quiet (by simp), rfl,
      .inl ⟨rfl, rfl, fun ws0 f _ => by simp [State.replySectors]⟩⟩
  | n + 1, i, s, k, h, hmem0 => by
    obtain ⟨es1, t1, k1, m1, ws1, p1, l1, c1, hm1, mv1, tw1, r1⟩ := sectorStep_calm dir i h hmem0
    rcases r1 with ⟨e1, hm, r1⟩ | ⟨e, e1, hws, r1⟩
    · subst hm
      have h1 := h.next p1
      obtain ⟨es2, t2, k2, m2, ws2, p2, l2, c2, hm2, mv2, tw2, r2⟩ := sectors_calm dir n (i + 1) h1 fun hd => by
        rw [p1.mem, h.bufSize, mv1.mem_write hd, hmem0 hd]
      simp only [Prod.mk.injEq] at l1 l2 ⊢
      have mv2' := mv1.mem_of (by rw [p1.mem, h.bufSize]) mv2
      rw [l1.2.2.1, show s0.bufAddr + 512 * (s.eng.chunkDone + (i + 1)) =
        s0.bufAddr + 512 * (s.eng.chunkDone + i) + 512 * 1 by omega] at mv2'
      have mv := mv1.append mv2'
      refine ⟨es2 ++ es1, t2, k1 + k2, 1 + m2, ws1 ++ ws2, p1.trans p2,
        ⟨l2.1.trans l1.1, l2.2.1.trans l1.2.1, l2.2.2.1.trans l1.2.2.1, l2.2.2.2.trans l1.2.2.2⟩, ?_, by omega, mv,
        by rw [List.filterMap_append, tw1, tw2]; rfl, ?_⟩
      · rw [List.countP_append, Nat.add_mul]; omega
      · have hr : ∀ ws0 f, ws0.length = 256 * (s.eng.chunkDone + i) →
            s0.replySectors dir f (n + 1) ws0 k = s0.replySectors dir f n (ws0 ++ ws1) (k + k1) := by
          intro ws0 f hlen
          obtain ⟨q1, q2, q3⟩ := r1 ws0 (fun k =>
            s0.replySectors dir f n (ws0 ++ s0.sectorWords dir ws0 k) (k + dataReads dir)) hlen
          rw [State.replySectors, q1, ← q2]
          congr 1; omega
        have hlen1 : ∀ ws0 : List Half, ws0.length = 256 * (s.eng.chunkDone + i) →
            (ws0 ++ ws1).length = 256 * (t1.eng.chunkDone + (i + 1)) := fun ws0 hlen => by
          rw [List.length_append, hlen, mv1.length, l1.2.2.1]; omega
        rcases r2 with ⟨e2, hm, r2⟩ | ⟨e, e2, r2⟩
        · refine .inl ⟨by rw [forRange, bind_ok e1, e2], by omega, fun ws0 f hlen => ?_⟩
          rw [hr ws0 f hlen, r2 _ f (hlen1 ws0 hlen), List.append_assoc, Nat.add_assoc]
        · refine .inr ⟨e, by rw [forRange, bind_ok e1, e2], fun ws0 f hlen => ?_⟩
          rw [hr ws0 f hlen, r2 _ f (hlen1 ws0 hlen), List.append_assoc, Nat.add_assoc]
    · subst hws
      refine ⟨es1, t1, k1, m1, [], p1, l1,
        by rw [Nat.succ_mul]; exact c1.trans (Nat.le_add_left _ _), by omega, mv1, tw1,
        .inr ⟨e, by rw [forRange, bind_error e1], fun ws0 f _ => ?_⟩⟩
      rw [State.replySectors, r1, List.append_nil]

/-! ## Chunks -/

/-- The pre-command wait of a state `k` values later. -/
theorem At.replyCommand {s0 s : State} {k : Nat} (h : At s0 k s) (ws : List Half) (f : Nat → Reply) :
    s0.replyCommand ws k f =
      match s.precmd with
      | .ready _ k' => f (k + k')
      | .failed e k' => Reply.failed e (k + k') ws := by
  simp only [State.replyCommand, State.precmd, h.params]
  split
  · rw [h.pollOn]
    cases Sys2Proof.Machine.pollOn notBusyVerdict s.upcoming s0.params.budgetPrecmd 0 <;> rfl
  · rfl

/-- How many chunks a transfer of `remaining` sectors makes (42 R174, R187). -/
def State.chunks (s : State) (remaining : Nat) : Nat :=
  (remaining + s.addrMode.maxPerCmd - 1) / s.addrMode.maxPerCmd

theorem AddrMode.maxPerCmd_pos (m : AddrMode) : 0 < m.maxPerCmd := by cases m <;> decide

theorem State.chunks_pos (s : State) {r : Nat} (h : r ≠ 0) :
    s.chunks r = s.chunks (r - min r s.addrMode.maxPerCmd) + 1 := by
  have hp := s.addrMode.maxPerCmd_pos
  simp only [State.chunks]
  generalize s.addrMode.maxPerCmd = M at hp ⊢
  by_cases hr : r ≤ M
  · rw [Nat.min_eq_left hr, Nat.sub_self, Nat.zero_add, Nat.div_eq_of_lt (by omega : M - 1 < M)]
    rw [show r + M - 1 = (r - 1) + M by omega, Nat.add_div_right _ hp, Nat.div_eq_of_lt (by omega)]
  · rw [Nat.min_eq_right (by omega), show r + M - 1 = (r - M + M - 1) + M by omega, Nat.add_div_right _ hp]

theorem length_transferSeq (s : State) (dir : Dir) (lba n : Nat) :
    (s.transferSeq dir lba n).length = s.addrMode.seqLength := by
  simp only [State.transferSeq]
  cases s.addrMode <;> rfl

theorem countP_writeEvents (seq : List SeqEntry) : (writeEvents seq).countP Event.isBusCycle = seq.length := by
  rw [writeEvents, List.countP_reverse, List.countP_map]
  have : Event.isBusCycle ∘ (fun p : SeqEntry => Event.ideWrite p.1 .reg ((0 : Byte) ++ p.2)) = fun _ => true := by
    funext p; rfl
  rw [this, List.countP_true]

/-- The bus cycles of one command of a transfer (42 R187). -/
def State.commandBound (s : State) : Nat :=
  (if s.params.precmdWait then s.params.budgetPrecmd else 0) + s.addrMode.seqLength

/-- One chunk: its command and its sectors, or what came before a wait's error (42 R174). -/
theorem chunkStep_calm (dir : Dir) {s0 s : State} {k : Nat} (h : At s0 k s) (n : Nat)
    (hn : n = min s.eng.remaining s0.addrMode.maxPerCmd) (hmem0 : dir = .write → s.mem = s0.mem) :
    ∃ es t k' m ws tw, Progress k' es s t ∧
      es.countP Event.isBusCycle ≤ s0.commandBound + n * (s0.params.budgetDrq + 256) ∧ m ≤ n ∧
      Moved dir m (s0.bufAddr + 512 * s.eng.chunkDone) s0.bufSize s.mem ws es ∧
      es.filterMap Event.taskWrite = tw.reverse ∧
      ((chunkStep dir s = .ok () t ∧ m = n ∧ tw = s0.transferSeq dir s.eng.cur n ∧
          (t.eng.remaining, t.eng.cur, t.eng.chunkDone) =
            (s.eng.remaining - n, s.eng.cur + n, s.eng.chunkDone + n) ∧
          ∀ ws0 f, ws0.length = 256 * s.eng.chunkDone →
            (s0.replyCommand ws0 k fun k => s0.replySectors dir f n ws0 k) = f (ws0 ++ ws) (k + k')) ∨
       ∃ e, chunkStep dir s = .error (.raised e) t ∧ tw <+: s0.transferSeq dir s.eng.cur n ∧
          ∀ ws0 f, ws0.length = 256 * s.eng.chunkDone → (s0.replyCommand ws0 k fun k => s0.replySectors dir f n ws0 k) =
            Reply.failed e (k + k') (ws0 ++ ws)) := by
  obtain ⟨s1, e1, p1, l1, hpre, hmem1⟩ : ∃ s1, setEngine (fun e => { e with n := n }) s = .ok () s1 ∧ Progress 0 [] s s1 ∧
      s1.eng = { s.eng with n := n } ∧ s1.precmd = s.precmd ∧ s1.mem = s.mem :=
    ⟨_, rfl, ⟨⟨h.calm, rfl, rfl, rfl, fun j => by simp [State.upcoming], rfl, rfl, rfl, id⟩, rfl⟩, rfl, rfl, rfl⟩
  have h1 := h.next p1
  obtain ⟨es2, t2, hes, hc, hm⟩ := issueCommand_calm (s0.transferSeq dir s.eng.cur n) h1.calm
  rw [hpre, h1.params] at hm
  rw [h1.params] at hc
  have hquiet : ∀ e ∈ es2, e.isQuiet = true := fun e he => Event.isQuiet_of_isPoll (hes e he)
  have run : ∀ x, issueCommand (s0.transferSeq dir s.eng.cur n) s1 = x →
      chunkStep dir s = (match x with
        | .ok _ t => (do
            forRange (sectorStep dir) n 0
            setEngine fun e =>
              { e with cur := e.cur + e.n, chunkDone := e.chunkDone + e.n, remaining := e.remaining - e.n }
            : EngineM Unit) t
        | .error e t => .error e t) := by
    intro x hx
    rw [chunkStep, get_bind, h.addrMode, ← hn, bind_ok e1, h.transferSeq]
    cases x with
    | ok a t => rw [bind_ok hx]
    | error e t => rw [bind_error hx]
  cases hw : s.precmd with
  | failed e k2 =>
    rw [hw] at hm
    obtain ⟨e2, a2⟩ := hm
    refine ⟨es2, t2, k2, 0, [], [], (p1.trans a2.toProgress).cast (by simp) (by simp),
      by simp only [State.commandBound]; omega, by omega, Moved.of_quiet hquiet, taskWrite_of_isPoll hes,
      .inr ⟨e, by rw [run _ e2], List.nil_prefix, fun ws0 f _ => ?_⟩⟩
    rw [h.replyCommand, hw, List.append_nil]
  | ready st k2 =>
    rw [hw] at hm
    obtain ⟨e2, a2⟩ := hm
    have h2 := h1.next a2.toProgress
    have l2 := a2.loop
    simp only [Engine.loop, Prod.mk.injEq, l1] at l2
    obtain ⟨es3, t3, k3, m3, ws3, p3, l3, c3, hm3, mv3, tw3, r3⟩ := sectors_calm dir n 0 h2 fun hd => by
      have hq0 : ∀ e ∈ Event.idle s0.params.tCmdSettle :: writeEvents (s0.transferSeq dir s.eng.cur n) ++ es2,
          e.isQuiet = true := by
        intro e he
        simp only [List.cons_append, List.mem_cons, List.mem_append] at he
        rcases he with rfl | he | he
        · rfl
        · exact isQuiet_writeEvents _ e he
        · exact hquiet e he
      have hmv0 : Moved dir 0 0 s1.bufSize s1.mem [] _ := Moved.of_quiet hq0
      rw [a2.mem, hmv0.mem_write hd, hmem1, hmem0 hd]
    simp only [Prod.mk.injEq] at l3
    have hq2 : ∀ e ∈ Event.idle s0.params.tCmdSettle :: writeEvents (s0.transferSeq dir s.eng.cur n) ++ es2,
        e.isQuiet = true := by
      intro e he
      simp only [List.cons_append, List.mem_cons, List.mem_append] at he
      rcases he with rfl | he | he
      · rfl
      · exact isQuiet_writeEvents _ e he
      · exact hquiet e he
    have mv2 : Moved dir 0 (s0.bufAddr + 512 * s.eng.chunkDone) s0.bufSize s.mem [] _ := Moved.of_quiet hq2
    have hmem : t2.mem = memAfter s0.bufSize
        (Event.idle s0.params.tCmdSettle :: writeEvents (s0.transferSeq dir s.eng.cur n) ++ es2) s.mem := by
      rw [a2.mem, h1.bufSize, hmem1]
    have mv3' := mv2.mem_of hmem mv3
    rw [l2.2.2.1] at mv3'
    have mv := mv2.append (m' := m3) (ws' := ws3) (by simpa using mv3')
    have htw : (es3 ++ (Event.idle s0.params.tCmdSettle :: writeEvents (s0.transferSeq dir s.eng.cur n) ++ es2)).filterMap
        Event.taskWrite = (s0.transferSeq dir s.eng.cur n).reverse := by
      rw [List.filterMap_append, tw3, List.cons_append, List.filterMap_cons, List.nil_append]
      simp only [Event.taskWrite]
      rw [List.filterMap_append, taskWrite_writeEvents, taskWrite_of_isPoll hes, List.append_nil]
    have hcount : (es3 ++ (Event.idle s0.params.tCmdSettle :: writeEvents (s0.transferSeq dir s.eng.cur n) ++
        es2)).countP Event.isBusCycle ≤ s0.commandBound + n * (s0.params.budgetDrq + 256) := by
      rw [List.countP_append, List.cons_append, List.countP_cons, List.countP_append, countP_writeEvents,
        length_transferSeq]
      simp only [State.commandBound, Event.isBusCycle, Bool.false_eq_true, if_false]
      omega
    have p23 := (p1.trans a2.toProgress).trans p3
    rcases r3 with ⟨e3, hmn, r3⟩ | ⟨e, e3, r3⟩
    · have p4 : Progress 0 [] t3 { t3 with eng :=
          { t3.eng with
            cur := t3.eng.cur + t3.eng.n
            chunkDone := t3.eng.chunkDone + t3.eng.n
            remaining := t3.eng.remaining - t3.eng.n } } :=
        ⟨⟨p3.calm, rfl, rfl, rfl, fun j => by simp [State.upcoming], rfl, rfl, rfl, id⟩, rfl⟩
      refine ⟨_, _, k2 + k3, m3, ws3, s0.transferSeq dir s.eng.cur n, (p23.trans p4).cast (by omega) (by simp),
        hcount, hm3, by simpa using mv, htw, .inl ⟨?_, hmn, rfl, ?_, fun ws0 f hlen => ?_⟩⟩
      · rw [run _ e2]
        simp only []
        rw [bind_ok e3, setEngine_run]
      · have hcur : t3.eng.cur = s.eng.cur := l3.2.1.trans l2.2.1
        have hrem : t3.eng.remaining = s.eng.remaining := l3.1.trans l2.1
        have hcd : t3.eng.chunkDone = s.eng.chunkDone := l3.2.2.1.trans l2.2.2.1
        have hnn : t3.eng.n = n := l3.2.2.2.trans l2.2.2.2.1
        simp only [hcur, hrem, hcd, hnn]
      · rw [h.replyCommand, hw]
        simp only [Nat.add_zero] at r3 ⊢
        rw [r3 ws0 f (by rw [hlen, l2.2.2.1]), Nat.add_assoc]
    · refine ⟨_, t3, k2 + k3, m3, ws3, s0.transferSeq dir s.eng.cur n, p23.cast (by omega) (by simp),
        hcount, hm3, by simpa using mv, htw, .inr ⟨e, ?_, List.prefix_rfl, fun ws0 f hlen => ?_⟩⟩
      · rw [run _ e2]
        simp only []
        rw [bind_error e3]
      · rw [h.replyCommand, hw]
        simp only [Nat.add_zero] at r3 ⊢
        rw [r3 ws0 f (by rw [hlen, l2.2.2.1]), Nat.add_assoc]

/-- The chunks of a transfer: all of them, or what came before a wait's error (42 R174, R185, R187). -/
theorem chunkLoop_calm (dir : Dir) {s0 : State} : ∀ (fuel : Nat) {s : State} {k : Nat}, At s0 k s →
    (dir = .write → s.mem = s0.mem) → ∃ es t k' m ws tw, Progress k' es s t ∧
      es.countP Event.isBusCycle ≤
        s0.chunks s.eng.remaining * s0.commandBound + s.eng.remaining * (s0.params.budgetDrq + 256) ∧
      m ≤ s.eng.remaining ∧
      Moved dir m (s0.bufAddr + 512 * s.eng.chunkDone) s0.bufSize s.mem ws es ∧
      es.filterMap Event.taskWrite = tw.reverse ∧
      ((chunkLoop dir fuel s = .ok () t ∧ (s.eng.remaining ≤ fuel → m = s.eng.remaining) ∧
          tw = s0.chunkWrites dir fuel s.eng.remaining s.eng.cur ∧
          ∀ ws0 f, ws0.length = 256 * s.eng.chunkDone →
            s0.replyChunks dir f fuel s.eng.remaining ws0 k = f (ws0 ++ ws) (k + k')) ∨
       ∃ e, chunkLoop dir fuel s = .error (.raised e) t ∧
          tw <+: s0.chunkWrites dir fuel s.eng.remaining s.eng.cur ∧
          ∀ ws0 f, ws0.length = 256 * s.eng.chunkDone →
            s0.replyChunks dir f fuel s.eng.remaining ws0 k = Reply.failed e (k + k') (ws0 ++ ws))
  | 0, s, k, h, _ =>
    ⟨[], s, 0, 0, [], [], ⟨Flow.refl h.calm, rfl⟩, by simp, by omega, Moved.of_quiet (by simp), rfl,
      .inl ⟨rfl, fun hr => by omega, rfl, fun ws0 f _ => by simp [State.replyChunks]⟩⟩
  | fuel + 1, s, k, h, hmem0 => by
    by_cases hr : s.eng.remaining = 0
    · refine ⟨[], s, 0, 0, [], [], ⟨Flow.refl h.calm, rfl⟩, by simp, by omega, Moved.of_quiet (by simp), rfl,
        .inl ⟨?_, fun _ => hr.symm, by simp [State.chunkWrites, hr], fun ws0 f _ => by simp [State.replyChunks, hr]⟩⟩
      rw [chunkLoop, get_bind]
      simp [hr]
    · obtain ⟨es1, t1, k1, m1, ws1, tw1, p1, c1, hm1, mv1, w1, r1⟩ := chunkStep_calm dir h _ rfl hmem0
      have hch := s0.chunks_pos hr
      have run : chunkLoop dir (fuel + 1) s = (do
          chunkStep dir
          chunkLoop dir fuel : EngineM Unit) s := by
        rw [chunkLoop, get_bind]
        simp [hr]
      have hle : min s.eng.remaining s0.addrMode.maxPerCmd ≤ s.eng.remaining := Nat.min_le_left _ _
      rcases r1 with ⟨e1, hm, htw, l1, r1⟩ | ⟨e, e1, htw, r1⟩
      · have h1 := h.next p1
        obtain ⟨es2, t2, k2, m2, ws2, tw2, p2, c2, hm2, mv2, w2, r2⟩ := chunkLoop_calm dir fuel h1 fun hd => by
          rw [p1.mem, h.bufSize, mv1.mem_write hd, hmem0 hd]
        simp only [Prod.mk.injEq] at l1
        have hpos : 0 < min s.eng.remaining s0.addrMode.maxPerCmd := by
          have := s0.addrMode.maxPerCmd_pos
          omega
        rw [l1.1] at c2 hm2 r2
        rw [l1.2.1] at r2
        rw [l1.2.2] at mv2
        subst hm
        generalize hg : min s.eng.remaining s0.addrMode.maxPerCmd = m1 at *
        have mv2' := mv1.mem_of (by rw [p1.mem, h.bufSize]) mv2
        rw [Nat.mul_add, ← Nat.add_assoc] at mv2'
        have mv := mv1.append mv2'
        refine ⟨es2 ++ es1, t2, k1 + k2, m1 + m2, ws1 ++ ws2, tw1 ++ tw2, p1.trans p2, ?_, by omega, mv,
          by rw [List.filterMap_append, w1, w2, List.reverse_append], ?_⟩
        · rw [List.countP_append, hch, Nat.add_mul]
          have : m1 * (s0.params.budgetDrq + 256) + (s.eng.remaining - m1) * (s0.params.budgetDrq + 256) =
              s.eng.remaining * (s0.params.budgetDrq + 256) := by
            rw [← Nat.add_mul]; congr 1; omega
          omega
        · have hrep : ∀ ws0 f, ws0.length = 256 * s.eng.chunkDone →
              s0.replyChunks dir f (fuel + 1) s.eng.remaining ws0 k =
                s0.replyChunks dir f fuel (s.eng.remaining - m1) (ws0 ++ ws1) (k + k1) := by
            intro ws0 f hlen
            rw [State.replyChunks, if_neg hr, hg]
            exact r1 ws0 _ hlen
          have hlen1 : ∀ ws0 : List Half, ws0.length = 256 * s.eng.chunkDone →
              (ws0 ++ ws1).length = 256 * t1.eng.chunkDone := fun ws0 hlen => by
            rw [List.length_append, hlen, mv1.length, l1.2.2]; omega
          have hcw : s0.chunkWrites dir (fuel + 1) s.eng.remaining s.eng.cur =
              tw1 ++ s0.chunkWrites dir fuel (s.eng.remaining - m1) (s.eng.cur + m1) := by
            rw [State.chunkWrites, if_neg hr, htw, hg]
          rw [hcw]
          rcases r2 with ⟨e2, hm2', htw2, r2⟩ | ⟨e, e2, htw2, r2⟩
          · refine .inl ⟨by rw [run, bind_ok e1, e2], fun hf => ?_, by rw [htw2], fun ws0 f hlen => ?_⟩
            · have := hm2' (by omega)
              omega
            · rw [hrep ws0 f hlen, r2 _ f (hlen1 ws0 hlen), List.append_assoc, Nat.add_assoc]
          · refine .inr ⟨e, by rw [run, bind_ok e1, e2], (List.prefix_append_right_inj _).mpr htw2, fun ws0 f hlen => ?_⟩
            rw [hrep ws0 f hlen, r2 _ f (hlen1 ws0 hlen), List.append_assoc, Nat.add_assoc]
      · refine ⟨es1, t1, k1, m1, ws1, tw1, p1, ?_, by omega, mv1, w1,
          .inr ⟨e, by rw [run, bind_error e1], ?_, fun ws0 f hlen => ?_⟩⟩
        · rw [hch, Nat.add_mul]
          have := Nat.mul_le_mul_right (s0.params.budgetDrq + 256) hle
          omega
        · rw [State.chunkWrites, if_neg hr]
          exact htw.trans (List.prefix_append _ _)
        · rw [State.replyChunks, if_neg hr]
          exact r1 ws0 _ hlen

end Sys2Proof.Machine
end

