-- ==== Sys2Proof/Laws/CalmBody.lean ====
section
/-! SUPPORT. Each operation's pseudocode, undisturbed, against the replies of Sys2Proof/Safety.lean: what it ends with, how many
device values it read, the events it made and the registers it wrote. -/

namespace Sys2Proof.Machine

/-! ## From a body to its operation -/

/-- From `s` to `t` the engine read `k` device values and made the events `es`; of the registers, LAST_STATUS follows them. -/
structure Moves (k : Nat) (es : List Event) (s t : State) : Prop where
  calm : t.calm
  params : t.params = s.params
  stream : ∀ j, t.upcoming j = s.upcoming (k + j)
  events : t.engineEvents = es ++ s.engineEvents
  mem : t.mem = memAfter s.bufSize es s.mem
  status : t.csr.lastStatus = statusFrom s.csr.lastStatus es
  answers : s.memoryAnswers = true → t.memoryAnswers = true

theorem Progress.moves {k : Nat} {es : List Event} {s t : State} (h : Progress k es s t) : Moves k es s t :=
  ⟨h.calm, h.params, h.stream, h.events, h.mem, h.status, h.answers⟩

theorem Moves.trans {k k' : Nat} {es es' : List Event} {s t u : State} (h : Moves k es s t) (h' : Moves k' es' t u) :
    Moves (k + k') (es' ++ es) s u where
  calm := h'.calm
  params := h'.params.trans h.params
  stream := fun j => by rw [h'.stream, h.stream, Nat.add_assoc]
  events := by rw [h'.events, h.events, List.append_assoc]
  mem := by
    have : t.bufSize = s.bufSize := by simp [State.bufSize, h.params]
    rw [h'.mem, h.mem, this, memAfter_append]
  status := by rw [h'.status, h.status, statusFrom_append]
  answers := h'.answers ∘ h.answers

/-- An update of registers other than LAST_STATUS. -/
theorem Moves.csr {s : State} (h : s.calm) {c : Csrs} (hc : c.lastStatus = s.csr.lastStatus) :
    Moves 0 [] s { s with csr := c } :=
  ⟨h, rfl, fun j => by simp [State.upcoming], rfl, rfl, hc, id⟩

theorem Moves.cast {k k' : Nat} {es es' : List Event} {s t : State} (h : Moves k es s t) (hk : k = k') (he : es = es') :
    Moves k' es' s t := by
  subst hk he; exact h

/-- How an operation ended: `finish(code)` after `k` device values and the events `es`, newest first (60 R212). -/
structure Ended (code : Word) (k : Nat) (es : List Event) (s t : State) : Prop where
  idle : t.busy = false
  done : t.csr.done = true
  result : t.csr.result = code
  status : t.csr.lastStatus = statusFrom s.csr.lastStatus es
  params : t.params = s.params
  stream : ∀ j, t.upcoming j = s.upcoming (k + j)
  events : t.engineEvents = .finish code :: es ++ s.engineEvents
  mem : t.mem = memAfter s.bufSize es s.mem

/-- An operation whose body, from every entered state, ends with a code or an error after `Moves`. -/
theorem exec_ended (i : Instr) {s : State} (hu : s.undisturbed = true) :
    ∃ s1, Entered (some i) s s1 ∧
      ∀ es t k code, Moves k es s1 t →
        (bodyOf i s1 = .ok code t ∨ ∃ e, bodyOf i s1 = .error (.raised e) t ∧ code = e.code) →
        ∃ u, exec i s = .next u ∧ Ended code k es s u ∧ u.csr.kernel = { t.csr.kernel with result := code } := by
  obtain ⟨s1, h1, hrun⟩ := runOperation_calm i (bodyOf i) hu
  refine ⟨s1, h1, fun es t k code hm hb => ?_⟩
  obtain ⟨u, hx, hf⟩ := hrun code t hb hm.calm
  have hs : s1.csr.lastStatus = s.csr.lastStatus := (congrArg Csrs.lastStatus h1.kernel : _)
  have hst : u.csr.lastStatus = t.csr.lastStatus := (congrArg Csrs.lastStatus hf.kernel : _)
  have hsize : s1.bufSize = s.bufSize := by simp [State.bufSize, h1.params]
  refine ⟨u, by rw [exec_eq]; exact hx, ⟨hf.idle, hf.done, hf.result, by rw [hst, hm.status, hs], ?_, fun j => ?_, ?_, ?_⟩,
    hf.kernel⟩
  · rw [hf.params, hm.params, h1.params]
  · rw [hf.stream, hm.stream, h1.stream]
  · rw [hf.events, hm.events, h1.events, List.cons_append]
  · rw [hf.mem, hm.mem, h1.mem, hsize]

theorem Progress.kernelEq {k : Nat} {es : List Event} {s t : State} (h : Progress k es s t) :
    t.csr.kernel = { s.csr.kernel with lastStatus := statusFrom s.csr.lastStatus es } := by
  have h1 := h.kernel
  have h2 := h.status
  simp only [Csrs.kernel, Csrs.mk.injEq] at h1 h2 ⊢
  simp_all

/-! ## Raw operations (40 R110 to R112) -/

theorem bodyRegRd8_calm (reg : Nat) {s : State} (h : s.calm) :
    ∃ t, bodyRegRd8 reg s = .ok ((s.upcoming 0).lo.setWidth 32) t ∧
      Adv 1 [.ideRead (BitVec.ofNat 3 reg) .reg (s.upcoming 0)] s t := by
  have a1 := goto_calm .rawCycle h
  obtain ⟨t, e, a⟩ := ideRead_calm (BitVec.ofNat 3 reg) .reg a1.calm
  exact ⟨t, by rw [bodyRegRd8, bind_ok (goto_run _ _), bind_ok e]; rfl, (a1.trans a).cast (by simp) (by simp; rfl)⟩

theorem bodyRegRd16_calm (reg : Nat) {s : State} (h : s.calm) :
    ∃ t, bodyRegRd16 reg s = .ok ((s.upcoming 0).setWidth 32) t ∧
      Adv 1 [.ideRead (BitVec.ofNat 3 reg) .reg (s.upcoming 0)] s t := by
  have a1 := goto_calm .rawCycle h
  obtain ⟨t, e, a⟩ := ideRead_calm (BitVec.ofNat 3 reg) .reg a1.calm
  exact ⟨t, by rw [bodyRegRd16, bind_ok (goto_run _ _), bind_ok e]; rfl, (a1.trans a).cast (by simp) (by simp; rfl)⟩

theorem bodyRegWr8_calm (reg : Nat) (val : Byte) {s : State} (h : s.calm) :
    ∃ t, bodyRegWr8 reg val s = .ok 0 t ∧ Adv 0 [.ideWrite (BitVec.ofNat 3 reg) .reg ((0 : Byte) ++ val)] s t := by
  have a1 := goto_calm .rawCycle h
  obtain ⟨t, e, a⟩ := ideWrite_calm (BitVec.ofNat 3 reg) ((0 : Byte) ++ val) .reg a1.calm
  exact ⟨t, by rw [bodyRegWr8, bind_ok (goto_run _ _), bind_ok e]; rfl, (a1.trans a).cast (by simp) (by simp)⟩

/-! ## Waits on the stream of an earlier state -/

/-- A state as the start of a piece of pseudocode: its own stream from value 0. -/
theorem At.self {s : State} (h : s.calm) (ha : s.memoryAnswers = true) (hr : s.raced = []) : At s 0 s :=
  ⟨h, ha, hr, rfl, rfl, fun j => by simp⟩

/-- The final status check of CompleteNoData and of FinalWait (41 R141, 42 R181). -/
theorem checked_calm (code : Word) (st : Byte) (s : State) (k : Nat) (ws : List Half) :
    ((if err st then raise .deviceError else pure () : EngineM Unit) s = .ok () s ∧
        replyChecked code ws st k = { code := code, used := k, words := ws }) ∨
      ((if err st then raise .deviceError else pure () : EngineM Unit) s = .error (.raised .deviceError) s ∧
        replyChecked code ws st k = Reply.failed .deviceError k ws) := by
  by_cases he : err st = true
  · right; simp [he, replyChecked]
  · left; simp [he, replyChecked]

/-- `CompleteNoData` on the stream of a state `k` values before (41 R141). -/
theorem completeNoData_reply (budget : Nat) {s0 s : State} {k : Nat} (h : s.calm)
    (hst : ∀ j, s.upcoming j = s0.upcoming (k + j)) :
    ∃ es t k', (∀ e ∈ es, e.isPoll = true) ∧ Adv k' es s t ∧
      ((completeNoData budget s = .ok () t ∧ s0.replyNoData budget k = { code := 0, used := k + k', words := [] }) ∨
       ∃ e, completeNoData budget s = .error (.raised e) t ∧ s0.replyNoData budget k = Reply.failed e (k + k') []) := by
  obtain ⟨es, t, hes, hm⟩ := completeNoData_calm budget h
  have hp := pollOn_cast notBusyVerdict hst budget
  simp only [State.replyNoData, hp]
  cases hw : pollOn notBusyVerdict s.upcoming budget 0 with
  | failed e k' =>
    rw [hw] at hm
    exact ⟨es, t, k', hes, hm.2, .inr ⟨e, hm.1, rfl⟩⟩
  | ready st k' =>
    rw [hw] at hm
    refine ⟨es, t, k', hes, hm.2, ?_⟩
    simp only [Waited.andThen]
    by_cases he : err st = true
    · right
      exact ⟨.deviceError, by simpa [he] using hm.1, by simp [replyChecked, he]⟩
    · left
      exact ⟨by simpa [he] using hm.1, by simp [replyChecked, he]⟩

/-- `IssueCommand` on the stream of a state `k` values before (41 R131). -/
theorem issueCommand_reply (seq : List SeqEntry) {s0 s : State} {k : Nat} (h : s.calm) (hp : s.params = s0.params)
    (hst : ∀ j, s.upcoming j = s0.upcoming (k + j)) :
    ∃ es t k' tw, Adv k' es s t ∧ (∀ e ∈ es, e.isQuiet = true) ∧ es.filterMap Event.taskWrite = tw.reverse ∧
      ((issueCommand seq s = .ok () t ∧ tw = seq ∧ ∀ ws f, s0.replyCommand ws k f = f (k + k')) ∨
       ∃ e, issueCommand seq s = .error (.raised e) t ∧ tw = [] ∧
        ∀ ws f, s0.replyCommand ws k f = Reply.failed e (k + k') ws) := by
  obtain ⟨es, t, hes, -, hm⟩ := issueCommand_calm seq h
  have hq : ∀ e ∈ es, e.isQuiet = true := fun e he => Event.isQuiet_of_isPoll (hes e he)
  have hrep : ∀ ws f, s0.replyCommand ws k f = match s.precmd with
      | .ready _ k' => f (k + k')
      | .failed e k' => Reply.failed e (k + k') ws := by
    intro ws f
    simp only [State.replyCommand, State.precmd, hp]
    split
    · rw [pollOn_cast notBusyVerdict hst]
      cases pollOn notBusyVerdict s.upcoming s0.params.budgetPrecmd 0 <;> rfl
    · rfl
  cases hw : s.precmd with
  | failed e k' =>
    rw [hw] at hm
    exact ⟨es, t, k', [], hm.2, hq, taskWrite_of_isPoll hes, .inr ⟨e, hm.1, rfl, fun ws f => by rw [hrep, hw]⟩⟩
  | ready st k' =>
    rw [hw] at hm
    refine ⟨_, t, k', seq, hm.2, ?_, ?_, .inl ⟨hm.1, rfl, fun ws f => by rw [hrep, hw]⟩⟩
    · intro e he
      simp only [List.cons_append, List.mem_cons, List.mem_append] at he
      rcases he with rfl | he | he
      · rfl
      · exact isQuiet_writeEvents _ e he
      · exact hq e he
    · rw [List.cons_append, List.filterMap_cons]
      simp only [Event.taskWrite]
      rw [List.filterMap_append, taskWrite_writeEvents, taskWrite_of_isPoll hes, List.append_nil]

/-- A wait for not busy is a Timeout where every poll reads BSY = 1, and otherwise ends with a status byte (42 R176). -/
theorem pollOn_notBusy (f : Nat → Half) : ∀ n k,
    if ((List.range n).all fun j => bsy (f (k + j)).lo) = true then pollOn notBusyVerdict f n k = .failed .timeout (k + n)
    else ∃ st k', pollOn notBusyVerdict f n k = .ready st k'
  | 0, k => rfl
  | n + 1, k => by
    have ih := pollOn_notBusy f n (k + 1)
    have hr : ((List.range (n + 1)).all fun j => bsy (f (k + j)).lo) =
        (bsy (f k).lo && (List.range n).all fun j => bsy (f (k + 1 + j)).lo) := by
      rw [List.range_succ_eq_map, List.all_cons, List.all_map]
      congr 2
      funext j
      simp only [Function.comp]
      congr 3
      omega
    rw [hr]
    cases hb : bsy (f k).lo with
    | true =>
      have hp : pollOn notBusyVerdict f (n + 1) k = pollOn notBusyVerdict f n (k + 1) := by
        simp [pollOn, notBusyVerdict, hb]
      rw [Bool.true_and, hp, show k + (n + 1) = k + 1 + n by omega]
      exact ih
    | false => exact ⟨(f k).lo, k + 1, by simp [pollOn, notBusyVerdict, hb]⟩

/-- What the pre-command wait of an operation's first command leads to (41 R131). -/
theorem State.replyCommand_first (s : State) :
    if s.precmdTimesOut = true then ∀ ws f, s.replyCommand ws 0 f = Reply.failed .timeout s.params.budgetPrecmd ws
    else ∃ k, ∀ ws f, s.replyCommand ws 0 f = f k := by
  have h := pollOn_notBusy s.upcoming s.params.budgetPrecmd 0
  simp only [Nat.zero_add] at h
  unfold State.precmdTimesOut State.replyCommand
  cases hp : s.params.precmdWait with
  | false => exact ⟨0, fun _ _ => rfl⟩
  | true =>
    rw [Bool.true_and]
    split at h
    · rename_i hb
      rw [if_pos hb]
      intro ws f
      simp [h, Waited.andThen]
    · rename_i hb
      rw [if_neg hb]
      obtain ⟨st, k, h⟩ := h
      exact ⟨k, fun ws f => by simp [h, Waited.andThen]⟩

theorem err_code_ne_zero (e : Err) : e.code ≠ 0 := by cases e <;> decide

theorem State.precmdTimesOut_of_goesOn {s : State} {k : Nat} (h : ∀ ws f, s.replyCommand ws 0 f = f k) :
    s.precmdTimesOut = false := by
  have h1 := s.replyCommand_first
  split at h1
  · have := (h [] fun _ => { code := 0, used := 0, words := [] }).symm.trans (h1 [] _)
    exact absurd (congrArg Reply.code this) (err_code_ne_zero .timeout).symm
  · exact Bool.not_eq_true _ ▸ ‹_›

theorem State.precmdTimesOut_of_failed {s : State} {e : Err} {k : Nat}
    (h : ∀ ws f, s.replyCommand ws 0 f = Reply.failed e k ws) : s.precmdTimesOut = true := by
  have h1 := s.replyCommand_first
  split at h1
  · assumption
  · obtain ⟨k', h1⟩ := h1
    have := (h [] fun _ => { code := 0, used := 0, words := [] }).symm.trans (h1 [] _)
    exact absurd (congrArg Reply.code this) (err_code_ne_zero e)

/-! ## SETGEOM, FLUSH_DEV, RESET (41 R145 to R147) -/

/-- The events of an operation that leaves BUF alone, what it ends with, and the task-file writes of its one command: none
where the pre-command wait runs out (`cut`), and otherwise the whole sequence (41 R131). -/
structure Commanded (cut : Bool) (r : Reply) (seq : List SeqEntry) (k : Nat) (es : List Event) : Prop where
  spares : ∀ e ∈ es, e.sparesBuf = true
  used : r.used = k
  tasks : es.filterMap Event.taskWrite = if cut then [] else seq.reverse

theorem Event.spares_of_quiet {es : List Event} (h : ∀ e ∈ es, e.isQuiet = true) : ∀ e ∈ es, e.sparesBuf = true :=
  fun e he => Event.sparesBuf_of_isQuiet (h e he)

theorem bodySetgeom_calm (heads spt : Byte) {s : State} (h : s.calm) (hl : geometryLegal heads spt = true) :
    ∃ es t k, Progress k es s t ∧ Commanded s.precmdTimesOut (s.setgeomReply heads spt) (setgeomSeq heads spt) k es ∧
      ((bodySetgeom heads spt s = .ok 0 { t with csr := { t.csr with geomHeads := heads, geomSpt := spt } } ∧
          (s.setgeomReply heads spt).code = 0) ∨
       ∃ e, bodySetgeom heads spt s = .error (.raised e) t ∧ (s.setgeomReply heads spt).code = e.code) := by
  obtain ⟨es1, t1, k1, tw, a1, hq1, w1, r1⟩ :=
    issueCommand_reply (setgeomSeq heads spt) (s0 := s) (k := 0) h rfl fun j => by rw [Nat.zero_add]
  have run : bodySetgeom heads spt s = (do
      issueCommand (setgeomSeq heads spt)
      completeNoData (← get).params.budgetNodata
      setCsr fun c => { c with geomHeads := heads, geomSpt := spt }
      return 0 : EngineM Word) s := by
    unfold bodySetgeom
    simp [hl]
  simp only [State.setgeomReply, hl, if_true]
  rcases r1 with ⟨e1, rfl, r1⟩ | ⟨e, e1, rfl, r1⟩
  · have hcut : s.precmdTimesOut = false := State.precmdTimesOut_of_goesOn r1
    simp only [r1, hcut]
    obtain ⟨es2, t2, k2, hes2, a2, r2⟩ := completeNoData_reply s.params.budgetNodata (s0 := s) (k := 0 + k1) a1.calm
      fun j => by rw [a1.stream]; congr 1; omega
    have hq2 : ∀ e ∈ es2 ++ es1, e.isQuiet = true := by
      intro e he
      rcases List.mem_append.mp he with he | he
      · exact Event.isQuiet_of_isPoll (hes2 e he)
      · exact hq1 e he
    have htw : (es2 ++ es1).filterMap Event.taskWrite = (setgeomSeq heads spt).reverse := by
      rw [List.filterMap_append, taskWrite_of_isPoll hes2, w1]; rfl
    have hb : t1.params.budgetNodata = s.params.budgetNodata := by rw [a1.params]
    rcases r2 with ⟨e2, r2⟩ | ⟨e, e2, r2⟩
    · refine ⟨_, t2, k1 + k2, (a1.trans a2).toProgress, ⟨Event.spares_of_quiet hq2, by rw [r2]; simp, htw⟩, .inl ⟨?_, by rw [r2]⟩⟩
      rw [run, bind_ok e1, get_bind, hb, bind_ok e2, bind_ok (setCsr_run _ _)]
      rfl
    · refine ⟨_, t2, k1 + k2, (a1.trans a2).toProgress,
        ⟨Event.spares_of_quiet hq2, by rw [r2]; simp [Reply.failed], htw⟩, .inr ⟨e, ?_, by rw [r2]; rfl⟩⟩
      rw [run, bind_ok e1, get_bind, hb, bind_error e2]
  · have hcut : s.precmdTimesOut = true := State.precmdTimesOut_of_failed r1
    simp only [r1, hcut]
    refine ⟨es1, t1, k1, a1.toProgress, ⟨Event.spares_of_quiet hq1, by simp [Reply.failed], w1⟩,
      .inr ⟨e, ?_, rfl⟩⟩
    rw [run, bind_error e1]

theorem bodyFlushDev_calm {s : State} (h : s.calm) :
    ∃ es t k, Progress k es s t ∧ Commanded s.precmdTimesOut s.flushReply s.flushSeq k es ∧
      ((bodyFlushDev s = .ok 0 t ∧ s.flushReply.code = 0) ∨
       ∃ e, bodyFlushDev s = .error (.raised e) t ∧ s.flushReply.code = e.code) := by
  obtain ⟨es1, t1, k1, tw, a1, hq1, w1, r1⟩ :=
    issueCommand_reply s.flushSeq (s0 := s) (k := 0) h rfl fun j => by rw [Nat.zero_add]
  simp only [State.flushReply]
  rcases r1 with ⟨e1, rfl, r1⟩ | ⟨e, e1, rfl, r1⟩
  · have hcut : s.precmdTimesOut = false := State.precmdTimesOut_of_goesOn r1
    simp only [r1, hcut]
    obtain ⟨es2, t2, k2, hes2, a2, r2⟩ := completeNoData_reply s.params.budgetFlush (s0 := s) (k := 0 + k1) a1.calm
      fun j => by rw [a1.stream]; congr 1; omega
    have hq2 : ∀ e ∈ es2 ++ es1, e.isQuiet = true := by
      intro e he
      rcases List.mem_append.mp he with he | he
      · exact Event.isQuiet_of_isPoll (hes2 e he)
      · exact hq1 e he
    have htw : (es2 ++ es1).filterMap Event.taskWrite = s.flushSeq.reverse := by
      rw [List.filterMap_append, taskWrite_of_isPoll hes2, w1]; rfl
    have hb : t1.params.budgetFlush = s.params.budgetFlush := by rw [a1.params]
    rcases r2 with ⟨e2, r2⟩ | ⟨e, e2, r2⟩
    · refine ⟨_, t2, k1 + k2, (a1.trans a2).toProgress, ⟨Event.spares_of_quiet hq2, by rw [r2]; simp, htw⟩, .inl ⟨?_, by rw [r2]⟩⟩
      rw [bodyFlushDev, get_bind, bind_ok e1, get_bind, hb, bind_ok e2]
      rfl
    · refine ⟨_, t2, k1 + k2, (a1.trans a2).toProgress,
        ⟨Event.spares_of_quiet hq2, by rw [r2]; simp [Reply.failed], htw⟩, .inr ⟨e, ?_, by rw [r2]; rfl⟩⟩
      rw [bodyFlushDev, get_bind, bind_ok e1, get_bind, hb, bind_error e2]
  · have hcut : s.precmdTimesOut = true := State.precmdTimesOut_of_failed r1
    simp only [r1, hcut]
    refine ⟨es1, t1, k1, a1.toProgress, ⟨Event.spares_of_quiet hq1, by simp [Reply.failed], w1⟩,
      .inr ⟨e, ?_, rfl⟩⟩
    rw [bodyFlushDev, get_bind, bind_error e1]

/-- The pulse on the drive's reset line, and the settle time (41 R147). -/
theorem resetPulse_calm {s : State} (h : s.calm) : ∃ t, resetPulse s = .ok () t ∧ Adv 0 [.resetPulse] s t := by
  have a1 := goto_calm .resetPulse h
  have a2 := Adv.note a1.calm (e := .resetPulse) rfl (fun _ => rfl) (fun _ => rfl)
  have a3 := Adv.ide a2.calm { s.ide with resetN := false }
  obtain ⟨t4, e4, a4, -, -⟩ := hold_calm s.params.tRstPw a3.calm
  have a5 := Adv.ide a4.calm { t4.ide with resetN := true }
  refine ⟨_, ?_, ((((a1.trans a2).trans a3).trans a4).trans a5).cast (by simp) (by simp)⟩
  rw [resetPulse, bind_ok (goto_run _ _), bind_ok (note_run _ _), bind_ok (setIde_run _ _), get_bind, bind_ok (by exact e4),
    setIde_run]

theorem bodyReset_calm {s : State} (h : s.calm) :
    ∃ es t k, Progress k es s t ∧ s.resetReply.used = k ∧
      (∃ ps, es = ps ++ [.idle s.params.tRstSettle, .resetPulse] ∧ ∀ e ∈ ps, e.isPoll = true) ∧
      ((bodyReset s = .ok 0 t ∧ s.resetReply.code = 0) ∨
       ∃ e, bodyReset s = .error (.raised e) t ∧ s.resetReply.code = e.code) := by
  obtain ⟨t1, e1, a1⟩ := resetPulse_calm h
  have a2 := goto_calm .resetSettle a1.calm
  obtain ⟨t3, e3, a3⟩ := idle_calm s.params.tRstSettle a2.calm
  have a4 := goto_calm .resetWait a3.calm
  obtain ⟨es, t5, hes, -, hm⟩ := poll_calm notBusyVerdict s.params.budgetReset a4.calm
  have a14 := ((a1.trans a2).trans a3).trans a4
  have hup : ({ t3 with eng := { t3.eng with step := some .resetWait } } : State).upcoming = s.upcoming := by
    funext j
    have := a14.stream j
    simpa using this
  rw [hup] at hm
  have hp1 : t1.params.tRstSettle = s.params.tRstSettle := by rw [a1.params]
  have hp3 : t3.params.budgetReset = s.params.budgetReset := by
    have := ((a1.trans a2).trans a3).params
    rw [this]
  have run : ∀ r, poll notBusyVerdict s.params.budgetReset { t3 with eng := { t3.eng with step := some .resetWait } } = r →
      bodyReset s = match r with
        | .ok _ t => .ok 0 t
        | .error e t => .error e t := by
    intro r hr
    rw [bodyReset, bind_ok e1, bind_ok (goto_run _ _), get_bind]
    show (idle t1.params.tRstSettle >>= _) _ = _
    rw [hp1, bind_ok e3, bind_ok (goto_run _ _), get_bind]
    show (waitNotBusy t3.params.budgetReset >>= _) _ = _
    rw [hp3, waitNotBusy]
    cases r with
    | ok a t => rw [bind_ok hr]; rfl
    | error e t => rw [bind_error hr]
  simp only [State.resetReply]
  cases hw : pollOn notBusyVerdict s.upcoming s.params.budgetReset 0 with
  | ready st k =>
    rw [hw] at hm
    exact ⟨_, t5, k, (a14.trans hm.2).toProgress.cast (by omega) rfl, rfl, ⟨es, by simp, hes⟩,
      .inl ⟨by rw [run _ hm.1], rfl⟩⟩
  | failed e k =>
    rw [hw] at hm
    exact ⟨_, t5, k, (a14.trans hm.2).toProgress.cast (by omega) rfl, rfl, ⟨es, by simp, hes⟩,
      .inr ⟨e, by rw [run _ hm.1], rfl⟩⟩

end Sys2Proof.Machine
end

