-- ==== Sys2Proof/Laws/CalmData.lean ====
section
/-! SUPPORT. The operations that move data, undisturbed: IDENTIFY, GETID, READ and WRITE against the replies of
Sys2Proof/Safety.lean. -/

namespace Sys2Proof.Machine

/-! ## GETID (41 R144) -/

/-- The words of GETID's copy. -/
theorem copyIdWords_calm : ∀ (n i : Nat) {s : State}, s.calm → s.memoryAnswers = true →
    ∃ es t, forRange copyIdWord n i s = .ok () t ∧ Adv 0 es s t ∧ es.countP Event.isBusCycle = 0 ∧
      es.filterMap Event.taskWrite = [] ∧
      ∀ M, memAfter s.bufSize es M = Memory.writeHalves s.bufSize M (s.bufAddr + 2 * i)
        ((List.range n).map fun j => s.csr.idbuf.toList.getD (i + j) 0)
  | 0, i, s, h, _ => ⟨[], s, rfl, Adv.refl h, rfl, rfl, fun M => rfl⟩
  | n + 1, i, s, h, hm => by
    have a1 : Adv 0 [] s { s with eng := { s.eng with word := i } } := Adv.engine h rfl rfl rfl
    obtain ⟨t2, e2, a2⟩ := memWrite_calm (s.bufAddr + 2 * i) (s.csr.idbuf.toList.getD i 0) a1.calm (a1.answers hm)
    have a12 := a1.trans a2
    obtain ⟨es, t3, e3, a3, hc, htw, hmem⟩ := copyIdWords_calm n (i + 1) a12.calm (a12.answers hm)
    have hk := a12.kernel
    have haddr : t2.bufAddr = s.bufAddr := (congrArg (fun c : Csrs => c.argBuf.toNat) hk : _)
    have hid : t2.csr.idbuf = s.csr.idbuf := (congrArg Csrs.idbuf hk : _)
    have hsize : t2.bufSize = s.bufSize := a12.bufSize
    refine ⟨_, t3, ?_, (a12.trans a3).cast (by simp) rfl, ?_, ?_, fun M => ?_⟩
    · rw [forRange, bind_ok (t := t2) (a := ()), e3]
      rw [copyIdWord, bind_ok (setEngine_run _ _), get_bind]
      exact e2
    · rw [List.countP_append, hc]; rfl
    · rw [List.filterMap_append, htw]; rfl
    · rw [haddr, hid, hsize] at hmem
      rw [memAfter_append, hmem, List.range_succ_eq_map, List.map_cons, List.map_map]
      show _ = Memory.writeHalves s.bufSize (M.writeHalf s.bufSize (s.bufAddr + 2 * i) _) _ _
      have h2 : memAfter s.bufSize ([Event.bufWrite ((s.bufAddr + 2 * i) % s.bufSize) (s.csr.idbuf.toList.getD i 0)] ++ []) M =
          M.writeHalf s.bufSize (s.bufAddr + 2 * i) (s.csr.idbuf.toList.getD i 0) := Memory.writeHalf_mod _ _ _ _
      have h3 : ((fun j => s.csr.idbuf.toList.getD (i + j) 0) ∘ Nat.succ) = fun j => s.csr.idbuf.toList.getD (i + 1 + j) 0 := by
        funext j
        simp only [Function.comp]
        congr 1; omega
      have h4 : s.bufAddr + 2 * (i + 1) = s.bufAddr + 2 * i + 2 := by omega
      rw [h3, h4, Nat.add_zero]
      exact congrArg (fun m => Memory.writeHalves s.bufSize m _ _) h2

theorem range_map_getD (l : List Half) : ((List.range l.length).map fun j => l.getD (0 + j) 0) = l := by
  apply List.ext_getElem
  · simp
  · intro n h1 h2
    simp [List.getD, h2]

theorem bodyGetid_calm {s : State} (h : s.calm) (hm : s.memoryAnswers = true) (hv : s.csr.idValid = true) :
    ∃ es t, bodyGetid s = .ok 512 t ∧ Adv 0 es s t ∧ es.countP Event.isBusCycle = 0 ∧
      es.filterMap Event.taskWrite = [] ∧
      ∀ M, memAfter s.bufSize es M = Memory.writeHalves s.bufSize M s.bufAddr s.csr.idbuf.toList := by
  have a1 := goto_calm .copyOut h
  obtain ⟨es, t, e, a, hc, htw, hmem⟩ := copyIdWords_calm wordsPerSector 0 a1.calm (a1.answers hm)
  refine ⟨es, t, ?_, (a1.trans a).cast (by simp) (by simp), hc, htw, fun M => ?_⟩
  · rw [bodyGetid, get_bind]
    simp only [hv, Bool.not_true, Bool.false_eq_true, if_false]
    rw [bind_ok (goto_run _ _), bind_ok e]
    rfl
  · have h2 := hmem M
    have h3 : (List.range wordsPerSector).map (fun j => s.csr.idbuf.toList.getD (0 + j) 0) = s.csr.idbuf.toList := by
      have := range_map_getD s.csr.idbuf.toList
      rw [Vector.length_toList] at this
      exact this
    rw [← h3]
    exact h2

theorem bodyGetid_noData {s : State} (hv : s.csr.idValid = false) : bodyGetid s = .error (.raised .noData) s := by
  rw [bodyGetid, get_bind]
  simp only [hv, Bool.not_false, if_true]
  rfl

/-! ## IDENTIFY (41 R143) -/

/-- The words of the identify data. -/
theorem identifyWords_calm : ∀ (n i : Nat) {s : State}, s.calm →
    ∃ es t, forRange identifyWord n i s = .ok () t ∧ Moves n es s t ∧ es.filterMap Event.taskWrite = [] ∧
      es = ((s.streamWords 0 n).map fun v => Event.ideRead 0 .word v).reverse ∧
      { t.csr.kernel with lastStatus := 0, idbuf := Vector.replicate 256 0 } =
        { s.csr.kernel with lastStatus := 0, idbuf := Vector.replicate 256 0 } ∧
      ∀ j (hj : j < 256), t.csr.idbuf[j] = if i ≤ j ∧ j < i + n then s.upcoming (j - i) else s.csr.idbuf[j]
  | 0, i, s, h => by
    refine ⟨[], s, rfl, (Adv.refl h).toProgress.moves, rfl, rfl, rfl, fun j hj => ?_⟩
    rw [if_neg (by omega)]
  | n + 1, i, s, h => by
    have a1 : Adv 0 [] s { s with eng := { s.eng with word := i } } := Adv.engine h rfl rfl rfl
    obtain ⟨t2, e2, a2⟩ := ideRead_calm 0 .word a1.calm
    have hup : ({ s with eng := { s.eng with word := i } } : State).upcoming 0 = s.upcoming 0 := by simpa using a1.stream 0
    rw [hup] at e2 a2
    have a12 := a1.trans a2
    have m3 := Moves.csr a12.calm (c := { t2.csr with idbuf := t2.csr.idbuf.setIfInBounds i (s.upcoming 0) }) rfl
    have m13 := (a12.toProgress.moves).trans m3
    obtain ⟨es, t, e, m, htw, hq, hk, hid⟩ := identifyWords_calm n (i + 1) m13.calm
    have hk2 := a12.kernel
    have hid2 : t2.csr.idbuf = s.csr.idbuf := (congrArg Csrs.idbuf hk2 : _)
    refine ⟨_, t, ?_, (m13.trans m).cast (by omega) rfl, ?_, ?_, ?_, fun j hj => ?_⟩
    · rw [forRange, bind_ok (t := { t2 with csr := { t2.csr with
        idbuf := t2.csr.idbuf.setIfInBounds i (s.upcoming 0) } }) (a := ()), e]
      rw [identifyWord, bind_ok (setEngine_run _ _), bind_ok e2, setCsr_run]
    · rw [List.filterMap_append, htw]; rfl
    · rw [hq, State.streamWords_succ, State.streamWords_shift m13.stream]
      simp
    · rw [hk]
      have := congrArg (fun c : Csrs => { c with idbuf := Vector.replicate 256 0 }) hk2
      exact this
    · rw [hid j hj]
      have hs : (t2.csr.idbuf.setIfInBounds i (s.upcoming 0))[j] = if i = j then s.upcoming 0 else s.csr.idbuf[j] := by
        rw [Vector.getElem_setIfInBounds, hid2]
      by_cases h1 : i + 1 ≤ j ∧ j < i + 1 + n
      · rw [if_pos h1, if_pos (by omega), m13.stream]
        congr 1; omega
      · rw [if_neg h1]
        show (t2.csr.idbuf.setIfInBounds i (s.upcoming 0))[j] = _
        rw [hs]
        by_cases h2 : i = j
        · subst h2
          rw [if_pos rfl, if_pos (by omega), Nat.sub_self]
        · rw [if_neg h2, if_neg (by omega)]


theorem bodyIdentify_calm {s : State} (h : s.calm) :
    ∃ es t k, Moves k es s t ∧ Commanded s.precmdTimesOut s.identifyReply s.identifySeq k es ∧
      { t.csr.kernel with lastStatus := 0, idbuf := Vector.replicate 256 0, idValid := false } =
        { s.csr.kernel with lastStatus := 0, idbuf := Vector.replicate 256 0, idValid := false } ∧
      ((bodyIdentify s = .ok 0 t ∧ s.identifyReply.code = 0 ∧ t.csr.idValid = true ∧
          t.csr.idbuf.toList = s.identifyReply.words ∧
          (s.identifyReply.words.map fun v => Event.ideRead 0 .word v).reverse <+: es) ∨
       ∃ e, bodyIdentify s = .error (.raised e) t ∧ s.identifyReply.code = e.code ∧ t.csr.idValid = false ∧
          t.csr.idbuf = s.csr.idbuf ∧ s.identifyReply.words = []) := by
  obtain ⟨s1, e1, m1, hseq, hrep, hk1⟩ : ∃ s1, setCsr (fun c => { c with idValid := false }) s = .ok () s1 ∧ Moves 0 [] s s1 ∧
      s1.identifySeq = s.identifySeq ∧ (s1.params = s.params ∧ s1.upcoming = s.upcoming) ∧
      s1.csr = { s.csr with idValid := false } :=
    ⟨_, rfl, Moves.csr h rfl, rfl, ⟨rfl, rfl⟩, rfl⟩
  obtain ⟨es2, t2, k2, tw, a2, hq2, w2, r2⟩ :=
    issueCommand_reply s.identifySeq (s0 := s) (k := 0) m1.calm hrep.1 fun j => by rw [hrep.2, Nat.zero_add]
  have run1 : ∀ r, issueCommand s.identifySeq s1 = r → bodyIdentify s = match r with
      | .ok _ t => (do
          let _ ← waitDrq
          goto .dataPhase
          forRange identifyWord wordsPerSector 0
          setCsr fun c => { c with idValid := true }
          return 0 : EngineM Word) t
      | .error e t => .error e t := by
    intro r hr
    rw [bodyIdentify, bind_ok e1, get_bind, hseq]
    cases r with
    | ok a t => rw [bind_ok hr]
    | error e t => rw [bind_error hr]
  have frame : ∀ {u : State}, { u.csr.kernel with lastStatus := 0 } = { s1.csr.kernel with lastStatus := 0 } →
      u.csr.idValid = false ∧ u.csr.idbuf = s.csr.idbuf ∧
      { u.csr.kernel with lastStatus := 0, idbuf := Vector.replicate 256 0, idValid := false } =
        { s.csr.kernel with lastStatus := 0, idbuf := Vector.replicate 256 0, idValid := false } := by
    intro u hu
    rw [hk1] at hu
    exact ⟨(congrArg Csrs.idValid hu : _), (congrArg Csrs.idbuf hu : _),
      (congrArg (fun c : Csrs => { c with idbuf := Vector.replicate 256 0, idValid := false }) hu : _)⟩
  simp only [State.identifyReply]
  rcases r2 with ⟨e2, rfl, r2⟩ | ⟨e, e2, rfl, r2⟩
  · have hcut : s.precmdTimesOut = false := State.precmdTimesOut_of_goesOn r2
    simp only [r2, hcut]
    obtain ⟨es3, t3, hes3, -, hm3⟩ := waitDrq_calm a2.calm
    have hst2 : ∀ j, t2.upcoming j = s.upcoming (0 + k2 + j) := fun j => by rw [a2.stream, hrep.2]; congr 1; omega
    have hp2 : t2.params = s.params := a2.params.trans hrep.1
    have hq3 : ∀ e ∈ es3, e.isQuiet = true := fun e he => Event.isQuiet_of_isPoll (hes3 e he)
    have hdrq := pollOn_cast (drqVerdict s.params.errMaskedByBsy) hst2 s.params.budgetDrq
    simp only [State.replyDrq, hdrq]
    simp only [State.drqWait, hp2] at hm3
    have hq23 : ∀ e ∈ es3 ++ es2, e.isQuiet = true := fun e he =>
      (List.mem_append.mp he).elim (hq3 e) (hq2 e)
    have htw : (es3 ++ es2).filterMap Event.taskWrite = s.identifySeq.reverse := by
      rw [List.filterMap_append, taskWrite_of_isPoll hes3, w2]; rfl
    cases hw : pollOn (drqVerdict s.params.errMaskedByBsy) t2.upcoming s.params.budgetDrq 0 with
    | failed e k3 =>
      rw [hw] at hm3
      obtain ⟨f1, f2, f3⟩ := frame (u := t3) (hm3.2.kernel.trans a2.kernel)
      refine ⟨es3 ++ es2, t3, k2 + k3, (m1.trans (a2.trans hm3.2).toProgress.moves).cast (by omega) (by simp),
        ⟨Event.spares_of_quiet hq23, by simp [Waited.andThen, Reply.failed], htw⟩, f3,
        .inr ⟨e, ?_, rfl, f1, f2, rfl⟩⟩
      rw [run1 _ e2]
      simp only []
      rw [bind_error hm3.1]
    | ready st k3 =>
      rw [hw] at hm3
      have a4 := goto_calm .dataPhase hm3.2.calm
      obtain ⟨es5, t5, e5, m5, htw5, hq5, hk5, hid5⟩ := identifyWords_calm wordsPerSector 0 a4.calm
      obtain ⟨f1, f2, f3⟩ := frame (u := t3) (hm3.2.kernel.trans a2.kernel)
      have m6 := Moves.csr m5.calm (c := { t5.csr with idValid := true }) rfl
      have m := (m1.trans ((a2.trans hm3.2).trans a4).toProgress.moves).trans (m5.trans m6)
      refine ⟨es5 ++ (es3 ++ es2), _, k2 + k3 + 256, m.cast (by simp only [wordsPerSector]; omega) (by simp),
        ⟨fun e he => (List.mem_append.mp he).elim ?_ (Event.spares_of_quiet hq23 e), ?_, ?_⟩, ?_,
        .inl ⟨?_, rfl, rfl, ?_, ?_⟩⟩
      · rw [hq5]
        simp only [List.mem_reverse, List.mem_map]
        rintro ⟨v, -, rfl⟩
        rfl
      · simp only [Waited.andThen, wordsPerSector]; omega
      · rw [List.filterMap_append, htw5, htw]; rfl
      · have := congrArg (fun c : Csrs => { c with idValid := false }) hk5
        exact this.trans f3
      · rw [run1 _ e2]
        simp only []
        rw [bind_ok hm3.1, bind_ok (goto_run _ _), bind_ok e5, bind_ok (setCsr_run _ _)]
        rfl
      · have hst5 : ∀ j, ({ t3 with eng := { t3.eng with step := some .dataPhase } } : State).upcoming j =
            s.upcoming (0 + k2 + k3 + j) := fun j => by
          have h1 := hm3.2.stream j
          have h2 := hst2 (k3 + j)
          show t3.upcoming j = _
          rw [h1, h2]; congr 1; omega
        simp only [Waited.andThen, State.streamWords]
        apply List.ext_getElem
        · simp [wordsPerSector]
        · intro j hj1 hj2
          have hj : j < 256 := by simpa using hj1
          have := hid5 j hj
          rw [if_pos ⟨Nat.zero_le j, by simp only [wordsPerSector]; omega⟩, hst5] at this
          simp only [Vector.getElem_toList, List.getElem_map, List.getElem_range]
          rw [this]
          congr 1
      · have hst5 : ∀ j, ({ t3 with eng := { t3.eng with step := some .dataPhase } } : State).upcoming j =
            s.upcoming (0 + k2 + k3 + j) := fun j => by
          show t3.upcoming j = _
          rw [hm3.2.stream j, hst2 (k3 + j)]; congr 1; omega
        rw [State.streamWords_shift hst5] at hq5
        rw [hq5]
        exact List.prefix_append _ _
  · have hcut : s.precmdTimesOut = true := State.precmdTimesOut_of_failed r2
    simp only [r2, hcut]
    obtain ⟨f1, f2, f3⟩ := frame (u := t2) a2.kernel
    refine ⟨es2, t2, k2, (m1.trans a2.toProgress.moves).cast (by omega) (by simp),
      ⟨Event.spares_of_quiet hq2, by simp [Reply.failed], w2⟩, f3, .inr ⟨e, ?_, rfl, f1, f2, rfl⟩⟩
    rw [run1 _ e2]

/-! ## READ and WRITE (42 R174, R179 to R187) -/

/-- A wait for not busy fails by Timeout only (42 R176). -/
theorem pollOn_notBusy_timeout (f : Nat → Half) : ∀ (n k : Nat) (e : Err) (k' : Nat),
    pollOn notBusyVerdict f n k = .failed e k' → e = .timeout
  | 0, k, e, k', h => by cases h; rfl
  | n + 1, k, e, k', h => by
    simp only [pollOn, notBusyVerdict] at h
    by_cases hb : bsy (f k).lo = true
    · simp only [hb, if_true] at h
      exact pollOn_notBusy_timeout f n (k + 1) e k' h
    · simp [hb] at h

/-- The final wait and the recovery of a WRITE on the stream of the operation (42 R181, R182). -/
theorem finalWait_calm (dir : Dir) {s0 s : State} {k : Nat} (h : At s0 k s) :
    ∃ es t k' tw, Progress k' es s t ∧ (∀ e ∈ es, e.isQuiet = true) ∧
      es.countP Event.isBusCycle ≤ s0.params.budgetFinal + s0.recoveryBound dir ∧
      es.filterMap Event.taskWrite = tw.reverse ∧
      (tw = [] ∨ (dir = .write ∧ tw = s0.flushSeq)) ∧
      ((finalWait dir s = .ok () t ∧
          ∀ ws, s0.replyFinal dir ws k = { code := s0.transferResult, used := k + k', words := ws }) ∨
       ∃ e, finalWait dir s = .error (.raised e) t ∧ ∀ ws, s0.replyFinal dir ws k = Reply.failed e (k + k') ws) := by
  have a1 := goto_calm .finalWait h.calm
  have h1 := h.next a1.toProgress
  obtain ⟨es2, t2, hes2, hc2, hm2⟩ := poll_calm notBusyVerdict s0.params.budgetFinal a1.calm
  have hup : ({ s with eng := { s.eng with step := some .finalWait } } : State).upcoming = s.upcoming := rfl
  rw [hup] at hm2
  have hq2 : ∀ e ∈ es2, e.isQuiet = true := fun e he => Event.isQuiet_of_isPoll (hes2 e he)
  have run : finalWait dir s = (do
      let st ← onTimeout (waitNotBusy s0.params.budgetFinal) (onFinalTimeout dir)
      if err st then raise .deviceError : EngineM Unit) { s with eng := { s.eng with step := some .finalWait } } := by
    unfold finalWait
    rw [bind_ok (goto_run _ _), get_bind]
    show (onTimeout (waitNotBusy s.params.budgetFinal) _ >>= _) _ = _
    rw [h.params]
  have hrep := h.pollOn notBusyVerdict s0.params.budgetFinal
  simp only [State.replyFinal, hrep, State.recoveryBound]
  cases hw : pollOn notBusyVerdict s.upcoming s0.params.budgetFinal 0 with
  | ready st k2 =>
    rw [hw] at hm2
    have ht : onTimeout (waitNotBusy s0.params.budgetFinal) (onFinalTimeout dir)
        { s with eng := { s.eng with step := some .finalWait } } = .ok st t2 := by
      simp only [onTimeout, waitNotBusy, hm2.1]
    refine ⟨es2, t2, k2, [], (a1.trans hm2.2).toProgress.cast (by omega) (by simp), hq2, by omega,
      taskWrite_of_isPoll hes2, .inl rfl, ?_⟩
    by_cases he : err st = true
    · right
      exact ⟨.deviceError, by rw [run, bind_ok ht]; simp [he], fun ws => by simp [replyChecked, he]⟩
    · left
      exact ⟨by rw [run, bind_ok ht]; simp [he], fun ws => by simp [replyChecked, he]⟩
  | failed e k2 =>
    rw [hw] at hm2
    have he : e = .timeout := pollOn_notBusy_timeout _ _ _ _ _ hw
    subst he
    cases dir with
    | read =>
      refine ⟨es2, t2, k2, [], (a1.trans hm2.2).toProgress.cast (by omega) (by simp), hq2, by omega,
        taskWrite_of_isPoll hes2, .inl rfl, .inr ⟨.timeout, ?_, fun ws => rfl⟩⟩
      rw [run, bind_error (e := .raised .timeout) (t := t2)]
      simp only [onTimeout, waitNotBusy, hm2.1]
      rfl
    | write =>
      have h2 := h1.next hm2.2.toProgress
      have a3 := goto_calm .recoverFlush h2.calm
      obtain ⟨t4, e4, a4⟩ := issueCommandNoWait_calm s0.flushSeq a3.calm
      have a5 := goto_calm .recoverWait a4.calm
      obtain ⟨es6, t6, hes6, hc6, hm6⟩ := poll_calm notBusyVerdict s0.params.budgetRecover a5.calm
      have h5 := h2.next ((a3.trans a4).trans a5).toProgress
      have hup5 : ({ t4 with eng := { t4.eng with step := some .recoverWait } } : State).upcoming =
          fun j => s0.upcoming (k + 0 + k2 + (0 + 0 + 0) + j) := funext h5.stream
      have hrep5 := h5.pollOn notBusyVerdict s0.params.budgetRecover
      have hk5 : k + 0 + k2 + (0 + 0 + 0) = k + k2 := by omega
      rw [hk5] at hrep5
      have hrec : recover t2 = poll notBusyVerdict s0.params.budgetRecover
          { t4 with eng := { t4.eng with step := some .recoverWait } } := by
        rw [recover, bind_ok (goto_run _ _), get_bind, show
          ({ t2 with eng := { t2.eng with step := some .recoverFlush } } : State).flushSeq = s0.flushSeq from h2.flushSeq,
          bind_ok e4, bind_ok (goto_run _ _), get_bind, waitNotBusy]
        rw [h5.params]
      have ht : onTimeout (waitNotBusy s0.params.budgetFinal) (onFinalTimeout .write)
          { s with eng := { s.eng with step := some .finalWait } } = poll notBusyVerdict s0.params.budgetRecover
          { t4 with eng := { t4.eng with step := some .recoverWait } } := by
        simp only [onTimeout, waitNotBusy, hm2.1, onFinalTimeout, hrec]
      have hpt : t2.params.tCmdSettle = s0.params.tCmdSettle := by rw [h2.params]
      have hlen : s0.flushSeq.length = 2 := by simp [State.flushSeq]
      have hq : ∀ e ∈ es6 ++ (Event.idle t2.params.tCmdSettle :: writeEvents s0.flushSeq ++ es2), e.isQuiet = true := by
        intro e he
        simp only [List.cons_append, List.mem_append, List.mem_cons] at he
        rcases he with he | rfl | he | he
        · exact Event.isQuiet_of_isPoll (hes6 e he)
        · rfl
        · exact isQuiet_writeEvents _ e he
        · exact hq2 e he
      have hcnt : (es6 ++ (Event.idle t2.params.tCmdSettle :: writeEvents s0.flushSeq ++ es2)).countP Event.isBusCycle ≤
          s0.params.budgetFinal + (2 + s0.params.budgetRecover) := by
        rw [List.countP_append, List.cons_append, List.countP_cons, List.countP_append, countP_writeEvents, hlen]
        simp only [Event.isBusCycle, Bool.false_eq_true, if_false]
        omega
      have htw : (es6 ++ (Event.idle t2.params.tCmdSettle :: writeEvents s0.flushSeq ++ es2)).filterMap Event.taskWrite =
          s0.flushSeq.reverse := by
        rw [List.filterMap_append, taskWrite_of_isPoll hes6, List.cons_append, List.filterMap_cons, List.nil_append]
        simp only [Event.taskWrite]
        rw [List.filterMap_append, taskWrite_writeEvents, taskWrite_of_isPoll hes2, List.append_nil]
      simp only [hrep5]
      cases hw6 : pollOn notBusyVerdict ({ t4 with eng := { t4.eng with step := some .recoverWait } } : State).upcoming
          s0.params.budgetRecover 0 with
      | failed e k6 =>
        rw [hw6] at hm6
        refine ⟨_, t6, k2 + k6, s0.flushSeq,
          (((a1.trans hm2.2).trans ((a3.trans a4).trans a5)).trans hm6.2).toProgress.cast (by omega) (by simp), hq, hcnt, htw,
          .inr ⟨trivial, rfl⟩, .inr ⟨e, ?_, fun ws => ?_⟩⟩
        · rw [run, bind_error (e := .raised e) (t := t6) (ht.trans hm6.1)]
        · simp only [Waited.andThen]
          rw [Nat.add_assoc]
      | ready st k6 =>
        rw [hw6] at hm6
        refine ⟨_, t6, k2 + k6, s0.flushSeq,
          (((a1.trans hm2.2).trans ((a3.trans a4).trans a5)).trans hm6.2).toProgress.cast (by omega) (by simp), hq, hcnt, htw,
          .inr ⟨trivial, rfl⟩, ?_⟩
        simp only [Waited.andThen]
        by_cases he : err st = true
        · right
          exact ⟨.deviceError, by rw [run, bind_ok (ht.trans hm6.1)]; simp [he], fun ws => by
            simp [replyChecked, he, Nat.add_assoc]⟩
        · left
          exact ⟨by rw [run, bind_ok (ht.trans hm6.1)]; simp [he], fun ws => by simp [replyChecked, he, Nat.add_assoc]⟩

/-- What follows the checks of READ and WRITE. -/
def transferTail (dir : Dir) : EngineM Word := do
  transfer dir
  finalWait dir
  return (← get).transferResult

/-- READ and WRITE after their checks, against the reply (42 R174, R179, R180, R185, R187). -/
theorem transferTail_calm (dir : Dir) {s : State} (h : s.calm) (ha : s.memoryAnswers = true) (hr : s.raced = []) :
    ∃ es t k m tw, Progress k es s t ∧
      (s.replyChunks dir (s.replyFinal dir) s.sectors s.sectors [] 0).used = k ∧
      es.countP Event.isBusCycle ≤ s.cycleBound dir ∧ m ≤ s.sectors ∧
      Moved dir m s.bufAddr s.bufSize s.mem (s.replyChunks dir (s.replyFinal dir) s.sectors s.sectors [] 0).words es ∧
      es.filterMap Event.taskWrite = tw.reverse ∧
      (tw <+: s.chunkWrites dir s.sectors s.sectors s.lba ∨
        tw = s.chunkWrites dir s.sectors s.sectors s.lba ∨
        (dir = .write ∧ tw = s.chunkWrites dir s.sectors s.sectors s.lba ++ s.flushSeq)) ∧
      ((transferTail dir s = .ok s.transferResult t ∧ m = s.sectors ∧
          (s.replyChunks dir (s.replyFinal dir) s.sectors s.sectors [] 0).code = s.transferResult ∧
          (tw = s.chunkWrites dir s.sectors s.sectors s.lba ∨
            (dir = .write ∧ tw = s.chunkWrites dir s.sectors s.sectors s.lba ++ s.flushSeq))) ∨
       ∃ e, transferTail dir s = .error (.raised e) t ∧
        (s.replyChunks dir (s.replyFinal dir) s.sectors s.sectors [] 0).code = e.code) := by
  obtain ⟨s1, e1, p1, hrem, hcur, hcd, hmem1⟩ : ∃ s1,
      setEngine (fun e => { e with remaining := s.sectors, cur := s.lba, chunkDone := 0 }) s = .ok () s1 ∧
      Progress 0 [] s s1 ∧ s1.eng.remaining = s.sectors ∧ s1.eng.cur = s.lba ∧ s1.eng.chunkDone = 0 ∧ s1.mem = s.mem :=
    ⟨_, rfl, ⟨⟨h, rfl, rfl, rfl, fun j => by simp [State.upcoming], rfl, rfl, rfl, id⟩, rfl⟩, rfl, rfl, rfl, rfl⟩
  have h0 := At.self h ha hr
  have h1 := h0.next p1
  obtain ⟨es2, t2, k2, m, ws, tw, p2, c2, hm2, mv2, w2, r2⟩ := chunkLoop_calm dir s.sectors h1 fun _ => hmem1
  rw [hrem] at c2 hm2 r2
  rw [hcd, hmem1, Nat.mul_zero, Nat.add_zero] at mv2
  rw [hcur] at r2
  have run : transferTail dir s = (do
      chunkLoop dir s.sectors
      finalWait dir
      return (← get).transferResult : EngineM Word) s1 := by
    rw [transferTail]
    have : transfer dir s = chunkLoop dir s.sectors s1 := by rw [transfer, get_bind, bind_ok e1]
    simp only [bind, EStateM.bind, this]
  have bound : s.cycleBound dir = s.chunks s.sectors * s.commandBound + s.sectors * (s.params.budgetDrq + 256) +
      (s.params.budgetFinal + s.recoveryBound dir) := by
    simp only [State.cycleBound, State.chunks, State.commandBound]
    omega
  rcases r2 with ⟨e2, hall, htw, r2⟩ | ⟨e, e2, htw, r2⟩
  · have h2 := h1.next p2
    obtain ⟨es3, t3, k3, tw3, p3, hq3, c3, w3, htw3, r3⟩ := finalWait_calm dir h2
    have hms : m = s.sectors := hall (Nat.le_refl _)
    have hword : ws = [] ++ ws := rfl
    have mv : Moved dir m s.bufAddr s.bufSize s.mem ws (es3 ++ es2) := by
      have := mv2.append (m' := 0) (ws' := []) (es' := es3) (Moved.of_quiet hq3)
      rw [List.append_nil] at this
      exact this
    have hcnt : (es3 ++ es2).countP Event.isBusCycle ≤ s.cycleBound dir := by
      rw [List.countP_append, bound]
      omega
    have htask : (es3 ++ es2).filterMap Event.taskWrite = (tw ++ tw3).reverse := by
      rw [List.filterMap_append, w2, w3, List.reverse_append]
    have htw' : tw ++ tw3 = s.chunkWrites dir s.sectors s.sectors s.lba ∨
        (dir = .write ∧ tw ++ tw3 = s.chunkWrites dir s.sectors s.sectors s.lba ++ s.flushSeq) := by
      rcases htw3 with rfl | ⟨hd, rfl⟩
      · left; rw [List.append_nil, htw]
      · right; exact ⟨hd, by rw [htw]⟩
    have hk : (0 + 0 + k2) + k3 = k2 + k3 := by omega
    rw [r2 [] _ (by rw [hcd]; rfl)]
    simp only [List.nil_append, Nat.zero_add] at r3 ⊢
    rcases r3 with ⟨e3, r3⟩ | ⟨e, e3, r3⟩
    · rw [r3]
      refine ⟨_, t3, k2 + k3, m, tw ++ tw3, (p1.trans (p2.trans p3)).cast (by omega) (by simp), rfl, hcnt, hm2, mv, htask,
        .inr htw', .inl ⟨?_, hms, rfl, htw'⟩⟩
      rw [run, bind_ok e2, bind_ok e3]
      have : t3.transferResult = s.transferResult := (h2.next p3).transferResult
      rw [get_bind, this]
      rfl
    · rw [r3]
      refine ⟨_, t3, k2 + k3, m, tw ++ tw3, (p1.trans (p2.trans p3)).cast (by omega) (by simp), rfl, hcnt, hm2, mv, htask,
        .inr htw', .inr ⟨e, ?_, rfl⟩⟩
      rw [run, bind_ok e2, bind_error e3]
  · rw [r2 [] _ (by rw [hcd]; rfl)]
    refine ⟨es2, t2, k2, m, tw, (p1.trans p2).cast (by omega) (by simp), by simp [Reply.failed], ?_, hm2,
      by simpa [Reply.failed] using mv2, w2, .inl htw, .inr ⟨e, ?_, rfl⟩⟩
    · rw [bound]; omega
    · rw [run, bind_error e2]

theorem bodyRead_eq {s : State} (hv : s.valid .read = true) : bodyRead s = transferTail .read s := by
  have : validate .read s = .ok () s := by rw [validate, get_bind]; simp [hv]
  rw [bodyRead, bind_ok this]
  rfl

theorem validate_invalid {s : State} {dir : Dir} (hv : s.valid dir = false) :
    validate dir s = .error (.raised .outOfRange) s := by
  rw [validate, get_bind]
  simp only [hv, Bool.not_false, if_true]
  rfl

theorem bodyRead_invalid {s : State} (hv : s.valid .read = false) : bodyRead s = .error (.raised .outOfRange) s := by
  rw [bodyRead, bind_error (validate_invalid hv)]

theorem bodyWrite_invalid {s : State} (hv : s.valid .write = false) : bodyWrite s = .error (.raised .outOfRange) s := by
  rw [bodyWrite, bind_error (validate_invalid hv)]

/-- The pulse on the invalidate output (42 R186). -/
theorem invalidate_calm {s : State} (h : s.calm) :
    ∃ t, invalidate s = .ok () t ∧ Adv 0 [.invalidate s.csr.argLba s.csr.argCount] s t := by
  have a1 := goto_calm .invalidate h
  have a2 := Adv.note a1.calm (e := .invalidate s.csr.argLba s.csr.argCount) rfl (fun _ => rfl) (fun _ => rfl)
  have a3 := Adv.inv a2.calm (some { lba := s.csr.argLba, count := s.csr.argCount })
  obtain ⟨e4, a4, -⟩ := clock_calm a3.calm
  have a5 := Adv.inv a4.calm none
  refine ⟨_, ?_, ((((a1.trans a2).trans a3).trans a4).trans a5).cast (by simp) (by simp)⟩
  rw [invalidate, bind_ok (goto_run _ _), get_bind, bind_ok (note_run _ _), bind_ok (modify_run _ _), bind_ok (by exact e4),
    modify_run]

theorem bodyWrite_run {s : State} (h : s.calm) (hv : s.valid .write = true) :
    ∃ t, bodyWrite s = transferTail .write t ∧ Adv 0 [.invalidate s.csr.argLba s.csr.argCount] s t := by
  have hval : validate .write s = .ok () s := by rw [validate, get_bind]; simp [hv]
  obtain ⟨t, e, a⟩ := invalidate_calm h
  refine ⟨t, ?_, a⟩
  rw [bodyWrite, bind_ok hval, bind_ok e]
  rfl

end Sys2Proof.Machine
end

