-- ==== Sys2Proof/Laws/Encoding.lean ====
section
/-! SUPPORT. The CMD word as its six fields (30 R80): each field read back, and the mask test of R82 as a test of fields. -/

namespace Sys2Proof

/-- A CMD word from all its fields, the reserved ones too (R80). -/
def wordOf (r1 val2 val : Byte) (r0 : BitVec 1) (reg : IdeReg) (op : BitVec 4) : Word :=
  r1 ++ val2 ++ val ++ r0 ++ reg ++ op

/-- Concatenation is addition of the shifted part. -/
theorem toNat_append_add {m n : Nat} (x : BitVec m) (y : BitVec n) : (x ++ y).toNat = x.toNat * 2 ^ n + y.toNat := by
  rw [BitVec.toNat_append, Nat.shiftLeft_eq, Nat.mul_comm, ← Nat.two_pow_add_eq_or_of_lt y.isLt]

/-- The number a CMD word is. -/
theorem wordOf_toNat (r1 val2 val : Byte) (r0 : BitVec 1) (reg : IdeReg) (op : BitVec 4) :
    (wordOf r1 val2 val r0 reg op).toNat =
      r1.toNat * 2 ^ 24 + val2.toNat * 2 ^ 16 + val.toNat * 2 ^ 8 + r0.toNat * 2 ^ 7 + reg.toNat * 2 ^ 4 + op.toNat := by
  simp only [wordOf, toNat_append_add]
  omega

@[simp] theorem cmdOp_wordOf (r1 val2 val : Byte) (r0 : BitVec 1) (reg : IdeReg) (op : BitVec 4) :
    cmdOp (wordOf r1 val2 val r0 reg op) = op := by
  apply BitVec.eq_of_toNat_eq
  simp only [cmdOp, BitVec.extractLsb'_toNat, wordOf_toNat, Nat.shiftRight_eq_div_pow]
  omega

@[simp] theorem cmdReg_wordOf (r1 val2 val : Byte) (r0 : BitVec 1) (reg : IdeReg) (op : BitVec 4) :
    cmdReg (wordOf r1 val2 val r0 reg op) = reg := by
  apply BitVec.eq_of_toNat_eq
  simp only [cmdReg, BitVec.extractLsb'_toNat, wordOf_toNat, Nat.shiftRight_eq_div_pow]
  omega

@[simp] theorem cmdVal_wordOf (r1 val2 val : Byte) (r0 : BitVec 1) (reg : IdeReg) (op : BitVec 4) :
    cmdVal (wordOf r1 val2 val r0 reg op) = val := by
  apply BitVec.eq_of_toNat_eq
  simp only [cmdVal, BitVec.extractLsb'_toNat, wordOf_toNat, Nat.shiftRight_eq_div_pow]
  omega

@[simp] theorem cmdVal2_wordOf (r1 val2 val : Byte) (r0 : BitVec 1) (reg : IdeReg) (op : BitVec 4) :
    cmdVal2 (wordOf r1 val2 val r0 reg op) = val2 := by
  apply BitVec.eq_of_toNat_eq
  simp only [cmdVal2, BitVec.extractLsb'_toNat, wordOf_toNat, Nat.shiftRight_eq_div_pow]
  omega

/-- Field `R0`, bit 7. -/
@[simp] theorem reserved0_wordOf (r1 val2 val : Byte) (r0 : BitVec 1) (reg : IdeReg) (op : BitVec 4) :
    (wordOf r1 val2 val r0 reg op).extractLsb' 7 1 = r0 := by
  apply BitVec.eq_of_toNat_eq
  simp only [BitVec.extractLsb'_toNat, wordOf_toNat, Nat.shiftRight_eq_div_pow]
  omega

/-- Field `R1`, bits 31:24. -/
@[simp] theorem reserved1_wordOf (r1 val2 val : Byte) (r0 : BitVec 1) (reg : IdeReg) (op : BitVec 4) :
    (wordOf r1 val2 val r0 reg op).extractLsb' 24 8 = r1 := by
  apply BitVec.eq_of_toNat_eq
  simp only [BitVec.extractLsb'_toNat, wordOf_toNat, Nat.shiftRight_eq_div_pow]
  omega

/-- Every word is the word of its fields. -/
theorem eq_wordOf (w : Word) :
    w = wordOf (w.extractLsb' 24 8) (cmdVal2 w) (cmdVal w) (w.extractLsb' 7 1) (cmdReg w) (cmdOp w) := by
  apply BitVec.eq_of_toNat_eq
  simp only [cmdVal2, cmdVal, cmdReg, cmdOp, BitVec.extractLsb'_toNat, wordOf_toNat, Nat.shiftRight_eq_div_pow]
  omega

/-- Two words are equal when their fields are. -/
theorem wordOf_inj {r1 val2 val r1' val2' val' : Byte} {r0 r0' : BitVec 1} {reg reg' : IdeReg} {op op' : BitVec 4} :
    wordOf r1 val2 val r0 reg op = wordOf r1' val2' val' r0' reg' op' ↔
      r1 = r1' ∧ val2 = val2' ∧ val = val' ∧ r0 = r0' ∧ reg = reg' ∧ op = op' := by
  constructor
  · intro h
    exact ⟨by simpa using congrArg (fun w : Word => w.extractLsb' 24 8) h, by simpa using congrArg cmdVal2 h,
      by simpa using congrArg cmdVal h, by simpa using congrArg (fun w : Word => w.extractLsb' 7 1) h,
      by simpa using congrArg cmdReg h, by simpa using congrArg cmdOp h⟩
  · rintro ⟨rfl, rfl, rfl, rfl, rfl, rfl⟩
    rfl

/-- A mask works field by field. -/
theorem wordOf_and (r1 val2 val r1' val2' val' : Byte) (r0 r0' : BitVec 1) (reg reg' : IdeReg) (op op' : BitVec 4) :
    wordOf r1 val2 val r0 reg op &&& wordOf r1' val2' val' r0' reg' op' =
      wordOf (r1 &&& r1') (val2 &&& val2') (val &&& val') (r0 &&& r0') (reg &&& reg') (op &&& op') := by
  have h : (r1 ++ val2 ++ val ++ r0 ++ reg ++ op) &&& (r1' ++ val2' ++ val' ++ r0' ++ reg' ++ op') =
      (r1 &&& r1') ++ (val2 &&& val2') ++ (val &&& val') ++ (r0 &&& r0') ++ (reg &&& reg') ++ (op &&& op') := by
    simp only [BitVec.and_append]
  exact h

theorem cmdWord_eq (op : BitVec 4) (reg : IdeReg) (val val2 : Byte) :
    cmdWord op reg val val2 = wordOf 0 val2 val 0 reg op := rfl

/-- The mask of an operation that uses REG alone, as fields. -/
theorem maskReg_eq : (0xFFFFFF8F : Word) = wordOf (-1) (-1) (-1) (-1) 0 (-1) := by decide

/-- The mask of REG_WR8, as fields. -/
theorem maskRegVal_eq : (0xFFFF008F : Word) = wordOf (-1) (-1) 0 (-1) 0 (-1) := by decide

/-- The mask of SETGEOM, as fields. -/
theorem maskVals_eq : (0xFF0000FF : Word) = wordOf (-1) 0 0 (-1) (-1) (-1) := by decide

/-- The mask of an operation without operand fields, as fields. -/
theorem maskNone_eq : (0xFFFFFFFF : Word) = wordOf (-1) (-1) (-1) (-1) (-1) (-1) := by decide

theorem and_neg_one {n : Nat} (x : BitVec n) : x &&& (-1) = x := by
  exact (congrArg (x &&& ·) BitVec.neg_one_eq_allOnes).trans BitVec.and_allOnes

theorem and_zero_word {n : Nat} (x : BitVec n) : x &&& 0 = 0 := BitVec.and_zero

/-- What the decoder does with fields: the must-be-zero fields of R81 are tested, then the operands taken. -/
def decodeFields (r1 val2 val : Byte) (r0 : BitVec 1) (reg : IdeReg) (op : BitVec 4) : Except Reject Instr :=
  let test (ok : Bool) (i : Instr) : Except Reject Instr := if ok then .ok i else .error .nonzeroField
  let none' := decide (r1 = 0 ∧ val2 = 0 ∧ val = 0 ∧ r0 = 0 ∧ reg = 0)
  match op.toNat with
  | 0x1 => test (decide (r1 = 0 ∧ val2 = 0 ∧ val = 0 ∧ r0 = 0)) (.regRd8 reg.toNat)
  | 0x2 => test (decide (r1 = 0 ∧ val2 = 0 ∧ r0 = 0)) (.regWr8 reg.toNat val)
  | 0x3 => test (decide (r1 = 0 ∧ val2 = 0 ∧ val = 0 ∧ r0 = 0)) (.regRd16 reg.toNat)
  | 0x4 => test none' .identify
  | 0x5 => test none' .read
  | 0x6 => test none' .write
  | 0x7 => test (decide (r1 = 0 ∧ r0 = 0 ∧ reg = 0)) (.setgeom val val2)
  | 0x8 => test none' .flushDev
  | 0x9 => test none' .reset
  | 0xA => test none' .getid
  | _ => .error .reservedOp

theorem mask_reg {r1 val2 val : Byte} {r0 : BitVec 1} {reg : IdeReg} {op : BitVec 4} {p : Word}
    (hp : p = wordOf 0 0 0 0 0 op) :
    wordOf r1 val2 val r0 reg op &&& 0xFFFFFF8F = p ↔ r1 = 0 ∧ val2 = 0 ∧ val = 0 ∧ r0 = 0 := by
  rw [maskReg_eq, wordOf_and, hp, wordOf_inj]
  simp only [and_neg_one, and_zero_word, true_and, and_true]

theorem mask_regVal {r1 val2 val : Byte} {r0 : BitVec 1} {reg : IdeReg} {op : BitVec 4} {p : Word}
    (hp : p = wordOf 0 0 0 0 0 op) :
    wordOf r1 val2 val r0 reg op &&& 0xFFFF008F = p ↔ r1 = 0 ∧ val2 = 0 ∧ r0 = 0 := by
  rw [maskRegVal_eq, wordOf_and, hp, wordOf_inj]
  simp only [and_neg_one, and_zero_word, true_and, and_true]

theorem mask_vals {r1 val2 val : Byte} {r0 : BitVec 1} {reg : IdeReg} {op : BitVec 4} {p : Word}
    (hp : p = wordOf 0 0 0 0 0 op) :
    wordOf r1 val2 val r0 reg op &&& 0xFF0000FF = p ↔ r1 = 0 ∧ r0 = 0 ∧ reg = 0 := by
  rw [maskVals_eq, wordOf_and, hp, wordOf_inj]
  simp only [and_neg_one, and_zero_word, true_and, and_true]

theorem mask_none {r1 val2 val : Byte} {r0 : BitVec 1} {reg : IdeReg} {op : BitVec 4} {p : Word}
    (hp : p = wordOf 0 0 0 0 0 op) :
    wordOf r1 val2 val r0 reg op &&& 0xFFFFFFFF = p ↔ r1 = 0 ∧ val2 = 0 ∧ val = 0 ∧ r0 = 0 ∧ reg = 0 := by
  rw [maskNone_eq, wordOf_and, hp, wordOf_inj]
  simp only [and_neg_one, and_true]

/-- The decoder of R82 on the fields of a word. -/
theorem decode_wordOf (r1 val2 val : Byte) (r0 : BitVec 1) (reg : IdeReg) (op : BitVec 4) :
    decode (wordOf r1 val2 val r0 reg op) = decodeFields r1 val2 val r0 reg op := by
  have h16 : op.toNat < 16 := op.isLt
  obtain ⟨n, hn⟩ : ∃ n, n = op.toNat := ⟨_, rfl⟩
  have hop : op = BitVec.ofNat 4 n := by rw [hn]; simp
  subst hop
  rw [← hn] at h16
  simp only [decode, decodeFields, opRow, opInstr, cmdOp_wordOf, cmdReg_wordOf, cmdVal_wordOf, cmdVal2_wordOf, ← hn]
  have hp : ∀ k : Nat, k < 16 → BitVec.ofNat 32 k = wordOf 0 0 0 0 0 (BitVec.ofNat 4 k) := by decide
  clear hn
  interval_cases n
  · rfl
  · simp only [mask_reg (show (1 : Word) = _ from hp 1 (by decide)), decide_eq_true_eq]
  · simp only [mask_regVal (show (2 : Word) = _ from hp 2 (by decide)), decide_eq_true_eq]
  · simp only [mask_reg (show (3 : Word) = _ from hp 3 (by decide)), decide_eq_true_eq]
  · simp only [mask_none (show (4 : Word) = _ from hp 4 (by decide)), decide_eq_true_eq]
  · simp only [mask_none (show (5 : Word) = _ from hp 5 (by decide)), decide_eq_true_eq]
  · simp only [mask_none (show (6 : Word) = _ from hp 6 (by decide)), decide_eq_true_eq]
  · simp only [mask_vals (show (7 : Word) = _ from hp 7 (by decide)), decide_eq_true_eq]
  · simp only [mask_none (show (8 : Word) = _ from hp 8 (by decide)), decide_eq_true_eq]
  · simp only [mask_none (show (9 : Word) = _ from hp 9 (by decide)), decide_eq_true_eq]
  · simp only [mask_none (show (10 : Word) = _ from hp 10 (by decide)), decide_eq_true_eq]
  all_goals rfl

end Sys2Proof
end

