-- ==== Sys2Proof/Laws/PerInstr.lean ====
section
/-! SUPPORT. One fact about every instruction as syntax: its CMD word has a legal OP and zero reserved fields (30 R80, R81). -/

namespace Sys2Proof.Laws.Encodes

/-- The CMD word of an operation: OP is 1 to 10, and R0 and R1 are 0. -/
def Statement (i : Instr) : Prop :=
  1 ≤ (cmdOp (encode i)).toNat ∧ (cmdOp (encode i)).toNat ≤ 10 ∧
    (encode i).extractLsb' 7 1 = 0 ∧ (encode i).extractLsb' 24 8 = 0

/-- What all the words share. -/
theorem of_cmdWord (op : BitVec 4) (reg : IdeReg) (val val2 : Byte) (h : 1 ≤ op.toNat) (h' : op.toNat ≤ 10) :
    1 ≤ (cmdOp (cmdWord op reg val val2)).toNat ∧ (cmdOp (cmdWord op reg val val2)).toNat ≤ 10 ∧
      (cmdWord op reg val val2).extractLsb' 7 1 = 0 ∧ (cmdWord op reg val val2).extractLsb' 24 8 = 0 := by
  simp [cmdWord_eq, h, h']

theorem regRd8 (reg : Nat) : Statement (.regRd8 reg) := of_cmdWord _ _ _ _ (by decide) (by decide)
theorem regWr8 (reg : Nat) (val : Byte) : Statement (.regWr8 reg val) := of_cmdWord _ _ _ _ (by decide) (by decide)
theorem regRd16 (reg : Nat) : Statement (.regRd16 reg) := of_cmdWord _ _ _ _ (by decide) (by decide)
theorem identify : Statement .identify := of_cmdWord _ _ _ _ (by decide) (by decide)
theorem read : Statement .read := of_cmdWord _ _ _ _ (by decide) (by decide)
theorem write : Statement .write := of_cmdWord _ _ _ _ (by decide) (by decide)
theorem setgeom (heads spt : Byte) : Statement (.setgeom heads spt) := of_cmdWord _ _ _ _ (by decide) (by decide)
theorem flushDev : Statement .flushDev := of_cmdWord _ _ _ _ (by decide) (by decide)
theorem reset : Statement .reset := of_cmdWord _ _ _ _ (by decide) (by decide)
theorem getid : Statement .getid := of_cmdWord _ _ _ _ (by decide) (by decide)

end Sys2Proof.Laws.Encodes
end

