-- ==== Sys2Proof/Laws/Raises.lean ====
section
/-! SUPPORT. Which errors pseudocode can raise, in any environment, and what LAST_STATUS then holds (60 R211, R213, R215). -/

namespace Sys2Proof.Machine

/-- Every error that `x` raises meets `E` together with the state it leaves. -/
def Raises {α : Type} (E : Err → State → Prop) (x : EngineM α) : Prop :=
  ∀ s e t, x s = .error (.raised e) t → E e t

/-- One of the errors of `l`; and where it is DeviceError, the latest status byte has ERR = 1. -/
def Why (l : List Err) (e : Err) (t : State) : Prop := e ∈ l ∧ (e = .deviceError → err t.csr.lastStatus = true)

section
variable {E : Err → State → Prop} {α β : Type}

theorem Raises.pure (a : α) : Raises E (pure a : EngineM α) := fun _ _ _ h => by cases h

theorem Raises.modify (f : State → State) : Raises E (modify f : EngineM Unit) := fun _ _ _ h => by cases h

theorem Raises.raise {e : Err} (h : ∀ s, E e s) : Raises E (raise e : EngineM α) := fun s _ _ hr => by
  cases hr
  exact h s

/-- The rest may use what the first part answered. -/
theorem Raises.bindOk {x : EngineM α} {f : α → EngineM β} (hx : Raises E x)
    (hf : ∀ s a t, x s = .ok a t → ∀ e u, f a t = .error (.raised e) u → E e u) : Raises E (x >>= f) := by
  intro s e u h
  cases hr : x s with
  | ok a t => rw [bind_ok hr] at h; exact hf s a t hr e u h
  | error e' t =>
    rw [bind_error hr] at h
    cases h
    exact hx s e u hr

theorem Raises.bind {x : EngineM α} {f : α → EngineM β} (hx : Raises E x) (hf : ∀ a, Raises E (f a)) :
    Raises E (x >>= f) := hx.bindOk fun _ a t _ => hf a t

theorem Raises.get {f : State → EngineM β} (hf : ∀ s, Raises E (f s)) : Raises E (MonadState.get >>= f) :=
  fun s e t h => hf s s e t h

theorem Raises.ite {c : Prop} [Decidable c] {x y : EngineM α} (hx : Raises E x) (hy : Raises E y) :
    Raises E (if c then x else y) := by
  split
  · exact hx
  · exact hy

theorem Raises.forRange {body : Nat → EngineM Unit} (h : ∀ i, Raises E (body i)) : ∀ k i, Raises E (forRange body k i)
  | 0, _ => Raises.pure ()
  | k + 1, i => (h i).bind fun _ => Raises.forRange h k (i + 1)

theorem Raises.mono {E' : Err → State → Prop} {x : EngineM α} (h : Raises E x) (hE : ∀ e t, E e t → E' e t) :
    Raises E' x := fun s e t hr => hE e t (h s e t hr)

theorem Raises.hold (n : Nat) : Raises E (hold n) := fun s e t h => absurd h (hold_not_raised n s e t)

theorem Raises.idle (n : Nat) : Raises E (idle n) := (Raises.modify _).bind fun _ => Raises.hold n

theorem Raises.busPhase (p : BusPhase) (n : Nat) : Raises E (busPhase p n) := (Raises.modify _).bind fun _ => Raises.hold n

theorem Raises.sampleBus (reg : IdeReg) (kind : Kind) : Raises E (sampleBus reg kind) := fun s e t h => by
  unfold Sys2Proof.Machine.sampleBus at h
  split at h <;> cases h

/-- A bus cycle never fails (40 R100). -/
theorem Raises.ideRead (reg : IdeReg) (kind : Kind) : Raises E (ideRead reg kind) :=
  Raises.bind (Raises.get fun _ => Raises.pure _) fun _ => (Raises.modify _).bind fun _ => (Raises.busPhase _ _).bind
    fun _ => (Raises.modify _).bind fun _ => (Raises.busPhase _ _).bind fun _ => (Raises.sampleBus _ _).bind
    fun _ => (Raises.modify _).bind fun _ => (Raises.busPhase _ _).bind fun _ => (Raises.modify _).bind
    fun _ => (Raises.busPhase _ _).bind fun _ => (Raises.modify _).bind
    fun _ => Raises.ite ((Raises.modify _).bind fun _ => Raises.pure _) (Raises.pure _)

theorem Raises.ideWrite (reg : IdeReg) (v : Half) (kind : Kind) : Raises E (ideWrite reg v kind) :=
  Raises.bind (Raises.get fun _ => Raises.pure _) fun _ => (Raises.modify _).bind fun _ => (Raises.busPhase _ _).bind
    fun _ => (Raises.modify _).bind fun _ => (Raises.busPhase _ _).bind fun _ => (Raises.modify _).bind
    fun _ => (Raises.modify _).bind fun _ => (Raises.busPhase _ _).bind fun _ => (Raises.modify _).bind
    fun _ => (Raises.busPhase _ _).bind fun _ => Raises.modify _

theorem Raises.write8 (reg : IdeReg) (b : Byte) : Raises E (write8 reg b) := Raises.ideWrite _ _ _

theorem Raises.takeAnswer : Raises E takeAnswer := fun s e t h => by
  unfold Sys2Proof.Machine.takeAnswer at h
  split at h <;> cases h

/-- BUF raises no error (20 R71). -/
theorem Raises.bufHandshake (a : BufAccess) : Raises E (bufHandshake a) :=
  (Raises.modify _).bind fun _ => Raises.takeAnswer.bind fun n => by
    cases n with
    | none =>
      intro s e t h
      cases h
    | some n => exact (Raises.hold n).bind fun _ => Raises.modify _

theorem Raises.takeByte (a : Nat) : Raises E (takeByte a) := fun s e t h => by
  unfold Sys2Proof.Machine.takeByte at h
  split at h <;> cases h

theorem Raises.memRead (a : Nat) : Raises E (memRead a) :=
  Raises.get fun _ => (Raises.bufHandshake _).bind fun _ => (Raises.takeByte _).bind fun _ => (Raises.takeByte _).bind
    fun _ => (Raises.modify _).bind fun _ => Raises.pure _

theorem Raises.memWrite (a : Nat) (v : Half) : Raises E (memWrite a v) :=
  Raises.get fun _ => (Raises.bufHandshake _).bind fun _ => (Raises.modify _).bind fun _ => Raises.modify _

theorem Raises.clock : Raises E clock := fun s e t h => by
  unfold Sys2Proof.Machine.clock at h
  split at h <;> cases h

end

/-! ## The status byte -/

/-- A read of register 7 leaves its low byte in LAST_STATUS, whatever happens meanwhile (40 R109). -/
theorem ideRead_status {kind : Kind} {s t : State} {v : Half} (h : ideRead 7 kind s = .ok v t) :
    t.csr.lastStatus = v.lo := by
  obtain ⟨_, _, -, h⟩ := bind_eq_ok h
  obtain ⟨_, _, -, h⟩ := bind_eq_ok h
  obtain ⟨_, _, -, h⟩ := bind_eq_ok h
  obtain ⟨_, _, -, h⟩ := bind_eq_ok h
  obtain ⟨_, _, -, h⟩ := bind_eq_ok h
  obtain ⟨w, _, -, h⟩ := bind_eq_ok h
  obtain ⟨_, _, -, h⟩ := bind_eq_ok h
  obtain ⟨_, _, -, h⟩ := bind_eq_ok h
  obtain ⟨_, _, -, h⟩ := bind_eq_ok h
  obtain ⟨_, _, -, h⟩ := bind_eq_ok h
  obtain ⟨_, _, -, h⟩ := bind_eq_ok h
  cases h
  rfl

theorem read8_status {s t : State} {b : Byte} (h : read8 7 s = .ok b t) : t.csr.lastStatus = b := by
  obtain ⟨v, u, hr, h⟩ := bind_eq_ok h
  cases h
  exact ideRead_status hr

theorem Raises.read8 {E : Err → State → Prop} (reg : IdeReg) : Raises E (read8 reg) :=
  (Raises.ideRead _ _).bind fun _ => Raises.pure _

/-- The byte that ends a wait is in LAST_STATUS. -/
theorem poll_status (verdict : Byte → Verdict) : ∀ (n : Nat) {s t : State} {st : Byte},
    poll verdict n s = .ok st t → t.csr.lastStatus = st
  | 0, s, t, st, h => by cases h
  | n + 1, s, t, st, h => by
    obtain ⟨_, _, -, h⟩ := bind_eq_ok h
    obtain ⟨b, u, hr, h⟩ := bind_eq_ok h
    cases hv : verdict b with
    | ready =>
      simp only [hv] at h
      cases h
      exact read8_status hr
    | failed =>
      simp only [hv] at h
      cases h
    | again =>
      simp only [hv] at h
      by_cases hn : n = 0
      · simp only [hn, ne_eq, not_true_eq_false, if_false] at h
        exact poll_status verdict 0 h
      · simp only [hn, ne_eq, not_false_eq_true, if_true] at h
        obtain ⟨_, _, -, h⟩ := bind_eq_ok h
        obtain ⟨_, _, -, h⟩ := bind_eq_ok h
        exact poll_status verdict n h

/-- A wait raises Timeout, or DeviceError where its verdict can be "failed" (42 R175, R176). -/
theorem Raises.poll {l : List Err} {verdict : Byte → Verdict} (ht : Err.timeout ∈ l)
    (hv : ∀ st, verdict st = .failed → Err.deviceError ∈ l ∧ err st = true) : ∀ n, Raises (Why l) (poll verdict n)
  | 0 => Raises.raise fun _ => ⟨ht, fun h => by cases h⟩
  | n + 1 => (Raises.modify _).bind fun _ => (Raises.read8 7).bindOk fun s st t hr => by
    cases h : verdict st with
    | ready => exact Raises.pure _ t
    | failed =>
      intro e u hx
      cases hx
      exact ⟨(hv st h).1, fun _ => by rw [read8_status hr]; exact (hv st h).2⟩
    | again =>
      exact Raises.ite (Raises.get fun _ => (Raises.idle _).bind fun _ => Raises.poll ht hv n) (Raises.poll ht hv n) t

theorem Raises.waitDrq {l : List Err} (ht : Err.timeout ∈ l) (hd : Err.deviceError ∈ l) : Raises (Why l) waitDrq :=
  (Raises.modify _).bind fun _ => Raises.get fun s => Raises.poll ht (fun st h => by
    refine ⟨hd, ?_⟩
    simp only [drqVerdict] at h
    split at h
    · rename_i hc
      simp only [Bool.and_eq_true] at hc
      exact hc.1
    · split at h <;> cases h) _

theorem Raises.waitNotBusy {l : List Err} (ht : Err.timeout ∈ l) (n : Nat) : Raises (Why l) (waitNotBusy n) :=
  Raises.poll ht (fun st h => by
    simp only [notBusyVerdict] at h
    split at h <;> cases h) n

theorem Raises.writeSeq {E : Err → State → Prop} : ∀ seq, Raises E (writeSeq seq)
  | [] => Raises.pure ()
  | (r, b) :: rest => (Raises.write8 r b).bind fun _ => Raises.writeSeq rest

theorem Raises.issueCommandNoWait {E : Err → State → Prop} (seq : List SeqEntry) : Raises E (issueCommandNoWait seq) :=
  (Raises.writeSeq seq).bind fun _ => (Raises.modify _).bind fun _ => Raises.get fun _ => Raises.idle _

/-- A command raises Timeout alone, from the pre-command wait (41 R131). -/
theorem Raises.issueCommand {l : List Err} (ht : Err.timeout ∈ l) (seq : List SeqEntry) :
    Raises (Why l) (issueCommand seq) :=
  Raises.get fun _ => Raises.ite
    ((Raises.modify _).bind fun _ => (Raises.waitNotBusy ht _).bind fun _ => (Raises.modify _).bind
      fun _ => Raises.issueCommandNoWait seq)
    ((Raises.modify _).bind fun _ => Raises.issueCommandNoWait seq)

/-- The ERR check after a wait. -/
theorem Raises.checkErr {l : List Err} (hd : Err.deviceError ∈ l) {st : Byte} {t : State} (hs : t.csr.lastStatus = st)
    (e : Err) (u : State)
    (h : (if err st then Machine.raise .deviceError else Pure.pure () : EngineM Unit) t = .error (.raised e) u) : Why l e u := by
  by_cases he : err st = true
  · simp only [he, if_true] at h
    cases h
    exact ⟨hd, fun _ => by rw [hs]; exact he⟩
  · simp only [he] at h
    cases h

theorem Raises.completeNoData {l : List Err} (ht : Err.timeout ∈ l) (hd : Err.deviceError ∈ l) (n : Nat) :
    Raises (Why l) (completeNoData n) :=
  (Raises.modify _).bind fun _ => (Raises.waitNotBusy ht n).bindOk fun _ _ _ hr =>
    Raises.checkErr hd (poll_status _ n hr)

theorem Raises.onTimeout {l : List Err} {x h : EngineM Byte} (hx : Raises (Why (Err.timeout :: l)) x)
    (hh : Raises (Why l) h) : Raises (Why l) (onTimeout x h) := by
  intro s e t hr
  unfold Sys2Proof.Machine.onTimeout at hr
  match hxs : x s with
  | .ok a u => rw [hxs] at hr; cases hr
  | .error .halted u => rw [hxs] at hr; cases hr
  | .error (.raised e') u =>
    rw [hxs] at hr
    have h1 := hx s e' u hxs
    have key : e' ≠ .timeout → (EStateM.Result.error (Exit.raised e') u : EStateM.Result Exit State Byte) =
        .error (.raised e) t → Why l e t := fun hne hr => by
      cases hr
      refine ⟨?_, h1.2⟩
      rcases List.mem_cons.mp h1.1 with h2 | h2
      · exact absurd h2 hne
      · exact h2
    cases e' with
    | timeout => exact hh u e t hr
    | _ => exact key (by simp) hr

/-- A byte that ends the final wait is in LAST_STATUS. -/
theorem onFinalTimeout_status {dir : Dir} {s t : State} {st : Byte} {n : Nat}
    (h : onTimeout (waitNotBusy n) (onFinalTimeout dir) s = .ok st t) : t.csr.lastStatus = st := by
  unfold Sys2Proof.Machine.onTimeout at h
  have hrec : ∀ u, onFinalTimeout dir u = .ok st t → t.csr.lastStatus = st := fun u hu => by
    cases dir with
    | read => cases hu
    | write =>
      obtain ⟨_, _, -, hu⟩ := bind_eq_ok hu
      obtain ⟨_, _, -, hu⟩ := bind_eq_ok hu
      obtain ⟨_, _, -, hu⟩ := bind_eq_ok hu
      obtain ⟨_, _, -, hu⟩ := bind_eq_ok hu
      obtain ⟨_, _, -, hu⟩ := bind_eq_ok hu
      exact poll_status _ _ hu
  split at h
  · exact hrec _ h
  · exact poll_status _ n h

theorem Raises.finalWait {l : List Err} (ht : Err.timeout ∈ l) (hd : Err.deviceError ∈ l) (dir : Dir) :
    Raises (Why l) (finalWait dir) := by
  refine (Raises.modify _).bind fun _ => Raises.get fun s => Raises.bindOk
    (Raises.onTimeout (Raises.waitNotBusy (by simp) _) ?_) fun _ _ _ hr => Raises.checkErr hd (onFinalTimeout_status hr)
  cases dir with
  | read => exact Raises.raise fun _ => ⟨ht, fun h => by cases h⟩
  | write =>
    exact (Raises.modify _).bind fun _ => Raises.get fun _ => (Raises.issueCommandNoWait _).bind fun _ =>
      (Raises.modify _).bind fun _ => Raises.get fun _ => Raises.waitNotBusy ht _

theorem Raises.validate {l : List Err} (ho : Err.outOfRange ∈ l) (dir : Dir) : Raises (Why l) (validate dir) :=
  Raises.get fun s => Raises.ite (Raises.raise fun _ => ⟨ho, fun h => by cases h⟩) (Raises.pure ())

theorem Raises.sectorStep {l : List Err} (ht : Err.timeout ∈ l) (hd : Err.deviceError ∈ l) (dir : Dir) (i : Nat) :
    Raises (Why l) (sectorStep dir i) := by
  refine (Raises.modify _).bind fun _ => (Raises.waitDrq ht hd).bind fun _ => Raises.get fun _ => (Raises.modify _).bind
    fun _ => ?_
  cases dir with
  | read =>
    exact Raises.forRange (fun w => (Raises.modify _).bind fun _ => (Raises.ideRead 0 .word).bind fun _ =>
      Raises.memWrite _ _) _ _
  | write =>
    exact Raises.forRange (fun w => (Raises.modify _).bind fun _ => (Raises.memRead _).bind fun _ =>
      Raises.ideWrite 0 _ .word) _ _

theorem Raises.chunkLoop {l : List Err} (ht : Err.timeout ∈ l) (hd : Err.deviceError ∈ l) (dir : Dir) :
    ∀ n, Raises (Why l) (chunkLoop dir n)
  | 0 => Raises.pure ()
  | n + 1 => Raises.get fun s => Raises.ite
    (Raises.bind (Raises.get fun _ => (Raises.modify _).bind fun _ => (Raises.issueCommand ht _).bind fun _ =>
      (Raises.forRange (Raises.sectorStep ht hd dir) _ _).bind fun _ => Raises.modify _)
      fun _ => Raises.chunkLoop ht hd dir n)
    (Raises.pure ())

theorem Raises.transfer {l : List Err} (ht : Err.timeout ∈ l) (hd : Err.deviceError ∈ l) (dir : Dir) :
    Raises (Why l) (transfer dir) :=
  Raises.get fun _ => (Raises.modify _).bind fun _ => Raises.chunkLoop ht hd dir _

/-- The errors that 60 R211 lists for an operation. -/
def listedErrors : Instr → List Err
  | .regRd8 _ | .regWr8 _ _ | .regRd16 _ => []
  | .identify | .flushDev => [.timeout, .deviceError]
  | .read | .write | .setgeom _ _ => [.outOfRange, .timeout, .deviceError]
  | .reset => [.timeout]
  | .getid => [.noData]

/-- An operation raises the errors of its list alone, and DeviceError with the byte that shows ERR = 1 in LAST_STATUS. -/
theorem body_raises (i : Instr) : Raises (Why (listedErrors i)) (bodyOf i) := by
  cases i with
  | regRd8 reg => exact (Raises.modify _).bind fun _ => (Raises.ideRead _ _).bind fun _ => Raises.pure _
  | regWr8 reg val => exact (Raises.modify _).bind fun _ => (Raises.ideWrite _ _ _).bind fun _ => Raises.pure _
  | regRd16 reg => exact (Raises.modify _).bind fun _ => (Raises.ideRead _ _).bind fun _ => Raises.pure _
  | identify =>
    exact (Raises.modify _).bind fun _ => Raises.get fun _ => (Raises.issueCommand (by simp [listedErrors]) _).bind
      fun _ => (Raises.waitDrq (by simp [listedErrors]) (by simp [listedErrors])).bind fun _ => (Raises.modify _).bind
      fun _ => (Raises.forRange (fun _ => (Raises.modify _).bind fun _ => (Raises.ideRead _ _).bind fun _ =>
        Raises.modify _) _ _).bind fun _ => (Raises.modify _).bind fun _ => Raises.pure _
  | read =>
    exact (Raises.validate (by simp [listedErrors]) _).bind fun _ =>
      (Raises.transfer (by simp [listedErrors]) (by simp [listedErrors]) _).bind fun _ =>
      (Raises.finalWait (by simp [listedErrors]) (by simp [listedErrors]) _).bind fun _ =>
      Raises.get fun _ => Raises.pure _
  | write =>
    exact (Raises.validate (by simp [listedErrors]) _).bind fun _ =>
      Raises.bind ((Raises.modify _).bind fun _ => Raises.get fun _ => (Raises.modify _).bind fun _ =>
        (Raises.modify _).bind fun _ => Raises.clock.bind fun _ => Raises.modify _) fun _ =>
      (Raises.transfer (by simp [listedErrors]) (by simp [listedErrors]) _).bind fun _ =>
      (Raises.finalWait (by simp [listedErrors]) (by simp [listedErrors]) _).bind fun _ =>
      Raises.get fun _ => Raises.pure _
  | setgeom heads spt =>
    have rest : Raises (Why (listedErrors (.setgeom heads spt))) (do
        issueCommand (setgeomSeq heads spt)
        completeNoData (← get).params.budgetNodata
        setCsr fun c => { c with geomHeads := heads, geomSpt := spt }
        return 0 : EngineM Word) :=
      (Raises.issueCommand (by simp [listedErrors]) _).bind fun _ => Raises.get fun _ =>
        (Raises.completeNoData (by simp [listedErrors]) (by simp [listedErrors]) _).bind fun _ =>
        (Raises.modify _).bind fun _ => Raises.pure _
    exact Raises.ite ((Raises.raise fun _ => ⟨by simp [listedErrors], fun h => by cases h⟩).bind fun _ => rest) rest
  | flushDev =>
    exact Raises.get fun _ => (Raises.issueCommand (by simp [listedErrors]) _).bind fun _ => Raises.get fun _ =>
      (Raises.completeNoData (by simp [listedErrors]) (by simp [listedErrors]) _).bind fun _ => Raises.pure _
  | reset =>
    exact Raises.bind ((Raises.modify _).bind fun _ => (Raises.modify _).bind fun _ => (Raises.modify _).bind fun _ =>
        Raises.get fun _ => (Raises.hold _).bind fun _ => Raises.modify _) fun _ =>
      (Raises.modify _).bind fun _ => Raises.get fun _ => (Raises.idle _).bind fun _ => (Raises.modify _).bind fun _ =>
      Raises.get fun _ => (Raises.waitNotBusy (by simp [listedErrors]) _).bind fun _ => Raises.pure _
  | getid =>
    have rest : Raises (Why (listedErrors .getid)) (do
        goto .copyOut
        forRange copyIdWord wordsPerSector 0
        return 512 : EngineM Word) :=
      (Raises.modify _).bind fun _ => (Raises.forRange (fun _ => (Raises.modify _).bind fun _ => Raises.get fun _ =>
        Raises.memWrite _ _) _ _).bind fun _ => Raises.pure _
    exact Raises.get fun s => Raises.ite
      ((Raises.raise fun _ => ⟨by simp [listedErrors], fun h => by cases h⟩).bind fun _ => rest) rest

/-- An error of the list, as an outcome. -/
theorem listedOutcome_err {i : Instr} {e : Err} (h : e ∈ listedErrors i) (s : State) : s.listedOutcome i e.code := by
  cases i <;> simp only [listedErrors, List.mem_cons, List.not_mem_nil, or_false, false_or] at h <;>
    simp only [State.listedOutcome] <;> first | tauto | (rcases h with rfl | rfl | rfl <;> simp) | skip
  all_goals simp [h]

/-- Every code an operation can finish with is one of the outcomes listed for it (60 R211). -/
theorem code_listed {i : Instr} {s t : State} {code : Word} (hb : s.busy = true)
    (h : codeOf (bodyOf i) s = .ok code t) : s.listedOutcome i code := by
  rcases codeOf_cases h with h | ⟨e, hr, rfl⟩
  · have hs := body_success hb h
    cases i with
    | regRd8 reg => exact hs
    | regWr8 reg val => exact hs
    | regRd16 reg => exact hs
    | read => exact .inl hs.1
    | write => exact .inl hs.1
    | identify => exact .inl hs
    | setgeom heads spt => exact .inl hs
    | flushDev => exact .inl hs
    | reset => exact .inl hs
    | getid => exact .inl hs
  · exact listedOutcome_err (body_raises i s e t hr).1 s

end Sys2Proof.Machine
end

