-- ==== Sys2Proof/Laws/Replies.lean ====
section
/-! SUPPORT. The replies of Sys2Proof/Safety.lean depend on the parameters, the coming Device values, the registers and BUF
alone, so an operation's entry does not change them. -/

namespace Sys2Proof.Machine

/-- What the replies depend on is equal. -/
structure Same (s s' : State) : Prop where
  params : s.params = s'.params
  stream : s.upcoming = s'.upcoming
  kernel : s.csr.kernel = s'.csr.kernel
  mem : s.mem = s'.mem

theorem Entered.same {op : Option Instr} {s t : State} (h : Entered op s t) : Same t s :=
  ⟨h.params, funext h.stream, h.kernel, h.mem⟩

section
variable {s s' : State}

theorem Same.csr (h : Same s s') {α : Type} (f : Csrs → α) (hf : ∀ c : Csrs, f c.kernel = f c) : f s.csr = f s'.csr := by
  rw [← hf s.csr, h.kernel, hf]

theorem Same.bufSize (h : Same s s') : s.bufSize = s'.bufSize := by simp only [State.bufSize, h.params]

theorem Same.bufAddr (h : Same s s') : s.bufAddr = s'.bufAddr := h.csr (fun c => c.argBuf.toNat) fun _ => rfl

theorem Same.sectors (h : Same s s') : s.sectors = s'.sectors := h.csr (fun c => c.argCount.toNat) fun _ => rfl

theorem Same.lba (h : Same s s') : s.lba = s'.lba := h.csr (fun c => c.argLba.toNat) fun _ => rfl

theorem Same.addrMode (h : Same s s') : s.addrMode = s'.addrMode :=
  h.csr (fun c => if c.useLba then (if c.lba48Sup then AddrMode.lba48 else .lba28) else .chs) fun _ => rfl

theorem Same.plainHead (h : Same s s') : s.plainHead = s'.plainHead :=
  h.csr (fun c => if c.useLba then 0xE0 else 0xA0) fun _ => rfl

theorem Same.flushSeq (h : Same s s') : s.flushSeq = s'.flushSeq := by
  simp only [State.flushSeq, h.plainHead, h.addrMode]

theorem Same.identifySeq (h : Same s s') : s.identifySeq = s'.identifySeq := by
  simp only [State.identifySeq, h.plainHead]

theorem Same.transferSeq (h : Same s s') (dir : Dir) (lba n : Nat) : s.transferSeq dir lba n = s'.transferSeq dir lba n := by
  have h2 := h.csr (fun c => c.geomHeads) fun _ => rfl
  have h3 := h.csr (fun c => c.geomSpt) fun _ => rfl
  simp only [State.transferSeq, h.addrMode, h2, h3]

theorem Same.transferResult (h : Same s s') : s.transferResult = s'.transferResult := by
  simp only [State.transferResult, h.sectors]

theorem Same.valid (h : Same s s') (dir : Dir) : s.valid dir = s'.valid dir := by
  have h4 : s.capacity = s'.capacity := h.csr (fun c => if c.useLba then c.totalLba.toNat
    else c.geomCyl.toNat * c.geomHeads.toNat * c.geomSpt.toNat) fun _ => rfl
  have h5 : s.csr.wp = s'.csr.wp := h.csr (fun c => c.wp) fun _ => rfl
  have h6 : s.csr.geomHeads = s'.csr.geomHeads := h.csr (fun c => c.geomHeads) fun _ => rfl
  simp only [State.valid, State.withinModeLimits, h.addrMode, h.sectors, h.lba, h4, h5, h6]

theorem Same.replyCommand (h : Same s s') : s.replyCommand = s'.replyCommand := by
  funext ws k f
  simp only [State.replyCommand, h.params, h.stream]

theorem Same.precmdTimesOut (h : Same s s') : s.precmdTimesOut = s'.precmdTimesOut := by
  simp only [State.precmdTimesOut, h.params, h.stream]

theorem Same.replyDrq (h : Same s s') : s.replyDrq = s'.replyDrq := by
  funext ws k f
  simp only [State.replyDrq, h.params, h.stream]

theorem Same.replyNoData (h : Same s s') : s.replyNoData = s'.replyNoData := by
  funext budget k
  simp only [State.replyNoData, h.stream]

theorem Same.streamWords (h : Same s s') : s.streamWords = s'.streamWords := by
  funext k n
  simp only [State.streamWords, h.stream]

theorem Same.identifyReply (h : Same s s') : s.identifyReply = s'.identifyReply := by
  simp only [State.identifyReply, h.replyCommand, h.replyDrq, h.streamWords]

theorem Same.setgeomReply (h : Same s s') (heads spt : Byte) : s.setgeomReply heads spt = s'.setgeomReply heads spt := by
  simp only [State.setgeomReply, h.replyCommand, h.replyNoData, h.params]

theorem Same.flushReply (h : Same s s') : s.flushReply = s'.flushReply := by
  simp only [State.flushReply, h.replyCommand, h.replyNoData, h.params]

theorem Same.resetReply (h : Same s s') : s.resetReply = s'.resetReply := by
  simp only [State.resetReply, h.stream, h.params]

theorem Same.sectorWords (h : Same s s') : s.sectorWords = s'.sectorWords := by
  funext dir ws k
  simp only [State.sectorWords, h.streamWords, h.mem, h.bufSize, h.bufAddr]

theorem Same.replySectors (h : Same s s') (dir : Dir) (f : List Half → Nat → Reply) :
    ∀ (n : Nat) (ws : List Half) (k : Nat), s.replySectors dir f n ws k = s'.replySectors dir f n ws k
  | 0, ws, k => rfl
  | n + 1, ws, k => by
    simp only [State.replySectors, h.replyDrq, h.sectorWords, Same.replySectors h dir f n]

theorem Same.replyChunks (h : Same s s') (dir : Dir) (f : List Half → Nat → Reply) :
    ∀ (fuel remaining : Nat) (ws : List Half) (k : Nat),
      s.replyChunks dir f fuel remaining ws k = s'.replyChunks dir f fuel remaining ws k
  | 0, _, ws, k => rfl
  | fuel + 1, remaining, ws, k => by
    have hr : s.replyChunks dir f fuel = s'.replyChunks dir f fuel := by
      funext r ws k
      exact Same.replyChunks h dir f fuel r ws k
    simp only [State.replyChunks, h.replyCommand, h.addrMode, hr, h.replySectors dir]

theorem Same.replyFinal (h : Same s s') (dir : Dir) : s.replyFinal dir = s'.replyFinal dir := by
  funext ws k
  simp only [State.replyFinal, h.params, h.stream, h.transferResult]

theorem Same.transferReply (h : Same s s') (dir : Dir) : s.transferReply dir = s'.transferReply dir := by
  simp only [State.transferReply, h.valid, h.sectors, h.replyFinal, h.replyChunks dir]

theorem Same.chunkWrites (h : Same s s') (dir : Dir) :
    ∀ fuel remaining cur, s.chunkWrites dir fuel remaining cur = s'.chunkWrites dir fuel remaining cur
  | 0, _, _ => rfl
  | fuel + 1, remaining, cur => by
    simp only [State.chunkWrites, h.transferSeq, h.addrMode, Same.chunkWrites h dir fuel]

theorem Same.cycleBound (h : Same s s') (dir : Dir) : s.cycleBound dir = s'.cycleBound dir := by
  have hr : s.recoveryBound dir = s'.recoveryBound dir := by
    cases dir <;> simp only [State.recoveryBound, h.params]
  simp only [State.cycleBound, h.sectors, h.addrMode, h.params, hr]

end

end Sys2Proof.Machine
end

