-- ==== Sys2Proof/Laws/Timeless.lean ====
section
/-! SUPPORT. Pseudocode run from two states that differ at most in times: it takes the same turns, and makes the same accesses
(70 R255). -/

namespace Sys2Proof.Machine

/-- What is known equal of the loop registers of R34: remaining, cur, chunkDone, n, sector. -/
abbrev LoopView := Nat × Nat × Nat × Nat × Nat → List Nat

/-- Nothing is known of the loop registers. -/
def noLoop : LoopView := fun _ => []

/-- The registers of the chunk loop. -/
def chunkView : LoopView := fun l => [l.1, l.2.1, l.2.2.1]

/-- With the size of the chunk. -/
def sectorView : LoopView := fun l => [l.1, l.2.1, l.2.2.1, l.2.2.2.1]

/-- All of them. -/
def dataView : LoopView := fun l => [l.1, l.2.1, l.2.2.1, l.2.2.2.1, l.2.2.2.2]

/-- Two states of one operation, alike but for times: with the accesses since two earlier states equal, and the loop
registers that `v` sees. -/
structure Pair (v : LoopView) (b b' : List Event) (s s' : State) : Prop where
  calm : s.calm
  calm' : s'.calm
  answers : s.memoryAnswers = true
  answers' : s'.memoryAnswers = true
  raced : s.raced = []
  raced' : s'.raced = []
  alike : s.Alike s'
  loop : v s.eng.loop = v s'.eng.loop
  events : ∃ es es', s.engineEvents = es ++ b ∧ s'.engineEvents = es' ++ b' ∧
    es.filter Event.isAccess = es'.filter Event.isAccess

theorem Params.timeless_eq {p p' : Params} (h : p.timeless = p'.timeless) :
    p.bufAw = p'.bufAw ∧ p.budgetDrq = p'.budgetDrq ∧ p.budgetFinal = p'.budgetFinal ∧
      p.budgetRecover = p'.budgetRecover ∧ p.budgetPrecmd = p'.budgetPrecmd ∧ p.budgetNodata = p'.budgetNodata ∧
      p.budgetFlush = p'.budgetFlush ∧ p.budgetReset = p'.budgetReset ∧ p.precmdWait = p'.precmdWait ∧
      p.errMaskedByBsy = p'.errMaskedByBsy := by
  simp only [Params.timeless, Params.mk.injEq] at h
  simp only [h, and_self]

theorem memAfter_filter (size : Nat) : ∀ (es : List Event) (m : Memory),
    memAfter size (es.filter Event.isAccess) m = memAfter size es m
  | [], m => rfl
  | e :: es, m => by
    have ih := memAfter_filter size es m
    cases e <;> simp only [List.filter_cons, Event.isAccess, if_true, if_false, Bool.false_eq_true, memAfter, ih]

theorem statusFrom_filter (b : Byte) : ∀ es : List Event, statusFrom b (es.filter Event.isAccess) = statusFrom b es
  | [] => rfl
  | e :: es => by
    have ih := statusFrom_filter b es
    cases e <;> simp only [List.filter_cons, Event.isAccess, if_true, if_false, Bool.false_eq_true, statusFrom, ih]

section
variable {v : LoopView} {b b' : List Event} {s s' t t' : State}

theorem Pair.csr (h : Pair v b b' s s') {α : Type} (f : Csrs → α) (hf : ∀ c : Csrs, f c.kernel = f c) :
    f s.csr = f s'.csr := by
  rw [← hf s.csr, h.alike.kernel, hf]

theorem Pair.bufSize (h : Pair v b b' s s') : s.bufSize = s'.bufSize := by
  simp only [State.bufSize, (Params.timeless_eq h.alike.params).1]

theorem Pair.bufAddr (h : Pair v b b' s s') : s.bufAddr = s'.bufAddr := h.csr (fun c => c.argBuf.toNat) fun _ => rfl

/-- Both sides go on by events with equal accesses. -/
theorem Pair.progress {k k' : Nat} {es es' : List Event} (h : Pair v b b' s s') (a : Progress k es s t)
    (a' : Progress k' es' s' t') (hk : k = k') (he : es.filter Event.isAccess = es'.filter Event.isAccess)
    (hl : v t.eng.loop = v t'.eng.loop) : Pair v b b' t t' := by
  subst hk
  have hst : statusFrom s.csr.lastStatus es = statusFrom s'.csr.lastStatus es' := by
    rw [← statusFrom_filter _ es, ← statusFrom_filter _ es', he, h.csr (fun c => c.lastStatus) fun _ => rfl]
  obtain ⟨e1, e1', h1, h1', hf⟩ := h.events
  refine ⟨a.calm, a'.calm, a.answers h.answers, a'.answers h.answers', a.raced.trans h.raced, a'.raced.trans h.raced',
    ⟨by rw [a.params, a'.params]; exact h.alike.params, by rw [a.kernelEq, a'.kernelEq, h.alike.kernel, hst], ?_,
      fun j => by rw [a.stream, a'.stream]; exact h.alike.stream _⟩,
    hl, es ++ e1, es' ++ e1', by rw [a.events, h1, List.append_assoc], by rw [a'.events, h1', List.append_assoc],
    by rw [List.filter_append, List.filter_append, he, hf]⟩
  rw [a.mem, a'.mem, ← memAfter_filter _ es, ← memAfter_filter _ es', he, h.bufSize, h.alike.mem]

theorem Pair.adv {k k' : Nat} {es es' : List Event} (h : Pair v b b' s s') (a : Adv k es s t)
    (a' : Adv k' es' s' t') (hk : k = k') (he : es.filter Event.isAccess = es'.filter Event.isAccess) : Pair v b b' t t' :=
  h.progress a.toProgress a'.toProgress hk he (by rw [a.loop, a'.loop, h.loop])

end

theorem Pair.weaken {w : LoopView} {b b' : List Event} {s s' : State} {v : LoopView} (h : Pair v b b' s s')
    (hl : w s.eng.loop = w s'.eng.loop) : Pair w b b' s s' :=
  ⟨h.calm, h.calm', h.answers, h.answers', h.raced, h.raced', h.alike, hl, h.events⟩

/-- The two sides end alike: with the same value or the same error. -/
def Ends {α : Type} (v : LoopView) (b b' : List Event) : EStateM.Result Exit State α → EStateM.Result Exit State α → Prop
  | .ok x t, .ok x' t' => x = x' ∧ Pair v b b' t t'
  | .error (.raised e) t, .error (.raised e') t' => e = e' ∧ Pair noLoop b b' t t'
  | _, _ => False

/-- From every pair of states with `v` the two pieces of pseudocode end alike, with `w`. -/
def Agree {α : Type} (v w : LoopView) (x y : EngineM α) : Prop := ∀ b b' s s', Pair v b b' s s' → Ends w b b' (x s) (y s')

section
variable {α β : Type} {u v w : LoopView}

theorem Agree.pure (a : α) : Agree v v (pure a : EngineM α) (pure a) := fun _ _ _ _ h => ⟨rfl, h⟩

theorem Agree.raise (e : Err) : Agree v w (raise e : EngineM α) (raise e) := fun _ _ _ _ h => ⟨rfl, h.weaken rfl⟩

theorem Ends.bind {b b' : List Event} {s s' : State} {x y : EngineM α} {f g : α → EngineM β}
    (h : Ends v b b' (x s) (y s')) (hf : ∀ a, Agree v w (f a) (g a)) : Ends w b b' ((x >>= f) s) ((y >>= g) s') := by
  match hx : x s, hy : y s' with
  | .ok a t, .ok a' t' =>
    rw [hx, hy] at h
    obtain ⟨rfl, hp⟩ := h
    rw [bind_ok hx, bind_ok hy]
    exact hf a b b' t t' hp
  | .error (.raised e) t, .error (.raised e') t' =>
    rw [hx, hy] at h
    rw [bind_error hx, bind_error hy]
    exact h
  | .ok _ _, .error _ _ => rw [hx, hy] at h; exact h.elim
  | .error .halted _, .ok _ _ => rw [hx, hy] at h; exact h.elim
  | .error (.raised _) _, .ok _ _ => rw [hx, hy] at h; exact h.elim
  | .error .halted _, .error _ _ => rw [hx, hy] at h; exact h.elim
  | .error (.raised _) _, .error .halted _ => rw [hx, hy] at h; exact h.elim

theorem Agree.bind {x y : EngineM α} {f g : α → EngineM β} (h : Agree u v x y) (hf : ∀ a, Agree v w (f a) (g a)) :
    Agree u w (x >>= f) (y >>= g) := fun b b' s s' hp => (h b b' s s' hp).bind hf

/-- After `get` the two sides may use that their states are a pair. -/
theorem Agree.get {f g : State → EngineM β} (hf : ∀ b b' s s', Pair v b b' s s' → Ends w b b' (f s s) (g s' s')) :
    Agree v w (MonadState.get >>= f) (MonadState.get >>= g) := hf

/-- A smaller view of the loop registers afterwards. -/
theorem Agree.weaken {x y : EngineM α} (h : Agree u v x y) (hw : ∀ l l', v l = v l' → w l = w l') : Agree u w x y := by
  intro b b' s s' hp
  have h1 := h b b' s s' hp
  match hx : x s, hy : y s' with
  | .ok a t, .ok a' t' =>
    rw [hx, hy] at h1
    exact ⟨h1.1, h1.2.weaken (hw _ _ h1.2.loop)⟩
  | .error (.raised e) t, .error (.raised e') t' => rw [hx, hy] at h1; exact h1
  | .ok _ _, .error _ _ => rw [hx, hy] at h1; exact h1.elim
  | .error .halted _, .ok _ _ => rw [hx, hy] at h1; exact h1.elim
  | .error (.raised _) _, .ok _ _ => rw [hx, hy] at h1; exact h1.elim
  | .error .halted _, .error _ _ => rw [hx, hy] at h1; exact h1.elim
  | .error (.raised _) _, .error .halted _ => rw [hx, hy] at h1; exact h1.elim

theorem Agree.forRange {body : Nat → EngineM Unit} (h : ∀ i, Agree v v (body i) (body i)) :
    ∀ k i, Agree v v (forRange body k i) (forRange body k i)
  | 0, _ => Agree.pure ()
  | k + 1, i => (h i).bind fun _ => Agree.forRange h k (i + 1)

theorem Agree.onTimeout {x y h g : EngineM α} (hx : Agree v w x y) (hh : Agree noLoop w h g) : Agree v w (onTimeout x h) (onTimeout y g) := by
  intro b b' s s' hp
  have h1 := hx b b' s s' hp
  unfold Sys2Proof.Machine.onTimeout
  match hxs : x s, hys : y s' with
  | .ok a t, .ok a' t' => rw [hxs, hys] at h1; exact h1
  | .error (.raised e) t, .error (.raised e') t' =>
    rw [hxs, hys] at h1
    obtain ⟨rfl, hp'⟩ := h1
    cases e with
    | timeout => exact hh b b' t t' hp'
    | _ => exact ⟨rfl, hp'⟩
  | .ok _ _, .error _ _ => rw [hxs, hys] at h1; exact h1.elim
  | .error .halted _, .ok _ _ => rw [hxs, hys] at h1; exact h1.elim
  | .error (.raised _) _, .ok _ _ => rw [hxs, hys] at h1; exact h1.elim
  | .error .halted _, .error _ _ => rw [hxs, hys] at h1; exact h1.elim
  | .error (.raised _) _, .error .halted _ => rw [hxs, hys] at h1; exact h1.elim

end

/-! ## The shared operations -/

section
variable {q q' : LoopView}


/-- An engine update that turns what is known of the loop registers into what is known after it. -/
theorem Agree.setEngine {f g : Engine → Engine} (hf : ∀ e, (f e).phase = e.phase) (hg : ∀ e, (g e).phase = e.phase)
    (hl : ∀ e e' : Engine, q e.loop = q e'.loop → q' (f e).loop = q' (g e').loop) :
    Agree q q' (setEngine f) (setEngine g) :=
  fun b b' s s' h => by
    have hc : ∀ {u : State} {k : Engine → Engine}, u.calm → (k u.eng).phase = u.eng.phase →
        ({ u with eng := k u.eng } : State).calm := fun {u k} hu hp =>
      ⟨by have := hu.1; simp only [State.busy, hp] at this ⊢; exact this, hu.2⟩
    exact ⟨rfl, hc h.calm (hf _), hc h.calm' (hg _), h.answers, h.answers', h.raced, h.raced',
      ⟨h.alike.params, h.alike.kernel, h.alike.mem, fun j => h.alike.stream j⟩, hl _ _ h.loop, h.events⟩

theorem Agree.goto (p p' : Pos) : Agree q q (goto p) (goto p') :=
  Agree.setEngine (by intro _; rfl) (by intro _; rfl) (by intro _ _ h; exact h)

theorem Agree.idle (n n' : Nat) : Agree q q (idle n) (idle n') := fun b b' s s' h => by
  obtain ⟨t, e, a⟩ := idle_calm n h.calm
  obtain ⟨t', e', a'⟩ := idle_calm n' h.calm'
  rw [e, e']
  exact ⟨rfl, h.adv a a' rfl rfl⟩

theorem Agree.hold (n n' : Nat) : Agree q q (hold n) (hold n') := fun b b' s s' h => by
  obtain ⟨t, e, a, -⟩ := hold_calm n h.calm
  obtain ⟨t', e', a', -⟩ := hold_calm n' h.calm'
  rw [e, e']
  exact ⟨rfl, h.adv a a' rfl rfl⟩

theorem Agree.ideRead (reg : IdeReg) (kind : Kind) : Agree q q (ideRead reg kind) (ideRead reg kind) := fun b b' s s' h => by
  obtain ⟨t, e, a⟩ := ideRead_calm reg kind h.calm
  obtain ⟨t', e', a'⟩ := ideRead_calm reg kind h.calm'
  rw [e, e']
  exact ⟨h.alike.stream 0, h.adv a a' rfl (by rw [h.alike.stream 0])⟩

theorem Agree.ideWrite (reg : IdeReg) (v : Half) (kind : Kind) : Agree q q (ideWrite reg v kind) (ideWrite reg v kind) :=
  fun b b' s s' h => by
    obtain ⟨t, e, a⟩ := ideWrite_calm reg v kind h.calm
    obtain ⟨t', e', a'⟩ := ideWrite_calm reg v kind h.calm'
    rw [e, e']
    exact ⟨rfl, h.adv a a' rfl rfl⟩

theorem Agree.memRead (a : Nat) : Agree q q (memRead a) (memRead a) := fun b b' s s' h => by
  obtain ⟨t, e, ad⟩ := memRead_calm a h.calm h.answers h.raced
  obtain ⟨t', e', ad'⟩ := memRead_calm a h.calm' h.answers' h.raced'
  rw [e, e']
  have hv : s.mem.readHalf s.bufSize a = s'.mem.readHalf s'.bufSize a := by rw [h.alike.mem, h.bufSize]
  exact ⟨hv, h.adv ad ad' rfl (by rw [hv, h.bufSize])⟩

theorem Agree.memWrite (a : Nat) (v : Half) : Agree q q (memWrite a v) (memWrite a v) := fun b b' s s' h => by
  obtain ⟨t, e, ad⟩ := memWrite_calm a v h.calm h.answers
  obtain ⟨t', e', ad'⟩ := memWrite_calm a v h.calm' h.answers'
  rw [e, e']
  exact ⟨rfl, h.adv ad ad' rfl (by rw [h.bufSize])⟩

/-- An update of the registers that STATUS and CTRL do not enter. -/
theorem Agree.setCsr {f : Csrs → Csrs} (hf : ∀ c c' : Csrs, c.kernel = c'.kernel → (f c).kernel = (f c').kernel) :
    Agree q q (setCsr f) (setCsr f) := fun b b' s s' h =>
  ⟨rfl, h.calm, h.calm', h.answers, h.answers', h.raced, h.raced',
    ⟨h.alike.params, hf _ _ h.alike.kernel, h.alike.mem, fun j => h.alike.stream j⟩, h.loop, h.events⟩

theorem Agree.poll (verdict : Byte → Verdict) : ∀ n, Agree q q (poll verdict n) (poll verdict n)
  | 0 => Agree.raise _
  | n + 1 => (Agree.setEngine (by intro _; rfl) (by intro _; rfl) (by intro _ _ h; exact h)).bind fun _ =>
    ((Agree.ideRead 7 .reg).bind fun v => Agree.pure _).bind fun st => by
      cases verdict st with
      | ready => exact Agree.pure _
      | failed => exact Agree.raise _
      | again =>
        by_cases hn : n = 0
        · subst hn
          exact Agree.poll verdict 0
        · simp only [ne_eq, hn, not_false_eq_true, if_true]
          exact Agree.get fun b b' s s' h => (Agree.idle _ _ b b' s s' h).bind fun _ => Agree.poll verdict n

theorem Agree.waitDrq : Agree q q waitDrq waitDrq :=
  (Agree.goto _ _).bind fun _ => Agree.get fun b b' s s' h => by
    have hp := Params.timeless_eq h.alike.params
    rw [hp.2.1, hp.2.2.2.2.2.2.2.2.2]
    exact Agree.poll _ _ b b' s s' h

theorem Agree.writeSeq : ∀ seq, Agree q q (writeSeq seq) (writeSeq seq)
  | [] => Agree.pure ()
  | (r, v) :: rest => (Agree.ideWrite r _ .reg).bind fun _ => Agree.writeSeq rest

theorem Agree.issueCommandNoWait (seq : List SeqEntry) : Agree q q (issueCommandNoWait seq) (issueCommandNoWait seq) :=
  (Agree.writeSeq seq).bind fun _ => (Agree.goto _ _).bind fun _ => Agree.get fun b b' s s' h => Agree.idle _ _ b b' s s' h

theorem Agree.issueCommand (seq : List SeqEntry) : Agree q q (issueCommand seq) (issueCommand seq) :=
  Agree.get fun b b' s s' h => by
    have hp := Params.timeless_eq h.alike.params
    rw [hp.2.2.2.2.1, hp.2.2.2.2.2.2.2.2.1]
    by_cases hw : s'.params.precmdWait = true
    · simp only [hw, if_true]
      exact ((Agree.goto _ _).bind fun _ => (Agree.poll notBusyVerdict _).bind fun _ => (Agree.goto _ _).bind fun _ =>
        Agree.issueCommandNoWait seq) b b' s s' h
    · simp only [hw]
      exact ((Agree.goto _ _).bind fun _ => Agree.issueCommandNoWait seq) b b' s s' h

theorem Agree.check (st : Byte) : Agree q q (if err st then Machine.raise .deviceError else Pure.pure () : EngineM Unit)
    (if err st then Machine.raise .deviceError else Pure.pure ()) := by
  split
  · exact Agree.raise _
  · exact Agree.pure _

theorem Agree.completeNoData (n : Nat) : Agree q q (completeNoData n) (completeNoData n) :=
  (Agree.goto _ _).bind fun _ => (Agree.poll notBusyVerdict n).bind fun st => Agree.check st

/-! ## The operations -/

theorem Pair.transferSeq {b b' : List Event} {s s' : State} (h : Pair q b b' s s') (dir : Dir) (lba n : Nat) :
    s.transferSeq dir lba n = s'.transferSeq dir lba n ∧ s.addrMode = s'.addrMode := by
  have h1 : s.addrMode = s'.addrMode :=
    h.csr (fun c => if c.useLba then (if c.lba48Sup then AddrMode.lba48 else .lba28) else .chs) fun _ => rfl
  have h2 := h.csr (fun c => c.geomHeads) fun _ => rfl
  have h3 := h.csr (fun c => c.geomSpt) fun _ => rfl
  exact ⟨by simp only [State.transferSeq, h1, h2, h3], h1⟩

theorem Pair.plainHead {b b' : List Event} {s s' : State} (h : Pair q b b' s s') : s.plainHead = s'.plainHead :=
  h.csr (fun c => if c.useLba then 0xE0 else 0xA0) fun _ => rfl

theorem Pair.flushSeq {b b' : List Event} {s s' : State} (h : Pair q b b' s s') : s.flushSeq = s'.flushSeq := by
  simp only [State.flushSeq, h.plainHead, (h.transferSeq .read 0 0).2]

theorem Agree.sectorStep (dir : Dir) (i : Nat) : Agree sectorView sectorView (sectorStep dir i) (sectorStep dir i) := by
  refine Agree.bind (v := dataView) (Agree.setEngine (by intro _; rfl) (by intro _; rfl) fun e e' h => ?_) fun _ =>
    Agree.waitDrq.bind fun _ => Agree.get fun b b' s s' h => ?_
  · simp only [sectorView, dataView, Engine.loop, List.cons.injEq, and_true] at h ⊢
    exact h
  · have hl := h.loop
    simp only [dataView, Engine.loop, List.cons.injEq] at hl
    rw [h.bufAddr, hl.2.2.1, hl.2.2.2.2.1]
    refine (Agree.weaken (v := dataView) (Agree.bind (Agree.goto _ _) fun _ => ?_) fun l l' h => ?_) b b' s s' h
    · cases dir with
      | read =>
        exact Agree.forRange (fun w => Agree.bind (Agree.setEngine (by intro _; rfl) (by intro _; rfl)
          (by intro _ _ h; exact h)) fun _ => (Agree.ideRead 0 .word).bind fun v => Agree.memWrite _ v) _ _
      | write =>
        exact Agree.forRange (fun w => Agree.bind (Agree.setEngine (by intro _; rfl) (by intro _; rfl)
          (by intro _ _ h; exact h)) fun _ => (Agree.memRead _).bind fun v => Agree.ideWrite 0 v .word) _ _
    · simp only [sectorView, dataView, List.cons.injEq] at h ⊢
      exact ⟨h.1, h.2.1, h.2.2.1, h.2.2.2.1, trivial⟩

theorem Agree.chunkStep (dir : Dir) : Agree chunkView chunkView (chunkStep dir) (chunkStep dir) :=
  Agree.get fun b b' s s' h => by
    have hl := h.loop
    simp only [chunkView, Engine.loop, List.cons.injEq] at hl
    rw [(h.transferSeq dir _ _).1, (h.transferSeq dir 0 0).2, hl.1, hl.2.1]
    refine Ends.bind (v := sectorView) (Agree.setEngine (by intro _; rfl) (by intro _; rfl) (fun e e' h => ?_) b b' s s' h)
      fun _ => (Agree.issueCommand _).bind fun _ => (Agree.forRange (Agree.sectorStep dir) _ _).bind fun _ =>
        Agree.setEngine (by intro _; rfl) (by intro _; rfl) fun e e' h => ?_
    · simp only [chunkView, sectorView, Engine.loop, List.cons.injEq, and_true] at h ⊢
      exact h
    · simp only [chunkView, sectorView, Engine.loop, List.cons.injEq] at h ⊢
      simp [h]

theorem Agree.chunkLoop (dir : Dir) : ∀ n, Agree chunkView chunkView (chunkLoop dir n) (chunkLoop dir n)
  | 0 => Agree.pure ()
  | n + 1 => Agree.get fun b b' s s' h => by
    have hl := h.loop
    simp only [chunkView, Engine.loop, List.cons.injEq] at hl
    rw [hl.1]
    split
    · exact Ends.bind (Agree.chunkStep dir b b' s s' h) fun _ => Agree.chunkLoop dir n
    · exact Agree.pure _ b b' s s' h

theorem Agree.transfer (dir : Dir) : Agree noLoop noLoop (transfer dir) (transfer dir) :=
  Agree.get fun b b' s s' h => by
    have h1 : s.sectors = s'.sectors := h.csr (fun c => c.argCount.toNat) fun _ => rfl
    have h2 : s.lba = s'.lba := h.csr (fun c => c.argLba.toNat) fun _ => rfl
    rw [h1, h2]
    exact Ends.bind (v := chunkView) (Agree.setEngine (by intro _; rfl) (by intro _; rfl) (by intro _ _ _; rfl) b b' s s' h)
      fun _ => (Agree.chunkLoop dir _).weaken fun _ _ _ => rfl

theorem Agree.finalWait (dir : Dir) : Agree noLoop noLoop (finalWait dir) (finalWait dir) := by
  refine (Agree.goto _ _).bind fun _ => Agree.get fun b b' s s' h => ?_
  rw [(Params.timeless_eq h.alike.params).2.2.1]
  refine Ends.bind (Agree.onTimeout (Agree.poll notBusyVerdict _) ?_ b b' s s' h) fun st => Agree.check st
  cases dir with
  | read => exact Agree.raise _
  | write =>
    exact (Agree.goto _ _).bind fun _ => Agree.get fun b b' s s' h => by
      rw [h.flushSeq]
      exact Ends.bind (Agree.issueCommandNoWait _ b b' s s' h) fun _ => (Agree.goto _ _).bind fun _ =>
        Agree.get fun b b' s s' h => by
          rw [(Params.timeless_eq h.alike.params).2.2.2.1]
          exact Agree.poll notBusyVerdict _ b b' s s' h

theorem Agree.transferTail (dir : Dir) : Agree noLoop noLoop (transferTail dir) (transferTail dir) :=
  (Agree.transfer dir).bind fun _ => (Agree.finalWait dir).bind fun _ => Agree.get fun b b' s s' h => by
    have : s.transferResult = s'.transferResult :=
      h.csr (fun c => BitVec.ofNat 32 (c.argCount.toNat * sectorBytes)) fun _ => rfl
    rw [this]
    exact Agree.pure _ b b' s s' h

theorem Pair.valid {b b' : List Event} {s s' : State} (h : Pair q b b' s s') (dir : Dir) : s.valid dir = s'.valid dir := by
  have h1 := (h.transferSeq dir 0 0).2
  have h2 : s.sectors = s'.sectors := h.csr (fun c => c.argCount.toNat) fun _ => rfl
  have h3 : s.lba = s'.lba := h.csr (fun c => c.argLba.toNat) fun _ => rfl
  have h4 : s.capacity = s'.capacity := h.csr (fun c => if c.useLba then c.totalLba.toNat
    else c.geomCyl.toNat * c.geomHeads.toNat * c.geomSpt.toNat) fun _ => rfl
  have h5 : s.csr.wp = s'.csr.wp := h.csr (fun c => c.wp) fun _ => rfl
  have h6 : s.csr.geomHeads = s'.csr.geomHeads := h.csr (fun c => c.geomHeads) fun _ => rfl
  simp only [State.valid, State.withinModeLimits, h1, h2, h3, h4, h5, h6]

theorem Agree.invalidate : Agree q q invalidate invalidate := fun b b' s s' h => by
  obtain ⟨t, e, a⟩ := invalidate_calm h.calm
  obtain ⟨t', e', a'⟩ := invalidate_calm h.calm'
  rw [e, e']
  exact ⟨rfl, h.adv a a' rfl (by
    rw [h.csr (fun c => c.argLba) fun _ => rfl, h.csr (fun c => c.argCount) fun _ => rfl])⟩

theorem Agree.copyIdWord (i : Nat) : Agree q q (copyIdWord i) (copyIdWord i) :=
  Agree.bind (Agree.setEngine (by intro _; rfl) (by intro _; rfl) (by intro _ _ h; exact h)) fun _ => Agree.get fun b b' s s' h => by
    rw [h.bufAddr, h.csr (fun c => c.idbuf) fun _ => rfl]
    exact Agree.memWrite _ _ b b' s s' h

end

/-- The pseudocode of every operation ends alike from two states that differ in times. -/
theorem body_agree (i : Instr) : Agree noLoop noLoop (bodyOf i) (bodyOf i) := by
  cases i with
  | regRd8 reg => exact (Agree.goto _ _).bind fun _ => (Agree.ideRead _ _).bind fun _ => Agree.pure _
  | regWr8 reg val => exact (Agree.goto _ _).bind fun _ => (Agree.ideWrite _ _ _).bind fun _ => Agree.pure _
  | regRd16 reg => exact (Agree.goto _ _).bind fun _ => (Agree.ideRead _ _).bind fun _ => Agree.pure _
  | identify =>
    refine (Agree.setCsr fun c c' h => ?_).bind fun _ => Agree.get fun b b' s s' h => ?_
    · simp only [Csrs.kernel, Csrs.mk.injEq] at h ⊢
      simp [h]
    · have hs : s.identifySeq = s'.identifySeq := by simp only [State.identifySeq, h.plainHead]
      rw [hs]
      refine Ends.bind (Agree.issueCommand _ b b' s s' h) fun _ => Agree.waitDrq.bind fun _ => (Agree.goto _ _).bind fun _ =>
        (Agree.forRange (fun i => Agree.bind (Agree.setEngine (by intro _; rfl) (by intro _; rfl) (by intro _ _ h; exact h)) fun _ =>
          (Agree.ideRead 0 .word).bind fun v => Agree.setCsr fun c c' h => ?_) _ _).bind fun _ =>
        (Agree.setCsr fun c c' h => ?_).bind fun _ => Agree.pure _
      · simp only [Csrs.kernel, Csrs.mk.injEq] at h ⊢
        simp [h]
      · simp only [Csrs.kernel, Csrs.mk.injEq] at h ⊢
        simp [h]
  | read =>
    intro b b' s s' h
    cases hv : s.valid .read with
    | true =>
      have hv' : s'.valid .read = true := (h.valid .read).symm.trans hv
      show Ends noLoop b b' (bodyRead s) (bodyRead s')
      rw [bodyRead_eq hv, bodyRead_eq hv']
      exact Agree.transferTail .read b b' s s' h
    | false =>
      have hv' : s'.valid .read = false := (h.valid .read).symm.trans hv
      show Ends noLoop b b' (bodyRead s) (bodyRead s')
      rw [bodyRead_invalid hv, bodyRead_invalid hv']
      exact ⟨rfl, h⟩
  | write =>
    intro b b' s s' h
    cases hv : s.valid .write with
    | true =>
      have hv' : s'.valid .write = true := (h.valid .write).symm.trans hv
      obtain ⟨t, e, a⟩ := bodyWrite_run h.calm hv
      obtain ⟨t', e', a'⟩ := bodyWrite_run h.calm' hv'
      show Ends noLoop b b' (bodyWrite s) (bodyWrite s')
      rw [e, e']
      exact Agree.transferTail .write b b' t t' (h.adv a a' rfl (by
        rw [h.csr (fun c => c.argLba) fun _ => rfl, h.csr (fun c => c.argCount) fun _ => rfl]))
    | false =>
      have hv' : s'.valid .write = false := (h.valid .write).symm.trans hv
      show Ends noLoop b b' (bodyWrite s) (bodyWrite s')
      rw [bodyWrite_invalid hv, bodyWrite_invalid hv']
      exact ⟨rfl, h⟩
  | setgeom heads spt =>
    show Agree noLoop noLoop (bodySetgeom heads spt) (bodySetgeom heads spt)
    unfold bodySetgeom
    by_cases hl : geometryLegal heads spt = true
    · simp only [hl, Bool.not_true, Bool.false_eq_true, if_false]
      refine (Agree.issueCommand _).bind fun _ => Agree.get fun b b' s s' h => ?_
      rw [(Params.timeless_eq h.alike.params).2.2.2.2.2.1]
      refine Ends.bind (Agree.completeNoData _ b b' s s' h) fun _ => (Agree.setCsr fun c c' h => ?_).bind fun _ =>
        Agree.pure _
      simp only [Csrs.kernel, Csrs.mk.injEq] at h ⊢
      simp [h]
    · simp only [hl, Bool.not_false, if_true]
      exact fun b b' s s' h => ⟨rfl, h⟩
  | flushDev =>
    refine Agree.get fun b b' s s' h => ?_
    rw [h.flushSeq]
    refine Ends.bind (Agree.issueCommand _ b b' s s' h) fun _ => Agree.get fun b b' s s' h => ?_
    rw [(Params.timeless_eq h.alike.params).2.2.2.2.2.2.1]
    exact Ends.bind (Agree.completeNoData _ b b' s s' h) fun _ => Agree.pure _
  | reset =>
    refine Agree.bind (v := noLoop) (fun b b' s s' h => ?_) fun _ => (Agree.goto _ _).bind fun _ => Agree.get fun b b' s s' h =>
      Ends.bind (Agree.idle _ _ b b' s s' h) fun _ => (Agree.goto _ _).bind fun _ => Agree.get fun b b' s s' h => ?_
    · obtain ⟨t, e, a⟩ := resetPulse_calm h.calm
      obtain ⟨t', e', a'⟩ := resetPulse_calm h.calm'
      rw [e, e']
      exact ⟨rfl, h.adv a a' rfl rfl⟩
    · rw [(Params.timeless_eq h.alike.params).2.2.2.2.2.2.2.1]
      exact Ends.bind (Agree.poll notBusyVerdict _ b b' s s' h) fun _ => Agree.pure _
  | getid =>
    intro b b' s s' h
    have hid : s.csr.idValid = s'.csr.idValid := h.csr (fun c => c.idValid) fun _ => rfl
    cases hv : s.csr.idValid with
    | false =>
      show Ends noLoop b b' (bodyGetid s) (bodyGetid s')
      rw [bodyGetid_noData hv, bodyGetid_noData (hid.symm.trans hv)]
      exact ⟨rfl, h⟩
    | true =>
      have hv' := hid.symm.trans hv
      show Ends noLoop b b' (bodyGetid s) (bodyGetid s')
      simp only [bodyGetid, Sys2Proof.Machine.get_bind, hv, hv', Bool.not_true, Bool.false_eq_true, if_false]
      exact ((Agree.goto _ _).bind fun _ => (Agree.forRange Agree.copyIdWord _ _).bind fun _ => Agree.pure _) b b' s s' h

end Sys2Proof.Machine
end

