-- ==== Sys2Proof/Tests/Slice0.lean ====
section
/-! SUPPORT. Tests with expected results from spec/95_test_vectors.md, the WellFormed smoke test, and a witness for the
hypotheses of each statement. -/

namespace Sys2Proof.Machine.Tests

-- One theorem at a time: the kernel evaluations below would otherwise each hold a thread.
set_option Elab.async false

/-! ## Small states -/

/-- The shortest bus phases. -/
def shortTimes : CycleTimes := { tAS := 1, tPW := 1, tDH := 1, tREC := 1 }

/-- The budgets of 95 "Conventions", and the shortest times. -/
def testParams : Params :=
  { bufAw := 20, regFast := shortTimes, regCompat := shortTimes, wordFast := shortTimes, wordCompat := shortTimes,
    tCmdSettle := 1, tPollGap := 1, tRstPw := 2, tRstSettle := 1, budgetDrq := 4, budgetFinal := 3, budgetRecover := 3,
    budgetPrecmd := 2, budgetNodata := 3, budgetFlush := 3, budgetReset := 4, precmdWait := true, errMaskedByBsy := false,
    startLatency := 0, finishLatency := 0, bufWait := some 0, csrBase := 0x40000000 }

/-- The state after reset with those parameters. -/
def blank : State := { State.reset with params := testParams }

/-- The §8 geometry (100, 4, 63), with a script of the Device. -/
def chs (script : List Half) : State :=
  { blank with csr := { blank.csr with geomCyl := 100, geomHeads := 4, geomSpt := 63 }, device := script }

/-- The same, for a transfer of `n` sectors at `lba` with BUF address `buf`. -/
def chsAt (lba : Quad) (n : Word) (buf : Quad) (script : List Half) : State :=
  { chs script with csr := { (chs script).csr with argLba := lba, argCount := n, argBuf := buf } }

/-- LBA mode with a capacity; LBA48 when the flag is set. -/
def lbaAt (lba48 : Bool) (total lba : Quad) (n : Word) : State :=
  { blank with
    csr := { blank.csr with mode := if lba48 then 3 else 1, totalLba := total, argLba := lba, argCount := n } }

/-- An address as the table of 95 §2.3 lists it: cylinder, head, sector. -/
def tableRow (heads spt lba : Nat) : Nat × Nat × Nat :=
  ((chsOf heads spt lba).cylinder, (chsOf heads spt lba).head, (chsOf heads spt lba).sector)

/-- The state that an outcome holds. -/
def after (o : Host.Outcome State Fault Refusal) : State :=
  match o with
  | .next t => t
  | .fault _ => blank
  | .refused _ => blank

/-- The bus events of an outcome, oldest first: task-file reads and writes, and the pulses. -/
def busTrace (t : State) : List Event :=
  t.trace.reverse.filter fun e =>
    match e with
    | .ideRead _ _ _ | .ideWrite _ _ _ | .resetPulse | .invalidate _ _ => true
    | _ => false

/-- The latest write on the BUF port. -/
def lastBufWrite (t : State) : Option Event :=
  t.trace.find? fun e =>
    match e with
    | .bufWrite _ _ => true
    | _ => false

/-- The state while the engine executes. -/
def busyState : State := { chs [] with eng := { blank.eng with phase := .executing } }

/-! ## WellFormed: the operand ranges of 30 R84 -/

theorem test_wellFormed_refuses_regRd8_8 : ¬(Instr.regRd8 8).WellFormed := by decide
theorem test_wellFormed_refuses_regWr8_8 : ¬(Instr.regWr8 8 0).WellFormed := by decide
theorem test_wellFormed_refuses_regRd16_8 : ¬(Instr.regRd16 8).WellFormed := by decide
theorem test_wellFormed_accepts_reg_7 :
    (Instr.regRd8 7).WellFormed ∧ (Instr.regWr8 7 0xFF).WellFormed ∧ (Instr.regRd16 7).WellFormed := by decide

/-! ## Decoding: 95 §2.1, words written out from 30 R80, R81 (R1 VAL2 VAL R0 REG OP) -/

theorem test_decode_regRd8 : decode 0b00000000_00000000_00000000_0_111_0001#32 = .ok (.regRd8 7) := by decide
theorem test_decode_regWr8 : decode 0b00000000_00000000_01011010_0_010_0010#32 = .ok (.regWr8 2 0x5A) := by decide
theorem test_decode_regWr8_6 : decode 0x0000E062 = .ok (.regWr8 6 0xE0) := by decide
theorem test_decode_regRd16 : decode 0b00000000_00000000_00000000_0_111_0011#32 = .ok (.regRd16 7) := by decide
theorem test_decode_identify : decode 0b00000000_00000000_00000000_0_000_0100#32 = .ok .identify := by decide
theorem test_decode_read : decode 0b00000000_00000000_00000000_0_000_0101#32 = .ok .read := by decide
theorem test_decode_write : decode 0b00000000_00000000_00000000_0_000_0110#32 = .ok .write := by decide
theorem test_decode_setgeom : decode 0b00000000_00111111_00010000_0_000_0111#32 = .ok (.setgeom 16 63) := by decide
theorem test_decode_setgeom_0 : decode 0x003F0007 = .ok (.setgeom 0 63) := by decide
theorem test_decode_flushDev : decode 0b00000000_00000000_00000000_0_000_1000#32 = .ok .flushDev := by decide
theorem test_decode_reset : decode 0b00000000_00000000_00000000_0_000_1001#32 = .ok .reset := by decide
theorem test_decode_getid : decode 0b00000000_00000000_00000000_0_000_1010#32 = .ok .getid := by decide

/-- E1, E18. -/
theorem test_decode_reserved :
    [0x0#32, 0xB, 0xC, 0xD, 0xE, 0xF].all (fun w => decide (decode w = .error .reservedOp)) = true := by decide

/-- E3, E4, E7, E8, E11, E13, E15, E19. -/
theorem test_decode_nonzero_field :
    [0xF1#32, 0x171, 0x15A22, 0x80005A22, 0x14, 0x105, 0x3F1017, 0x19].all
      (fun w => decide (decode w = .error .nonzeroField)) = true := by decide

theorem test_decodeTableWord :
    decodeTableWord 32 0x5A22 = some (.regWr8 2 0x5A) ∧ decodeTableWord 32 0xF1 = none := by decide

/-! ## CHS translation and command sequences: 95 §2.3, §2.4 -/

/-- H1 to H7. -/
theorem test_chs_1024_16_63 :
    [0, 62, 63, 1007, 1008, 302400, 256].map (tableRow 16 63) =
      [⟨0, 0, 1⟩, ⟨0, 0, 63⟩, ⟨0, 1, 1⟩, ⟨0, 15, 63⟩, ⟨1, 0, 1⟩, ⟨300, 0, 1⟩, ⟨0, 4, 5⟩] := by decide

/-- H8, H9. -/
theorem test_chs_100_4_63 : [252, 25199].map (tableRow 4 63) = [⟨1, 0, 1⟩, ⟨99, 3, 63⟩] := by decide

/-- Q1. -/
theorem test_seq_q1 :
    (chs []).transferSeq .read 252 1 = [(6, 0xA0), (2, 0x01), (3, 0x01), (4, 0x01), (5, 0x00), (7, 0x20)] := by decide

/-- Q2. -/
theorem test_seq_q2 :
    seqChs 16 63 .write 0 256 = [(6, 0xA0), (2, 0x00), (3, 0x01), (4, 0x00), (5, 0x00), (7, 0x30)] := by decide

/-- Q3, Q4. -/
theorem test_seq_lba28 :
    seqLba28 .read 0x01234567 256 = [(6, 0xE1), (2, 0x00), (3, 0x67), (4, 0x45), (5, 0x23), (7, 0x20)] ∧
    seqLba28 .write 0x0FFFFFFF 1 = [(6, 0xEF), (2, 0x01), (3, 0xFF), (4, 0xFF), (5, 0xFF), (7, 0x30)] := by decide

/-- Q5. -/
theorem test_seq_q5 :
    seqLba48 .read 0x123456789ABC 300 =
      [(6, 0xE0), (2, 0x01), (3, 0x56), (4, 0x34), (5, 0x12), (2, 0x2C), (3, 0xBC), (4, 0x9A), (5, 0x78), (7, 0x24)] := by
  decide

/-- Q6. -/
theorem test_seq_q6 :
    seqLba48 .write 0 65536 =
      [(6, 0xE0), (2, 0), (3, 0), (4, 0), (5, 0), (2, 0), (3, 0), (4, 0), (5, 0), (7, 0x34)] := by decide

/-! ## Validation: 95 §2.5 -/

/-- V1 to V7. -/
theorem test_validate_chs :
    [((0 : Quad), (0 : Word)), (25199, 1), (25200, 1), (25199, 2), (0, 25200), (0, 25201), (-1, 1)].map
      (fun p => (chsAt p.1 p.2 0 []).valid .read) = [false, true, false, false, true, false, false] := by decide

/-- V8. -/
theorem test_validate_write_protect :
    let s : State := { chsAt 0 1 0 [] with csr := { (chsAt 0 1 0 []).csr with mode := 4 } }
    s.valid .write = false ∧ s.valid .read = true := by decide

/-- V9 to V11. -/
theorem test_validate_heads :
    [((10 : Half), (17 : Byte), (63 : Byte), (0 : Quad)), (10, 16, 63, 10079), (100, 4, 0, 0)].map (fun g =>
      ({ chsAt g.2.2.2 1 0 [] with
        csr := { (chsAt g.2.2.2 1 0 []).csr with geomCyl := g.1, geomHeads := g.2.1, geomSpt := g.2.2.1 } } : State).valid
        .read) = [false, true, false] := by decide

/-- V12 to V15, V20. -/
theorem test_validate_lba28 :
    [lbaAt false 0 0 1, lbaAt false 0x40000000 0x0FFFFFFF 1, lbaAt false 0x40000000 0x0FFFFFFF 2,
      lbaAt false 0x40000000 0x10000000 1, lbaAt false 1000 999 1].map (State.valid · .read) =
      [false, true, false, false, true] := by decide

/-- V16 to V19. -/
theorem test_validate_lba48 :
    [lbaAt true 0x4000000000000 0xFFFFFFFFFFFF 1, lbaAt true 0x4000000000000 0x1000000000000 1,
      lbaAt true 0x10000000000 0 0x00400000, lbaAt true 0x10000000000 0 0x003FFFFF].map (State.valid · .read) =
      [true, false, false, true] := by decide

/-- V19: the success value. -/
theorem test_largest_result : (lbaAt true 0x10000000000 0 0x003FFFFF).transferResult = 0x7FFFFE00 := by decide

/-- X1: the chunks of 600 sectors in LBA28. -/
theorem test_chunks_x1 :
    ((lbaAt false 1000 0 600).chunkWrites .read 600 600 0).filter (fun p => p.1 == 2) = [(2, 0), (2, 0), (2, 0x58)] := by
  decide +kernel

/-! ## Polling: 95 §2.7 -/

/-- W1 to W9. -/
theorem test_waitDrq :
    [[(0x58 : Half)], [0x80, 0x80, 0x58], [0x08], [0x88, 0x58], [0x51], [0x59], [0x81], [0xFF],
      [0x50, 0x50, 0x50, 0x50]].map (fun l => (chs l).replyDrq [] 0 fun k => { code := 0, used := k, words := [] }) =
      [⟨0, 1, []⟩, ⟨0, 3, []⟩, ⟨0, 1, []⟩, ⟨0, 2, []⟩, ⟨-2, 1, []⟩, ⟨-2, 1, []⟩, ⟨-2, 1, []⟩, ⟨-2, 1, []⟩,
        ⟨-3, 4, []⟩] := by decide +kernel

/-! ## BUF bytes and CSR bits: 95 §2.8, §2.11 -/

/-- D1. -/
theorem test_buf_write_low_first :
    (Memory.writeHalf [] (2 ^ 20) 0x10 0x1234).read 0x10 = 0x34 ∧
      (Memory.writeHalf [] (2 ^ 20) 0x10 0x1234).read 0x11 = 0x12 := by decide

/-- D2. -/
theorem test_buf_read_low_first :
    ((Memory.write [] 0x10 0x01).write 0x11 0x02).readHalf (2 ^ 20) 0x10 = 0x0201 := by decide

/-- D5: the address wraps at 2^BUF_AW. -/
theorem test_buf_wrap : (Memory.writeHalf [] (2 ^ 16) 0x10000 0x1234).read 0 = 0x34 := by decide

/-- D4. -/
theorem test_argBuf_hardwired :
    ((chs []).writeCsr .argBufLo 0x00001001).readCsr .argBufLo = 0x00001000 := by decide +kernel

/-- K1 to K4. -/
theorem test_busy_writes :
    (busyState.writeCsr .cmd 6).csr.cmdOvr = true ∧ (busyState.writeCsr .argCount 5).csr.cfgDrop = true ∧
    (busyState.writeCsr .argCount 5).csr.argCount = 0 ∧ (busyState.writeCsr .ctrl 1).csr.ie = true := by decide

/-- K5 to K8, K10. -/
theorem test_status_bits :
    let s : State := { blank with csr := { blank.csr with done := true, ie := true, cmdOvr := true, cfgDrop := true } }
    s.readCsr .status = 0xE ∧ s.irq = true ∧ (s.writeCsr .status 2).readCsr .status = 0xC ∧
    (s.writeCsr .status 2).irq = false ∧ (s.writeCsr .status 0xC).readCsr .status = 2 ∧ s.writeCsr .status 1 = s ∧
    s.readCsr .cmd = 0 ∧ s.readOffset 0x44 = 0 ∧ s.readOffset 0xFC = 0 := by
  refine ⟨?_, ?_, ?_, ?_, ?_, rfl, rfl, rfl, rfl⟩ <;> decide

/-! ## Operations, one step each -/

/-- B1. -/
theorem test_regRd8_7 :
    let t := after (step ((chs [0x12D0]).withFetchWord 32 0x71))
    t.csr.result = 0xD0 ∧ t.csr.lastStatus = 0xD0 ∧ t.readCsr .status = 2 := by decide +kernel

/-- B2. -/
theorem test_regRd8_1 :
    let t := after (exec (.regRd8 1) (chs [0x0004]))
    t.csr.result = 4 ∧ t.csr.lastStatus = 0 := by decide +kernel

/-- B5. -/
theorem test_regWr8_6 :
    let t := after (step ((chs []).withFetchWord 32 0xE062))
    busTrace t = [.ideWrite 6 .reg 0x00E0] ∧ t.csr.result = 0 := by decide +kernel

/-- B3: register 0 with REG timing. -/
theorem test_regRd16_0 :
    let t := after (exec (.regRd16 0) (chs [0xBEEF]))
    busTrace t = [.ideRead 0 .reg 0xBEEF] ∧ t.csr.result = 0xBEEF := by decide +kernel

/-- B4. -/
theorem test_regRd16_7 :
    let t := after (exec (.regRd16 7) (chs [0xFF51]))
    t.csr.result = 0xFF51 ∧ t.csr.lastStatus = 0x51 := by decide +kernel

/-- B8: the read bus cycle of 2 + 6 + 1 + 3 clock cycles. -/
theorem test_read_waveform :
    let times : CycleTimes := { tAS := 2, tPW := 6, tDH := 1, tREC := 3 }
    let s : State := { chs [0x50] with params := { testParams with regFast := times } }
    let t := after (exec (.regRd8 7) s)
    (t.wave.reverse.map fun p => (p.ide.cs0N, p.ide.diorN)).take 12 =
      List.replicate 2 (false, true) ++ List.replicate 6 (false, false) ++ [(false, true)] ++
        List.replicate 3 (true, true) := by decide +kernel

/-- N2. -/
theorem test_identify :
    let t := after (exec .identify (chs ([0x50, 0x80, 0x58] ++ List.replicate 255 0x0040 ++ [0x1234])))
    t.csr.result = 0 ∧ t.csr.idValid = true ∧ t.csr.idbuf.toList = List.replicate 255 0x0040 ++ [0x1234] := by
  decide +kernel

/-- N3. -/
theorem test_identify_error :
    let s : State := { chs [0x50, 0x51] with csr := { blank.csr with idValid := true, mode := 1 } }
    let t := after (exec .identify s)
    t.csr.result = -2 ∧ t.csr.idValid = false ∧
      busTrace t = [.ideRead 7 .reg 0x50, .ideWrite 6 .reg 0xE0, .ideWrite 7 .reg 0xEC, .ideRead 7 .reg 0x51] := by
  decide +kernel

/-- N1. -/
theorem test_getid_no_data : (after (exec .getid (chs []))).csr.result = -6 := by decide +kernel

/-- N17. -/
theorem test_getid :
    let s : State :=
      { chs [] with csr := { blank.csr with idValid := true, idbuf := Vector.replicate 256 0x0040, argBuf := 0x1000 } }
    let t := after (exec .getid s)
    t.csr.result = 512 ∧ t.mem.read 0x1000 = 0x40 ∧ lastBufWrite t = some (.bufWrite 0x11FE 0x0040) := by
  decide +kernel

/-- N7. -/
theorem test_setgeom :
    let t := after (exec (.setgeom 16 63) (chs [0x50, 0x50]))
    t.csr.result = 0 ∧ t.csr.geomHeads = 16 ∧ t.csr.geomSpt = 63 ∧
      busTrace t = [.ideRead 7 .reg 0x50, .ideWrite 6 .reg 0xAF, .ideWrite 2 .reg 0x3F, .ideWrite 7 .reg 0x91,
        .ideRead 7 .reg 0x50] := by decide +kernel

/-- N8. -/
theorem test_setgeom_error :
    let t := after (exec (.setgeom 16 63) (chs [0x50, 0x51]))
    t.csr.result = -2 ∧ t.csr.geomHeads = 4 := by decide +kernel

/-- N11. -/
theorem test_flushDev_lba48 :
    let s : State := { chs [0x50, 0xD0, 0x50] with csr := { blank.csr with mode := 3 } }
    let t := after (exec .flushDev s)
    t.csr.result = 0 ∧ busTrace t = [.ideRead 7 .reg 0x50, .ideWrite 6 .reg 0xE0, .ideWrite 7 .reg 0xEA,
      .ideRead 7 .reg 0xD0, .ideRead 7 .reg 0x50] := by decide +kernel

/-- N13: the pre-command wait runs out, and nothing is written. -/
theorem test_flushDev_precmd_timeout :
    let t := after (exec .flushDev (chs [0x80, 0x80]))
    t.csr.result = -3 ∧ busTrace t = [.ideRead 7 .reg 0x80, .ideRead 7 .reg 0x80] := by decide +kernel

/-- N15: ERR is ignored after a drive reset. -/
theorem test_reset_drive :
    let t := after (exec .reset (chs [0x51]))
    t.csr.result = 0 ∧ t.csr.lastStatus = 0x51 ∧ busTrace t = [.resetPulse, .ideRead 7 .reg 0x51] ∧
      t.wave.countP (fun p => !p.ide.resetN) = 2 := by decide +kernel

/-- N16. -/
theorem test_reset_drive_timeout :
    (after (exec .reset (chs [0x80, 0x80, 0x80, 0x80]))).csr.result = -3 := by decide +kernel

/-- P1, the READ. -/
theorem test_read_p1 :
    let t := after (exec .read (chsAt 252 1 0x2000 ([0x50, 0x58] ++ List.replicate 256 0xAAAA ++ [0x50])))
    t.csr.result = 512 ∧ t.mem.read 0x2000 = 0xAA ∧ lastBufWrite t = some (.bufWrite 0x21FE 0xAAAA) ∧
      t.taskWrites.reverse = [(6, 0xA0), (2, 0x01), (3, 0x01), (4, 0x01), (5, 0x00), (7, 0x20)] := by decide +kernel

/-- V3: no bus cycle. -/
theorem test_read_out_of_range :
    let t := after (exec .read (chsAt 25200 1 0 []))
    t.csr.result = -1 ∧ busTrace t = [] := by decide +kernel

/-- F3, with P1's command: the final wait runs out, a FLUSH CACHE is sent, and the WRITE recovers. -/
theorem test_write_recovers :
    let t := after (exec .write (chsAt 252 1 0x1000 [0x50, 0x58, 0x80, 0x80, 0x80, 0x80, 0x50]))
    t.csr.result = 512 ∧ t.taskWrites.take 2 = [(7, 0xE7), (6, 0xA0)] ∧ t.sentWords = List.replicate 256 0 ∧
      (busTrace t).take 2 = [.invalidate 252 1, .ideRead 7 .reg 0x50] := by decide +kernel

/-- I2. -/
theorem test_write_rejected :
    let t := after (exec .write (chsAt 25200 1 0x1000 []))
    t.csr.result = -1 ∧ busTrace t = [] := by decide +kernel

/-- E1: an Illegal word. -/
theorem test_illegal :
    let t := after (step ((chs []).withFetchWord 32 0xF1))
    t.csr.result = 0xFFFFFFFB ∧ t.readCsr .status = 2 ∧ busTrace t = [] := by decide +kernel

/-- K12: block reset while a REG_RD8 runs: no finish. -/
theorem test_block_reset_abandons :
    let s : State := { chs [0x50] with inputs := [.cycle { rst := true, csr := none, agent := [] }] }
    let t := after (exec (.regRd8 7) s)
    t.readCsr .status = 0 ∧ t.csr.result = 0 ∧ t.trace.countP Event.isFinish = 0 := by decide +kernel

/-! ## Witnesses: a state and operands that meet the hypotheses of each statement, clause by clause -/

/-- A READ or WRITE of one sector at LBA 252, ready to run. -/
def oneSector : State := chsAt 252 1 0x1000 ([0x50, 0x58] ++ List.replicate 256 0xAAAA ++ [0x50])

/-- A cycle with `rst_n = 0`. -/
def resetCycle : Input := .cycle { rst := true, csr := some (.read 0x04), agent := [] }

/-- A memory that never answers. -/
def deaf : State :=
  { blank with params := { testParams with bufWait := none }, csr := { blank.csr with idValid := true } }

/-- The engine while a WRITE of one sector at BUF address 0x1000 runs. -/
def writing : State :=
  { oneSector with eng := { blank.eng with phase := .executing, op := some .write, step := some .dataPhase } }

/-- The machine after reset with concrete parameters meets the invariant. -/
theorem blank_inv : blank.Inv :=
  { params := by decide
    memWf := by decide
    memBelow := by decide
    argBuf := by decide
    notBoth := by decide
    noOp := fun _ => ⟨rfl, rfl⟩
    ports := ⟨by decide, rfl⟩
    bufPort := fun _ => rfl
    bufAccess := rfl
    lastStatus := rfl
    result := rfl
    legal := by decide }

theorem test_witness_EncodeThenDecode :
    (Instr.regWr8 7 0xFF).WellFormed ∧ (Instr.regRd8 0).WellFormed ∧ (Instr.setgeom 0xFF 0xFF).WellFormed := by decide

theorem test_witness_DecodeThenEncode : decode 0xFFFFFF = .error .reservedOp ∧ decode 0x00FFFF07 = .ok (.setgeom 0xFF 0xFF) := by
  decide

theorem test_witness_IllegalWords :
    (cmdOp 0xB).toNat ∈ [0x0, 0xB, 0xC, 0xD, 0xE, 0xF] ∧ fieldsLegal 0xF1 = false ∧
    (cmdOp 0xF1).toNat ∉ [0x0, 0xB, 0xC, 0xD, 0xE, 0xF] := by decide

theorem test_witness_AssemblyWritesCmd :
    (HostStmt.regWr8 7 0xFF).expand = [hostWrite 0 0x0000FF72] ∧ (HostStmt.setgeom 16 63).expand = [hostWrite 0 0x003F1007] := by
  decide

theorem test_witness_StepRunsDecoded :
    blank.busy = false ∧ csrAt 0x03 = some .cmd ∧ decode 0x71 = .ok (.regRd8 7) ∧
    decodeTableWord 8 0x71 = some (.regRd8 7) := by decide

theorem test_witness_StepRunsDecoded_inputs :
    (blank.withFetchWord 32 0x71).inputs =
      .cycle { rst := false, csr := some (.write 0x00 0x71), agent := [] } :: [] := by decide

theorem test_witness_StepAlwaysAnswers : busyState.busy = true ∧ blank.tick.busy = false := by decide

theorem test_witness_CmdWrite : blank.busy = false ∧ busyState.busy = true := by decide

theorem test_witness_IllegalFinishes :
    let s : State := { blank with csr := { blank.csr with cmd := 0xF1 } }
    s.undisturbed = true ∧ decode s.csr.cmd = .error .nonzeroField ∧ (blank.withFetchWord 32 0xF1).busy = false ∧
    (blank.withFetchWord 32 0xF1).undisturbed = true ∧ csrAt 0x00 = some .cmd := by decide

theorem test_witness_StatusRegister :
    busyState.busy = true ∧ busyState.noReset = true ∧ blank.busy = false ∧ Csr.mode.isConfig = true := by decide

theorem test_witness_StatusRegister_inv : ∃ s : State, s.Inv := ⟨blank, blank_inv⟩

theorem test_witness_SerialisedWrites :
    busyState.busy = true ∧ Csr.argLbaLo.isConfig = true ∧ Csr.mode.isConfig = true ∧
    Csr.idStatus ∈ [Csr.result, Csr.lastStatus, Csr.idStatus] ∧ blank.noReset = true ∧
    ∀ heads spt, Instr.read ≠ .setgeom heads spt := by
  refine ⟨by decide, by decide, by decide, by decide, by decide, fun _ _ => by simp⟩

theorem test_witness_SerialisedWrites_runs : ∃ t, exec (.regWr8 2 0) blank = .next t := ⟨_, rfl⟩

theorem test_witness_OperandRegisters :
    oneSector.busy = false ∧ oneSector.params.wf ∧
    oneSector.csr.argBuf &&& bufMask oneSector.params.bufAw = oneSector.csr.argBuf ∧ oneSector.params.bufAw ≤ 32 := by decide

/-- BUF_AW = 64, the other end of its range. -/
theorem test_witness_OperandRegisters_wide :
    let s : State := { blank with params := { testParams with bufAw := 64 } }
    s.busy = false ∧ s.params.wf ∧ s.csr.argBuf &&& bufMask s.params.bufAw = s.csr.argBuf ∧
    (s.writeCsr .argBufHi 0xFFFFFFFF).readCsr .argBufHi = 0xFFFFFFFF := by decide +kernel

theorem test_witness_GeometryAndModeRegisters : blank.busy = false ∧ Csr.geomCyl.isConfig = true := by decide

theorem test_witness_CsrWindow :
    (0x04 : Byte).extractLsb' 2 6 = (0x07 : Byte).extractLsb' 2 6 ∧ 0x44 ≤ (0x44 : Byte).toNat ∧
    0x44 ≤ (0xFF : Byte).toNat ∧ csrAt 0x43 = some .idStatus ∧ 0x3FFFFFFF < blank.params.csrBase ∧
    blank.params.csrBase + 256 ≤ 0x40000100 := by decide

/-- 60 R224: a CMD write by address starts the operation. -/
theorem test_bus_access_by_address :
    let s : State := { chs [0x12D0] with inputs := [.bus (.write 0x40000000 0x71)] }
    let u : State := { chs [0x12D0] with inputs := [.bus (.write 0x40000100 0x71)] }
    (after (step s)).csr.result = 0xD0 ∧ (after (step u)).trace = [] := by decide +kernel

theorem test_witness_InterruptOutput :
    (2 : Word).getLsbD 1 = true ∧ blank.busy = false ∧
    ({ blank with csr := { blank.csr with done := true } } : State).csr.done = true := by decide

theorem test_witness_ResetValues : ∃ t : State, t = State.reset ∨ t = busyState.blockReset := ⟨_, .inr rfl⟩

theorem test_witness_ResetAbandons :
    let s : State := { blank with inputs := [resetCycle] }
    s.memoryAnswers = true ∧ s.inputs = .cycle { rst := true, csr := some (.read 0x04), agent := [] } :: [] := by decide

/-- A reset in the third clock cycle of REG_RD8. -/
theorem test_witness_ResetAbandons_later :
    let s : State := { chs [0x50] with inputs := [hostWrite 0x18 5, hostWrite 0x18 5, resetCycle] }
    Event.blockReset ∈ (after (exec (.regRd8 7) s)).trace := by decide +kernel

theorem test_witness_OperationFinishes :
    let s : State := { blank with inputs := [hostWrite 0x18 5] }
    s.noReset = true ∧ s.memoryAnswers = true := by decide

theorem test_witness_FlagsOnlyFromHost : blank.inputs = [] ∧ ∃ t, exec .read blank = .next t := ⟨rfl, _, rfl⟩

/-- N8 meets the hypotheses: it finishes with DeviceError. -/
theorem test_witness_DeviceErrorStatus :
    (chs [0x50, 0x51]).noReset = true ∧ (chs [0x50, 0x51]).memoryAnswers = true ∧
    (after (exec (.setgeom 16 63) (chs [0x50, 0x51]))).csr.result = BitVec.ofInt 32 (-2) := by decide +kernel

/-- Two states that differ in their times and in what the host does. -/
theorem test_witness_TimingIndependence :
    ∃ s s' : State, s.Alike s' ∧ s.undisturbed = true ∧ s'.undisturbed = true ∧ s.memoryAnswers = true ∧
      s'.memoryAnswers = true ∧ s.params.tPollGap ≠ s'.params.tPollGap ∧ s.inputs ≠ s'.inputs :=
  ⟨oneSector, { oneSector with params := { testParams with tPollGap := 7 }, inputs := [hostWrite 0x0C 1] },
    ⟨rfl, rfl, rfl, fun _ => rfl⟩, by decide, by decide, by decide, by decide, by decide, by decide⟩

theorem test_witness_StepKeepsInvariant : blank.Inv ∧ ∃ t, step (blank.withFetchWord 32 0x71) = .next t := ⟨blank_inv, _, rfl⟩

theorem test_witness_PortsStayLegal : blank.Inv ∧ blank.portsLegal = true ∧ ∃ t, step blank = .next t :=
  ⟨blank_inv, by decide, _, rfl⟩

theorem test_witness_BufBytes :
    (Memory.write [] 0x10 1).wf = true ∧ (Memory.write (Memory.write [] 0x20 1) 0x10 1).wf = true := by decide

theorem test_witness_BufPrimitives :
    busyState.busy = true ∧ busyState.undisturbed = true ∧ busyState.memoryAnswers = true ∧ busyState.raced = [] ∧
    busyState.mem.wf = true ∧ busyState.params.wf := by decide

theorem test_witness_UnansweredAccessWaits :
    deaf.inputs = [] ∧ deaf.bufAnswers = [] ∧ deaf.params.bufWait = none ∧ deaf.csr.idValid = true ∧
    busyState.busy = true ∧ busyState.noReset = true := by decide

/-- The first byte of the range, the last, and the one after it. -/
theorem test_witness_BufRaces :
    writing.busy = true ∧ writing.eng.op = some .write ∧ writing.inRunningRange (0x1000 % writing.bufSize) = true ∧
    writing.inRunningRange (0x11FF % writing.bufSize) = true ∧ writing.inRunningRange (0x1200 % writing.bufSize) = false ∧
    0x1200 < writing.bufSize ∧ writing.mem.wf = true ∧ blank.busy = false ∧ decode 6 = .ok .write ∧
    (∀ b, (0x1000, b) ∉ writing.raced) := by
  refine ⟨by decide, by decide, by decide +kernel, by decide +kernel, by decide +kernel, by decide +kernel, by decide,
    by decide, by decide, fun _ h => List.not_mem_nil (show _ ∈ ([] : List Host.Cell) from h)⟩

/-- 70 R248: two writes of another agent in the cycle that accepts a WRITE: the engine's read may take any of three values. -/
theorem test_race_in_accept_cycle :
    let pins : Pins :=
      { rst := false, csr := some (.write 0x00 6), agent := [.write 0x1000 1, .write 0x1000 2, .write 0x1200 3] }
    let s : State := { oneSector with inputs := [.cycle pins] }
    s.tick.mem.read 0x1000 = 2 ∧ s.tick.oldBytes 0x1000 = [1, 0] ∧ s.tick.oldBytes 0x1200 = [] := by decide +kernel

theorem test_witness_ReadCycleWaveform :
    busyState.busy = true ∧ busyState.inputs = [] ∧ busyState.ide.isIdle = true := by decide

/-- A reset in the first cycle of DH, and in the last of PW: the Device's value taken, and not taken. -/
theorem test_witness_ReadCycleWaveform_cut :
    let quiet : Input := .cycle { rst := false, csr := none, agent := [] }
    let cut : Input := .cycle { rst := true, csr := none, agent := [] }
    let s : State := { busyState with inputs := [quiet, quiet, cut], device := [0x50, 0x58] }
    let t := finalState (ideRead 7 .reg) s
    let u := finalState (ideRead 7 .reg) { s with inputs := [quiet, cut] }
    s.inputs = List.replicate 2 quiet ++ cut :: [] ∧ 2 < (s.params.times .reg s.csr.compat).total ∧
    t.trace = [.blockReset, .ideRead 7 .reg 0x50] ∧ t.upcoming 0 = 0x58 ∧
    u.trace = [.blockReset, .strobeCut 7] ∧ u.upcoming 0 = 0x50 := by
  decide +kernel

theorem test_witness_WriteCycleWaveform :
    busyState.busy = true ∧ busyState.inputs = [] ∧ busyState.ide.isIdle = true := by decide

/-- A reset in the first cycle of DH, and in the last of PW. -/
theorem test_witness_WriteCycleWaveform_cut :
    let quiet : Input := .cycle { rst := false, csr := none, agent := [] }
    let cut : Input := .cycle { rst := true, csr := none, agent := [] }
    let s : State := { busyState with inputs := [quiet, quiet, cut] }
    s.inputs = List.replicate 2 quiet ++ cut :: [] ∧ 2 < (s.params.times .reg s.csr.compat).total ∧
    (finalState (ideWrite 6 0xE0 .reg) s).trace = [.blockReset, .ideWrite 6 .reg 0xE0] ∧
    (finalState (ideWrite 6 0xE0 .reg) { s with inputs := [quiet, cut] }).trace = [.blockReset, .strobeCut 6] := by
  decide +kernel

theorem test_witness_BusCycleLatency : busyState.busy = true ∧ busyState.noReset = true := by decide

theorem test_witness_IdleHoldsPort :
    busyState.busy = true ∧ busyState.noReset = true ∧ busyState.ide.isIdle = true := by decide

theorem test_witness_RegRd8Result : 7 < 8 ∧ 0 < 8 ∧ blank.undisturbed = true := by decide

theorem test_witness_RegWr8Result : 7 < 8 ∧ 0 < 8 ∧ blank.undisturbed = true := by decide

theorem test_witness_RegRd16Result : 7 < 8 ∧ 0 < 8 ∧ blank.undisturbed = true := by decide

/-- The deciding poll is the third of four; none of four decides. -/
theorem test_witness_PollVerdicts :
    let f := fun j : Nat => if j = 2 then (0x58 : Half) else 0x80
    let g := fun j : Nat => if j = 2 then (0x51 : Half) else 0x50
    2 < 4 ∧ (∀ i, i < 2 → drqVerdict false (f (0 + i)).lo = .again) ∧ drqVerdict false (f (0 + 2)).lo = .ready ∧
    (∀ i, i < 2 → drqVerdict false (g (0 + i)).lo = .again) ∧ drqVerdict false (g (0 + 2)).lo = .failed ∧
    (∀ i, i < 2 → drqVerdict false (g (0 + i)).lo = .again) := by decide

theorem test_witness_WaitDrqRuns : busyState.busy = true ∧ busyState.undisturbed = true := by decide

theorem test_witness_WaitNotBusyRuns : busyState.busy = true ∧ busyState.undisturbed = true := by decide

theorem test_witness_PollSpacing :
    let s : State := { busyState with device := [0x80, 0x50] }
    s.busy = true ∧ s.undisturbed = true ∧ pollOn notBusyVerdict s.upcoming 3 0 = .ready 0x50 2 ∧
    (finalState (waitNotBusy 3) s).cycle = 9 := by decide +kernel

/-- W26's shape: three polls and two gaps, and a Timeout. -/
theorem test_witness_PollSpacing_timeout :
    let s : State := { busyState with device := [0x80, 0x80, 0x80] }
    pollOn notBusyVerdict s.upcoming 3 0 = .failed .timeout 3 ∧ (finalState (waitNotBusy 3) s).cycle = 14 := by
  decide +kernel

/-- The last sector of the §8 geometry. -/
theorem test_witness_ChsTranslation :
    (chsAt 25198 2 0 []).valid .read = true ∧ (chsAt 25198 2 0 []).addrMode = .chs ∧ 1 < (chsAt 25198 2 0 []).sectors := by
  decide

theorem test_witness_TransferSequences :
    (chs []).addrMode = .chs ∧ (lbaAt false 0 0 0).addrMode = .lba28 ∧ (lbaAt true 0 0 0).addrMode = .lba48 ∧
    1007 / 63 % 16 < 16 ∧ 1007 / 63 / 16 < 65536 ∧ 0x0FFFFFFF < 2 ^ 28 ∧ 0xFFFFFFFFFFFF < 2 ^ 48 := by decide

theorem test_witness_IssueCommandRuns :
    busyState.busy = true ∧ busyState.undisturbed = true ∧ busyState.params.precmdWait = true ∧
    ({ busyState with params := { testParams with precmdWait := false } } : State).params.precmdWait = false := by decide

/-- One script for each outcome of IDENTIFY. -/
theorem test_witness_IdentifyResult :
    (chs [0x50, 0x58]).undisturbed = true ∧ (chs [0x50, 0x58]).identifyReply.code = 0 ∧
    (chs [0x50, 0x51]).identifyReply.code = -2 ∧ (chs [0x50, 0x51]).precmdTimesOut = false ∧
    (chs [0x80, 0x80]).identifyReply.code = -3 ∧ (chs [0x80, 0x80]).precmdTimesOut = true := by decide +kernel

theorem test_witness_GetidResult :
    deaf.csr.idValid = true ∧ blank.csr.idValid = false ∧ blank.undisturbed = true ∧ blank.memoryAnswers = true ∧
    blank.mem.wf = true ∧ blank.params.wf ∧ 512 ≤ blank.bufSize := by decide

theorem test_witness_SetgeomResult :
    blank.undisturbed = true ∧ (16 : Byte) ≠ 0 ∧ (16 : Byte).toNat ≤ 16 ∧ (1 : Byte) ≠ 0 ∧ 16 < (17 : Byte).toNat ∧
    ((chs [0x50, 0x50]).setgeomReply 16 1).code = 0 ∧ ((chs [0x50, 0x51]).setgeomReply 1 255).code = -2 := by decide +kernel

theorem test_witness_FlushDevResult :
    (chs [0x50, 0x50]).undisturbed = true ∧ (chs [0x50, 0x50]).flushReply.code = 0 ∧
    (chs [0x50, 0x80, 0x80, 0x80]).flushReply.code = -3 := by decide +kernel

theorem test_witness_ResetResult :
    blank.undisturbed = true ∧ blank.noReset = true ∧ blank.ide.resetN = true ∧ (chs [0x51]).resetReply.code = 0 ∧
    (chs [0x80, 0x80, 0x80, 0x80]).resetReply.code = -3 := by
  decide +kernel

theorem test_witness_InvalidTransferRejected :
    (chsAt 25200 1 0 []).undisturbed = true ∧ (chsAt 25200 1 0 []).valid .read = false ∧
    (chsAt 25200 1 0 []).valid .write = false ∧ blank.addrMode = .chs ∧ blank.csr.geomSpt = 0 := by decide

theorem test_witness_SectorDataOrder :
    busyState.busy = true ∧ busyState.undisturbed = true ∧ busyState.memoryAnswers = true ∧ busyState.raced = [] := by decide

/-- One script for each outcome of a READ. -/
theorem test_witness_ReadResult :
    oneSector.undisturbed = true ∧ oneSector.memoryAnswers = true ∧ oneSector.valid .read = true ∧
    (oneSector.transferReply .read).code = 512 ∧ ((chsAt 252 1 0 [0x50, 0x51]).transferReply .read).code = -2 ∧
    ((chsAt 252 1 0 [0x80, 0x80]).transferReply .read).code = -3 := by decide +kernel

theorem test_witness_BufferAfterRead :
    oneSector.undisturbed = true ∧ oneSector.memoryAnswers = true ∧ oneSector.mem.wf = true ∧ oneSector.params.wf ∧
    512 * 1 ≤ oneSector.bufSize := by decide

theorem test_witness_BufferAfterRead_runs : ∃ t, exec .read oneSector = .next t := ⟨_, rfl⟩

/-- One script for each outcome of a WRITE. -/
theorem test_witness_WriteResult :
    oneSector.undisturbed = true ∧ oneSector.memoryAnswers = true ∧ oneSector.valid .write = true ∧
    ((chsAt 252 1 0 [0x50, 0x58, 0x50]).transferReply .write).code = 512 ∧
    ((chsAt 252 1 0 [0x50, 0x58, 0x51]).transferReply .write).code = -2 ∧
    ((chsAt 252 1 0 [0x50, 0x58, 0x80, 0x80, 0x80, 0x80, 0x80, 0x80]).transferReply .write).code = -3 := by
  decide +kernel

/-- Chunks done with and without a spent final budget, and a chunk that is not done. -/
theorem test_witness_WriteResult_flush :
    ((chsAt 252 1 0 [0x50, 0x58, 0x80, 0x80, 0x50]).chunksReply .write).code = 0 ∧
    ((chsAt 252 1 0 [0x50, 0x58, 0x80, 0x80, 0x50]).chunksReply .write).used = 2 ∧
    ((chsAt 252 1 0 [0x50, 0x51]).chunksReply .write).code = -2 := by decide +kernel

theorem test_witness_ReadyDeviceSucceeds :
    let s := chsAt 252 1 0 (List.replicate 516 0x1258)
    s.undisturbed = true ∧ s.memoryAnswers = true ∧ s.params.wf ∧
    (∀ v ∈ s.device, v.getLsbD 7 = false ∧ v.getLsbD 3 = true ∧ v.getLsbD 0 = false) ∧
    258 * s.sectors + 258 ≤ s.device.length ∧ s.valid .read = true ∧ s.valid .write = true := by
  refine ⟨by decide, by decide, by decide, fun v hv => ?_, ?_, by decide, by decide⟩
  · have h : v = 0x1258 := List.eq_of_mem_replicate hv
    rw [h]
    decide
  · exact (List.length_replicate (n := 516) (a := (0x1258 : Half))).symm ▸ (by decide : 258 * 1 + 258 ≤ 516)

/-- BSY clears at the last poll of the budget; it never does, and then does in the recovery. -/
theorem test_witness_FinalWaitOutcome :
    let s := chs [0x80, 0x80, 0x50]
    let u := chs [0x80, 0x80, 0x80, 0x80, 0x80, 0x50]
    2 < s.params.budgetFinal ∧ (∀ i, i < 2 → bsy (s.upcoming (0 + i)).lo = true) ∧ bsy (s.upcoming (0 + 2)).lo = false ∧
    (∀ i, i < u.params.budgetFinal → bsy (u.upcoming (0 + i)).lo = true) ∧ 2 < u.params.budgetRecover ∧
    (∀ i, i < 2 → bsy (u.upcoming (0 + u.params.budgetFinal + i)).lo = true) ∧
    bsy (u.upcoming (0 + u.params.budgetFinal + 2)).lo = false := by decide +kernel

theorem test_witness_TransferBusBound :
    oneSector.undisturbed = true ∧ oneSector.memoryAnswers = true ∧
    ∃ t, exec (if Dir.read = .read then .read else .write) oneSector = .next t := ⟨by decide, by decide, _, rfl⟩

theorem test_witness_SuccessValuePositive :
    (lbaAt true 0x10000000000 0 0x003FFFFF).valid .write = true ∧ oneSector.valid .read = true := by decide

theorem test_witness_InvalidateOnce :
    blank.noReset = true ∧ blank.inv = none ∧ oneSector.valid .write = true ∧ ∃ t, exec .write oneSector = .next t :=
  ⟨by decide, rfl, by decide, _, rfl⟩

end Sys2Proof.Machine.Tests
end

section
/-! SUPPORT. The proofs about the state (10_state.md): the registers, what a step runs, the invariant and the ports. -/

namespace Sys2Proof.Machine

/-! ## Properties of a clock cycle, combined -/

theorem TickClosed.and {P Q : State → Prop} (h : TickClosed P) (h' : TickClosed Q) : TickClosed fun s => P s ∧ Q s where
  inputs := fun s l hs => ⟨h.inputs s l hs.1, h'.inputs s l hs.2⟩
  host := fun s a hs => ⟨h.host s a hs.1, h'.host s a hs.2⟩
  hostInReset := fun s a hs => ⟨h.hostInReset s a hs.1, h'.hostInReset s a hs.2⟩
  agent := fun s a hs => ⟨h.agent s a hs.1, h'.agent s a hs.2⟩
  reset := fun s hs => ⟨h.reset s hs.1, h'.reset s hs.2⟩
  endCycle := fun s hs => ⟨h.endCycle s hs.1, h'.endCycle s hs.2⟩

theorem TickClosed.of_iff {P Q : State → Prop} (h : TickClosed P) (hpq : ∀ s, Q s ↔ P s) : TickClosed Q :=
  (funext fun s => propext (hpq s) : Q = P) ▸ h

/-- `finish` leaves what every clock cycle keeps, where its own writes keep it too (60 R212). -/
theorem TickClosed.finish {P : State → Prop} (h : TickClosed P) {code : Word} (hc : ∀ s, P s → P (s.complete code))
    {s : State} (hs : P s) : P (finalState (finish code) s) := by
  have hi := h.applyInputs hs
  by_cases hb : s.applyInputs.busy = true
  · simp only [finalState, Sys2Proof.Machine.finish, hb, if_true]
    exact h.endCycle _ (hc _ hi)
  · simp only [finalState, Sys2Proof.Machine.finish, hb]
    exact h.endCycle _ hi

/-- What holds where an operation halts, and what holds after `finish` with a legal code, holds after the operation. -/
theorem exec_leaves {P F Q : State → Prop} {i : Instr} {s t : State} (h : Stable P F) (ho : OwnUpdates P F i)
    (h0 : P (s.entered (some i))) (hb : ∀ u, P u → u.busy = true) (hF : ∀ u, F u → Q u)
    (hfin : ∀ u code, P u → legalResult code = true → Q (finalState (finish code) u)) (he : exec i s = .next t) : Q t := by
  rw [exec_eq] at he
  cases he
  rcases operation_final h ho h0 with ⟨u, e, hu⟩ | ⟨u, code, hu, e, sb, tb, hsb, hc, -⟩
  · simpa only [finalState, e] using hF u hu
  · have hl : legalResult code = true := code_legal (hb sb hsb) hc
    simpa only [finalState, e] using hfin u code hu hl

/-- A step is a clock cycle, or one that accepts a CMD write and then the operation of the word. -/
theorem step_cases {s t : State} (h : step s = .next t) :
    t = s.tick ∨ (s.tick.busy = true ∧ ((∃ i, exec i s.tick = .next t) ∨ runIllegal s.tick = .next t)) := by
  unfold step at h
  split at h
  · cases h; exact .inl rfl
  · split at h
    · rename_i hb
      refine .inr ⟨hb, ?_⟩
      unfold runCommand at h
      split at h
      · exact .inl ⟨_, h⟩
      · exact .inr h
    · cases h; exact .inl rfl

/-- An engine update that leaves the phase leaves BUSY. -/
theorem State.busy_engine {s : State} {e : Engine} (hb : s.busy = true) (hp : e.phase = s.eng.phase) :
    ({ s with eng := e } : State).busy = true := (State.busy_iff _).mpr (hp.trans (s.busy_iff.mp hb))

/-! ## The invariant -/

/-- An outstanding BUF access is legal (20 R66, R69). -/
def State.bufLegal (s : State) : Prop := s.buf.all (BufAccess.legal s.bufSize) = true

/-- What holds of the outstanding access and the records, held to the outstanding access. -/
theorem bufLegal_tickClosed : TickClosed State.bufLegal where
  inputs := fun _ _ h => h
  host := fun s a h => (bufSince_tickClosed.host s a (State.bufSince_start h)).1
  hostInReset := fun s a h => (bufSince_tickClosed.hostInReset s a (State.bufSince_start h)).1
  agent := fun s a h => (bufSince_tickClosed.agent s a (State.bufSince_start h)).1
  reset := fun _ _ => rfl
  endCycle := fun _ h => h

/-- The invariant is the conjunction of the parts of Sys2Proof/Laws/Invariant.lean. -/
theorem State.inv_iff (s : State) : s.Inv ↔ ((s.CoreInv ∧ s.portsIdle) ∧ s.statusInv) ∧ s.bufLegal :=
  ⟨fun h => ⟨⟨⟨⟨h.params, h.memWf, h.memBelow, h.argBuf, h.notBoth, h.noOp, h.bufPort, h.result, h.legal⟩, h.ports⟩,
      h.lastStatus⟩, h.bufAccess⟩,
    fun ⟨⟨⟨h, hp⟩, hs⟩, hb⟩ => ⟨h.params, h.memWf, h.memBelow, h.argBuf, h.notBoth, h.noOp, hp, h.bufPort, hb, hs, h.result,
      h.legal⟩⟩

/-- Every clock cycle keeps the invariant. -/
theorem inv_tickClosed : TickClosed State.Inv :=
  (((coreInv_tickClosed.and ports_tickClosed).and statusInv_tickClosed).and bufLegal_tickClosed).of_iff State.inv_iff

/-- With no BUF access outstanding, none comes up in a clock cycle. -/
theorem bufNone_tickClosed : TickClosed fun s => s.buf = none where
  inputs := fun _ _ h => h
  host := fun s a h => by
    cases a with
    | read off => exact h
    | write off w => exact (s.writeOffset_same off w).2.1.trans h
  hostInReset := fun s a h => by cases a <;> exact h
  agent := fun s a h => (State.agentAccess_landed s a).buf.trans h
  reset := fun _ _ => rfl
  endCycle := fun _ h => h

/-- The writes of `finish` keep the invariant, where no BUF access is outstanding and the code is one of 60 R210. -/
theorem State.Inv.complete {s : State} (h : s.Inv) (hb : s.buf = none) {code : Word} (hc : legalResult code = true) :
    (s.complete code).Inv where
  params := h.params
  memWf := h.memWf
  memBelow := h.memBelow
  argBuf := h.argBuf
  notBoth := fun hh => nomatch hh.1
  noOp := fun _ => ⟨rfl, rfl⟩
  ports := h.ports
  bufPort := fun _ => hb
  bufAccess := h.bufAccess
  lastStatus := h.lastStatus
  result := rfl
  legal := hc

theorem State.Inv.finish {s : State} (h : s.Inv) (hb : s.buf = none) {code : Word} (hc : legalResult code = true) :
    (finalState (finish code) s).Inv :=
  ((inv_tickClosed.and bufNone_tickClosed).finish (fun _ hs => ⟨hs.1.complete hs.2 hc, hs.2⟩) ⟨h, hb⟩).1

/-- An accepted CMD write leaves DONE = 0, so that the operation's first statement meets the invariant. -/
theorem State.Inv.entered {s : State} (h : s.Inv) (hb : s.busy = true) (op : Option Instr) : (s.entered op).Inv where
  params := h.params
  memWf := h.memWf
  memBelow := h.memBelow
  argBuf := h.argBuf
  notBoth := fun hh => h.notBoth ⟨hb, hh.2⟩
  noOp := fun hh => nomatch hh
  ports := h.ports
  bufPort := fun _ => rfl
  bufAccess := rfl
  lastStatus := h.lastStatus
  result := h.result
  legal := h.legal

/-- Every operation keeps the invariant, whatever happens in it. -/
theorem State.Inv.exec {s t : State} (h : s.Inv) (hb : s.busy = true) {i : Instr} (he : exec i s = .next t) : t.Inv := by
  have hst := ((coreInv_fine.stable.and ports_stable).and status_stable).and bufFree_stable
  have how := (((coreInv_own i).and (ports_own i)).and (status_own i)).and (bufFree_own i)
  have hbuf : t.bufLegal := (exec_bufSince i h.params h.argBuf he).1
  obtain ⟨⟨⟨hc, hp⟩, hs⟩, -⟩ := (s.entered (some i)).inv_iff.mp (h.entered hb _)
  refine exec_leaves (Q := fun t => t.bufLegal → t.Inv) hst how ⟨⟨⟨⟨hc, rfl⟩, hp, rfl⟩, hs, rfl⟩, rfl, rfl⟩ ?busy
    ?halted ?finish he hbuf
  case busy => exact fun u hu => hu.2.2
  case halted => exact fun u hu hl => u.inv_iff.mpr ⟨hu.1, hl⟩
  case finish =>
    rintro u code ⟨⟨⟨⟨hc, -⟩, hp, -⟩, hs, -⟩, hn, -⟩ hl -
    have hi : u.Inv := u.inv_iff.mpr ⟨⟨⟨hc, hp⟩, hs⟩, by rw [State.bufLegal, hn]; rfl⟩
    exact hi.finish hn hl

/-- A word that decodes to no operation: `finish` comes in the next cycle (30 R82). -/
theorem State.Inv.runIllegal {s t : State} (h : s.Inv) (hb : s.busy = true) (he : runIllegal s = .next t) : t.Inv := by
  cases he
  exact (h.entered hb none).finish rfl (legalResult_err .illegal)

/-- Settles O23: a clock cycle keeps the invariant, and so does the operation that an accepted CMD write starts. -/
theorem stepKeepsInvariant : Obligations.StepKeepsInvariant := by
  intro s t h hst
  have ht : s.tick.Inv := inv_tickClosed.tick h
  rcases step_cases hst with rfl | ⟨hb, ⟨i, he⟩ | he⟩
  · exact ht
  · exact ht.exec hb he
  · exact ht.runIllegal hb he

/-! ## The ports in every cycle -/

/-- What `PortSample.legal` asks of the IDE port and the invalidate output. -/
def outsLegal (p : IdePort) (v : Option InvRange) : Bool :=
  p.cs1N && (!p.cs0N || (p.diorN && p.diowN && p.dd.isNone)) && (p.diorN || (p.diowN && p.dd.isNone)) &&
    (p.diowN || p.dd.isSome) && (p.resetN || p.cs0N) && (v.isNone || p.cs0N)

theorem PortSample.legal_eq (size : Nat) (q : PortSample) :
    q.legal size = (outsLegal q.ide q.inv && q.buf.all (BufAccess.legal size)) := rfl

/-- Every cycle so far has shown legal outputs. -/
def State.shownLegal (s : State) : Prop := ∀ q ∈ s.wave, outsLegal q.ide q.inv = true

/-- So far and now the outputs are legal. -/
def State.outsShown (s : State) : Prop := outsLegal s.ide s.inv = true ∧ s.shownLegal

/-- A register write touches no output (10 R35, R36). -/
theorem State.writeOffset_outs (s : State) (off : Byte) (w : Word) :
    (s.writeOffset off w).ide = s.ide ∧ (s.writeOffset off w).inv = s.inv := by
  unfold State.writeOffset
  split
  · rename_i r _
    cases r with
    | status | ctrl | result | lastStatus | idStatus => exact ⟨rfl, rfl⟩
    | _ => simp only [State.writeCsr]; split <;> exact ⟨rfl, rfl⟩
  · exact ⟨rfl, rfl⟩

theorem outsShown_tickClosed : TickClosed State.outsShown where
  inputs := fun _ _ h => h
  host := fun s a h => by
    cases a with
    | read off => exact h
    | write off w =>
      obtain ⟨hi, hv⟩ := s.writeOffset_outs off w
      obtain ⟨-, -, hw, -⟩ := s.writeOffset_same off w
      show (s.writeOffset off w).outsShown
      unfold State.outsShown State.shownLegal
      rw [hi, hv, hw]
      exact h
  hostInReset := fun s a h => by cases a <;> exact h
  agent := fun s a h => by
    cases a with
    | read a => unfold State.agentAccess; simp only []; split <;> exact h
    | write a b => exact h
  reset := fun _ h => ⟨rfl, h.2⟩
  endCycle := fun s h => ⟨h.1, fun q hq => (List.mem_cons.mp hq).elim (fun e => e ▸ h.1) (h.2 q)⟩

/-- The outputs are idle now and have been legal so far. -/
def State.outsIdle (s : State) : Prop := s.portsIdle ∧ s.outsShown

theorem outsIdle_tickClosed : TickClosed State.outsIdle := ports_tickClosed.and outsShown_tickClosed

/-- The idle IDE port, with the register number that the latest bus cycle left (40 R106). -/
def IdePort.idleAt (d : IdeReg) : IdePort := { IdePort.atReset with da := d }

theorem IdePort.isIdle_iff (p : IdePort) : p.isIdle = true ↔ p = IdePort.idleAt p.da := by
  obtain ⟨da, cs0N, cs1N, diorN, diowN, dd, resetN⟩ := p
  simp [IdePort.isIdle, IdePort.idleAt, IdePort.atReset, and_assoc]

/-- An operation runs with the outputs as given, and they have been legal so far. -/
def State.outsAre (p : IdePort) (v : Option InvRange) (s : State) : Prop := s.portsAre p v ∧ s.shownLegal

/-- An operation runs, between its bus cycles and pulses. -/
def State.outsRun (s : State) : Prop := s.outsIdle ∧ s.busy = true

theorem State.outsRun_iff (s : State) : s.outsRun ↔ ∃ d, s.outsAre (IdePort.idleAt d) none := by
  constructor
  · rintro ⟨⟨⟨hi, hv⟩, -, hw⟩, hb⟩
    exact ⟨_, ⟨hb, (s.ide.isIdle_iff).mp hi, hv⟩, hw⟩
  · rintro ⟨d, ⟨hb, hi, hv⟩, hw⟩
    refine ⟨⟨⟨?_, hv⟩, ?_, hw⟩, hb⟩
    · rw [hi]; rfl
    · rw [hi, hv]; rfl

section
variable {p : IdePort} {v : Option InvRange}

theorem outsAre_engine (s : State) (e : Engine) (h : s.outsAre p v) (hp : e.phase = s.eng.phase) (ho : e.op = s.eng.op) :
    ({ s with eng := e } : State).outsAre p v := ⟨portsAre_engine p v s e h.1 hp ho, h.2⟩

/-- The clock shows the outputs: they are to be legal. -/
theorem keeps_clock_outs (hl : outsLegal p v = true) : Keeps (State.outsAre p v) State.outsIdle clock := by
  have shown : ∀ s : State, s.outsAre p v → s.tick.outsShown := fun s h =>
    outsShown_tickClosed.tick ⟨by rw [h.1.2.1, h.1.2.2]; exact hl, h.2⟩
  exact keeps_clock (fun _ h => h.1.1)
    (fun s h ht => ⟨⟨ht.busy.trans h.1.1, ht.ide.trans h.1.2.1, ht.inv.trans h.1.2.2⟩, (shown s h).2⟩)
    fun s h ht => ⟨State.afterReset_portsIdle ht, shown s h⟩

theorem leads_clock {P F : State → Prop} (h : Keeps P F clock) : Leads P P F clock := by
  intro s hs
  have hc := h s hs
  by_cases hb : s.tick.busy = true
  · rw [show clock s = .ok () s.tick from if_pos hb] at hc ⊢
    exact hc
  · rw [show clock s = .error .halted s.tick from if_neg hb] at hc ⊢
    exact hc

theorem leads_hold_outs (hl : outsLegal p v = true) (n : Nat) :
    Leads (State.outsAre p v) (State.outsAre p v) State.outsIdle (hold n) :=
  leads_hold outsAre_engine (keeps_clock_outs hl) n

theorem leads_setEngine_outs {f : Engine → Engine} (hf : ∀ e, (f e).phase = e.phase ∧ (f e).op = e.op) :
    Leads (State.outsAre p v) (State.outsAre p v) State.outsIdle (setEngine f) :=
  Leads.modify fun s h => outsAre_engine s _ h (hf _).1 (hf _).2

theorem leads_busPhase_outs (hl : outsLegal p v = true) (b : BusPhase) (n : Nat) :
    Leads (State.outsAre p v) (State.outsAre p v) State.outsIdle (busPhase b n) :=
  Leads.bind (leads_setEngine_outs fun _ => ⟨rfl, rfl⟩) fun _ => leads_hold_outs hl n

theorem leads_setIde_outs (f : IdePort → IdePort) :
    Leads (State.outsAre p v) (State.outsAre (f p) v) State.outsIdle (setIde f) :=
  Leads.modify fun _ h => ⟨⟨h.1.1, congrArg f h.1.2.1, h.1.2.2⟩, h.2⟩

end

/-- The outputs in each phase of a read cycle are legal (40 R104). -/
theorem leads_ideRead_outs (reg : IdeReg) (kind : Kind) (d : IdeReg) :
    Leads (State.outsAre (IdePort.idleAt d) none) (State.outsAre (IdePort.idleAt reg) none) State.outsIdle
      (ideRead reg kind) :=
  (leads_cycleTimes kind).bind fun _ => (leads_setIde_outs _).bind fun _ => (leads_busPhase_outs rfl _ _).bind fun _ =>
    (leads_setIde_outs _).bind fun _ => (leads_busPhase_outs rfl _ _).bind fun _ =>
    (leads_sample reg kind fun _ _ _ _ h => h).bind fun _ => (leads_setIde_outs _).bind fun _ =>
    (leads_busPhase_outs rfl _ _).bind fun _ => (leads_setIde_outs _).bind fun _ =>
    (leads_busPhase_outs rfl _ _).bind fun _ => Leads.bind (leads_setEngine_outs fun _ => ⟨rfl, rfl⟩) fun _ => by
      split
      · exact Leads.bind (Q := State.outsAre (IdePort.idleAt reg) none) (Leads.modify fun _ h => h) fun _ => Leads.pure _
      · exact Leads.pure _

/-- The outputs in each phase of a write cycle are legal (40 R105). -/
theorem leads_ideWrite_outs (reg : IdeReg) (b : Half) (kind : Kind) (d : IdeReg) :
    Leads (State.outsAre (IdePort.idleAt d) none) (State.outsAre (IdePort.idleAt reg) none) State.outsIdle
      (ideWrite reg b kind) :=
  (leads_cycleTimes kind).bind fun _ => (leads_setIde_outs _).bind fun _ => (leads_busPhase_outs rfl _ _).bind fun _ =>
    (leads_setIde_outs _).bind fun _ => (leads_busPhase_outs rfl _ _).bind fun _ => (leads_setIde_outs _).bind fun _ =>
    Leads.bind (Leads.modify fun _ h => h) fun _ => (leads_busPhase_outs rfl _ _).bind fun _ =>
    (leads_setIde_outs _).bind fun _ => (leads_busPhase_outs rfl _ _).bind fun _ =>
    leads_setEngine_outs fun _ => ⟨rfl, rfl⟩

/-- The reset line falls with no bus cycle in progress (41 R147). -/
theorem leads_resetPulse_outs (d : IdeReg) :
    Leads (State.outsAre (IdePort.idleAt d) none) (State.outsAre (IdePort.idleAt d) none) State.outsIdle resetPulse :=
  Leads.bind (leads_setEngine_outs fun _ => ⟨rfl, rfl⟩) fun _ => Leads.bind (Leads.modify fun _ h => h) fun _ =>
    (leads_setIde_outs _).bind fun _ => fun s hs =>
      ((leads_hold_outs rfl s.params.tRstPw).bind fun _ => leads_setIde_outs _) s hs

/-- The invalidate output is valid with no bus cycle in progress (42 R186). -/
theorem leads_invalidate_outs (d : IdeReg) :
    Leads (State.outsAre (IdePort.idleAt d) none) (State.outsAre (IdePort.idleAt d) none) State.outsIdle invalidate := by
  refine Leads.bind (leads_setEngine_outs fun _ => ⟨rfl, rfl⟩) fun _ => fun s hs => ?_
  have pulse := Leads.bind (Leads.modify (F := State.outsIdle)
      (P := State.outsAre (IdePort.idleAt d) none)
      (Q := State.outsAre (IdePort.idleAt d) (some ⟨s.csr.argLba, s.csr.argCount⟩))
      (f := fun u => { u.record (.invalidate s.csr.argLba s.csr.argCount) with
        inv := some ⟨s.csr.argLba, s.csr.argCount⟩ }) fun _ h => ⟨⟨h.1.1, h.1.2.1, rfl⟩, h.2⟩) fun _ =>
    (leads_clock (keeps_clock_outs rfl)).bind fun _ =>
      Leads.modify (Q := State.outsAre (IdePort.idleAt d) none) (f := fun u => { u with inv := none })
        fun _ h => ⟨⟨h.1.1, h.1.2.1, rfl⟩, h.2⟩
  exact pulse s hs

theorem keeps_of_outs {α : Type} {x : EngineM α} {g : IdeReg → IdeReg}
    (h : ∀ d, Leads (State.outsAre (IdePort.idleAt d) none) (State.outsAre (IdePort.idleAt (g d)) none) State.outsIdle x) :
    Keeps State.outsRun State.outsIdle x := by
  refine Leads.keeps fun s hs => ?_
  obtain ⟨d, hd⟩ := s.outsRun_iff.mp hs
  have h1 := h d s hd
  match hr : x s with
  | .ok a t => rw [hr] at h1; exact t.outsRun_iff.mpr ⟨_, h1⟩
  | .error (.raised e) t => rw [hr] at h1; exact h1
  | .error .halted t => rw [hr] at h1; exact h1

theorem outsRun_engine (s : State) (e : Engine) (h : s.outsRun) (hp : e.phase = s.eng.phase) (_ : e.op = s.eng.op) :
    ({ s with eng := e } : State).outsRun := ⟨h.1, State.busy_engine h.2 hp⟩

theorem keeps_hold_outs (n : Nat) : Keeps State.outsRun State.outsIdle (hold n) :=
  keeps_hold outsRun_engine outsIdle_tickClosed.keeps_clock n

theorem keeps_handshake_outs (a : BufAccess) : Keeps State.outsRun State.outsIdle (bufHandshake a) :=
  keeps_bufHandshake (fun _ _ h => h) keeps_hold_outs (takeAnswer_cases (fun _ _ h => h) fun _ h _ => h.1) a

theorem keeps_takeByte_outs (a : Nat) : Keeps State.outsRun State.outsIdle (takeByte a) := by
  intro s hs
  unfold takeByte
  split <;> exact hs

/-- No cycle of a bus cycle, a gap or a BUF access shows illegal outputs. -/
theorem outs_stable : Stable State.outsRun State.outsIdle where
  engine := outsRun_engine
  hold := keeps_hold_outs
  idle := fun n => Keeps.bind (Keeps.modify fun _ h => h) fun _ => keeps_hold_outs n
  ideRead := fun reg kind => keeps_of_outs (leads_ideRead_outs reg kind)
  ideWrite := fun reg b kind => keeps_of_outs (leads_ideWrite_outs reg b kind)
  memRead := fun _ _ => Keeps.get fun _ _ => (keeps_handshake_outs _).bind fun _ => (keeps_takeByte_outs _).bind fun _ =>
    (keeps_takeByte_outs _).bind fun _ => Keeps.bind (Keeps.modify fun _ h => h) fun _ => Keeps.pure _
  memWrite := fun _ _ _ => Keeps.get fun _ _ => (keeps_handshake_outs _).bind fun _ =>
    Keeps.bind (Keeps.modify fun _ h => h) fun _ => Keeps.modify fun _ h => h

theorem outs_own (i : Instr) : OwnUpdates State.outsRun State.outsIdle i where
  invalidate := fun _ => keeps_of_outs leads_invalidate_outs
  pulse := fun _ => keeps_of_outs leads_resetPulse_outs
  idValid := fun _ _ _ h => h
  idbuf := fun _ _ _ h => h
  geometry := fun _ _ _ _ h => h

/-- No operation changes the parameters (00 R10). -/
theorem exec_params {i : Instr} {s t : State} (he : exec i s = .next t) : t.params = s.params := by
  have hst := (fine_held (f := fun _ => ()) (fun _ => rfl) () s.params (some i)).stable
  have how := own_held (f := fun _ => ()) (fun _ => rfl) () s.params (some i) (i := i) (fun _ _ _ _ => rfl)
    fun _ _ _ _ => rfl
  exact exec_leaves hst how ⟨rfl, rfl, rfl, rfl⟩ (fun _ hu => hu.busy) (fun _ hu => hu.1)
    (fun _ _ hu _ => (params_tickClosed s.params).finish (fun _ h => h) hu.params) he

/-- No cycle of an operation shows illegal outputs. -/
theorem exec_outsIdle {i : Instr} {s t : State} (h : s.outsIdle) (he : exec i s = .next t) : t.outsIdle :=
  exec_leaves outs_stable (outs_own i) ⟨h, rfl⟩ (fun _ hu => hu.2) (fun _ hu => hu)
    (fun _ _ hu _ => outsIdle_tickClosed.finish (fun _ h => h) hu.1) he

/-- The records are legal: their outputs, their outstanding BUF accesses, and their BUF events. -/
theorem State.portsLegal_iff (s : State) : s.portsLegal = true ↔
    s.shownLegal ∧ (∀ q ∈ s.wave, q.buf.all (BufAccess.legal s.bufSize) = true) ∧
      ∀ e ∈ s.trace, e.bufLegal s.bufSize = true := by
  simp only [State.portsLegal, Bool.and_eq_true, List.all_eq_true, PortSample.legal_eq, State.shownLegal]
  exact ⟨fun h => ⟨fun q hq => (h.1 q hq).1, fun q hq => (h.1 q hq).2, h.2⟩,
    fun h => ⟨fun q hq => ⟨h.1 q hq, h.2.1 q hq⟩, h.2.2⟩⟩

/-- Legal records stay legal, where what is added to them is. -/
theorem State.portsLegal_of_since {s t : State} (h : s.portsLegal = true) (ho : t.outsIdle)
    (hb : t.bufSince s.wave s.trace) (hp : t.params = s.params) : t.portsLegal = true := by
  have hsize : t.bufSize = s.bufSize := congrArg (fun p : Params => 2 ^ p.bufAw) hp
  obtain ⟨-, ⟨w, hw, hwl⟩, l, hl, hll⟩ := hb
  obtain ⟨-, hwave, htrace⟩ := s.portsLegal_iff.mp h
  refine t.portsLegal_iff.mpr ⟨ho.2.2, fun q hq => ?_, fun e he => ?_⟩
  · rw [hw, List.mem_append] at hq
    exact hq.elim (hwl q) fun hq => hsize ▸ hwave q hq
  · rw [hl, List.mem_append] at he
    exact he.elim (hll e) fun he => hsize ▸ htrace e he

/-- The invariant's idle ports, with legal records. -/
theorem State.Inv.outsIdle {s : State} (h : s.Inv) (hl : s.portsLegal = true) : s.outsIdle := by
  refine ⟨h.ports, ?_, (s.portsLegal_iff.mp hl).1⟩
  rw [(s.ide.isIdle_iff).mp h.ports.1, h.ports.2]
  rfl

/-- An accepted word that decodes to no operation keeps legal records. -/
theorem State.Inv.runIllegal_portsLegal {s t : State} (h : s.Inv) (hl : s.portsLegal = true)
    (he : Machine.runIllegal s = .next t) : t.portsLegal = true := by
  cases he
  refine State.portsLegal_of_since hl ?_ ?_ ?_
  · exact outsIdle_tickClosed.finish (s := s.entered none) (fun _ h => h) (h.outsIdle hl)
  · exact bufSince_tickClosed.finish (fun _ h => State.bufSince.record h rfl)
      (State.bufSince_start (s := s.entered none) rfl)
  · exact (params_tickClosed s.params).finish (s := s.entered none) (fun _ h => h) rfl

/-- Settles O25: a clock cycle and an operation add legal samples and legal BUF accesses to the records. -/
theorem portsStayLegal : Obligations.PortsStayLegal := by
  intro s t h hl hst
  have ht : s.tick.Inv := inv_tickClosed.tick h
  have htl : s.tick.portsLegal = true := State.portsLegal_of_since hl (outsIdle_tickClosed.tick (h.outsIdle hl))
    (bufSince_tickClosed.tick (State.bufSince_start h.bufAccess)) s.tick_params
  rcases step_cases hst with rfl | ⟨hb, ⟨i, he⟩ | he⟩
  · exact htl
  · exact State.portsLegal_of_since htl (exec_outsIdle (ht.outsIdle htl) he) (exec_bufSince i ht.params ht.argBuf he)
      (exec_params he)
  · exact ht.runIllegal_portsLegal htl he

/-! ## What an operation leaves of the registers -/

/-- Without reset `finish` comes to its end, whatever the host writes in its cycle: DONE is set and BUSY cleared (10 R23). -/
theorem finish_unreset (code : Word) {s : State} (hb : s.busy = true) (hn : s.noReset = true) :
    finish code s = .ok () (s.finished code) := if_pos ((State.applyInputs_landed hb hn).busy.trans hb)

/-- What `f` sees of the registers is after an operation as before it, where neither `finish` nor the operation's own updates
change it and no reset comes, whatever the host writes meanwhile (10 R27). -/
theorem exec_view {α : Type} {f : Csrs → α} (hf : ∀ c : Csrs, f { c.kernel with lastStatus := 0 } = f c)
    (hres : ∀ (c : Csrs) code, f { c with result := code, done := true } = f c) {i : Instr}
    (hid : i = .identify → ∀ (c : Csrs) b w, f { c with idValid := b, idbuf := w } = f c)
    (hg : ∀ heads spt, i = .setgeom heads spt → ∀ c : Csrs, f { c with geomHeads := heads, geomSpt := spt } = f c)
    {s t : State} (hn : s.noReset = true) (he : exec i s = .next t) : f t.csr = f s.csr := by
  have free := busy_fine.unreset (fun _ hb => hb) fun _ _ hb => hb
  have hst := (fine_held hf (f s.csr) s.params (some i)).stable.and free.stable
  have how := (own_held hf (f s.csr) s.params (some i) hid hg).and
    (free.own (fun _ _ h => h) (fun _ _ _ h => h) (fun _ _ _ h => h) (fun _ _ _ h => h) i)
  refine exec_leaves (Q := fun t => f t.csr = f s.csr) hst how ⟨⟨rfl, rfl, rfl, rfl⟩, rfl, hn⟩ (fun _ hu => hu.2.1) ?halted
    ?finish he
  case halted =>
    rintro u ⟨⟨-, hr | ⟨hh, -⟩⟩, hb, -⟩
    · rw [hr.busy] at hb; cases hb
    · exact hh.view
  case finish =>
    rintro u code ⟨hh, hb, hnu⟩ -
    have hl := State.applyInputs_landed hb hnu
    simp only [finalState, finish_unreset code hb hnu]
    exact (hres _ code).trans ((hl.view hf).trans hh.view)

/-- The operand and configuration registers that no operation writes (10 R27). -/
def Csrs.operands (c : Csrs) : Quad × Word × Quad × Half × Quad × BitVec 4 :=
  (c.argLba, c.argCount, c.argBuf, c.geomCyl, c.totalLba, c.mode)

/-- The registers that SETGEOM alone writes (41 R145). -/
def Csrs.geometry (c : Csrs) : Byte × Byte := (c.geomHeads, c.geomSpt)

/-- While BUSY = 1 a write to an operand, geometry or mode register is dropped (10 R27). -/
theorem State.writeCsr_config_busy {s : State} (hb : s.busy = true) {r : Csr} (hr : r.isConfig = true) (w : Word) :
    s.writeCsr r w = { s with csr := { s.csr with cfgDrop := true } } := by
  cases r with
  | cmd | status | result | ctrl | lastStatus | idStatus => cases hr
  | _ => exact if_pos hb

theorem State.writeCsr_cmd_busy {s : State} (hb : s.busy = true) (w : Word) :
    s.writeCsr .cmd w = { s with csr := { s.csr with cmdOvr := true } } := if_pos hb

theorem State.writeCsr_cmd_idle {s : State} (hb : s.busy = false) (w : Word) : s.writeCsr .cmd w = s.accept w := by
  simp [State.writeCsr, hb]

/-- Settles O11: the drop rule of one write, and the registers that a whole operation holds. -/
theorem serialisedWrites : Obligations.SerialisedWrites := by
  refine ⟨fun s r w hb hr => State.writeCsr_config_busy hb hr w, fun s w hb => State.writeCsr_cmd_busy hb w, ?readOnly,
    fun s w => ⟨rfl, rfl⟩, ?operation⟩
  case readOnly =>
    intro s r w hr
    simp only [List.mem_cons, List.not_mem_nil, or_false] at hr
    rcases hr with rfl | rfl | rfl <;> rfl
  case operation =>
    intro i s t hn he
    have ho : t.csr.operands = s.csr.operands :=
      exec_view (fun _ => rfl) (fun _ _ => rfl) (fun _ _ _ _ => rfl) (fun _ _ _ _ => rfl) hn he
    have hgeo : (∀ heads spt, i ≠ .setgeom heads spt) → t.csr.geometry = s.csr.geometry := fun hi =>
      exec_view (fun _ => rfl) (fun _ _ => rfl) (fun _ _ _ _ => rfl) (fun a b h => absurd h (hi a b)) hn he
    simp only [Csrs.operands, Csrs.geometry, Prod.mk.injEq] at ho hgeo
    obtain ⟨h1, h2, h3, h4, h5, h6⟩ := ho
    exact ⟨h1, h2, h3, h4, h5, h6, hgeo⟩

/-- CMD_OVR, CFG_DROP and IE (10 R23, R25). -/
def Csrs.hostFlags (c : Csrs) : Bool × Bool × Bool := (c.cmdOvr, c.cfgDrop, c.ie)

/-- An operation runs with a silent host, and the host's flags are as given. -/
def State.silent (v : Bool × Bool × Bool) (s : State) : Prop := (s.inputs = [] ∧ s.csr.hostFlags = v) ∧ s.busy = true

/-- With no inputs left a cycle changes the records alone (log 11). -/
theorem State.applyInputs_nil {s : State} (h : s.inputs = []) : s.applyInputs = s := by
  simp only [State.applyInputs, h]

theorem silent_fine (v : Bool × Bool × Bool) : Fine (State.silent v) (State.silent v) where
  engine := fun s e h hp _ => ⟨h.1, State.busy_engine h.2 hp⟩
  ide := fun _ _ h => h
  buf := fun _ _ h => h
  clock := fun s h => by
    have ht : s.tick = s.endCycle := congrArg State.endCycle (State.applyInputs_nil h.1.1)
    have hb : s.tick.busy = true := by rw [ht]; exact h.2
    rw [show clock s = .ok () s.tick from if_pos hb, ht]
    exact h
  note := fun _ _ h _ => h
  sample := fun _ _ _ _ _ _ h => h
  status := fun _ _ h => h
  answer := takeAnswer_cases (fun _ _ h => h) fun _ h _ => h
  draw := fun _ _ h => h
  mem := fun _ _ _ h => h

/-- Settles O20: neither the pseudocode nor `finish` writes CMD_OVR, CFG_DROP or IE. -/
theorem flagsOnlyFromHost : Obligations.FlagsOnlyFromHost := by
  intro i s t hin he
  have hst := silent_fine s.csr.hostFlags
  have how := hst.own (fun _ _ h => h) (fun _ _ _ h => h) (fun _ _ _ h => h) (fun _ _ _ h => h) i
  have hflags : t.csr.hostFlags = s.csr.hostFlags := by
    refine exec_leaves (Q := fun t => t.csr.hostFlags = s.csr.hostFlags) hst.stable how ⟨⟨hin, rfl⟩, rfl⟩ (fun _ h => h.2)
      (fun _ h => h.1.2) (fun u code h _ => ?_) he
    have hfin : finish code u = .ok () (u.complete code).endCycle := by
      simp only [finish, State.applyInputs_nil h.1.1, h.2, if_true]
    simp only [finalState, hfin]
    exact h.1.2
  simpa only [Csrs.hostFlags, Prod.mk.injEq] using hflags

/-! ## CMD -/

theorem decodedOp_eq_some {w : Word} {i : Instr} : decodedOp w = some i ↔ decode w = .ok i := by
  unfold decodedOp
  cases decode w <;> simp

/-- Other agents' BUF accesses leave the registers and the coming inputs. -/
theorem State.agentPort_frame : ∀ (l : List AgentAccess) (s : State),
    (s.agentPort l).csr = s.csr ∧ (s.agentPort l).inputs = s.inputs
  | [], _ => ⟨rfl, rfl⟩
  | a :: l, s => by
    obtain ⟨hc, hi⟩ := State.agentPort_frame l (s.agentAccess a)
    have ha : (s.agentAccess a).csr = s.csr ∧ (s.agentAccess a).inputs = s.inputs := by
      cases a with
      | read a => unfold State.agentAccess; simp only []; split <;> exact ⟨rfl, rfl⟩
      | write a b => exact ⟨rfl, rfl⟩
    exact ⟨hc.trans ha.1, hi.trans ha.2⟩

/-- The inputs of a cycle that accepts a CMD write (10 R22): the accept effects, then the other agents' accesses. -/
theorem State.tick_accept {s : State} {off : Byte} {w : Word} {agent : List AgentAccess} {rest : List Input}
    (hb : s.busy = false) (hin : s.inputs = .cycle { rst := false, csr := some (.write off w), agent := agent } :: rest)
    (ho : csrAt off = some .cmd) :
    s.tick = (((({ s with inputs := rest } : State).accept w).record (.csrWrite off w)).agentPort agent).endCycle := by
  have hw : ({ s with inputs := rest } : State).writeOffset off w = ({ s with inputs := rest } : State).accept w := by
    simp only [State.writeOffset, ho]
    exact State.writeCsr_cmd_idle (s := { s with inputs := rest }) hb w
  simp only [State.tick, State.applyInputs, hin, State.applyPins, State.hostPort, State.hostAccess, hw, Bool.false_eq_true,
    if_false]

/-- The step of an accepted CMD write that decodes: the cycle, then the operation. -/
theorem step_accept {s : State} {off : Byte} {w : Word} {agent : List AgentAccess} {rest : List Input} {i : Instr}
    (hb : s.busy = false) (hin : s.inputs = .cycle { rst := false, csr := some (.write off w), agent := agent } :: rest)
    (ho : csrAt off = some .cmd) (hd : decode w = .ok i) :
    step s = exec i s.tick ∧ s.tick.busy = true ∧ s.tick.csr = { s.csr with done := false, cmd := w } ∧
      s.tick.inputs = rest ∧ ∀ j, s.tick.upcoming j = s.upcoming j := by
  have ht := State.tick_accept hb hin ho
  have hl := State.agentPort_landed agent ((({ s with inputs := rest } : State).accept w).record (.csrWrite off w))
  obtain ⟨hc, hi⟩ := State.agentPort_frame agent ((({ s with inputs := rest } : State).accept w).record (.csrWrite off w))
  have hbt : s.tick.busy = true := by rw [ht]; exact hl.busy
  have hct : s.tick.csr = { s.csr with done := false, cmd := w } := by rw [ht]; exact hc
  refine ⟨?_, hbt, hct, by rw [ht]; exact hi, fun j => ?_⟩
  · have hdt : decode s.tick.csr.cmd = .ok i := by rw [hct]; exact hd
    simp only [step, hb, Bool.false_eq_true, if_false, hbt, if_true, runCommand, hdt]
  · rw [ht]
    simp only [State.upcoming, State.endCycle_device, State.endCycle_deviceDraws, hl.device, hl.deviceDraws,
      State.record_device, State.record_deviceDraws, State.accept_device, State.accept_deviceDraws]

/-- Settles O6: the inputs of a cycle that accepts a CMD write, and the word that `withFetchWord` places. -/
theorem stepRunsDecoded : Obligations.StepRunsDecoded := by
  constructor
  · intro s off w agent rest i hb hin ho hd
    obtain ⟨h1, h2, h3, h4, h5⟩ := step_accept hb hin ho hd
    exact ⟨h1, h2, h3, h4, s.tick_params, h5⟩
  · intro s nbits w i hi
    have hd : decode (BitVec.ofNat 32 (w % 2 ^ nbits)) = .ok i := decodedOp_eq_some.mp hi
    exact (step_accept (s := s.withFetchWord nbits w) rfl rfl (by decide) hd).1

/-- Settles O8: an accepted CMD write is `State.accept`, and a dropped one sets CMD_OVR. -/
theorem cmdWrite : Obligations.CmdWrite := by
  refine fun s w => ⟨fun hb => ?_, fun hb => State.writeCsr_cmd_busy hb w, rfl⟩
  rw [State.writeCsr_cmd_idle hb]
  exact ⟨rfl, rfl, rfl, fun i => decodedOp_eq_some, rfl⟩

/-! ## The other registers -/

theorem loWord_and (a b : Quad) : loWord (a &&& b) = loWord a &&& loWord b := BitVec.extractLsb'_and
theorem hiWord_and (a b : Quad) : hiWord (a &&& b) = hiWord a &&& hiWord b := BitVec.extractLsb'_and

theorem loWord_getLsbD (q : Quad) {k : Nat} (hk : k < 32) : (loWord q).getLsbD k = q.getLsbD k := by
  simp [loWord, hk]

theorem hiWord_getLsbD (q : Quad) {k : Nat} (hk : k < 32) : (hiWord q).getLsbD k = q.getLsbD (32 + k) := by
  simp [hiWord, hk]

/-! A half of a split value is replaced alone (20 R62). -/

@[simp] theorem loWord_setLo (q : Quad) (w : Word) : loWord (setLo q w) = w := BitVec.extractLsb'_append_eq_right
@[simp] theorem hiWord_setLo (q : Quad) (w : Word) : hiWord (setLo q w) = hiWord q := BitVec.extractLsb'_append_eq_left
@[simp] theorem loWord_setHi (q : Quad) (w : Word) : loWord (setHi q w) = loWord q := BitVec.extractLsb'_append_eq_right
@[simp] theorem hiWord_setHi (q : Quad) (w : Word) : hiWord (setHi q w) = w := BitVec.extractLsb'_append_eq_left

/-- The writable bits of ARG_BUF (10 R26). -/
theorem bufMask_getLsbD {n k : Nat} (hn : 1 ≤ n) (hk : k < 64) : (bufMask n).getLsbD k = decide (k ≠ 0 ∧ k < n) := by
  obtain ⟨m, rfl⟩ := Nat.exists_eq_add_of_le' hn
  have hm : 2 ^ (m + 1) - 2 = 2 * (2 ^ m - 1) := by omega
  rw [bufMask, hm, BitVec.getLsbD_ofNat]
  cases k with
  | zero => simp
  | succ k => simp [hk, Nat.testBit_succ, Nat.testBit_two_pow_sub_one]

theorem loWord_bufMask {n k : Nat} (hn : 1 ≤ n) (hk : k < 32) :
    (loWord (bufMask n)).getLsbD k = decide (k ≠ 0 ∧ k < n) := by
  rw [loWord_getLsbD _ hk, bufMask_getLsbD hn (by omega)]

theorem hiWord_bufMask {n k : Nat} (hn : 1 ≤ n) (hk : k < 32) : (hiWord (bufMask n)).getLsbD k = decide (k + 32 < n) := by
  rw [hiWord_getLsbD _ hk, bufMask_getLsbD hn (by omega), Nat.add_comm 32 k]
  simp

theorem hiWord_bufMask_narrow {n : Nat} (hn : 1 ≤ n) (h : n ≤ 32) : hiWord (bufMask n) = 0 :=
  BitVec.eq_of_getLsbD_eq fun k hk => by
    have hz : ¬k + 32 < n := by omega
    simp [hiWord_bufMask hn hk, hz]

/-- With BUSY = 0 a write to an operand, geometry or mode register takes effect (10 R26, R28 to R30). -/
theorem State.writeCsr_config_idle {s : State} (hb : s.busy = false) {r : Csr} (hr : r.isConfig = true) (w : Word) :
    s.writeCsr r w = { s with csr := s.csr.writeConfig s.params.bufAw r w } := by
  have h : ¬s.busy = true := by simp [hb]
  cases r with
  | cmd | status | result | ctrl | lastStatus | idStatus => cases hr
  | _ => exact if_neg h

/-- Settles O12: each half of a split operand is written alone, and ARG_BUF through its mask. -/
theorem operandRegisters : Obligations.OperandRegisters := by
  refine ⟨fun s w hb => ?plain, fun s w hb hp ha => ?argBuf, rfl, rfl, rfl⟩
  case plain =>
    have write {r : Csr} (hr : r.isConfig = true) := State.writeCsr_config_idle hb hr w
    rw [write (r := .argLbaLo) rfl, write (r := .argLbaHi) rfl, write (r := .argCount) rfl]
    exact ⟨rfl, rfl, rfl, loWord_setLo _ _, hiWord_setHi _ _, rfl⟩
  case argBuf =>
    have hn : 1 ≤ s.params.bufAw := hp.1.1
    have write {r : Csr} (hr : r.isConfig = true) := State.writeCsr_config_idle hb hr w
    have lo : loWord s.csr.argBuf &&& loWord (bufMask s.params.bufAw) = loWord s.csr.argBuf := by rw [← loWord_and, ha]
    have hi : hiWord s.csr.argBuf &&& hiWord (bufMask s.params.bufAw) = hiWord s.csr.argBuf := by rw [← hiWord_and, ha]
    rw [write (r := .argBufLo) rfl, write (r := .argBufHi) rfl]
    simp only [State.readCsr, Csrs.writeConfig, loWord_and, hiWord_and, loWord_setLo, hiWord_setLo, loWord_setHi,
      hiWord_setHi, BitVec.getLsbD_and]
    refine ⟨fun k hk => ?_, fun k hk => ?_, hi, lo, fun h => ?_, trivial, trivial⟩
    · rw [loWord_bufMask hn hk]
    · rw [hiWord_bufMask hn hk]
    · rw [← hi, hiWord_bufMask_narrow hn h]; exact BitVec.and_zero

/-- The four bits of STATUS (10 R23). -/
theorem statusWord_bits (s : State) :
    s.statusWord.getLsbD 0 = s.busy ∧ s.statusWord.getLsbD 1 = s.csr.done ∧ s.statusWord.getLsbD 2 = s.csr.cmdOvr ∧
      s.statusWord.getLsbD 3 = s.csr.cfgDrop ∧ ∀ k, 4 ≤ k → s.statusWord.getLsbD k = false := by
  simp only [State.statusWord, BitVec.getLsbD_append]
  refine ⟨by simp, by simp, by simp, by simp, fun k hk => ?_⟩
  simp [show ¬k < 1 by omega, show ¬k - 1 < 1 by omega, show ¬k - 1 - 1 < 1 by omega, show ¬k - 1 - 1 - 1 < 1 by omega]

/-- Settles O10: the bits of STATUS, what writes it, and the `finish` that wins over them. -/
theorem statusRegister : Obligations.StatusRegister := by
  refine ⟨statusWord_bits, fun _ _ => rfl, fun s w r => ⟨fun hb => ?_, fun hb => ?_, fun hb hr => ?_⟩,
    fun s code hb hn => ⟨_, finish_unreset code hb hn, rfl, rfl⟩, fun _ h => h.notBoth, rfl⟩
  · rw [State.writeCsr_cmd_idle hb]; exact ⟨rfl, rfl⟩
  · rw [State.writeCsr_cmd_busy hb]
  · rw [State.writeCsr_config_busy hb hr]

/-- Settles O15: CTRL is IE alone, and irq follows DONE and IE. -/
theorem interruptOutput : Obligations.InterruptOutput := by
  refine ⟨fun s w => ⟨?ieBit, ?otherBits, rfl, rfl, rfl, fun hw => ?clearDone, fun hb => ?accept, fun hd => ?setIe⟩, rfl,
    rfl, fun _ => ⟨rfl, rfl⟩⟩
  case ieBit => simp [State.readCsr]
  case otherBits =>
    intro k hk
    simp [State.readCsr, show k ≠ 0 by omega]
  case clearDone => simp [State.irq, State.writeCsr, Csrs.clearStatus, hw]
  case accept => rw [State.writeCsr_cmd_idle hb]; rfl
  case setIe => simp [State.irq, State.writeCsr, hd]

/-! ## Reset -/

theorem State.reset_atReset : State.reset.AtReset := ⟨⟨0, 0, rfl⟩, ⟨0, none, rfl⟩, rfl, rfl, rfl⟩

theorem State.blockReset_atReset (s : State) : s.blockReset.AtReset :=
  ⟨⟨s.freeDraws, 0, rfl⟩, ⟨s.freeDraws, none, rfl⟩, rfl, rfl, rfl⟩

/-- STATUS reads 0 where none of its bits is set. -/
theorem statusWord_zero {s : State} (hb : s.busy = false) (hd : s.csr.done = false) (ho : s.csr.cmdOvr = false)
    (hf : s.csr.cfgDrop = false) : s.statusWord = 0 := by
  rw [State.statusWord, hb, hd, ho, hf]
  rfl

/-- Settles O16: the values of `State.AtReset`. -/
theorem resetValues : Obligations.ResetValues := by
  intro s t h
  have ht : t.AtReset := h.elim (fun e => e ▸ State.reset_atReset) fun e => e ▸ s.blockReset_atReset
  obtain ⟨⟨k, w, hc⟩, ⟨k', p, he⟩, hi, hv, hb⟩ := ht
  have hs : t.readCsr .status = 0 :=
    statusWord_zero (by rw [State.busy, he]; rfl) (by rw [hc]; rfl) (by rw [hc]; rfl) (by rw [hc]; rfl)
  simp only [State.irq, hc, he, hi]
  exact ⟨rfl, hs, rfl, rfl, rfl, rfl, rfl, rfl, rfl, rfl, rfl, rfl, rfl, rfl, rfl, rfl, rfl, rfl, rfl, rfl, rfl, hv, rfl, hb⟩

theorem CycleTimes.clamp_wf (t : CycleTimes) : t.clamp.wf :=
  ⟨le_max_left _ _, le_max_left _ _, le_max_left _ _, le_max_left _ _⟩

/-- The parameters of the machine after reset meet the constraints of 00 R10. -/
theorem configParams_wf : Config.params.wf :=
  ⟨⟨le_min (by decide) (le_max_left _ _), min_le_left _ _⟩, CycleTimes.clamp_wf _, CycleTimes.clamp_wf _,
    CycleTimes.clamp_wf _, CycleTimes.clamp_wf _, le_max_left _ _, le_max_left _ _, le_max_left _ _, le_max_left _ _,
    le_max_left _ _, le_max_left _ _, le_max_left _ _, le_max_left _ _⟩

/-- Settles O24: nothing runs and nothing is recorded after reset. -/
theorem resetMeetsInvariant : Obligations.ResetMeetsInvariant where
  params := configParams_wf
  memWf := rfl
  memBelow := rfl
  argBuf := BitVec.zero_and
  notBoth := fun h => nomatch h.1
  noOp := fun _ => ⟨rfl, rfl⟩
  ports := ⟨rfl, rfl⟩
  bufPort := fun _ => rfl
  bufAccess := rfl
  lastStatus := rfl
  result := rfl
  legal := by decide

end Sys2Proof.Machine
end

section
/-! SUPPORT. The proofs about the memory map (20_memory.md): BUF as bytes, its access primitives, the access that is never
answered, the races with other agents, and the CSR window. -/

namespace Sys2Proof.Machine

/-! ## BUF as bytes -/

theorem Memory.wfFrom_cons {lo k : Nat} {b : Byte} {rest : Memory} :
    Memory.wfFrom lo ((k, b) :: rest) = true ↔
      lo ≤ k ∧ b ≠ unlistedByte ∧ Memory.wfFrom (k + 1) rest = true := by
  simp [Memory.wfFrom, and_assoc]

theorem Memory.read_cons (k : Nat) (b : Byte) (rest : Memory) (a : Nat) :
    Memory.read ((k, b) :: rest) a = if a = k then b else rest.read a := rfl

/-- A listed byte reads differently from a canonical memory whose keys are all above it. -/
theorem Memory.read_cons_ne {lo lo' k : Nat} {b : Byte} {rest m : Memory}
    (h : Memory.wfFrom lo ((k, b) :: rest) = true) (hm : Memory.wfFrom lo' m = true) (hk : k < lo') :
    Memory.read ((k, b) :: rest) k ≠ m.read k := by
  obtain ⟨-, hb, -⟩ := Memory.wfFrom_cons.mp h
  rw [Memory.read_of_lt hm hk, Memory.read_cons, if_pos rfl]
  exact hb

/-- A canonical memory is determined by its bytes (20 R65): the lists agree key by key, since a key that one of them lacks
reads differently there. -/
theorem Memory.eq_of_read : ∀ {m m' : Memory} {lo lo' : Nat}, Memory.wfFrom lo m = true → Memory.wfFrom lo' m' = true →
    (∀ a, m.read a = m'.read a) → m = m'
  | [], [], _, _, _, _, _ => rfl
  | [], (k, _) :: _, _, _, _, hm', h => absurd (h k).symm (Memory.read_cons_ne hm' (lo' := k + 1) rfl k.lt_succ_self)
  | (k, _) :: _, [], _, _, hm, _, h => absurd (h k) (Memory.read_cons_ne hm (lo' := k + 1) rfl k.lt_succ_self)
  | (k, b) :: rest, (k', b') :: rest', _, _, hm, hm', h => by
    obtain ⟨-, hb, hr⟩ := Memory.wfFrom_cons.mp hm
    obtain ⟨-, hb', hr'⟩ := Memory.wfFrom_cons.mp hm'
    rcases Nat.lt_trichotomy k k' with hlt | rfl | hgt
    · exact absurd (h k) (Memory.read_cons_ne hm (Memory.wfFrom_cons.mpr ⟨le_rfl, hb', hr'⟩) hlt)
    · have hbyte : b = b' := by simpa only [Memory.read_cons, if_true] using h k
      have hrest : rest = rest' := Memory.eq_of_read hr hr' fun a => by
        by_cases ha : a = k
        · subst ha
          rw [Memory.read_of_lt hr a.lt_succ_self, Memory.read_of_lt hr' a.lt_succ_self]
        · simpa only [Memory.read_cons, ha, if_false] using h a
      rw [hbyte, hrest]
    · exact absurd (h k').symm (Memory.read_cons_ne hm' (Memory.wfFrom_cons.mpr ⟨le_rfl, hb, hr⟩) hgt)

/-- Settles O26: read after write, the form that a write keeps, and extensionality. -/
theorem bufBytes : Obligations.BufBytes :=
  ⟨fun _ a b v hm => ⟨Memory.wf_write hm a v, Memory.wf_read_write hm a v b⟩, fun _ _ hm hm' h => Memory.eq_of_read hm hm' h⟩

/-! ## The BUF primitives -/

/-- The two bytes of a word written, and every other byte as before (20 R66). -/
theorem Memory.read_writeHalf {m : Memory} (hm : m.wf = true) (size a : Nat) (v : Half) (b : Nat) :
    (m.writeHalf size a v).read b =
      if b = (a + 1) % size then v.hi else if b = a % size then v.lo else m.read b := by
  rw [Memory.writeHalf, Memory.wf_read_write (Memory.wf_write hm _ _), Memory.wf_read_write hm]

/-- Where no status byte is read, LAST_STATUS stays with the other registers. -/
theorem Progress.kernel_same {k : Nat} {es : List Event} {s t : State} (h : Progress k es s t)
    (hs : statusFrom s.csr.lastStatus es = s.csr.lastStatus) : t.csr.kernel = s.csr.kernel := by
  rw [h.kernelEq, hs]
  rfl

/-- Settles O27: undisturbed, each primitive makes its one event, and BUF changes by that event alone. -/
theorem bufPrimitives : Obligations.BufPrimitives := by
  intro s a v hb hu hm hr hwf _
  have hcalm : s.calm := ⟨hb, (Bool.and_eq_true_iff.mp hu).1⟩
  constructor
  · obtain ⟨t, e, ha⟩ := memRead_calm a hcalm hm hr
    exact ⟨t, e, ha.mem, ha.kernel_same rfl, ha.events⟩
  · obtain ⟨t, e, ha⟩ := memWrite_calm a v hcalm hm
    have hmem : t.mem = s.mem.writeHalf s.bufSize a v := ha.mem.trans (Memory.writeHalf_mod _ _ _ _)
    exact ⟨t, e, ha.kernel_same rfl, ha.events, fun b => by rw [hmem, Memory.read_writeHalf hwf]⟩

/-! ## The access that is never answered -/

/-- While an operation runs with a silent outside, what it started with: the registers, BUF, the parameters and the memory's
answers are those of `s0`. -/
structure State.Unmoved (s0 s : State) : Prop where
  busy : s.busy = true
  inputs : s.inputs = []
  csr : s.csr = s0.csr
  mem : s.mem = s0.mem
  params : s.params = s0.params
  bufAnswers : s.bufAnswers = s0.bufAnswers

theorem State.Unmoved.engine {s0 s : State} (h : s0.Unmoved s) (e : Engine) (hp : e.phase = s.eng.phase) :
    s0.Unmoved { s with eng := e } := { h with busy := State.busy_engine h.busy hp }

/-- Clock cycles with a silent outside pass, and nothing that an operation reads changes (log 11). -/
theorem hold_silent (n : Nat) {s0 s : State} (h : s0.Unmoved s) : ∃ t, hold n s = .ok () t ∧ s0.Unmoved t := by
  have hclock : Keeps s0.Unmoved (fun _ => False) clock := fun s h => by
    have ht : s.tick = s.endCycle := congrArg State.endCycle (State.applyInputs_nil h.inputs)
    have hc : clock s = .ok () s.endCycle := by simp only [clock, ht, State.endCycle_busy, h.busy, if_true]
    rw [hc]
    exact { h with }
  have hk := keeps_hold (fun _ e h hp _ => h.engine e hp) hclock n s h
  match hr : hold n s with
  | .ok _ t => exact ⟨t, rfl, by rw [hr] at hk; exact hk⟩
  | .error .halted t => rw [hr] at hk; exact hk.elim
  | .error (.raised e) t => exact absurd hr (hold_not_raised n s e t)

/-- An access that is never answered leaves the engine waiting with the access outstanding, and nothing else changed
(20 R71). -/
theorem bufHandshake_unanswered (a : BufAccess) {s : State} (ha : s.bufAnswers = []) (hw : s.params.bufWait = none) :
    bufHandshake a s = .error .halted { s with buf := some a } := by
  have ht : takeAnswer { s with buf := some a } = .ok none { s with buf := some a } := by simp only [takeAnswer, ha, hw]
  rw [bufHandshake, bind_ok (modify_run _ _), bind_ok ht]
  rfl

theorem memWrite_unanswered (a : Nat) (v : Half) {s : State} (ha : s.bufAnswers = []) (hw : s.params.bufWait = none) :
    memWrite a v s = .error .halted { s with buf := some (.write (a % s.bufSize) v) } := by
  rw [memWrite, get_bind, bind_error (bufHandshake_unanswered _ ha hw)]

theorem copyIdWord_unanswered (i : Nat) {s : State} (ha : s.bufAnswers = []) (hw : s.params.bufWait = none) :
    copyIdWord i s = .error .halted
      { s with
        eng := { s.eng with word := i }
        buf := some (.write ((s.bufAddr + 2 * i) % s.bufSize) (s.csr.idbuf.toList.getD i 0)) } := by
  rw [copyIdWord, bind_ok (setEngine_run _ _), get_bind]
  exact memWrite_unanswered _ _ ha hw

/-- GETID stays at its first access (20 R71, 41 R144). -/
theorem bodyGetid_unanswered {s : State} (hv : s.csr.idValid = true) (ha : s.bufAnswers = [])
    (hw : s.params.bufWait = none) :
    bodyGetid s = .error .halted
      { s with
        eng := { s.eng with step := some .copyOut, word := 0 }
        buf := some (.write (s.bufAddr % s.bufSize) s.csr.idbuf[0]) } := by
  have hword : s.csr.idbuf.toList.getD 0 0 = s.csr.idbuf[0] := by simp [List.getD]
  have hloop : forRange copyIdWord wordsPerSector 0 { s with eng := { s.eng with step := some .copyOut } } =
      .error .halted _ := bind_error (copyIdWord_unanswered 0 ha hw)
  rw [bodyGetid, get_bind]
  simp only [hv, Bool.not_true, Bool.false_eq_true, if_false]
  rw [bind_ok (goto_run _ _), bind_error hloop, hword]
  rfl

/-- An operation whose pseudocode stays waiting after the start latency is left there: `finish` never comes (20 R71). -/
theorem exec_halted {i : Instr} {s t u : State}
    (hs : hold (s.entered (some i)).params.startLatency (s.entered (some i)) = .ok () t)
    (hb : bodyOf i t = .error .halted u) : exec i s = .next u := by
  have he : enter (some i) s = .ok () (s.entered (some i)) := rfl
  have hc : codeOf (bodyOf i) t = .error .halted u := by simp only [codeOf, hb]
  have hop : operation i (bodyOf i) s = .error .halted u := by
    rw [operation, bind_ok he, get_bind, bind_ok hs, bind_error hc]
  rw [exec_eq, finalState, hop]

/-- Settles O28: GETID's first access, and a cycle without reset of any state that executes. -/
theorem unansweredAccessWaits : Obligations.UnansweredAccessWaits := by
  constructor
  · intro s hin ha hw hv
    obtain ⟨t, e, ht⟩ := hold_silent _ (show s.Unmoved (s.entered (some .getid)) from ⟨rfl, hin, rfl, rfl, rfl, rfl⟩)
    have hbody : bodyOf .getid t = .error .halted _ :=
      bodyGetid_unanswered (by rw [ht.csr]; exact hv) (ht.bufAnswers.trans ha) (by rw [ht.params]; exact hw)
    refine ⟨_, exec_halted e hbody, ht.busy, ht.csr, ht.mem, ?_⟩
    simp only [State.bufAddr, State.bufSize, ht.csr, ht.params]
  · intro s hb hr
    have hl := State.tick_landed hb hr
    exact ⟨if_pos hb, hl.busy.trans hb, (congrArg Csrs.result hl.kernel :), hl.done, hl.buf⟩

/-! ## Races -/

/-- Two offsets that lead to one address, mod `n`, differ by a multiple of `n`: the smallest is the one that
`State.inRunningRange` computes (20 R74). -/
theorem wrapped_offset {n a b : Nat} (ha : a < n) :
    (b + (a + n - b % n) % n) % n = a ∧ ∀ j, a = (b + j) % n → (a + n - b % n) % n ≤ j := by
  have hn : 0 < n := Nat.zero_lt_of_lt ha
  have hoff : (b + (a + n - b % n) % n) % n = a := by
    have hb : b % n < n := Nat.mod_lt b hn
    rw [Nat.add_mod_mod, ← Nat.mod_add_mod, show b % n + (a + n - b % n) = a + n by omega, Nat.add_mod_right,
      Nat.mod_eq_of_lt ha]
  refine ⟨hoff, fun j hj => ?_⟩
  have hmod : (a + n - b % n) % n ≡ j [MOD n] := Nat.ModEq.add_left_cancel' b (hoff.trans hj)
  calc (a + n - b % n) % n = (a + n - b % n) % n % n := (Nat.mod_mod _ _).symm
    _ = j % n := hmod
    _ ≤ j := Nat.mod_le j n

/-- The range of a running operation: its bytes from ARG_BUF on, mod 2^BUF_AW (20 R74). -/
theorem State.inRunningRange_iff {s : State} (hb : s.busy = true) {a : Nat} (ha : a < s.bufSize) :
    s.inRunningRange a = true ↔ ∃ j, j < s.bufSpan ∧ a = (s.bufAddr + j) % s.bufSize := by
  obtain ⟨hoff, hleast⟩ := wrapped_offset (b := s.bufAddr) ha
  simp only [State.inRunningRange, hb, Bool.true_and, decide_eq_true_eq]
  exact ⟨fun h => ⟨_, h, hoff.symm⟩, fun ⟨j, hj, he⟩ => (hleast j he).trans_lt hj⟩

/-- How many bytes an operation moves (42 R174, 41 R144). -/
theorem State.bufSpan_of_op {s : State} {i : Instr} (h : s.eng.op = some i) :
    s.bufSpan = if i = .read ∨ i = .write then s.sectors * 512 else if i = .getid then 512 else 0 := by
  unfold State.bufSpan
  rw [h]
  cases i <;> rfl

theorem State.mem_oldBytes {s : State} {a : Nat} {v : Byte} : v ∈ s.oldBytes a ↔ (a, v) ∈ s.raced := by
  simp [State.oldBytes]

/-- The engine's read takes the byte of BUF or one of those kept, and changes no more than the count of free values
(20 R74, log 13). -/
theorem takeByte_spec (a : Nat) (s : State) :
    ∃ v n, takeByte a s = .ok v { s with freeDraws := n } ∧ v ∈ s.mem.read a :: s.oldBytes a := by
  unfold takeByte
  split
  · exact ⟨_, s.freeDraws, rfl, List.mem_cons_self⟩
  · rename_i old olds ho
    have hlt : Config.freeChoice s.freeDraws % (olds.length + 2) < (s.mem.read a :: old :: olds).length :=
      Nat.mod_lt _ (Nat.succ_pos _)
    refine ⟨_, s.freeDraws + 1, rfl, ?_⟩
    rw [ho, List.getD_eq_getElem _ _ hlt]
    exact List.getElem_mem hlt

/-- Settles O29: the range, the bytes kept, the engine's read and other agents' reads. -/
theorem bufRaces : Obligations.BufRaces := by
  refine ⟨fun s w i hb hd => ?accepted, fun s i a hb hi ha => ?range, fun s a b hop hin hwf => ?kept,
    fun s a => ?engineRead, fun s a hout => ?outside, fun s a hin => ?inside⟩
  case accepted =>
    rw [State.writeCsr_cmd_idle hb]
    exact ⟨rfl, decodedOp_eq_some.mpr hd⟩
  case range => rw [State.inRunningRange_iff hb ha, State.bufSpan_of_op hi]
  case kept => exact ⟨(Memory.wf_read_write hwf _ _ _).trans (if_pos rfl), if_pos ⟨hop, hin⟩⟩
  case engineRead =>
    obtain ⟨v, n, e, hv⟩ := takeByte_spec a s
    have hcases : v = s.mem.read a ∨ (a, v) ∈ s.raced :=
      (List.mem_cons.mp hv).imp_right State.mem_oldBytes.mp
    exact ⟨v, _, e, hcases, rfl, rfl, rfl, fun hno => hcases.resolve_right (hno v)⟩
  case outside => simp only [State.agentAccess, hout, Bool.false_eq_true, if_false]
  case inside => exact ⟨Config.freeByte s.freeDraws, if_pos hin⟩

/-! ## The CSR window -/

theorem csrAt_offset (r : Csr) : csrAt r.offset = some r := by cases r <;> rfl

theorem csrAt_congr {off off' : Byte} (h : off.extractLsb' 2 6 = off'.extractLsb' 2 6) : csrAt off = csrAt off' := by
  simp only [csrAt, h]

/-- No register is at 0x44 and above (10 R21). -/
theorem csrAt_unmapped {off : Byte} (h : 0x44 ≤ off.toNat) : csrAt off = none := by
  have hword : 17 ≤ (off.extractLsb' 2 6).toNat := by
    have hlt := off.isLt
    rw [BitVec.extractLsb'_toNat, Nat.shiftRight_eq_div_pow]
    omega
  obtain ⟨n, hn⟩ := Nat.exists_eq_add_of_le' hword
  simp only [csrAt, hn]

theorem State.readOffset_offset (s : State) (r : Csr) : s.readOffset r.offset = s.readCsr r := by
  rw [State.readOffset, csrAt_offset]

/-- A 256-byte window's addresses are its offsets (60 R224, log 14). -/
theorem State.select_inside (s : State) (off : Byte) (w : Word) :
    s.select (.read (s.params.csrBase + off.toNat)) = some (.read off) ∧
      s.select (.write (s.params.csrBase + off.toNat) w) = some (.write off w) := by
  have hin : s.params.csrBase ≤ s.params.csrBase + off.toNat ∧
      s.params.csrBase + off.toNat < s.params.csrBase + 256 := ⟨Nat.le_add_right _ _, Nat.add_lt_add_left off.isLt _⟩
  have hoff : BitVec.ofNat 8 (s.params.csrBase + off.toNat - s.params.csrBase) = off := by
    rw [Nat.add_sub_cancel_left, BitVec.ofNat_toNat, BitVec.setWidth_eq]
  simp only [State.select, hin, and_self, if_true, hoff]

theorem State.select_outside (s : State) {a : Nat} (w : Word)
    (h : a < s.params.csrBase ∨ s.params.csrBase + 256 ≤ a) :
    s.select (.read a) = none ∧ s.select (.write a w) = none := by
  have hout : ¬(s.params.csrBase ≤ a ∧ a < s.params.csrBase + 256) := by omega
  exact ⟨if_neg hout, if_neg hout⟩

/-- An access by address is a cycle in which nothing but the port's access happens (60 R224). -/
theorem State.tick_bus {s : State} {a : BusAccess} {rest : List Input} (h : s.inputs = .bus a :: rest) :
    s.tick = ({ s with inputs := .cycle { rst := false, csr := s.select a, agent := [] } :: rest } : State).tick := by
  simp only [State.tick, State.applyInputs, h]
  rfl

/-- Settles O14: the map offset by offset, what the read-only registers return, and accesses by address. -/
theorem csrWindow : Obligations.CsrWindow := by
  refine ⟨rfl, fun s => ⟨s.readOffset_offset .result, ?lastStatus, ?idStatus⟩, State.select_inside,
    fun s _ w h => s.select_outside w h, fun _ _ _ => State.tick_bus, fun _ _ => csrAt_congr, csrAt_offset, ?unmapped,
    fun _ _ => rfl⟩
  case lastStatus =>
    rw [show s.readOffset 0x3C = s.csr.lastStatus.setWidth 32 from s.readOffset_offset .lastStatus]
    exact BitVec.setWidth_eq_append (by decide)
  case idStatus =>
    rw [show s.readOffset 0x40 = (BitVec.ofBool s.csr.idValid).setWidth 32 from s.readOffset_offset .idStatus]
    cases s.csr.idValid <;> rfl
  case unmapped =>
    intro s off w h
    simp only [State.readOffset, State.writeOffset, csrAt_unmapped h, and_self]

end Sys2Proof.Machine
end

section
/-! SUPPORT. The proofs about the encoding (30_encoding.md): the CMD word of an operation, the words that decode, the host
assembly, and how an Illegal word finishes. -/

namespace Sys2Proof.Machine

/-! ## From an operation to its word and back -/

/-- The decoder on the word built from the four fields that operations use: R0 and R1 are 0 there (30 R80). -/
theorem decode_cmdWord (op : BitVec 4) (reg : IdeReg) (val val2 : Byte) :
    decode (cmdWord op reg val val2) = decodeFields 0 val2 val 0 reg op := by
  rw [cmdWord_eq, decode_wordOf]

/-- A register number in range comes back from its three-bit field (30 R84). -/
theorem ideReg_toNat {reg : Nat} (h : reg < 8) : (BitVec.ofNat 3 reg).toNat = reg :=
  (BitVec.toNat_ofNat _ _).trans (Nat.mod_eq_of_lt h)

/-- Settles O1: every operation's word passes its own must-be-zero test, and its operands come back from their fields. -/
theorem encodeThenDecode : Obligations.EncodeThenDecode := by
  intro i hi
  cases i with
  | regRd8 reg | regWr8 reg val | regRd16 reg =>
    have hreg : reg < 8 := of_decide_eq_true hi
    simp [encode, decode_cmdWord, decodeFields, ideReg_toNat hreg]
  | setgeom heads spt | identify | read | write | flushDev | reset | getid =>
    simp [encode, decode_cmdWord, decodeFields]

/-! ## From a word to its operation and back -/

/-- The reserved OP values are those that name no operation (30 R81). -/
theorem opInstr_eq_none {w : Word} : opInstr w = none ↔ (cmdOp w).toNat ∈ [0x0, 0xB, 0xC, 0xD, 0xE, 0xF] := by
  have hlt : (cmdOp w).toNat < 16 := (cmdOp w).isLt
  unfold opInstr
  interval_cases (cmdOp w).toNat <;> simp

theorem fieldsLegal_reserved {w : Word} (h : (cmdOp w).toNat ∈ [0x0, 0xB, 0xC, 0xD, 0xE, 0xF]) :
    fieldsLegal w = false := by
  simp only [List.mem_cons, List.not_mem_nil, or_false] at h
  rcases h with h | h | h | h | h | h <;> simp only [fieldsLegal, h]

/-- A reserved OP is rejected before any field is looked at (30 R82). -/
theorem decode_reserved {w : Word} (h : opInstr w = none) : decode w = .error .reservedOp := by
  unfold decode
  rw [h]
  cases opRow (cmdOp w) <;> rfl

/-- A legal OP names its operation where the fields it does not use are 0, and is rejected where they are not
(30 R82, R83). -/
theorem decode_legal {w : Word} {i : Instr} (h : opInstr w = some i) :
    decode w = if fieldsLegal w then .ok i else .error .nonzeroField := by
  rw [eq_wordOf w, decode_wordOf]
  unfold opInstr at h
  split at h
  case h_11 => cases h
  all_goals
    cases h
    simp [decodeFields, fieldsLegal, *, and_assoc, and_comm, and_left_comm]

/-- What a word must be to decode to an operation (30 R82). -/
theorem decode_eq_ok {w : Word} {i : Instr} : decode w = .ok i ↔ opInstr w = some i ∧ fieldsLegal w = true := by
  cases hi : opInstr w with
  | none => simp [decode_reserved hi]
  | some j => cases hl : fieldsLegal w <;> simp [decode_legal hi, hl]

/-- The three-bit REG field holds a register number in range, and no other operand has a range (30 R84). -/
theorem opInstr_wellFormed {w : Word} {i : Instr} (h : opInstr w = some i) : i.WellFormed := by
  have hreg : (cmdReg w).toNat < 8 := (cmdReg w).isLt
  unfold opInstr at h
  split at h
  case h_1 | h_2 | h_3 =>
    cases h
    exact decide_eq_true hreg
  all_goals cases h
  all_goals rfl

/-- The operation's own word has the OP and the operand fields of a word that names it, so the two differ in the fields that
must be 0 alone (30 R80, R81). -/
theorem encode_opInstr {w : Word} {i : Instr} (h : opInstr w = some i) (hl : fieldsLegal w = true) : encode i = w := by
  rw [eq_wordOf w]
  unfold opInstr at h
  split at h
  case h_11 => cases h
  all_goals
    cases h
    simp_all only [fieldsLegal, encode, cmdWord_eq, wordOf_inj, Bool.and_eq_true, decide_eq_true_eq, BitVec.ofNat_toNat,
      BitVec.setWidth_eq, true_and]
    exact BitVec.eq_of_toNat_eq (by simp [*])

/-- Settles O2: the operation is read from OP and the operand fields, and the other fields of a word that decodes are 0. -/
theorem decodeThenEncode : Obligations.DecodeThenEncode := by
  intro w i h
  obtain ⟨hi, hl⟩ := decode_eq_ok.mp h
  exact ⟨opInstr_wellFormed hi, encode_opInstr hi hl⟩

/-- Settles O3: a reserved OP, or a legal one with its fields tested. -/
theorem illegalWords : Obligations.IllegalWords := by
  intro w
  cases hi : opInstr w with
  | none =>
    have hres := opInstr_eq_none.mp hi
    have hl := fieldsLegal_reserved hres
    exact ⟨by simp [decode_eq_ok, hl], fun _ => decode_reserved hi, fun _ hn => absurd hres hn⟩
  | some i =>
    have hres : (cmdOp w).toNat ∉ [0x0, 0xB, 0xC, 0xD, 0xE, 0xF] := fun h => by simp [opInstr_eq_none.mpr h] at hi
    exact ⟨by simp [decode_eq_ok, hi], fun h => absurd h hres, fun hl _ => by simp [decode_legal hi, hl]⟩

/-- Settles O4: closed words, one by one through the decoder. -/
theorem specWordsDecode : Obligations.SpecWordsDecode := by
  unfold Obligations.SpecWordsDecode
  decide

/-! ## The host assembly -/

/-- A CMD word as the host assembly builds it: each field shifted to its place (30 R80, R88). -/
theorem cmdWord_eq_shifted (op : BitVec 4) (reg : IdeReg) (val val2 : Byte) :
    cmdWord op reg val val2 =
      val2.setWidth 32 <<< 16 ||| val.setWidth 32 <<< 8 ||| reg.setWidth 32 <<< 4 ||| op.setWidth 32 := by
  rw [← BitVec.setWidth_eq (cmdWord op reg val val2)]
  simp only [cmdWord, BitVec.setWidth_append_eq_shiftLeft_setWidth_or, BitVec.shiftLeft_or_distrib, ← BitVec.shiftLeft_add]
  simp

/-- A register number in range is the host's value of its three-bit field (30 R84). -/
theorem ofNat_eq_ideReg {r : Nat} (h : r < 8) : BitVec.ofNat 32 r = (BitVec.ofNat 3 r).setWidth 32 := by
  apply BitVec.eq_of_toNat_eq
  rw [BitVec.toNat_setWidth, ideReg_toNat h, BitVec.toNat_ofNat]

/-- Settles O5: the shifts of each statement put the operands into the fields of the operation's word. -/
theorem assemblyWritesCmd : Obligations.AssemblyWritesCmd := by
  refine ⟨fun r hr => ?raw, fun h s => ?setgeom, rfl, rfl, rfl, rfl, rfl, rfl⟩
  case raw =>
    rw [ofNat_eq_ideReg hr]
    simp [HostStmt.expand, encode, cmdWord_eq_shifted, Csr.offset]
  case setgeom => simp [HostStmt.expand, encode, cmdWord_eq_shifted, Csr.offset]

/-! ## An Illegal word -/

/-- After `finish` with no event before it, the operation has finished with that code and used nothing (60 R212). -/
theorem Closed.finished {code : Word} {s t : State} (h : Closed code s t) : Finished code 0 [] s t where
  idle := h.idle
  done := h.done
  result := h.result
  params := h.params
  stream := fun j => by rw [h.stream, Nat.zero_add]
  events := h.events

/-- Two starts with the same parameters, device values and engine events count an operation's values and events alike. -/
theorem Finished.of_start {code : Word} {k : Nat} {es : List Event} {s s' t : State} (h : Finished code k es s' t)
    (hp : s'.params = s.params) (hu : ∀ j, s'.upcoming j = s.upcoming j) (he : s'.engineEvents = s.engineEvents) :
    Finished code k es s t where
  idle := h.idle
  done := h.done
  result := h.result
  params := h.params.trans hp
  stream := fun j => (h.stream j).trans (hu _)
  events := by rw [h.events, he]

/-- An Illegal operation is `finish` alone (30 R82). -/
theorem runIllegal_closed {s : State} (hu : s.undisturbed = true) :
    ∃ t, runIllegal s = .next t ∧ Closed Err.illegal.code s t := by
  obtain ⟨u, e, hn⟩ := enter_calm none hu
  obtain ⟨t, e', hc⟩ := finish_calm Err.illegal.code hn.calm
  refine ⟨t, ?_, hc.idle, hc.done, by rw [hc.kernel, hn.kernel], hc.params.trans hn.params,
    fun j => (hc.stream j).trans (hn.stream j), by rw [hc.events, hn.events], hc.mem.trans hn.mem,
    hc.answers ∘ hn.answers⟩
  rw [runIllegal, finalState, bind_ok e, e']

theorem runCommand_illegal {s : State} {r : Reject} (h : decode s.csr.cmd = .error r) : runCommand s = runIllegal s := by
  simp only [runCommand, h]

/-- The step of an accepted CMD write, whatever the word: the cycle, then what the word stands for (10 R22, log 9). -/
theorem step_accepted {s : State} {off : Byte} {w : Word} {agent : List AgentAccess} {rest : List Input}
    (hb : s.busy = false) (hin : s.inputs = .cycle { rst := false, csr := some (.write off w), agent := agent } :: rest)
    (ho : csrAt off = some .cmd) :
    step s = runCommand s.tick ∧ s.tick.csr = { s.csr with done := false, cmd := w } := by
  have ht := State.tick_accept hb hin ho
  obtain ⟨hc, -⟩ := State.agentPort_frame agent ((({ s with inputs := rest } : State).accept w).record (.csrWrite off w))
  have hbt : s.tick.busy = true := by
    rw [ht]
    exact (State.agentPort_landed agent _).busy
  refine ⟨by simp only [step, hb, hbt, Bool.false_eq_true, if_false, if_true], ?_⟩
  rw [ht]
  exact hc

/-- Undisturbed, a cycle that accepts a CMD write has the accept effects alone, and leaves the operation undisturbed. -/
theorem State.tick_accept_undisturbed {s : State} {off : Byte} {w : Word} {agent : List AgentAccess} {rest : List Input}
    (hb : s.busy = false) (hin : s.inputs = .cycle { rst := false, csr := some (.write off w), agent := agent } :: rest)
    (ho : csrAt off = some .cmd) (hu : s.undisturbed = true) :
    s.tick = ((({ s with inputs := rest } : State).accept w).record (.csrWrite off w)).endCycle ∧
      s.tick.undisturbed = true := by
  obtain ⟨hq, -⟩ := Bool.and_eq_true_iff.mp hu
  rw [State.quiet, hin, List.all_cons] at hq
  obtain ⟨hagent, hrest⟩ := Bool.and_eq_true_iff.mp hq
  obtain rfl : agent = [] := List.isEmpty_iff.mp hagent
  have ht : s.tick = ((({ s with inputs := rest } : State).accept w).record (.csrWrite off w)).endCycle :=
    State.tick_accept hb hin ho
  refine ⟨ht, ?_⟩
  rw [ht]
  exact Bool.and_eq_true_iff.mpr ⟨hrest, rfl⟩

/-- Settles O9: the operation of an Illegal word is `finish` alone, and the cycle that accepts the word makes no event of the
engine and leaves BUF and the registers but STATUS and the latched word. -/
theorem illegalFinishes : Obligations.IllegalFinishes := by
  refine ⟨fun s r hu hd => ?latched, fun s off w agent rest r hb hin ho hd => ?written⟩
  case latched =>
    obtain ⟨t, e, hc⟩ := runIllegal_closed hu
    exact ⟨t, (runCommand_illegal hd).trans e, hc.finished, hc.kernel, hc.mem⟩
  case written =>
    obtain ⟨hs, hcsr⟩ := step_accepted hb hin ho
    have hcmd : s.tick.csr.cmd = w := congrArg Csrs.cmd hcsr
    refine ⟨hs, hcmd, fun hu => ?_⟩
    obtain ⟨ht, hut⟩ := State.tick_accept_undisturbed hb hin ho hu
    obtain ⟨t, e, hc⟩ := runIllegal_closed hut
    have he : step s = .next t := by rw [hs, runCommand_illegal (r := r) (by rw [hcmd, hd]), e]
    have hfin : Finished Err.illegal.code 0 [] s t :=
      hc.finished.of_start s.tick_params (fun j => by rw [ht]; rfl) (by rw [ht]; rfl)
    exact ⟨t, he, hfin, by rw [hc.kernel, hcsr]; rfl, by rw [hc.mem, ht]; rfl⟩

end Sys2Proof.Machine
end

section
/-! SUPPORT. The proofs about the bus cycles (40_bus_primitives.md): what one held phase is in a silent outside, under a block
reset and in cycles without reset, then the two bus cycles, `Idle(n)` and the raw register operations. -/

namespace Sys2Proof.Machine

/-! ## Clock cycles in which the outside does nothing, and the one of a block reset -/

/-- A cycle in which the outside does nothing. -/
def Input.silent : Input := .cycle { rst := false, csr := none, agent := [] }

/-- A cycle with `rst_n = 0`, and nothing else (70 R240). -/
def Input.cut : Input := .cycle { rst := true, csr := none, agent := [] }

/-- An operation runs, and the outside does nothing in the next `n` cycles. -/
def State.silentFor (n : Nat) (s : State) : Prop := s.busy = true ∧ ∀ i ∈ s.inputs.take n, i = Input.silent

/-- An operation runs, and after `j` cycles in which the outside does nothing a block reset cuts it. -/
def State.cutIn (j : Nat) (s : State) : Prop :=
  s.busy = true ∧ ∃ rest, s.inputs = List.replicate j Input.silent ++ Input.cut :: rest

/-- The state `n` silent cycles later, with the outputs held and the engine at `e`. -/
def State.passed (s : State) (n : Nat) (e : Engine) : State :=
  { s with
    eng := e
    inputs := s.inputs.drop n
    wave := List.replicate n s.sample ++ s.wave
    cycle := s.cycle + n }

/-- What a block reset leaves of an operation that it cuts at a state like `s`, as to events and the Device's values. -/
structure State.CutTo (s t : State) : Prop where
  trace : t.trace = s.resetEvents ++ s.trace
  stream : ∀ i, t.upcoming i = s.upcoming i

theorem State.silentFor.mono {m n : Nat} {s : State} (h : s.silentFor n) (hm : m ≤ n) : s.silentFor m :=
  ⟨h.1, fun i hi => h.2 i (List.take_subset_take_left _ hm hi)⟩

theorem State.silentFor.passed {m n : Nat} {s : State} (h : s.silentFor (n + m)) {e : Engine} (he : e.phase = .executing) :
    (s.passed n e).silentFor m :=
  ⟨(State.busy_iff _).mpr he, fun i hi => h.2 i (by
    rw [State.passed, List.take_drop] at hi
    exact List.mem_of_mem_drop hi)⟩

theorem State.silentFor_of_nil {s : State} (hb : s.busy = true) (h : s.inputs = []) (n : Nat) : s.silentFor n :=
  ⟨hb, by simp [h]⟩

theorem State.cutIn.silentFor {j n : Nat} {s : State} (h : s.cutIn j) (hn : n ≤ j) : s.silentFor n := by
  obtain ⟨hb, rest, hin⟩ := h
  refine ⟨hb, fun i hi => ?_⟩
  rw [hin, List.take_append_of_le_length (by simpa using hn)] at hi
  exact List.eq_of_mem_replicate (List.mem_of_mem_take hi)

theorem State.cutIn.passed {j n : Nat} {s : State} (h : s.cutIn j) (hn : n ≤ j) {e : Engine} (he : e.phase = .executing) :
    (s.passed n e).cutIn (j - n) := by
  obtain ⟨-, rest, hin⟩ := h
  refine ⟨(State.busy_iff _).mpr he, rest, ?_⟩
  rw [State.passed, hin, List.drop_append_of_le_length (by simpa using hn), List.drop_replicate]

/-- A silent cycle changes the records alone (log 11). -/
theorem clock_silent {s : State} (h : s.silentFor 1) :
    clock s = .ok () ({ s with inputs := s.inputs.drop 1 } : State).endCycle := by
  have ht : s.tick = ({ s with inputs := s.inputs.drop 1 } : State).endCycle := by
    cases hin : s.inputs with
    | nil => rw [State.tick, State.applyInputs_nil hin, List.drop_nil, ← hin]
    | cons i rest =>
      obtain rfl : i = Input.silent := h.2 i (by simp [hin])
      simp only [State.tick, State.applyInputs, hin]
      rfl
  have hb : s.tick.busy = true := by
    rw [ht]
    exact h.1
  rw [clock, if_pos hb, ht]

/-- The cycle of a block reset abandons the operation (70 R240). -/
theorem clock_cut {s : State} {rest : List Input} (h : s.inputs = Input.cut :: rest) :
    clock s = .error .halted ({ s with inputs := rest } : State).blockReset.endCycle := by
  have ht : s.tick = ({ s with inputs := rest } : State).blockReset.endCycle := by
    simp only [State.tick, State.applyInputs, h]
    rfl
  have hb : ¬s.tick.busy = true := by
    rw [ht, State.endCycle_busy, State.blockReset_busy]
    exact Bool.false_ne_true
  rw [clock, if_neg hb, ht]

/-- Holding the outputs for one cycle more: the first cycle, then the others. -/
theorem hold_succ_passed {n : Nat} {s : State} (h : s.silentFor 1) :
    ∃ e : Engine, e.phase = .executing ∧ hold (n + 1) s = hold n (s.passed 1 e) := by
  have h1 : ({ s with eng := { s.eng with count := n + 1 } } : State).silentFor 1 := ⟨State.busy_engine h.1 rfl, h.2⟩
  refine ⟨{ s.eng with count := n + 1 }, s.busy_iff.mp h.1, ?_⟩
  rw [hold, bind_ok (setEngine_run _ _), bind_ok (clock_silent h1)]
  rfl

theorem State.passed_passed (s : State) (m n : Nat) (e e' : Engine) : (s.passed m e).passed n e' = s.passed (m + n) e' := by
  have hw : List.replicate n s.sample ++ (List.replicate m s.sample ++ s.wave) =
      List.replicate (m + n) s.sample ++ s.wave := by
    rw [← List.append_assoc, List.replicate_append_replicate, Nat.add_comm]
  simp only [State.passed, List.drop_drop, Nat.add_assoc]
  rw [← hw]
  rfl

/-- Silent cycles change the records alone (log 11). -/
theorem hold_passed : ∀ (n : Nat) {s : State}, s.silentFor n →
    ∃ e : Engine, e.phase = .executing ∧ hold n s = .ok () (s.passed n e)
  | 0, s, h => ⟨s.eng, s.busy_iff.mp h.1, rfl⟩
  | n + 1, s, h => by
    obtain ⟨e, he, h1⟩ := hold_succ_passed (n := n) (h.mono (Nat.le_add_left 1 n))
    obtain ⟨e', he', h2⟩ := hold_passed n (State.silentFor.passed (Nat.add_comm n 1 ▸ h) he)
    exact ⟨e', he', by rw [h1, h2, State.passed_passed, Nat.add_comm]⟩

/-- A block reset while the outputs are held: a strobe asserted at that moment is an event of its own (70 R240). -/
theorem hold_cut {n j : Nat} {s : State} (h : s.cutIn j) (hj : j < n) :
    ∃ t, hold n s = .error .halted t ∧ s.CutTo t := by
  induction n generalizing j s with
  | zero => exact absurd hj (Nat.not_lt_zero j)
  | succ n ih =>
    cases j with
    | zero =>
      obtain ⟨-, rest, hin⟩ := h
      have hc := clock_cut (s := { s with eng := { s.eng with count := n + 1 } }) hin
      exact ⟨_, (bind_ok (setEngine_run _ _)).trans (bind_error hc), rfl, fun _ => rfl⟩
    | succ j =>
      obtain ⟨e, he, h1⟩ := hold_succ_passed (n := n) (h.silentFor (Nat.le_add_left 1 j))
      obtain ⟨t, h2, hc⟩ := ih (h.passed (Nat.le_add_left 1 j) he) (Nat.lt_of_succ_lt_succ hj)
      exact ⟨t, h1.trans h2, hc.trace, hc.stream⟩

/-! ## Clock cycles without reset, whatever else the outside does -/

/-- The records of the cycles so far. -/
def State.records (s : State) : List PortSample × Nat := (s.wave, s.cycle)

theorem State.writeOffset_records (s : State) (off : Byte) (w : Word) : (s.writeOffset off w).records = s.records := by
  unfold State.writeOffset
  split
  · rename_i r _
    cases r with
    | status | ctrl | result | lastStatus | idStatus => rfl
    | _ => simp only [State.writeCsr]; split <;> rfl
  · rfl

theorem State.hostAccess_records (s : State) (a : CsrAccess) : (s.hostAccess a).records = s.records := by
  cases a with
  | read off => rfl
  | write off w => exact s.writeOffset_records off w

theorem State.hostPort_records (s : State) (a : Option CsrAccess) : (s.hostPort a).records = s.records := by
  cases a with
  | none => rfl
  | some a => exact s.hostAccess_records a

theorem State.agentPort_records : ∀ (l : List AgentAccess) (s : State), (s.agentPort l).records = s.records
  | [], _ => rfl
  | .write _ _ :: l, s => State.agentPort_records l _
  | .read a :: l, s => (State.agentPort_records l _).trans (by simp only [State.agentAccess]; split <;> rfl)

/-- The inputs of a cycle without reset touch no record of an earlier cycle. -/
theorem State.applyInputs_records {s : State} (hn : s.noReset = true) : s.applyInputs.records = s.records := by
  unfold State.applyInputs
  split
  · rfl
  · rename_i p rest hin
    have hp : p.rst = false := by
      simp only [State.noReset, hin, List.all_cons, Bool.and_eq_true, Bool.not_eq_true'] at hn
      exact hn.1
    simp only [State.applyPins, hp, Bool.false_eq_true, if_false]
    exact (State.agentPort_records _ _).trans (State.hostPort_records _ _)
  · exact State.hostPort_records _ _
  · split <;> exact State.hostAccess_records _ _

/-- From `s` to `t` an operation goes on for `n` clock cycles without reset, with the IDE port held. -/
structure Spent (n : Nat) (s t : State) : Prop where
  busy : t.busy = true
  noReset : t.noReset = true
  ide : t.ide = s.ide
  cycle : t.cycle = s.cycle + n
  wave : ∃ l, t.wave = l ++ s.wave ∧ l.length = n ∧ ∀ p ∈ l, p.ide = s.ide

theorem Spent.trans {m n : Nat} {s t u : State} (h : Spent m s t) (h' : Spent n t u) : Spent (m + n) s u where
  busy := h'.busy
  noReset := h'.noReset
  ide := h'.ide.trans h.ide
  cycle := by rw [h'.cycle, h.cycle, Nat.add_assoc]
  wave := by
    obtain ⟨l, hw, hl, hp⟩ := h.wave
    obtain ⟨l', hw', hl', hp'⟩ := h'.wave
    refine ⟨l' ++ l, by rw [hw', hw, List.append_assoc], by rw [List.length_append, hl, hl', Nat.add_comm], ?_⟩
    exact fun p hm => (List.mem_append.mp hm).elim (fun hm => (hp' p hm).trans h.ide) (hp p)

theorem State.tick_spent {s : State} (hb : s.busy = true) (hn : s.noReset = true) : Spent 1 s s.tick := by
  have hl := State.tick_landed hb hn
  obtain ⟨hw, hc⟩ := Prod.mk.inj (State.applyInputs_records hn)
  have hi : s.applyInputs.ide = s.ide := hl.ide
  exact ⟨hl.busy.trans hb, State.noReset_tick hb hn, hl.ide, congrArg (· + 1) hc, [s.applyInputs.sample],
    congrArg (s.applyInputs.sample :: ·) hw, rfl, fun p hp => List.mem_singleton.mp hp ▸ hi⟩

theorem hold_spent : ∀ (n : Nat) {s : State}, s.busy = true → s.noReset = true →
    ∃ t, hold n s = .ok () t ∧ Spent n s t
  | 0, s, hb, hn => ⟨s, rfl, hb, hn, rfl, rfl, [], rfl, rfl, by simp⟩
  | n + 1, s, hb, hn => by
    have hbe : ({ s with eng := { s.eng with count := n + 1 } } : State).busy = true := State.busy_engine hb rfl
    have h1 : Spent 1 s ({ s with eng := { s.eng with count := n + 1 } } : State).tick := { State.tick_spent hbe hn with }
    obtain ⟨t, e, h2⟩ := hold_spent n h1.busy h1.noReset
    refine ⟨t, ?_, Nat.add_comm 1 n ▸ h1.trans h2⟩
    rw [hold, bind_ok (setEngine_run _ _), bind_ok (clock_unreset hbe hn), e]

/-! ## Two phases of a bus cycle -/

/-- Two phases of a bus cycle: each sets the port, then holds it. -/
def twoPhases (f : IdePort → IdePort) (p : BusPhase) (n : Nat) (g : IdePort → IdePort) (q : BusPhase) (m : Nat) :
    EngineM Unit := do
  setIde f
  busPhase p n
  setIde g
  busPhase q m

/-- The state after two phases that showed the ports `a` and `b`, for `n` and `m` cycles. -/
def State.phased (s : State) (n m : Nat) (a b : IdePort) (e : Engine) : State :=
  { s with
    eng := e
    ide := b
    inputs := s.inputs.drop (n + m)
    wave := List.replicate m { s.sample with ide := b } ++ (List.replicate n { s.sample with ide := a } ++ s.wave)
    cycle := s.cycle + n + m }

/-- The events of a block reset while the port is as given: a strobe that it asserts is cut short (70 R240). -/
def IdePort.cutEvents (p : IdePort) : List Event :=
  if p.diorN && p.diowN then [.blockReset] else [.blockReset, .strobeCut p.da]

section
variable {f g : IdePort → IdePort} {p q : BusPhase} {n m j : Nat} {s : State} {a b : IdePort}

theorem State.phased_eq (s : State) (n m : Nat) (a b : IdePort) (e e' : Engine) :
    ({ ({ s with ide := a } : State).passed n e with ide := b } : State).passed m e' = s.phased n m a b e' := by
  simp only [State.passed, State.phased, List.drop_drop]
  rfl

theorem busPhase_passed (h : s.silentFor n) :
    ∃ e : Engine, e.phase = .executing ∧ busPhase p n s = .ok () (s.passed n e) := by
  have h1 : ({ s with eng := { s.eng with busPhase := some p } } : State).silentFor n := ⟨State.busy_engine h.1 rfl, h.2⟩
  obtain ⟨e, he, hh⟩ := hold_passed n h1
  exact ⟨e, he, (bind_ok (setEngine_run _ _)).trans hh⟩

theorem busPhase_cut (h : s.cutIn j) (hj : j < n) : ∃ t, busPhase p n s = .error .halted t ∧ s.CutTo t := by
  have h1 : ({ s with eng := { s.eng with busPhase := some p } } : State).cutIn j := ⟨State.busy_engine h.1 rfl, h.2⟩
  obtain ⟨t, e, hc⟩ := hold_cut h1 hj
  exact ⟨t, (bind_ok (setEngine_run _ _)).trans e, hc.trace, hc.stream⟩

/-- Two phases in a silent outside: each shows its port for its length. -/
theorem twoPhases_passed (ha : f s.ide = a) (hb : g a = b) (h : s.silentFor (n + m)) :
    ∃ e : Engine, e.phase = .executing ∧ twoPhases f p n g q m s = .ok () (s.phased n m a b e) := by
  subst ha hb
  obtain ⟨e1, h1, r1⟩ := busPhase_passed (p := p) (s := { s with ide := f s.ide }) (h.mono (Nat.le_add_right n m))
  obtain ⟨e2, h2, r2⟩ := busPhase_passed (p := q)
    (s := { ({ s with ide := f s.ide } : State).passed n e1 with ide := g (f s.ide) }) (State.silentFor.passed h h1)
  refine ⟨e2, h2, ?_⟩
  rw [twoPhases, bind_ok (setIde_run _ _), bind_ok r1, bind_ok (setIde_run _ _)]
  exact r2.trans (by rw [State.phased_eq])

/-- Two phases that a block reset cuts, with the port as the phase that it falls in has it. -/
theorem twoPhases_cut (ha : f s.ide = a) (hb : g a = b) (h : s.cutIn j) (hj : j < n + m) :
    ∃ t, twoPhases f p n g q m s = .error .halted t ∧ t.trace = (if j < n then a else b).cutEvents ++ s.trace ∧
      ∀ i, t.upcoming i = s.upcoming i := by
  subst ha hb
  by_cases hn : j < n
  · obtain ⟨t, r, hc⟩ := busPhase_cut (p := p) (s := { s with ide := f s.ide }) h hn
    refine ⟨t, ?_, by rw [if_pos hn]; exact hc.trace, hc.stream⟩
    rw [twoPhases, bind_ok (setIde_run _ _), bind_error r]
  · have hle : n ≤ j := Nat.le_of_not_lt hn
    obtain ⟨e1, h1, r1⟩ := busPhase_passed (p := p) (s := { s with ide := f s.ide }) (h.silentFor hle)
    obtain ⟨t, r2, hc⟩ := busPhase_cut (p := q) (n := m)
      (s := { ({ s with ide := f s.ide } : State).passed n e1 with ide := g (f s.ide) }) (State.cutIn.passed h hle h1)
      (by omega)
    refine ⟨t, ?_, by rw [if_neg hn]; exact hc.trace, hc.stream⟩
    rw [twoPhases, bind_ok (setIde_run _ _), bind_ok r1, bind_ok (setIde_run _ _)]
    exact r2

end

/-! ## The two bus cycles as one: what they share, and what each does at the edge of its strobe -/

/-- The state with the next `k` of the Device's values taken (log 1). -/
def State.take (k : Nat) (s : State) : State :=
  { s with device := s.device.drop k, deviceDraws := s.deviceDraws + (k - s.device.length) }

theorem State.take_zero (s : State) : s.take 0 = s := by simp [State.take]

theorem State.take_upcoming (k : Nat) (s : State) (j : Nat) : (s.take k).upcoming j = s.upcoming (k + j) := by
  have hd : s.deviceDraws + (k - s.device.length) + (j - (s.device.length - k)) =
      s.deviceDraws + (k + j - s.device.length) := by omega
  simp only [State.upcoming, State.take, List.getElem?_drop, List.length_drop, hd]

theorem sampleBus_run (reg : IdeReg) (kind : Kind) (s : State) :
    sampleBus reg kind s = .ok (s.upcoming 0) ((s.take 1).record (.ideRead reg kind (s.upcoming 0))) := by
  cases hd : s.device with
  | nil => simp [sampleBus, State.upcoming, State.take, hd]
  | cons v rest => simp [sampleBus, State.upcoming, State.take, hd]

/-- A bus cycle: a read, or a write of a value (40 R104, R105). -/
inductive BusOp where
  | read
  | write (v : Half)

/-- What the block drives on the data lines. -/
def BusOp.data : BusOp → Option Half
  | .read => none
  | .write v => some v

/-- The port from the address setup on. -/
def BusOp.setup (o : BusOp) (reg : IdeReg) (p : IdePort) : IdePort := { p with da := reg, cs0N := false, dd := o.data }

/-- The port with the strobe of the cycle at a level. -/
def BusOp.strobe (level : Bool) : BusOp → IdePort → IdePort
  | .read, p => { p with diorN := level }
  | .write _, p => { p with diowN := level }

/-- The port from the recovery on. -/
def BusOp.release : BusOp → IdePort → IdePort
  | .read, p => { p with cs0N := true }
  | .write _, p => { p with dd := none, cs0N := true }

/-- The value that the cycle carries: the Device's next, or the one written. -/
def BusOp.value : BusOp → State → Half
  | .read, s => s.upcoming 0
  | .write v, _ => v

/-- The event that the cycle makes. -/
def BusOp.event (reg : IdeReg) (kind : Kind) : BusOp → State → Event
  | .read, s => .ideRead reg kind (s.upcoming 0)
  | .write v, _ => .ideWrite reg kind v

/-- How many of the Device's values the cycle takes. -/
def BusOp.reads : BusOp → Nat
  | .read => 1
  | .write _ => 0

/-- The end of the strobe: the sampling point of a read, the rising edge of a write. -/
def BusOp.edge (reg : IdeReg) (kind : Kind) : BusOp → EngineM Half
  | .read => sampleBus reg kind
  | .write v => do
    note (.ideWrite reg kind v)
    return v

/-- The bus cycle up to the register update of a read. -/
def BusOp.cycle (o : BusOp) (reg : IdeReg) (kind : Kind) : EngineM Half := do
  let t ← cycleTimes kind
  twoPhases (o.setup reg) .addressSetup t.tAS (o.strobe false) .pulse t.tPW
  let v ← o.edge reg kind
  twoPhases (o.strobe true) .hold t.tDH o.release .recovery t.tREC
  setEngine fun e => { e with busPhase := none }
  return v

theorem ideRead_eq (reg : IdeReg) (kind : Kind) : ideRead reg kind = (do
    let v ← BusOp.read.cycle reg kind
    if reg = 7 then setCsr fun c => { c with lastStatus := v.lo }
    return v) := by
  simp only [ideRead, BusOp.cycle, twoPhases, bind_assoc, pure_bind]
  rfl

theorem ideWrite_eq (reg : IdeReg) (v : Half) (kind : Kind) : ideWrite reg v kind = (do
    let _ ← (BusOp.write v).cycle reg kind) := by
  simp only [ideWrite, BusOp.cycle, BusOp.edge, twoPhases, bind_assoc, pure_bind, bind_pure_unit]
  rfl

theorem BusOp.edge_run (o : BusOp) (reg : IdeReg) (kind : Kind) (s : State) :
    o.edge reg kind s = .ok (o.value s) ((s.take o.reads).record (o.event reg kind s)) := by
  cases o with
  | read => exact sampleBus_run reg kind s
  | write v => rw [BusOp.reads, State.take_zero]; rfl

/-! ## The ports of a bus cycle, from an idle port -/

/-- The port outside the strobe, up to the end of DH. -/
def BusOp.driven (o : BusOp) (reg : IdeReg) : IdePort := o.setup reg IdePort.atReset

/-- The port in PW. -/
def BusOp.strobed (o : BusOp) (reg : IdeReg) : IdePort := o.strobe false (o.driven reg)

theorem BusOp.setup_idle (o : BusOp) (reg : IdeReg) {p : IdePort} (h : p.isIdle = true) : o.setup reg p = o.driven reg := by
  rw [p.isIdle_iff.mp h]
  rfl

theorem BusOp.strobe_strobed (o : BusOp) (reg : IdeReg) : o.strobe true (o.strobed reg) = o.driven reg := by
  cases o <;> rfl

theorem BusOp.release_driven (o : BusOp) (reg : IdeReg) : o.release (o.driven reg) = IdePort.idleAt reg := by
  cases o <;> rfl

theorem BusOp.cutEvents_driven (o : BusOp) (reg : IdeReg) : (o.driven reg).cutEvents = [.blockReset] := rfl

theorem BusOp.cutEvents_strobed (o : BusOp) (reg : IdeReg) :
    (o.strobed reg).cutEvents = [.blockReset, .strobeCut reg] := by
  cases o <;> rfl

/-- The state at the edge, just after AS and PW. -/
def BusOp.atEdge (o : BusOp) (reg : IdeReg) (kind : Kind) (t : CycleTimes) (s : State) (e : Engine) : State :=
  ((s.phased t.tAS t.tPW (o.driven reg) (o.strobed reg) e).take o.reads).record (o.event reg kind s)

section
variable {reg : IdeReg} {kind : Kind} {s : State} {t : CycleTimes}

/-- A bus cycle whose strobe phases pass comes to its edge. -/
theorem BusOp.cycle_edge (o : BusOp) (ht : s.params.times kind s.csr.compat = t) (hi : s.ide.isIdle = true)
    (h : s.silentFor (t.tAS + t.tPW)) :
    ∃ e : Engine, e.phase = .executing ∧
      o.cycle reg kind s = (do
        twoPhases (o.strobe true) .hold t.tDH o.release .recovery t.tREC
        setEngine fun e => { e with busPhase := none }
        return o.value s : EngineM Half) (o.atEdge reg kind t s e) := by
  obtain ⟨e, he, r⟩ := twoPhases_passed (f := o.setup reg) (p := .addressSetup) (g := o.strobe false) (q := .pulse)
    (o.setup_idle reg hi) rfl h
  refine ⟨e, he, ?_⟩
  rw [BusOp.cycle, bind_ok (cycleTimes_run _ _), ht, bind_ok r, bind_ok (o.edge_run _ _ _)]
  cases o <;> rfl

/-- A bus cycle in a silent outside, cycle by cycle. -/
theorem BusOp.cycle_passed (o : BusOp) (ht : s.params.times kind s.csr.compat = t) (hi : s.ide.isIdle = true)
    (hb : s.busy = true) (hin : s.inputs = []) :
    ∃ u, o.cycle reg kind s = .ok (o.value s) u ∧
      u.wave = List.replicate t.tREC { s.sample with ide := IdePort.idleAt reg } ++
        List.replicate t.tDH { s.sample with ide := o.driven reg } ++
        List.replicate t.tPW { s.sample with ide := o.strobed reg } ++
        List.replicate t.tAS { s.sample with ide := o.driven reg } ++ s.wave ∧
      u.ide = IdePort.idleAt reg ∧ u.trace = o.event reg kind s :: s.trace ∧
      (∀ j, u.upcoming j = s.upcoming (o.reads + j)) ∧ u.csr = s.csr ∧ u.mem = s.mem := by
  obtain ⟨e, he, hedge⟩ := o.cycle_edge (reg := reg) ht hi (s.silentFor_of_nil hb hin _)
  have hsil : (o.atEdge reg kind t s e).silentFor (t.tDH + t.tREC) :=
    State.silentFor.passed (s.silentFor_of_nil hb hin _) he
  obtain ⟨e', -, r⟩ := twoPhases_passed (p := .hold) (q := .recovery) (o.strobe_strobed reg) (o.release_driven reg) hsil
  refine ⟨_, hedge.trans ((bind_ok r).trans rfl), ?_, rfl, rfl, State.take_upcoming _ _, rfl, rfl⟩
  simp only [List.append_assoc]
  rfl

/-- A bus cycle that a block reset cuts after `j` cycles has come to its edge exactly where AS and PW are over (log 15). -/
theorem BusOp.cycle_cut (o : BusOp) (ht : s.params.times kind s.csr.compat = t) (hi : s.ide.isIdle = true) {j : Nat}
    (h : s.cutIn j) (hj : j < t.total) :
    ∃ u, o.cycle reg kind s = .error .halted u ∧
      u.trace = (if t.tAS ≤ j ∧ j < t.tAS + t.tPW then [.blockReset, .strobeCut reg] else [.blockReset]) ++
        (if t.tAS + t.tPW ≤ j then [o.event reg kind s] else []) ++ s.trace ∧
      ∀ i, u.upcoming i = s.upcoming ((if t.tAS + t.tPW ≤ j then o.reads else 0) + i) := by
  by_cases hs : j < t.tAS + t.tPW
  · obtain ⟨u, r, htr, hup⟩ := twoPhases_cut (f := o.setup reg) (p := .addressSetup) (g := o.strobe false) (q := .pulse)
      (o.setup_idle reg hi) rfl h hs
    have hn : ¬t.tAS + t.tPW ≤ j := Nat.not_le_of_lt hs
    refine ⟨u, ?_, ?_, fun i => by rw [hup, if_neg hn, Nat.zero_add]⟩
    · rw [BusOp.cycle, bind_ok (cycleTimes_run _ _), ht, bind_error r]
    · rw [htr, if_neg hn, List.append_nil]
      by_cases ha : j < t.tAS
      · rw [if_pos ha, if_neg fun hh => absurd ha (Nat.not_lt_of_le hh.1), o.cutEvents_driven]
      · rw [if_neg ha, if_pos ⟨Nat.le_of_not_lt ha, hs⟩]
        exact congrArg (· ++ s.trace) (o.cutEvents_strobed reg)
  · have hle : t.tAS + t.tPW ≤ j := Nat.le_of_not_lt hs
    obtain ⟨e, he, hedge⟩ := o.cycle_edge (reg := reg) ht hi (h.silentFor hle)
    have hcut : (o.atEdge reg kind t s e).cutIn (j - (t.tAS + t.tPW)) := State.cutIn.passed h hle he
    obtain ⟨u, r, htr, hup⟩ := twoPhases_cut (n := t.tDH) (m := t.tREC) (p := .hold) (q := .recovery)
      (o.strobe_strobed reg) (o.release_driven reg) hcut (by rw [CycleTimes.total] at hj; omega)
    refine ⟨u, hedge.trans (bind_error r), ?_, fun i => ?_⟩
    · have hport : (if j - (t.tAS + t.tPW) < t.tDH then o.driven reg else IdePort.idleAt reg).cutEvents = [.blockReset] := by
        split <;> rfl
      rw [htr, hport, if_pos hle, if_neg fun hh : t.tAS ≤ j ∧ j < t.tAS + t.tPW => hs hh.2]
      rfl
    · rw [hup, if_pos hle]
      exact State.take_upcoming _ _ i

/-! ## The waveforms -/

/-- After a read bus cycle the status register's value is in LAST_STATUS (40 R109). -/
theorem ideRead_ok {u : State} {v : Half} (h : BusOp.read.cycle reg kind s = .ok v u) :
    ideRead reg kind s =
      .ok v { u with csr := { u.csr with lastStatus := if reg = 7 then v.lo else u.csr.lastStatus } } := by
  rw [ideRead_eq, bind_ok h]
  by_cases hr : reg = 7
  · simp only [hr, if_true]
    rfl
  · simp only [hr, if_false]
    rfl

theorem ideRead_halted {u : State} (h : BusOp.read.cycle reg kind s = .error .halted u) :
    ideRead reg kind s = .error .halted u := by rw [ideRead_eq, bind_error h]

theorem ideWrite_ok {u : State} {v w : Half} (h : (BusOp.write v).cycle reg kind s = .ok w u) :
    ideWrite reg v kind s = .ok () u := by rw [ideWrite_eq, bind_ok h]; rfl

theorem ideWrite_halted {u : State} {v : Half} (h : (BusOp.write v).cycle reg kind s = .error .halted u) :
    ideWrite reg v kind s = .error .halted u := by rw [ideWrite_eq, bind_error h]

end

/-- Settles O30: a cut before the edge has taken nothing and one after it the Device's value; uncut, the four phases and the
register update. -/
theorem readCycleWaveform : Obligations.ReadCycleWaveform := by
  refine ⟨fun s reg kind j rest hb hi hin => ?cut, fun s reg kind hb hin hi => ?whole⟩
  case cut =>
    intro p hj
    obtain ⟨u, r, htr, hup⟩ := BusOp.read.cycle_cut (reg := reg) rfl hi ⟨hb, rest, hin⟩ hj
    exact ⟨u, ideRead_halted r, htr, hup⟩
  case whole =>
    intro p port strobe rest
    obtain ⟨u, r, hw, hide, htr, hup, hc, hm⟩ := BusOp.read.cycle_passed (reg := reg) (kind := kind) rfl hi hb hin
    have hid := s.ide.isIdle_iff.mp hi
    have hport : port = BusOp.read.driven reg := by simp only [port]; rw [hid]; rfl
    have hstrobe : strobe = BusOp.read.strobed reg := by simp only [strobe]; rw [hport]; rfl
    have hrest : rest = IdePort.idleAt reg := by simp only [rest]; rw [hport]; rfl
    refine ⟨_, ideRead_ok r, ?_, hide.trans hrest.symm, htr, hup, by rw [hc], hm⟩
    rw [hport, hstrobe, hrest]
    exact hw

/-- Settles O31: the same cycle with data driven, and no register update. -/
theorem writeCycleWaveform : Obligations.WriteCycleWaveform := by
  refine ⟨fun s reg v kind j rest hb hi hin => ?cut, fun s reg v kind hb hin hi => ?whole⟩
  case cut =>
    intro p hj
    obtain ⟨u, r, htr, -⟩ := (BusOp.write v).cycle_cut (reg := reg) rfl hi ⟨hb, rest, hin⟩ hj
    exact ⟨u, ideWrite_halted r, htr⟩
  case whole =>
    intro p port strobe rest
    obtain ⟨u, r, hw, hide, htr, hup, hc, hm⟩ := (BusOp.write v).cycle_passed (reg := reg) (kind := kind) rfl hi hb hin
    have hid := s.ide.isIdle_iff.mp hi
    have hport : port = (BusOp.write v).driven reg := by simp only [port]; rw [hid]; rfl
    have hstrobe : strobe = (BusOp.write v).strobed reg := by simp only [strobe]; rw [hport]; rfl
    have hrest : rest = IdePort.idleAt reg := by simp only [rest]; rw [hid]; rfl
    refine ⟨u, ideWrite_ok r, ?_, hide.trans hrest.symm, htr, fun j => by rw [hup, BusOp.reads, Nat.zero_add], hc, hm⟩
    rw [hport, hstrobe, hrest]
    exact hw

/-! ## The length of a bus cycle and of `Idle(n)` -/

/-- An operation runs at clock cycle `c`, and no reset is to come. -/
structure State.RunsAt (c : Nat) (s : State) : Prop where
  busy : s.busy = true
  noReset : s.noReset = true
  cycle : s.cycle = c

theorem State.RunsAt.engine {c : Nat} {s : State} (h : s.RunsAt c) {e : Engine} (hp : e.phase = s.eng.phase) :
    ({ s with eng := e } : State).RunsAt c := ⟨State.busy_engine h.busy hp, h.noReset, h.cycle⟩

theorem State.RunsAt.ide {c : Nat} {s : State} (h : s.RunsAt c) (p : IdePort) : ({ s with ide := p } : State).RunsAt c :=
  { h with }

theorem Spent.runsAt {n c : Nat} {s t : State} (h : Spent n s t) (hs : s.RunsAt c) : t.RunsAt (c + n) :=
  ⟨h.busy, h.noReset, h.cycle.trans (congrArg (· + n) hs.cycle)⟩

theorem busPhase_runsAt (p : BusPhase) (n : Nat) {c : Nat} {s : State} (h : s.RunsAt c) :
    ∃ t, busPhase p n s = .ok () t ∧ t.RunsAt (c + n) := by
  have h1 : ({ s with eng := { s.eng with busPhase := some p } } : State).RunsAt c := h.engine rfl
  obtain ⟨t, r, ht⟩ := hold_spent n h1.busy h1.noReset
  exact ⟨t, (bind_ok (setEngine_run _ _)).trans r, ht.runsAt h1⟩

theorem twoPhases_runsAt (f : IdePort → IdePort) (p : BusPhase) (n : Nat) (g : IdePort → IdePort) (q : BusPhase) (m : Nat)
    {c : Nat} {s : State} (h : s.RunsAt c) : ∃ t, twoPhases f p n g q m s = .ok () t ∧ t.RunsAt (c + n + m) := by
  obtain ⟨t1, r1, h1⟩ := busPhase_runsAt p n (h.ide (f s.ide))
  obtain ⟨t2, r2, h2⟩ := busPhase_runsAt q m (h1.ide (g t1.ide))
  exact ⟨t2, by rw [twoPhases, bind_ok (setIde_run _ _), bind_ok r1, bind_ok (setIde_run _ _), r2], h2⟩

/-- Neither the host nor another agent can stop or delay a bus cycle (40 R100). -/
theorem BusOp.cycle_runsAt (o : BusOp) (reg : IdeReg) {kind : Kind} {s : State} {t : CycleTimes}
    (ht : s.params.times kind s.csr.compat = t) {c : Nat} (h : s.RunsAt c) :
    ∃ v u, o.cycle reg kind s = .ok v u ∧ u.RunsAt (c + t.total) := by
  obtain ⟨u1, r1, h1⟩ := twoPhases_runsAt (o.setup reg) .addressSetup t.tAS (o.strobe false) .pulse t.tPW h
  have hedge : ((u1.take o.reads).record (o.event reg kind u1)).RunsAt (c + t.tAS + t.tPW) := { h1 with }
  obtain ⟨u2, r2, h2⟩ := twoPhases_runsAt (o.strobe true) .hold t.tDH o.release .recovery t.tREC hedge
  have hend : c + t.tAS + t.tPW + t.tDH + t.tREC = c + t.total := by
    rw [CycleTimes.total]
    omega
  refine ⟨o.value u1, { u2 with eng := { u2.eng with busPhase := none } }, ?_, hend ▸ h2.engine rfl⟩
  rw [BusOp.cycle, bind_ok (cycleTimes_run _ _), ht, bind_ok r1, bind_ok (o.edge_run _ _ _), bind_ok r2]
  rfl

/-- Settles O32: no cycle without reset halts the engine, and each phase takes its length. -/
theorem busCycleLatency : Obligations.BusCycleLatency := by
  intro s reg v kind hb hn
  have hs : s.RunsAt s.cycle := ⟨hb, hn, rfl⟩
  constructor
  · obtain ⟨x, u, r, hu⟩ := BusOp.read.cycle_runsAt reg (kind := kind) rfl hs
    exact ⟨x, _, ideRead_ok r, hu.busy, hu.cycle⟩
  · obtain ⟨x, u, r, hu⟩ := (BusOp.write v).cycle_runsAt reg (kind := kind) rfl hs
    exact ⟨u, ideWrite_ok r, hu.busy, hu.cycle⟩

/-- Settles O33: the port is held while the cycles pass, and an idle port is fixed up to its register number. -/
theorem idleHoldsPort : Obligations.IdleHoldsPort := by
  intro s n hb hn hi
  obtain ⟨t, r, h⟩ := hold_spent n (s := s.record (.idle n)) hb hn
  obtain ⟨l, hw, hl, hp⟩ := h.wave
  refine ⟨t, l, (bind_ok (note_run _ _)).trans r, hw, hl, fun p hm => ?_⟩
  have hid : p.ide = IdePort.idleAt s.ide.da := (hp p hm).trans (s.ide.isIdle_iff.mp hi)
  rw [hid]
  exact ⟨rfl, rfl, rfl, rfl, rfl, rfl, rfl⟩

/-! ## The raw register operations (40 R110 to R112) -/

/-- An operation that ended has finished (60 R212). -/
theorem Ended.finished {code : Word} {k : Nat} {es : List Event} {s t : State} (h : Ended code k es s t) :
    Finished code k es s t := ⟨h.idle, h.done, h.result, h.params, h.stream, h.events⟩

/-- An operation whose body comes to a code: what it answers, reads and writes of the registers (60 R212). -/
theorem exec_finished (i : Instr) {k : Nat} {s : State} (hu : s.undisturbed = true) {code : Word} {es : List Event}
    (hbody : ∀ s1 : State, s1.calm → (∀ j, s1.upcoming j = s.upcoming j) →
      ∃ t, bodyOf i s1 = .ok code t ∧ Adv k es s1 t) :
    ∃ t, exec i s = .next t ∧ Finished code k es s t ∧
      t.csr.kernel = { s.csr.kernel with result := code, lastStatus := statusFrom s.csr.lastStatus es } ∧
      t.mem = memAfter s.bufSize es s.mem := by
  obtain ⟨s1, h1, hrun⟩ := exec_ended i hu
  obtain ⟨t, e, ha⟩ := hbody s1 h1.calm h1.stream
  obtain ⟨u, hx, hend, hk⟩ := hrun es t k code ha.moves (.inl e)
  have hl : s1.csr.lastStatus = s.csr.lastStatus :=
    (congrArg Csrs.lastStatus h1.kernel : _)
  exact ⟨u, hx, hend.finished, by rw [hk, ha.kernelEq, h1.kernel, hl], hend.mem⟩

/-- A register number in range names register 7 where it is 7 (30 R84). -/
theorem ideReg_eq_seven {reg : Nat} (h : reg < 8) : BitVec.ofNat 3 reg = 7 ↔ reg = 7 := by
  rw [← BitVec.toNat_inj, ideReg_toNat h]
  rfl

/-- Settles O34: one read cycle of REG timing, and RESULT its low byte. -/
theorem regRd8Result : Obligations.RegRd8Result := by
  intro reg s hreg hu
  obtain ⟨t, e, hf, hk, hm⟩ := exec_finished (.regRd8 reg) hu (code := (s.upcoming 0).lo.setWidth 32)
    (es := [.ideRead (BitVec.ofNat 3 reg) .reg (s.upcoming 0)]) fun s1 hs hup => hup 0 ▸ bodyRegRd8_calm reg hs
  refine ⟨t, e, hf, hk.trans ?_, hm⟩
  simp only [statusFrom, ideReg_eq_seven hreg]

/-- Settles O35: one write cycle of REG timing, which reads no status byte. -/
theorem regWr8Result : Obligations.RegWr8Result := by
  intro reg val s _ hu
  obtain ⟨t, e, hf, hk, hm⟩ := exec_finished (.regWr8 reg val) hu fun s1 hs _ => bodyRegWr8_calm reg val hs
  exact ⟨t, e, hf, hk, hm⟩

/-- Settles O36: one read cycle of REG timing, and RESULT its word. -/
theorem regRd16Result : Obligations.RegRd16Result := by
  intro reg s hreg hu
  obtain ⟨t, e, hf, hk, hm⟩ := exec_finished (.regRd16 reg) hu (code := (s.upcoming 0).setWidth 32)
    (es := [.ideRead (BitVec.ofNat 3 reg) .reg (s.upcoming 0)]) fun s1 hs hup => hup 0 ▸ bodyRegRd16_calm reg hs
  refine ⟨t, e, hf, hk.trans ?_, hm⟩
  simp only [statusFrom, ideReg_eq_seven hreg]

end Sys2Proof.Machine
end

section
/-! SUPPORT. The proofs about the command sequencer (41_command_sequencer.md): the addressing modes and command sequences,
IssueCommand, and the non-transfer operations. -/

namespace Sys2Proof.Machine

/-! ## Valid transfers (41 R133, 42 R171 to R173) -/

/-- What `ModeLimits()` asks in each mode (42 R173). -/
theorem State.withinModeLimits_iff (s : State) : s.withinModeLimits = true ↔
    (s.addrMode = .lba28 → s.lba + s.sectors ≤ 2 ^ 28) ∧ (s.addrMode = .lba48 → s.lba + s.sectors ≤ 2 ^ 48) ∧
      (s.addrMode = .chs → s.csr.geomHeads.toNat ≤ 16) := by
  unfold State.withinModeLimits
  cases s.addrMode <;> simp

/-- A valid transfer: not a WRITE under write protection, with a count in range, inside the capacity and the limits of its
mode (42 R172). -/
theorem State.valid_iff (s : State) (dir : Dir) : s.valid dir = true ↔
    ¬(dir = .write ∧ s.csr.wp = true) ∧ 1 ≤ s.sectors ∧ s.sectors ≤ 0x003FFFFF ∧ s.lba + s.sectors ≤ s.capacity ∧
      s.withinModeLimits = true := by
  have fits : s.sectors ≤ s.capacity ∧ s.lba ≤ s.capacity - s.sectors ↔ s.lba + s.sectors ≤ s.capacity := by omega
  simp only [State.valid, Bool.and_eq_true, Bool.not_eq_true', Bool.and_eq_false_iff, decide_eq_true_eq,
    decide_eq_false_iff_not, ← fits, Nat.one_le_iff_ne_zero, not_and_or, Bool.not_eq_true]
  tauto

/-- Settles O49: the definitions of 41 R133 and 42 R171, and `State.valid_iff`. -/
theorem validTransfers : Obligations.ValidTransfers := by
  intro s dir
  refine ⟨rfl, rfl, rfl, rfl, rfl, ?_⟩
  rw [s.valid_iff, s.withinModeLimits_iff]
  rfl

/-! ## The CHS translation (41 R135) -/

/-- In CHS mode the capacity is that of the geometry (41 R133, 42 R171). -/
theorem State.capacity_chs {s : State} (h : s.addrMode = .chs) :
    s.capacity = s.csr.geomCyl.toNat * s.csr.geomHeads.toNat * s.csr.geomSpt.toNat := by
  unfold State.addrMode at h
  unfold State.capacity
  split at h
  · split at h <;> cases h
  · simp_all

/-- The translation names the sector: it can be undone (41 R135). -/
theorem chsOf_inverse (heads spt lba : Nat) :
    ((chsOf heads spt lba).cylinder * heads + (chsOf heads spt lba).head) * spt + ((chsOf heads spt lba).sector - 1) = lba := by
  simp only [chsOf, Nat.add_sub_cancel]
  rw [Nat.div_add_mod', Nat.div_add_mod']

/-- Inside the geometry the translation stays inside it (41 R135). -/
theorem chsOf_bounds {cyl heads spt lba : Nat} (h : lba < cyl * heads * spt) :
    (chsOf heads spt lba).sector ≤ spt ∧ (chsOf heads spt lba).head < heads ∧ (chsOf heads spt lba).cylinder < cyl := by
  have hspt : 0 < spt := Nat.pos_of_ne_zero fun h0 => by simp [h0] at h
  have hheads : 0 < heads := Nat.pos_of_ne_zero fun h0 => by simp [h0] at h
  refine ⟨Nat.mod_lt _ hspt, Nat.mod_lt _ hheads, ?_⟩
  rw [chsOf, Nat.div_lt_iff_lt_mul hheads, Nat.div_lt_iff_lt_mul hspt]
  exact h

/-- Settles O41: a sector of a valid CHS transfer lies inside the geometry, with at most 16 heads. -/
theorem chsTranslation : Obligations.ChsTranslation := by
  intro s dir j hv hm hj
  obtain ⟨-, -, -, hcap, hlim⟩ := (s.valid_iff dir).mp hv
  have h16 : s.csr.geomHeads.toNat ≤ 16 := (s.withinModeLimits_iff.mp hlim).2.2 hm
  have hin : s.lba + j < s.csr.geomCyl.toNat * s.csr.geomHeads.toNat * s.csr.geomSpt.toNat := by
    rw [← State.capacity_chs hm]
    omega
  obtain ⟨hsector, hhead, hcyl⟩ := chsOf_bounds hin
  exact ⟨Nat.le_add_left _ _, hsector, hhead, hhead.trans_le h16, hcyl, chsOf_inverse _ _ _, rfl, rfl, rfl⟩

/-! ## The command sequences of a transfer (41 R137 to R140) -/

theorem byteOf_toNat (v k : Nat) : (byteOf v k).toNat = v / 2 ^ (8 * k) % 256 := BitVec.toNat_ofNat _ _

/-- A 4-bit field beside a base whose low nibble is 0 (41 R134). -/
theorem orNibble_toNat {base : Byte} (hb : base = 0xA0 ∨ base = 0xE0) (v : Nat) :
    (orNibble base v).toNat = base.toNat + v % 16 := by
  have nibble : ∀ x : BitVec 4, (0xA0 ||| x.setWidth 8 : Byte).toNat = 0xA0 + x.toNat ∧
      (0xE0 ||| x.setWidth 8 : Byte).toNat = 0xE0 + x.toNat := by decide
  rcases hb with rfl | rfl
  · exact (nibble _).1
  · exact (nibble _).2

/-- The command bytes of a transfer (41 R132). -/
theorem transferCommand_eq (mode : AddrMode) (dir : Dir) : transferCommand mode dir =
    match mode with
    | .lba48 => if dir = .read then 0x24 else 0x34
    | .chs | .lba28 => if dir = .read then 0x20 else 0x30 := by
  cases mode <;> cases dir <;> rfl

/-- Settles O42: the sequence of each mode, with the bytes of the count and of the address. -/
theorem transferSequences : Obligations.TransferSequences := by
  intro s dir lba n
  refine ⟨fun hm => ?chs, fun hm => ?lba28, fun hm => ?lba48⟩ <;> simp only [State.transferSeq, hm]
  case chs =>
    rw [seqChs, transferCommand_eq]
    refine ⟨_, _, _, _, _, rfl, ?_⟩
    simp only [byteOf_toNat, orNibble_toNat (.inl rfl), chsOf, BitVec.reduceToNat, Nat.reduceMul, Nat.reducePow, Nat.div_one,
      true_and]
    generalize lba / s.csr.geomSpt.toNat / s.csr.geomHeads.toNat = cylinder
    omega
  case lba28 =>
    rw [seqLba28, transferCommand_eq]
    refine ⟨_, _, _, _, _, rfl, ?_⟩
    simp only [byteOf_toNat, orNibble_toNat (.inr rfl), BitVec.reduceToNat]
    omega
  case lba48 =>
    rw [seqLba48, transferCommand_eq]
    refine ⟨_, _, _, _, _, _, _, _, rfl, ?_⟩
    simp only [byteOf_toNat]
    omega

/-! ## Operations that end at once (60 R213) -/

/-- An operation that raises an error in its first statement: no event before `finish`, and RESULT alone of the registers. -/
theorem exec_rejected (i : Instr) {s : State} (hu : s.undisturbed = true) {e : Err}
    (h : ∀ s1, Entered (some i) s s1 → bodyOf i s1 = .error (.raised e) s1) :
    ∃ t, exec i s = .next t ∧ Finished e.code 0 [] s t ∧ t.csr.kernel = { s.csr.kernel with result := e.code } ∧
      t.mem = s.mem := by
  obtain ⟨s1, h1, hrun⟩ := exec_ended i hu
  obtain ⟨t, he, hend, hk⟩ := hrun [] s1 0 e.code (Adv.refl h1.calm).moves (.inr ⟨e, h s1 h1, rfl⟩)
  exact ⟨t, he, hend.finished, by rw [hk, h1.kernel], hend.mem⟩

/-- A transfer needs at least one sector, and a capacity that holds it (42 R172). -/
theorem State.valid_eq_false {s : State} (h : s.sectors = 0 ∨ s.capacity = 0) (dir : Dir) : s.valid dir = false := by
  rw [← Bool.not_eq_true, s.valid_iff]
  rintro ⟨-, hpos, -, hcap, -⟩
  omega

/-- Settles O50: the validation comes first, and a transfer of no sectors or in an empty geometry does not pass it. -/
theorem invalidTransferRejected : Obligations.InvalidTransferRejected := by
  refine ⟨fun s hu => ⟨fun hv => ?read, fun hv => ?write⟩, fun s dir hm hg => ?geometry, fun s dir w => ?reset⟩
  case read => exact exec_rejected .read hu fun s1 h1 => bodyRead_invalid ((h1.same.valid _).trans hv)
  case write => exact exec_rejected .write hu fun s1 h1 => bodyWrite_invalid ((h1.same.valid _).trans hv)
  case geometry =>
    have hcap : s.capacity = 0 := by
      rw [State.capacity_chs hm]
      rcases hg with h | h <;> simp [h]
    exact ⟨hcap, State.valid_eq_false (.inr hcap) dir⟩
  case reset => exact ⟨State.valid_eq_false (.inl rfl) dir, State.valid_eq_false (.inl rfl) dir⟩

/-! ## What the waits can answer (60 R211) -/

/-- A wait fails by Timeout or DeviceError (42 R175, R176). -/
theorem pollOn_failed (verdict : Byte → Verdict) (f : Nat → Half) : ∀ (n k : Nat) {e : Err} {k' : Nat},
    pollOn verdict f n k = .failed e k' → e = .timeout ∨ e = .deviceError
  | 0, _, _, _, h => by cases h; exact .inl rfl
  | n + 1, k, _, _, h => by
    unfold pollOn at h
    split at h
    · cases h
    · cases h; exact .inr rfl
    · exact pollOn_failed verdict f n (k + 1) h

/-- The code of an operation that waits for the Device: success, DeviceError or Timeout (60 R211). -/
def waitCode (code : Word) : Prop := code = 0 ∨ code = BitVec.ofInt 32 (-2) ∨ code = BitVec.ofInt 32 (-3)

theorem waitCode_err {e : Err} (h : e = .timeout ∨ e = .deviceError) : waitCode e.code := by
  rcases h with rfl | rfl
  · exact .inr (.inr rfl)
  · exact .inr (.inl rfl)

/-- After a wait on the stream, a code of the list. -/
theorem waitCode_pollOn {verdict : Byte → Verdict} {u : Nat → Half} {n k : Nat} {ws : List Half} {f : Byte → Nat → Reply}
    (hf : ∀ st k, waitCode (f st k).code) : waitCode ((pollOn verdict u n k).andThen ws f).code := by
  cases hp : pollOn verdict u n k with
  | ready st k' => exact hf st k'
  | failed e k' => exact waitCode_err (pollOn_failed verdict u n k hp)

theorem State.replyCommand_waitCode (s : State) {ws : List Half} {k : Nat} {f : Nat → Reply}
    (hf : ∀ k, waitCode (f k).code) : waitCode (s.replyCommand ws k f).code := by
  unfold State.replyCommand
  split
  · exact waitCode_pollOn fun _ => hf
  · exact hf k

theorem State.replyNoData_waitCode (s : State) (budget k : Nat) : waitCode (s.replyNoData budget k).code := by
  refine waitCode_pollOn fun st k => ?_
  unfold replyChecked
  split
  · exact waitCode_err (.inr rfl)
  · exact .inl rfl

theorem State.identifyReply_waitCode (s : State) : waitCode s.identifyReply.code :=
  s.replyCommand_waitCode fun _ => waitCode_pollOn fun _ _ => .inl rfl

theorem State.flushReply_waitCode (s : State) : waitCode s.flushReply.code :=
  s.replyCommand_waitCode fun _ => s.replyNoData_waitCode _ _

theorem State.setgeomReply_waitCode (s : State) {heads spt : Byte} (hl : geometryLegal heads spt = true) :
    waitCode (s.setgeomReply heads spt).code := by
  rw [State.setgeomReply, if_pos hl]
  exact s.replyCommand_waitCode fun _ => s.replyNoData_waitCode _ _

/-! ## IDENTIFY, SETGEOM and FLUSH_DEV (41 R143, R145, R146) -/

theorem Entered.lastStatus {op : Option Instr} {s t : State} (h : Entered op s t) : t.csr.lastStatus = s.csr.lastStatus :=
  h.same.csr Csrs.lastStatus fun _ => rfl

/-- An operation that sends one command, from its body: it finishes with the reply, BUF is as before, and the registers are as
the body leaves them, RESULT apart (60 R212). -/
theorem exec_commanded (i : Instr) {s : State} (hu : s.undisturbed = true) :
    ∃ s1, Entered (some i) s s1 ∧ ∀ {cut : Bool} {r : Reply} {seq : List SeqEntry} {k : Nat} {es : List Event} {t : State},
      Moves k es s1 t → Commanded cut r seq k es →
      (bodyOf i s1 = .ok r.code t ∨ ∃ e, bodyOf i s1 = .error (.raised e) t ∧ r.code = e.code) →
      ∃ u, exec i s = .next u ∧ Finished r.code r.used es s u ∧ u.mem = s.mem ∧
        u.csr.kernel = { t.csr.kernel with result := r.code } := by
  obtain ⟨s1, h1, hrun⟩ := exec_ended i hu
  refine ⟨s1, h1, fun {cut r seq k es t} hm hc hb => ?_⟩
  obtain ⟨u, he, hend, hk⟩ := hrun es t k r.code hm hb
  exact ⟨u, he, hc.used ▸ hend.finished, hend.mem.trans (memAfter_sparesBuf hc.spares _ _), hk⟩

/-- The registers after an operation whose body writes none, RESULT and LAST_STATUS apart. -/
theorem Progress.kernel_entered {op : Option Instr} {k : Nat} {es : List Event} {s s1 t : State} (h : Progress k es s1 t)
    (h1 : Entered op s s1) :
    t.csr.kernel = { s.csr.kernel with lastStatus := statusFrom s.csr.lastStatus es } := by
  rw [h.kernelEq, h1.kernel, h1.lastStatus]

/-- Settles O47: the two writes of FLUSH CACHE (EXT), and the reply of the two waits. -/
theorem flushDevResult : Obligations.FlushDevResult := by
  intro s hu
  obtain ⟨s1, h1, hrun⟩ := exec_commanded .flushDev hu
  obtain ⟨es, t, k, p, hc, hb⟩ := bodyFlushDev_calm h1.calm
  rw [h1.same.flushReply, h1.same.precmdTimesOut, h1.same.flushSeq] at hc
  rw [h1.same.flushReply] at hb
  obtain ⟨u, he, hfin, hmem, hk⟩ := hrun p.moves hc (hb.imp (fun h => by rw [h.2]; exact h.1) id)
  exact ⟨u, es, he, hfin, hmem, hc.tasks, s.flushReply_waitCode, by rw [hk, p.kernel_entered h1]⟩

theorem geometryLegal_iff (heads spt : Byte) :
    geometryLegal heads spt = true ↔ heads ≠ 0 ∧ heads.toNat ≤ 16 ∧ spt ≠ 0 := by
  simp [geometryLegal, and_assoc]

/-- The writes of SETGEOM, newest first: the head count goes down by one (41 R134, R145). -/
theorem setgeomSeq_reverse {heads spt : Byte} (hl : geometryLegal heads spt = true) :
    (setgeomSeq heads spt).reverse = [(7, 0x91), (2, spt), (6, BitVec.ofNat 8 (0xA0 + (heads.toNat - 1)))] := by
  obtain ⟨-, h16, -⟩ := (geometryLegal_iff heads spt).mp hl
  have hn : orNibble 0xA0 (heads.toNat - 1) = BitVec.ofNat 8 (0xA0 + (heads.toNat - 1)) := by
    apply BitVec.eq_of_toNat_eq
    simp only [orNibble_toNat (.inl rfl), BitVec.toNat_ofNat, BitVec.reduceToNat]
    omega
  rw [setgeomSeq, hn]
  rfl

/-- Settles O46: illegal arguments raise OutOfRange first; otherwise the three writes, the reply of the two waits, and the
geometry written last. -/
theorem setgeomResult : Obligations.SetgeomResult := by
  refine fun heads spt s hu => ⟨fun hbad => ?illegal, fun hh h16 hspt => ?legal⟩
  case illegal =>
    have hl : geometryLegal heads spt = false := by
      rw [← Bool.not_eq_true, geometryLegal_iff]
      rintro ⟨hh, h16, hspt⟩
      exact hbad.elim hh fun h => h.elim h16.not_gt hspt
    refine exec_rejected (.setgeom heads spt) hu (e := .outOfRange) fun s1 _ => ?_
    simp only [bodyOf, bodySetgeom, hl]
    rfl
  case legal =>
    have hl : geometryLegal heads spt = true := (geometryLegal_iff heads spt).mpr ⟨hh, h16, hspt⟩
    obtain ⟨s1, h1, hrun⟩ := exec_commanded (.setgeom heads spt) hu
    obtain ⟨es, t, k, p, hc, hb⟩ := bodySetgeom_calm heads spt h1.calm hl
    rw [h1.same.setgeomReply, h1.same.precmdTimesOut] at hc
    rw [h1.same.setgeomReply] at hb
    have htask := setgeomSeq_reverse hl ▸ hc.tasks
    rcases hb with ⟨hb, h0⟩ | ⟨e, hb, h0⟩
    · have hgeo := Moves.csr p.calm (c := { t.csr with geomHeads := heads, geomSpt := spt }) rfl
      obtain ⟨u, he, hfin, hmem, hk⟩ := hrun (p.moves.trans hgeo) hc (.inl (h0 ▸ hb))
      refine ⟨u, es, he, hfin, hmem, htask, fun _ => ?_, fun h => absurd h0 h⟩
      rw [hk, h0]
      exact congrArg (fun c : Csrs => { c with result := 0, geomHeads := heads, geomSpt := spt }) (p.kernel_entered h1)
    · have hne : (s.setgeomReply heads spt).code ≠ 0 := h0 ▸ err_code_ne_zero e
      obtain ⟨u, he, hfin, hmem, hk⟩ := hrun p.moves hc (.inr ⟨e, hb, h0⟩)
      refine ⟨u, es, he, hfin, hmem, htask, fun h => absurd h hne, fun _ => ⟨?_, by rw [hk, p.kernel_entered h1]⟩⟩
      exact (s.setgeomReply_waitCode hl).resolve_left hne

/-- Settles O44: the two writes, the reply of the two waits, and the 256 words read after them. -/
theorem identifyResult : Obligations.IdentifyResult := by
  intro s hu
  obtain ⟨s1, h1, hrun⟩ := exec_commanded .identify hu
  obtain ⟨es, t, k, m, hc, hk1, hb⟩ := bodyIdentify_calm h1.calm
  rw [h1.same.identifyReply, h1.same.precmdTimesOut, h1.same.identifySeq] at hc
  rw [h1.same.identifyReply] at hb
  obtain ⟨u, he, hfin, hmem, hk⟩ := hrun m hc (hb.imp (fun h => by rw [h.2.1]; exact h.1) fun ⟨e, h⟩ => ⟨e, h.1, h.2.1⟩)
  have hid : u.csr.idValid = t.csr.idValid ∧ u.csr.idbuf = t.csr.idbuf :=
    ⟨(congrArg Csrs.idValid hk : _), (congrArg Csrs.idbuf hk : _)⟩
  have hst : t.csr.lastStatus = statusFrom s.csr.lastStatus es := h1.lastStatus ▸ m.status
  have hframe : u.csr.kernel =
      { s.csr.kernel with
        result := s.identifyReply.code
        lastStatus := statusFrom s.csr.lastStatus es
        idValid := u.csr.idValid
        idbuf := u.csr.idbuf } := by
    rw [← h1.kernel, ← hst, hid.1, hid.2]
    exact hk.trans (congrArg (fun c : Csrs => { c with
      result := s.identifyReply.code, lastStatus := t.csr.lastStatus, idValid := t.csr.idValid, idbuf := t.csr.idbuf }) hk1)
  refine ⟨u, es, he, hfin, hmem, s.identifyReply_waitCode, hc.tasks, fun h0 => ?success, fun hne => ?failure, hframe⟩
  case success =>
    rcases hb with ⟨-, -, hv, hw, hpre⟩ | ⟨e, -, h, -⟩
    · exact ⟨hid.1.trans hv, by rw [hid.2, hw], hpre⟩
    · exact absurd (h.symm.trans h0) (err_code_ne_zero e)
  case failure =>
    rcases hb with ⟨-, h, -⟩ | ⟨e, -, -, hv, hw, -⟩
    · exact absurd h hne
    · have h1buf : s1.csr.idbuf = s.csr.idbuf := h1.same.csr Csrs.idbuf fun _ => rfl
      exact ⟨hid.1.trans hv, hid.2.trans (hw.trans h1buf)⟩

/-! ## GETID (41 R144) -/

/-- Two offsets less than the size of BUF apart are two addresses (20 R65). -/
theorem wrapped_ne {size a i j : Nat} (hi : i < j) (hj : j < size + i) : (a + j) % size ≠ (a + i) % size := by
  intro h
  have hd : (a + j - (a + i)) % size = 0 := Nat.sub_mod_eq_zero_of_mod_eq h
  rw [Nat.add_sub_add_left, Nat.mod_eq_of_lt (by omega)] at hd
  omega

/-- Words written one after another change no byte outside their range (20 R67). -/
theorem Memory.read_writeHalves_outside (size : Nat) {b : Nat} : ∀ (ws : List Half) {m : Memory} (a : Nat), m.wf = true →
    (∀ j, j < 2 * ws.length → b ≠ (a + j) % size) → (Memory.writeHalves size m a ws).read b = m.read b
  | [], _, _, _, _ => rfl
  | v :: ws, m, a, hm, hb => by
    rw [List.length_cons] at hb
    have rest := Memory.read_writeHalves_outside size ws (a + 2) (Memory.wf_writeHalf hm size a v) fun j hj => by
      rw [Nat.add_assoc]
      exact hb (2 + j) (by omega)
    rw [Memory.writeHalves, rest, Memory.read_writeHalf hm, if_neg (hb 1 (by omega)),
      if_neg (show b ≠ a % size from hb 0 (by omega))]

/-- Words that fit BUF read back, each low byte first (20 R66, R67). -/
theorem Memory.read_writeHalves_inside (size : Nat) : ∀ (ws : List Half) {m : Memory} (a : Nat), m.wf = true →
    2 * ws.length ≤ size → ∀ (j : Nat) (hj : j < ws.length),
      (Memory.writeHalves size m a ws).read ((a + 2 * j) % size) = ws[j].lo ∧
        (Memory.writeHalves size m a ws).read ((a + 2 * j + 1) % size) = ws[j].hi
  | [], _, _, _, _, _, hj => absurd hj (Nat.not_lt_zero _)
  | v :: ws, m, a, hm, hs, j, hj => by
    have hm1 := Memory.wf_writeHalf hm size a v
    rw [List.length_cons] at hs hj
    cases j with
    | zero =>
      have kept : ∀ i, i < 2 → (Memory.writeHalves size (m.writeHalf size a v) (a + 2) ws).read ((a + i) % size) =
          (m.writeHalf size a v).read ((a + i) % size) := fun i hi =>
        Memory.read_writeHalves_outside size ws (a + 2) hm1 fun j hj => by
          rw [Nat.add_assoc]
          exact (wrapped_ne (by omega) (by omega)).symm
      have h01 : (a + 0) % size ≠ (a + 1) % size := (wrapped_ne (by omega) (by omega)).symm
      simp only [Memory.writeHalves, Nat.mul_zero, kept 1 (by omega), Nat.add_assoc, Nat.zero_add, kept 0 (by omega),
        Memory.read_writeHalf hm, if_neg h01]
      exact ⟨if_pos rfl, if_pos trivial⟩
    | succ j =>
      have ih := Memory.read_writeHalves_inside size ws (a + 2) hm1 (by omega) j (by omega)
      rw [show a + 2 + 2 * j = a + 2 * (j + 1) by omega] at ih
      exact ih

/-- Events of which none is a status read leave LAST_STATUS (40 R109). -/
theorem statusFrom_of_forall : ∀ {es : List Event}, (∀ e ∈ es, ∀ b, statusFrom b [e] = b) → ∀ b, statusFrom b es = b
  | [], _, _ => rfl
  | e :: es, h, b => by
    rw [← List.singleton_append, statusFrom_append, statusFrom_of_forall (fun e' he' => h e' (List.mem_cons_of_mem e he'))]
    exact h e List.mem_cons_self b

/-- Without a bus cycle no status is read. -/
theorem statusFrom_of_noBusCycle {es : List Event} (h : es.countP Event.isBusCycle = 0) (b : Byte) : statusFrom b es = b := by
  refine statusFrom_of_forall (fun e he b => ?_) b
  cases e with
  | ideRead reg kind v => exact absurd rfl (List.countP_eq_zero.mp h _ he)
  | _ => rfl

/-- Settles O45: the words of IDBUF are written one after another, or NoData is raised first. -/
theorem getidResult : Obligations.GetidResult := by
  refine fun s hu hans hwf _ => ⟨fun hv => ?copied, fun hv => ?noData⟩
  case copied =>
    obtain ⟨s1, h1, hrun⟩ := exec_ended .getid hu
    obtain ⟨es, t, hb, a, hbus, -, hmem⟩ :=
      bodyGetid_calm h1.calm (h1.answers hans) ((h1.same.csr Csrs.idValid fun _ => rfl).trans hv)
    obtain ⟨u, he, hend, hk⟩ := hrun es t 0 512 a.toProgress.moves (.inl hb)
    have hread : u.mem = Memory.writeHalves s.bufSize s.mem s.bufAddr s.csr.idbuf.toList := by
      rw [hend.mem, ← h1.same.bufSize, hmem, h1.same.bufAddr, h1.same.csr Csrs.idbuf fun _ => rfl]
    refine ⟨u, es, he, hend.finished, hbus, ?_, fun hsize j hj => ?_, fun b hb => ?_⟩
    · rw [hk, a.kernel_same (statusFrom_of_noBusCycle hbus _), h1.kernel]
    · have hin := Memory.read_writeHalves_inside s.bufSize s.csr.idbuf.toList s.bufAddr hwf
        (by rw [Vector.length_toList]; exact hsize) j (by rw [Vector.length_toList]; exact hj)
      rwa [hread, ← Vector.getElem_toList]
    · rw [hread]
      refine Memory.read_writeHalves_outside s.bufSize _ _ hwf fun j hj => hb j ?_
      rw [Vector.length_toList] at hj
      exact hj
  case noData =>
    exact exec_rejected .getid hu fun s1 h1 => bodyGetid_noData ((h1.same.csr Csrs.idValid fun _ => rfl).trans hv)

/-! ## The events of a wait (42 R175, R176, R207) -/

theorem intersperse_concat {α : Type} (sep a : α) : ∀ {l : List α}, l ≠ [] →
    (l ++ [a]).intersperse sep = l.intersperse sep ++ [sep, a]
  | [], h => absurd rfl h
  | [_], _ => rfl
  | x :: y :: l, _ => by
    rw [List.cons_append, List.cons_append, List.intersperse_cons_cons, ← List.cons_append,
      intersperse_concat sep a (List.cons_ne_nil y l), List.intersperse_cons_cons]
    rfl

/-- The events of `k` polls, newest first: reads of register 7, and a gap between two of them. -/
def pollEvents (gap : Nat) (f : Nat → Half) (k : Nat) : List Event :=
  (((List.range k).map fun j => Event.ideRead 7 .reg (f j)).reverse).intersperse (.idle gap)

/-- One poll before the others, with a gap behind it. -/
theorem pollEvents_succ (gap : Nat) (f : Nat → Half) {k : Nat} (hk : k ≠ 0) :
    pollEvents gap f (k + 1) = pollEvents gap (fun j => f (1 + j)) k ++ [.idle gap, .ideRead 7 .reg (f 0)] := by
  have hne : ((List.range k).map fun j => Event.ideRead 7 .reg (f (1 + j))).reverse ≠ [] := by simpa using hk
  rw [pollEvents, List.range_succ_eq_map, List.map_cons, List.reverse_cons, List.map_map]
  simp only [Function.comp_def, Nat.succ_eq_one_add]
  exact intersperse_concat _ _ hne

theorem isPoll_pollEvents (gap : Nat) : ∀ (k : Nat) (f : Nat → Half), ∀ e ∈ pollEvents gap f k, e.isPoll = true
  | 0, _, e, he => absurd he List.not_mem_nil
  | 1, f, e, he => by rw [List.mem_singleton.mp he]; rfl
  | k + 2, f, e, he => by
    rw [pollEvents_succ gap f (Nat.succ_ne_zero k), List.mem_append] at he
    rcases he with he | he
    · exact isPoll_pollEvents gap (k + 1) _ e he
    · simp only [List.mem_cons, List.not_mem_nil, or_false] at he
      rcases he with rfl | rfl <;> rfl

/-- As many bus cycles as polls. -/
theorem countP_pollEvents (gap : Nat) : ∀ (k : Nat) (f : Nat → Half), (pollEvents gap f k).countP Event.isBusCycle = k
  | 0, _ => rfl
  | 1, _ => rfl
  | k + 2, f => by
    rw [pollEvents_succ gap f (Nat.succ_ne_zero k), List.countP_append, countP_pollEvents gap (k + 1)]
    rfl

/-- Pseudocode of a wait ends as the wait on the stream does, at `t`, after `k` polls. -/
def Waited.endsAs (w : Waited) (r : EStateM.Result Exit State Byte) (k : Nat) (t : State) : Prop :=
  match w with
  | .ready st k' => r = .ok st t ∧ k' = k
  | .failed e k' => r = .error (.raised e) t ∧ k' = k

/-- The first poll of a wait. -/
theorem poll_once (verdict : Byte → Verdict) (n : Nat) {s : State} (h : s.calm) :
    ∃ t, Adv 1 [.ideRead 7 .reg (s.upcoming 0)] s t ∧
      (verdict (s.upcoming 0).lo = .ready → poll verdict (n + 1) s = .ok (s.upcoming 0).lo t) ∧
      (verdict (s.upcoming 0).lo = .failed → poll verdict (n + 1) s = .error (.raised .deviceError) t) ∧
      (verdict (s.upcoming 0).lo = .again → n = 0 → poll verdict (n + 1) s = .error (.raised .timeout) t) ∧
      (verdict (s.upcoming 0).lo = .again → n ≠ 0 →
        poll verdict (n + 1) s = (idle s.params.tPollGap >>= fun _ => poll verdict n) t) := by
  have a1 : Adv 0 [] s { s with eng := { s.eng with pollsLeft := n + 1 } } := Adv.engine h rfl rfl rfl
  obtain ⟨t, e, a⟩ := read8_calm 7 a1.calm
  have a2 : Adv 1 [.ideRead 7 .reg (s.upcoming 0)] s t := a1.trans a
  have e2 : read8 7 { s with eng := { s.eng with pollsLeft := n + 1 } } = .ok (s.upcoming 0).lo t := e
  refine ⟨t, a2, fun hv => ?_, fun hv => ?_, fun hv hn => ?_, fun hv hn => ?_⟩ <;>
    rw [poll, bind_ok (setEngine_run _ _), bind_ok e2, hv]
  · rfl
  · rfl
  · subst hn; rfl
  · simp only [ne_eq, hn, not_false_eq_true, if_true]
    rw [get_bind, a2.params]

/-- A wait reads register 7 as often as the wait on the stream does, with a gap between two polls and none after the last. -/
theorem poll_runs (verdict : Byte → Verdict) : ∀ (n : Nat) {s : State}, s.calm →
    ∃ t k, Adv k (pollEvents s.params.tPollGap s.upcoming k) s t ∧ k ≤ n ∧ (1 ≤ n → 1 ≤ k) ∧
      (pollOn verdict s.upcoming n 0).endsAs (poll verdict n s) k t
  | 0, s, h => ⟨s, 0, Adv.refl h, Nat.le_refl 0, id, rfl, rfl⟩
  | n + 1, s, h => by
    obtain ⟨t, a, hready, hfailed, hlast, hagain⟩ := poll_once verdict n h
    unfold pollOn
    cases hv : verdict (s.upcoming 0).lo with
    | ready => exact ⟨t, 1, a, by omega, fun _ => Nat.le_refl 1, hready hv, rfl⟩
    | failed => exact ⟨t, 1, a, by omega, fun _ => Nat.le_refl 1, hfailed hv, rfl⟩
    | again =>
      rcases Nat.eq_zero_or_pos n with rfl | hn
      · exact ⟨t, 1, a, Nat.le_refl 1, fun _ => Nat.le_refl 1, hlast hv rfl, rfl⟩
      · obtain ⟨u, eu, au⟩ := idle_calm s.params.tPollGap a.calm
        have a2 := a.trans au
        obtain ⟨v, k, av, hk, hpos, hends⟩ := poll_runs verdict n a2.calm
        have hk0 : k ≠ 0 := Nat.one_le_iff_ne_zero.mp (hpos hn)
        have hup : u.upcoming = fun j => s.upcoming (1 + j) := funext a2.stream
        refine ⟨v, k + 1, (a2.trans av).cast (by omega) ?_, by omega, fun _ => by omega, ?_⟩
        · rw [pollEvents_succ _ _ hk0, a2.params, hup]
          rfl
        · simp only []
          rw [hagain hv hn.ne', bind_ok eu, pollOn_cast verdict (f := s.upcoming) (d := 0 + 1) a2.stream]
          unfold Waited.endsAs at hends ⊢
          cases hw : pollOn verdict u.upcoming n 0 with
          | ready st k' => rw [hw] at hends; exact ⟨hends.1, by rw [hends.2]; omega⟩
          | failed e k' => rw [hw] at hends; exact ⟨hends.1, by rw [hends.2]; omega⟩

/-! ## IssueCommand (41 R131) -/

/-- The writes of a command and its settle time (41 R131). -/
def commandEvents (s : State) (seq : List SeqEntry) : List Event := .idle s.params.tCmdSettle :: writeEvents seq

theorem isQuiet_commandEvents (s : State) (seq : List SeqEntry) : ∀ e ∈ commandEvents s seq, e.isQuiet = true :=
  fun _ he => (List.mem_cons.mp he).elim (fun h => h ▸ rfl) (isQuiet_writeEvents seq _)

/-- A command reads no status. -/
theorem statusFrom_commandEvents (s : State) (seq : List SeqEntry) (b : Byte) : statusFrom b (commandEvents s seq) = b := by
  refine statusFrom_of_forall (fun e he b => ?_) b
  rcases List.mem_cons.mp he with rfl | he
  · rfl
  · simp only [writeEvents, List.mem_reverse, List.mem_map] at he
    obtain ⟨p, -, rfl⟩ := he
    rfl

/-- Quiet events leave BUF. -/
theorem Flow.mem_quiet {k : Nat} {es : List Event} {s t : State} (h : Flow k es s t) (hq : ∀ e ∈ es, e.isQuiet = true) :
    t.mem = s.mem := h.mem.trans (memAfter_sparesBuf (Event.spares_of_quiet hq) _ _)

/-- A command after its pre-command wait. -/
theorem commandWrites_calm (seq : List SeqEntry) {s : State} (h : s.calm) :
    ∃ t, (goto .cmdWrites >>= fun _ => issueCommandNoWait seq) s = .ok () t ∧ Adv 0 (commandEvents s seq) s t := by
  have a1 := goto_calm .cmdWrites h
  obtain ⟨t, e, a⟩ := issueCommandNoWait_calm seq a1.calm
  exact ⟨t, by rw [bind_ok (goto_run _ _), e], (a1.trans a).cast rfl (List.append_nil _)⟩

theorem issueCommand_noWait {s : State} (hp : s.params.precmdWait = false) (seq : List SeqEntry) :
    issueCommand seq s = (goto .cmdWrites >>= fun _ => issueCommandNoWait seq) s := by
  rw [issueCommand, get_bind]
  simp only [hp, Bool.false_eq_true, if_false]

theorem issueCommand_wait {s : State} (hp : s.params.precmdWait = true) (seq : List SeqEntry) :
    issueCommand seq s = (poll notBusyVerdict s.params.budgetPrecmd >>= fun _ =>
      goto .cmdWrites >>= fun _ => issueCommandNoWait seq) { s with eng := { s.eng with step := some .precmdWait } } := by
  rw [issueCommand, get_bind]
  simp only [hp, if_true]
  rw [bind_ok (goto_run _ _)]
  rfl

/-- Settles O43: the polls of the pre-command wait, then the writes of the command and its settle time. -/
theorem issueCommandRuns : Obligations.IssueCommandRuns := by
  intro s seq hb hu writes
  have hs : s.calm := ⟨hb, (Bool.and_eq_true_iff.mp hu).1⟩
  refine ⟨fun hp => ?noWait, fun hp => ?wait⟩
  case noWait =>
    obtain ⟨t, e, a⟩ := commandWrites_calm seq hs
    exact ⟨t, (issueCommand_noWait hp seq).trans e, a.events, a.kernel_same (statusFrom_commandEvents s seq _),
      a.mem_quiet (isQuiet_commandEvents s seq)⟩
  case wait =>
    have a1 := goto_calm .precmdWait hs
    obtain ⟨t, k, a, -, -, hends⟩ := poll_runs notBusyVerdict s.params.budgetPrecmd a1.calm
    have a2 : Adv k (pollEvents s.params.tPollGap s.upcoming k) s t := (a1.trans a).cast (Nat.zero_add k) (List.append_nil _)
    have hpoll := isPoll_pollEvents s.params.tPollGap k s.upcoming
    have hquiet : ∀ e ∈ pollEvents s.params.tPollGap s.upcoming k, e.isQuiet = true := fun e he =>
      Event.isQuiet_of_isPoll (hpoll e he)
    change (pollOn notBusyVerdict s.upcoming s.params.budgetPrecmd 0).endsAs _ k t at hends
    rw [issueCommand_wait hp]
    cases hw : pollOn notBusyVerdict s.upcoming s.params.budgetPrecmd 0 with
    | ready st k' =>
      rw [hw] at hends
      obtain ⟨er, rfl⟩ := hends
      obtain ⟨u, e, a3⟩ := commandWrites_calm seq a2.calm
      refine ⟨u, _, (bind_ok er).trans e, countP_pollEvents _ _ _, taskWrite_of_isPoll hpoll, ?_,
        (a3.mem_quiet (isQuiet_commandEvents t seq)).trans (a2.mem_quiet hquiet)⟩
      rw [a3.events, a2.events, commandEvents, a2.params]
      rfl
    | failed e k' =>
      rw [hw] at hends
      obtain ⟨er, rfl⟩ := hends
      exact ⟨t, _, bind_error er, pollOn_notBusy_timeout _ _ _ _ _ hw, countP_pollEvents _ _ _, taskWrite_of_isPoll hpoll,
        a2.events, a2.mem_quiet hquiet⟩

/-! ## An operation whose body leads from `P` to `Q` -/

section
variable {P Q F R : State → Prop} {α β : Type}

/-- What holds at the end of pseudocode that starts with `x`. -/
theorem Leads.final {x : EngineM α} {f : α → EngineM β} (hx : Leads P Q F x) (hF : ∀ u, F u → R u)
    (hf : ∀ a u, Q u → R (finalState (f a) u)) {s : State} (hs : P s) : R (finalState (x >>= f) s) := by
  have h := hx s hs
  unfold finalState
  match hr : x s with
  | .ok a t => rw [hr] at h; rw [bind_ok hr]; exact hf a t h
  | .error (.raised e) t => rw [hr] at h; exact h.elim
  | .error .halted t => rw [hr] at h; rw [bind_error hr]; exact hF t h

/-- After a part that raises nothing, one that may. -/
theorem Leads.after {x : EngineM α} {f : α → EngineM β} (hx : Leads P Q F x) (hf : ∀ a, Keeps Q F (f a)) {s : State}
    (hs : P s) : After Q F ((x >>= f) s) := by
  have h := hx s hs
  match hr : x s with
  | .ok a t => rw [hr] at h; rw [bind_ok hr]; exact hf a t h
  | .error (.raised e) t => rw [hr] at h; exact h.elim
  | .error .halted t => rw [hr] at h; rw [bind_error hr]; exact h

theorem leads_codeOf {x : EngineM Word} (hx : ∀ s, P s → After Q F (x s)) : Leads P Q F (codeOf x) := by
  intro s hs
  have h := hx s hs
  unfold codeOf
  match hr : x s with
  | .ok a t => rw [hr] at h; exact h
  | .error (.raised e) t => rw [hr] at h; exact h
  | .error .halted t => rw [hr] at h; exact h

/-- A whole operation, where its body leads from `P` to `Q` and the holds around it keep them (60 R212). -/
theorem exec_through {i : Instr} {s t : State} (h0 : P (s.entered (some i))) (hP : ∀ n, Leads P P F (hold n))
    (hb : ∀ s, P s → After Q F (bodyOf i s)) (hg : Leads Q Q F (goto .finishing)) (hQ : ∀ n, Leads Q Q F (hold n))
    (hF : ∀ u, F u → R u) (hfin : ∀ u code, Q u → R (finalState (finish code) u)) (he : exec i s = .next t) : R t := by
  rw [exec_eq] at he
  cases he
  have henter : Leads (fun u => u = s) P F (enter (some i)) := fun u hu => hu ▸ h0
  exact henter.final hF (fun _ u hu => (hP u.params.startLatency).final hF (fun _ u hu => (leads_codeOf hb).final hF
    (fun code u hu => hg.final hF (fun _ u hu => (hQ u.params.finishLatency).final hF (fun _ u hu => hfin u code hu) hu) hu)
    hu) hu) rfl

end

/-! ## The drive's reset line (41 R147) -/

/-- In how many clock cycles so far the reset line was low. -/
def State.lowCycles (s : State) : Nat := s.wave.countP fun p => !p.ide.resetN

/-- An operation runs with the reset line at a level, no reset is to come, and the line was low in `c` cycles so far. -/
structure State.lineAt (level : Bool) (p : Params) (c : Nat) (s : State) : Prop where
  busy : s.busy = true
  noReset : s.noReset = true
  params : s.params = p
  line : s.ide.resetN = level
  low : s.lowCycles = c

section
variable {level : Bool} {p : Params} {c : Nat} {F : State → Prop}

theorem lineAt_engine (s : State) (e : Engine) (h : s.lineAt level p c) (hp : e.phase = s.eng.phase) (_ : e.op = s.eng.op) :
    ({ s with eng := e } : State).lineAt level p c := { h with busy := State.busy_engine h.busy hp }

/-- Cycles spent with the port held count where the line is low. -/
theorem Spent.lowCycles {n : Nat} {s t : State} (h : Spent n s t) :
    t.lowCycles = s.lowCycles + if s.ide.resetN then 0 else n := by
  obtain ⟨l, hw, hl, hp⟩ := h.wave
  have hcount : (l.countP fun p => !p.ide.resetN) = if s.ide.resetN then 0 else n := by
    split
    · rename_i hr
      exact List.countP_eq_zero.mpr fun q hq => by simp [hp q hq, hr]
    · rename_i hr
      rw [← hl]
      exact List.countP_eq_length.mpr fun q hq => by simp [hp q hq, hr]
  rw [State.lowCycles, hw, List.countP_append, hcount, Nat.add_comm]
  rfl

/-- Without reset nothing cuts a hold, whatever the outside does: `F` is free here and below. -/
theorem leads_hold_line (n : Nat) :
    Leads (State.lineAt level p c) (State.lineAt level p (c + if level then 0 else n)) F (hold n) := by
  intro s h
  obtain ⟨t, e, hs⟩ := hold_spent n h.busy h.noReset
  have hheld : Held (fun _ => ()) () p s.eng.op t :=
    ((fine_held (fun _ => rfl) () p s.eng.op).hold n).ok ⟨h.busy, h.params, rfl, rfl⟩ e
  rw [e]
  exact ⟨hs.busy, hs.noReset, hheld.params, hs.ide ▸ h.line, by rw [hs.lowCycles, h.low, h.line]⟩

theorem leads_setEngine_line {f : Engine → Engine} (hf : ∀ e, (f e).phase = e.phase ∧ (f e).op = e.op) :
    Leads (State.lineAt level p c) (State.lineAt level p c) F (setEngine f) :=
  Leads.modify fun s h => lineAt_engine s _ h (hf _).1 (hf _).2

/-- An update of the port that leaves the reset line. -/
theorem leads_setIde_line {f : IdePort → IdePort} (hf : ∀ d, (f d).resetN = d.resetN) :
    Leads (State.lineAt level p c) (State.lineAt level p c) F (setIde f) :=
  Leads.modify fun s h => { h with line := (hf s.ide).trans h.line }

theorem leads_busPhase_line (b : BusPhase) (n : Nat) : Leads (State.lineAt true p c) (State.lineAt true p c) F (busPhase b n) :=
  Leads.bind (leads_setEngine_line fun _ => ⟨rfl, rfl⟩) fun _ => leads_hold_line n

theorem leads_twoPhases_line {f g : IdePort → IdePort} (hf : ∀ d, (f d).resetN = d.resetN)
    (hg : ∀ d, (g d).resetN = d.resetN) (b b' : BusPhase) (n m : Nat) :
    Leads (State.lineAt true p c) (State.lineAt true p c) F (twoPhases f b n g b' m) :=
  (leads_setIde_line hf).bind fun _ => (leads_busPhase_line b n).bind fun _ => (leads_setIde_line hg).bind fun _ =>
    leads_busPhase_line b' m

theorem BusOp.strobe_resetN (o : BusOp) (level : Bool) (d : IdePort) : (o.strobe level d).resetN = d.resetN := by
  cases o <;> rfl

theorem BusOp.release_resetN (o : BusOp) (d : IdePort) : (o.release d).resetN = d.resetN := by cases o <;> rfl

theorem BusOp.setup_resetN (o : BusOp) (reg : IdeReg) (d : IdePort) : (o.setup reg d).resetN = d.resetN := rfl

theorem BusOp.leads_edge_line (o : BusOp) (reg : IdeReg) (kind : Kind) :
    Leads (State.lineAt true p c) (State.lineAt true p c) F (o.edge reg kind) := by
  intro s h
  rw [o.edge_run]
  exact { h with }

/-- A bus cycle leaves the reset line high (40 R104, R105). -/
theorem BusOp.leads_cycle_line (o : BusOp) (reg : IdeReg) (kind : Kind) :
    Leads (State.lineAt true p c) (State.lineAt true p c) F (o.cycle reg kind) :=
  (leads_cycleTimes kind).bind fun _ =>
    (leads_twoPhases_line (o.setup_resetN reg) (o.strobe_resetN false) _ _ _ _).bind fun _ =>
    (o.leads_edge_line reg kind).bind fun _ =>
    (leads_twoPhases_line (o.strobe_resetN true) o.release_resetN _ _ _ _).bind fun _ =>
    Leads.bind (leads_setEngine_line fun _ => ⟨rfl, rfl⟩) fun _ => Leads.pure _

theorem keeps_hold_line (n : Nat) : Keeps (State.lineAt true p c) (State.lineAt true p c) (hold n) :=
  (leads_hold_line n).keeps

theorem keeps_handshake_line (a : BufAccess) :
    Keeps (State.lineAt true p c) (State.lineAt true p c) (bufHandshake a) :=
  keeps_bufHandshake (fun _ _ h => { h with }) keeps_hold_line
    (takeAnswer_cases (fun _ _ h => { h with }) fun _ h _ => h) a

theorem keeps_takeByte_line (a : Nat) : Keeps (State.lineAt true p c) (State.lineAt true p c) (takeByte a) := by
  intro s h
  unfold takeByte
  split
  · exact h
  · exact { h with }

/-- Everything but the pulse of RESET leaves the reset line high. -/
theorem line_stable (p : Params) (c : Nat) : Stable (State.lineAt true p c) (State.lineAt true p c) where
  engine := lineAt_engine
  hold := keeps_hold_line
  idle := fun n => Keeps.bind (Keeps.modify fun _ h => { h with }) fun _ => keeps_hold_line n
  ideRead := fun reg kind => by
    rw [ideRead_eq]
    exact (BusOp.read.leads_cycle_line reg kind).keeps.bind fun _ =>
      Keeps.ite (Keeps.bind (Keeps.modify fun _ h => { h with }) fun _ => Keeps.pure _) (Keeps.pure _)
  ideWrite := fun reg v kind => by
    rw [ideWrite_eq]
    exact ((BusOp.write v).leads_cycle_line reg kind).keeps.bind fun _ => Keeps.pure _
  memRead := fun _ _ => Keeps.get fun _ _ => (keeps_handshake_line _).bind fun _ => (keeps_takeByte_line _).bind fun _ =>
    (keeps_takeByte_line _).bind fun _ => Keeps.bind (Keeps.modify fun _ h => { h with }) fun _ => Keeps.pure _
  memWrite := fun _ _ _ => Keeps.get fun _ _ => (keeps_handshake_line _).bind fun _ =>
    Keeps.bind (Keeps.modify fun _ h => { h with }) fun _ => Keeps.modify fun _ h => { h with }

theorem line_own {i : Instr} (hi : i ≠ .reset) : OwnUpdates (State.lineAt true p c) (State.lineAt true p c) i where
  invalidate := fun _ =>
    have hclock : Keeps (State.lineAt true p c) (State.lineAt true p c) clock := fun s h => by
      rw [clock_unreset h.busy h.noReset]
      have hs := State.tick_spent h.busy h.noReset
      exact ⟨hs.busy, hs.noReset, s.tick_params.trans h.params, hs.ide ▸ h.line, by rw [hs.lowCycles, h.low, h.line]; rfl⟩
    ((line_stable p c).goto _).bind fun _ => Keeps.get fun _ _ => Keeps.bind (Keeps.modify fun _ h => { h with }) fun _ =>
      Keeps.bind (Keeps.modify fun _ h => { h with }) fun _ => hclock.bind fun _ => Keeps.modify fun _ h => { h with }
  pulse := fun h => absurd h hi
  idValid := fun _ _ _ h => { h with }
  idbuf := fun _ _ _ h => { h with }
  geometry := fun _ _ _ _ h => { h with }

/-- The pulse holds the line low for T_RST_PW cycles (41 R147). -/
theorem leads_resetPulse_line :
    Leads (State.lineAt true p c) (State.lineAt true p (c + p.tRstPw)) F resetPulse := by
  refine Leads.bind (leads_setEngine_line fun _ => ⟨rfl, rfl⟩) fun _ =>
    Leads.bind (Q := State.lineAt true p c) (Leads.modify fun _ h => { h with }) fun _ =>
    Leads.bind (Q := State.lineAt false p c) (Leads.modify fun _ h => { h with line := rfl }) fun _ => fun s hs => ?_
  have rise : Leads (State.lineAt false p (c + p.tRstPw)) (State.lineAt true p (c + p.tRstPw)) F
      (setIde fun d => { d with resetN := true }) := Leads.modify fun _ h => { h with line := rfl }
  have pulse := (leads_hold_line (F := F) (level := false) (p := p) (c := c) p.tRstPw).bind fun _ => rise
  rw [get_bind, hs.params]
  exact pulse s hs

/-- The body of an operation: the line is low for the pulse of RESET alone. -/
theorem body_line (i : Instr) (c : Nat) {s : State} (hs : s.lineAt true p c) :
    After (State.lineAt true p (c + if i = .reset then p.tRstPw else 0))
      (State.lineAt true p (c + if i = .reset then p.tRstPw else 0)) (bodyOf i s) := by
  by_cases hi : i = .reset
  · subst hi
    have h := line_stable p (c + p.tRstPw)
    exact leads_resetPulse_line.after (fun _ => (h.goto _).bind fun _ => Keeps.get fun _ _ => (h.idle _).bind fun _ =>
      (h.goto _).bind fun _ => Keeps.get fun _ _ => (h.poll _ _).bind fun _ => Keeps.pure _) hs
  · rw [if_neg hi]
    exact (line_stable p c).body (line_own hi) s hs

end

/-- `finish` leaves the reset line and its count. -/
theorem finish_line (code : Word) {p : Params} {c : Nat} {s : State} (h : s.lineAt true p c) :
    (finalState (finish code) s).ide.resetN = true ∧ (finalState (finish code) s).lowCycles = c := by
  have hl := State.applyInputs_landed h.busy h.noReset
  have hline : s.applyInputs.ide.resetN = true := by rw [hl.ide, h.line]
  have hw : s.applyInputs.wave = s.wave := congrArg Prod.fst (State.applyInputs_records h.noReset)
  simp only [finalState, finish_unreset code h.busy h.noReset]
  refine ⟨hline, ?_⟩
  have hshown : (s.applyInputs.complete code).sample.ide.resetN = true := hline
  have hwave : (s.finished code).wave = (s.applyInputs.complete code).sample :: s.wave := by rw [← hw]; rfl
  rw [State.lowCycles, hwave, List.countP_cons_of_neg (by simp [hshown])]
  exact h.low

/-- Without a block reset the line is low in the cycles of a RESET's pulse alone (40 R106, 41 R147). -/
theorem exec_line {i : Instr} {s t : State} (hn : s.noReset = true) (hr : s.ide.resetN = true) (he : exec i s = .next t) :
    t.ide.resetN = true ∧ t.lowCycles = s.lowCycles + if i = .reset then s.params.tRstPw else 0 :=
  exec_through (P := State.lineAt true s.params s.lowCycles)
    (R := fun t => t.ide.resetN = true ∧ t.lowCycles = s.lowCycles + if i = .reset then s.params.tRstPw else 0)
    ⟨rfl, hn, rfl, hr, rfl⟩ leads_hold_line
    (fun _ hs => body_line i _ hs) (leads_setEngine_line fun _ => ⟨rfl, rfl⟩) leads_hold_line
    (fun _ h => ⟨h.line, h.low⟩) (fun _ code h => finish_line code h) he

/-! ## RESET (41 R147) -/

/-- RESET up to its polls. -/
theorem bodyReset_run {s : State} (h : s.calm) :
    ∃ t, Adv 0 [.idle s.params.tRstSettle, .resetPulse] s t ∧
      bodyReset s = (poll notBusyVerdict t.params.budgetReset >>= fun _ => pure 0) t := by
  obtain ⟨t1, e1, a1⟩ := resetPulse_calm h
  have a2 := goto_calm .resetSettle a1.calm
  obtain ⟨t3, e3, a3⟩ := idle_calm t1.params.tRstSettle a2.calm
  have a4 := goto_calm .resetWait a3.calm
  refine ⟨_, (((a1.trans a2).trans a3).trans a4).cast rfl (by rw [a1.params]; rfl), ?_⟩
  rw [bodyReset, bind_ok e1, bind_ok (goto_run _ _), get_bind, bind_ok e3, bind_ok (goto_run _ _), get_bind]
  rfl

/-- Settles O48: the pulse and the settle time come before the polls, which decide the outcome. -/
theorem resetResult : Obligations.ResetResult := by
  refine ⟨fun i s t hn hr he => exec_line hn hr he, fun s hu => ?_⟩
  obtain ⟨s1, h1, hrun⟩ := exec_ended .reset hu
  obtain ⟨t, a, hbody⟩ := bodyReset_run h1.calm
  obtain ⟨u, k, ap, -, -, hends⟩ := poll_runs notBusyVerdict t.params.budgetReset a.calm
  have hpoll := isPoll_pollEvents t.params.tPollGap k t.upcoming
  have hall := a.trans ap
  rw [h1.params, Nat.zero_add] at hall
  -- the wait on the stream of `s`
  have hup : t.upcoming = s.upcoming := funext fun j => by rw [a.stream, h1.stream, Nat.zero_add]
  have hpar : t.params = s.params := a.params.trans h1.params
  rw [hup, hpar] at hends
  obtain ⟨hcode, hused, hb⟩ : (s.resetReply.code = 0 ∨ s.resetReply.code = Err.timeout.code) ∧ s.resetReply.used = k ∧
      (bodyReset s1 = .ok s.resetReply.code u ∨
        ∃ e, bodyReset s1 = .error (.raised e) u ∧ s.resetReply.code = e.code) := by
    rw [hbody, hpar, State.resetReply]
    cases hw : pollOn notBusyVerdict s.upcoming s.params.budgetReset 0 with
    | ready st k' =>
      rw [hw] at hends
      exact ⟨.inl rfl, hends.2, .inl (bind_ok hends.1)⟩
    | failed e k' =>
      rw [hw] at hends
      obtain rfl := pollOn_notBusy_timeout _ _ _ _ _ hw
      exact ⟨.inr rfl, hends.2, .inr ⟨_, bind_error hends.1, rfl⟩⟩
  obtain ⟨v, he, hend, hk⟩ := hrun _ u k _ hall.toProgress.moves hb
  refine ⟨v, pollEvents t.params.tPollGap t.upcoming k, he, hused ▸ hend.finished, ?_,
    hused ▸ countP_pollEvents _ _ _, taskWrite_of_isPoll hpoll, hcode, ?_⟩
  · have hquiet : ∀ e ∈ pollEvents t.params.tPollGap t.upcoming k ++ [.idle s.params.tRstSettle, .resetPulse],
        e.isQuiet = true := fun e he => by
      rcases List.mem_append.mp he with he | he
      · exact Event.isQuiet_of_isPoll (hpoll e he)
      · simp only [List.mem_cons, List.not_mem_nil, or_false] at he
        rcases he with rfl | rfl <;> rfl
    exact hend.mem.trans (memAfter_sparesBuf (Event.spares_of_quiet hquiet) _ _)
  · rw [hk, hall.kernel_entered h1, statusFrom_append]
    rfl

/-! ## Operations with a ready Device (60 R211) -/

/-- Every value that the Device still answers shows BSY = 0, DRQ = 1 and ERR = 0. -/
def State.deviceReady (s : State) : Prop :=
  ∀ k, k < s.device.length →
    bsy (s.upcoming k).lo = false ∧ drq (s.upcoming k).lo = true ∧ err (s.upcoming k).lo = false

theorem State.deviceReady_of_forall {s : State}
    (h : ∀ v ∈ s.device, v.getLsbD 7 = false ∧ v.getLsbD 3 = true ∧ v.getLsbD 0 = false) : s.deviceReady := by
  intro k hk
  have hup : s.upcoming k = s.device[k] := by simp [State.upcoming, hk]
  simpa [hup, bsy, drq, err, Half.lo] using h _ (List.getElem_mem hk)

/-- A wait whose first poll decides for it. -/
theorem pollOn_ready {verdict : Byte → Verdict} {f : Nat → Half} {n k : Nat} (hn : 1 ≤ n)
    (h : verdict (f k).lo = .ready) : pollOn verdict f n k = .ready (f k).lo (k + 1) := by
  obtain ⟨n, rfl⟩ := Nat.exists_eq_add_of_le' hn
  simp [pollOn, h]

section
variable {s : State} (hd : s.deviceReady) (hw : s.params.wf)
include hd

theorem State.deviceReady.notBusy {n k : Nat} (hn : 1 ≤ n) (hk : k < s.device.length) :
    pollOn notBusyVerdict s.upcoming n k = .ready (s.upcoming k).lo (k + 1) :=
  pollOn_ready hn (by simp [notBusyVerdict, hd k hk])

/-- Only a command's own ERR check could fail, and ERR is 0. -/
theorem State.deviceReady.checked (code : Word) (ws : List Half) {k : Nat} (hk : k < s.device.length) (k' : Nat) :
    (replyChecked code ws (s.upcoming k).lo k').code = code := by
  simp [replyChecked, hd k hk]

theorem State.deviceReady.noData {budget k : Nat} (hn : 1 ≤ budget) (hk : k < s.device.length) :
    (s.replyNoData budget k).code = 0 := by
  rw [State.replyNoData, hd.notBusy hn hk]
  exact hd.checked 0 [] hk _

include hw

/-- The pre-command wait takes one poll at most. -/
theorem State.deviceReady.command (ws : List Half) {k : Nat} (hk : k < s.device.length) (f : Nat → Reply) :
    ∃ k', k' ≤ k + 1 ∧ s.replyCommand ws k f = f k' := by
  obtain ⟨-, -, -, -, -, -, -, -, -, hprecmd, -⟩ := hw
  by_cases hp : s.params.precmdWait = true
  · exact ⟨k + 1, Nat.le_refl _, by rw [State.replyCommand, if_pos hp, hd.notBusy hprecmd hk]; rfl⟩
  · exact ⟨k, Nat.le_succ k, by rw [State.replyCommand, if_neg hp]⟩

theorem State.deviceReady.drq (ws : List Half) {k : Nat} (hk : k < s.device.length) (f : Nat → Reply) :
    s.replyDrq ws k f = f (k + 1) := by
  obtain ⟨-, -, -, -, -, -, hdrq, -⟩ := hw
  rw [State.replyDrq, pollOn_ready hdrq (by simp [drqVerdict, hd k hk])]
  rfl

/-- A sector takes one poll, and 256 values in a READ. -/
theorem State.deviceReady.sectors (dir : Dir) {code : Word} {f : List Half → Nat → Reply} :
    ∀ (n : Nat) (ws : List Half) (k : Nat), k + 257 * n ≤ s.device.length →
      (∀ ws' k', k' ≤ k + 257 * n → (f ws' k').code = code) → (s.replySectors dir f n ws k).code = code
  | 0, ws, k, _, hf => hf ws k (Nat.le_refl _)
  | n + 1, ws, k, hk, hf => by
    have hreads : dataReads dir ≤ 256 := by cases dir <;> decide
    rw [State.replySectors, hd.drq hw ws (by omega)]
    exact State.deviceReady.sectors dir n _ _ (by omega) fun ws' k' hk' => hf ws' k' (by omega)

/-- A chunk has a sector at least, so its pre-command poll counts as one more value of a sector. -/
theorem State.deviceReady.chunks (dir : Dir) {code : Word} {f : List Half → Nat → Reply} :
    ∀ (fuel remaining : Nat) (ws : List Half) (k : Nat), k + 258 * remaining ≤ s.device.length →
      (∀ ws' k', k' ≤ k + 258 * remaining → (f ws' k').code = code) →
      (s.replyChunks dir f fuel remaining ws k).code = code
  | 0, _, ws, k, _, hf => hf ws k (Nat.le_add_right _ _)
  | fuel + 1, remaining, ws, k, hk, hf => by
    rw [State.replyChunks]
    split
    next h0 => exact hf ws k (Nat.le_add_right _ _)
    next h0 =>
      have hmax : 1 ≤ s.addrMode.maxPerCmd := by cases s.addrMode <;> decide
      generalize hn : min remaining s.addrMode.maxPerCmd = n
      obtain ⟨k1, hk1, e⟩ := hd.command hw ws (k := k) (by omega) fun k =>
        s.replySectors dir (s.replyChunks dir f fuel (remaining - n)) n ws k
      rw [e]
      refine hd.sectors hw dir n ws k1 (by omega) fun ws2 k2 hk2 => ?_
      exact State.deviceReady.chunks dir fuel _ ws2 k2 (by omega) fun ws' k' hk' => hf ws' k' (by omega)

theorem State.deviceReady.final (dir : Dir) (ws : List Half) {k : Nat} (hk : k < s.device.length) :
    (s.replyFinal dir ws k).code = s.transferResult := by
  obtain ⟨-, -, -, -, -, -, -, hfinal, -⟩ := hw
  rw [State.replyFinal, hd.notBusy hfinal hk]
  exact hd.checked _ _ hk _

/-- A transfer succeeds. -/
theorem State.deviceReady.transfer {dir : Dir} (hv : s.valid dir = true) (hk : 258 * s.sectors + 258 ≤ s.device.length) :
    (s.transferReply dir).code = s.transferResult := by
  rw [State.transferReply, if_pos hv]
  exact hd.chunks hw dir _ _ [] 0 (by omega) fun ws k hk' => hd.final hw dir ws (by omega)

/-- The operations of one command succeed (41 R143, R145, R146). -/
theorem State.deviceReady.oneCommand (hk : 2 ≤ s.device.length) :
    s.identifyReply.code = 0 ∧ s.flushReply.code = 0 ∧
      ∀ {heads spt : Byte}, geometryLegal heads spt = true → (s.setgeomReply heads spt).code = 0 := by
  obtain ⟨-, -, -, -, -, -, -, -, -, -, hnodata, hflush, -⟩ := id hw
  refine ⟨?_, ?_, fun hl => ?_⟩
  · obtain ⟨k, hk1, e⟩ := hd.command hw [] (k := 0) (by omega) fun k => s.replyDrq [] k fun k =>
      { code := 0, used := k + wordsPerSector, words := s.streamWords k wordsPerSector }
    rw [State.identifyReply, e, hd.drq hw [] (by omega)]
  · obtain ⟨k, hk1, e⟩ := hd.command hw [] (k := 0) (by omega) fun k => s.replyNoData s.params.budgetFlush k
    rw [State.flushReply, e, hd.noData hflush (by omega)]
  · obtain ⟨k, hk1, e⟩ := hd.command hw [] (k := 0) (by omega) fun k => s.replyNoData s.params.budgetNodata k
    rw [State.setgeomReply, if_pos hl, e, hd.noData hnodata (by omega)]

end

/-- Pseudocode ends with the reply of a transfer, its code or its error. -/
def Answers (m : EngineM Word) (dir : Dir) (s : State) : Prop :=
  ∃ es t k, Progress k es s t ∧
    (m s = .ok (s.transferReply dir).code t ∨ ∃ e, m s = .error (.raised e) t ∧ (s.transferReply dir).code = e.code)

section
variable {s : State} (h : s.calm) (ha : s.memoryAnswers = true) (hr : s.raced = [])
include h ha hr

theorem transferTail_answers {dir : Dir} (hv : s.valid dir = true) : Answers (transferTail dir) dir s := by
  obtain ⟨es, t, k, _, _, p, -, -, -, -, -, -, hend⟩ := transferTail_calm dir h ha hr
  rw [Answers, State.transferReply, if_pos hv]
  refine ⟨es, t, k, p, hend.imp (fun hok => ?_) id⟩
  obtain ⟨e, -, hcode, -⟩ := hok
  rw [hcode, e]

/-- READ ends with its reply (42 R179). -/
theorem bodyRead_answers (hv : s.valid .read = true) : Answers bodyRead .read s := by
  rw [Answers, bodyRead_eq hv]
  exact transferTail_answers h ha hr hv

/-- WRITE ends with its reply, which the invalidate pulse does not change (42 R180, R186). -/
theorem bodyWrite_answers (hv : s.valid .write = true) : Answers bodyWrite .write s := by
  obtain ⟨s1, hb, a⟩ := bodyWrite_run h hv
  have hsame : Same s1 s := ⟨a.params, funext fun j => by rw [a.stream, Nat.zero_add], a.kernel_same rfl, a.mem⟩
  obtain ⟨es, t, k, p, hend⟩ := transferTail_answers a.calm (a.answers ha) (a.raced.trans hr) ((hsame.valid .write).trans hv)
  rw [hsame.transferReply, ← hb] at hend
  exact ⟨_, t, _, a.toProgress.trans p, hend⟩

end

/-- An operation whose body ends with the reply of a transfer finishes with it (60 R212). -/
theorem exec_answers (i : Instr) {dir : Dir} {s : State} (hu : s.undisturbed = true)
    (h : ∀ s1, Entered (some i) s s1 → Answers (bodyOf i) dir s1) :
    ∃ t, exec i s = .next t ∧ t.csr.done = true ∧ t.csr.result = (s.transferReply dir).code := by
  obtain ⟨s1, h1, hrun⟩ := exec_ended i hu
  obtain ⟨es, t, k, p, hb⟩ := h s1 h1
  obtain ⟨u, he, hend, -⟩ := hrun es t k _ p.moves hb
  exact ⟨u, he, hend.done, h1.same.transferReply dir ▸ hend.result⟩

/-- Settles O55: with a ready Device the first poll of every wait decides for it, so every reply is a success. -/
theorem readyDeviceSucceeds : Obligations.ReadyDeviceSucceeds := by
  intro s hu ha hw hdev hlen
  have hd := State.deviceReady_of_forall hdev
  obtain ⟨hidentify, hflush, hsetgeom⟩ := hd.oneCommand hw (by omega)
  refine ⟨?identify, fun heads spt hh h16 hspt => ?setgeom, ?flushDev, ?reset, fun hv => ?read, fun hv => ?write⟩
  case identify =>
    obtain ⟨t, es, he, hfin, -, -, -, hok, -⟩ := identifyResult s hu
    exact ⟨t, he, hfin.done, hfin.result.trans hidentify, (hok hidentify).1⟩
  case setgeom =>
    have h0 := hsetgeom ((geometryLegal_iff heads spt).mpr ⟨hh, h16, hspt⟩)
    obtain ⟨t, es, he, hfin, -, -, hok, -⟩ := (setgeomResult heads spt s hu).2 hh h16 hspt
    have hk := hok h0
    exact ⟨t, he, hfin.done, hfin.result.trans h0, (congrArg Csrs.geomHeads hk : _), (congrArg Csrs.geomSpt hk : _)⟩
  case flushDev =>
    obtain ⟨t, es, he, hfin, -⟩ := flushDevResult s hu
    exact ⟨t, he, hfin.done, hfin.result.trans hflush⟩
  case reset =>
    obtain ⟨-, -, -, -, -, -, -, -, -, -, -, -, hbudget⟩ := hw
    obtain ⟨t, polls, he, hfin, -⟩ := resetResult.2 s hu
    have h0 : s.resetReply.code = 0 := by rw [State.resetReply, hd.notBusy hbudget (by omega)]; rfl
    exact ⟨t, he, hfin.done, hfin.result.trans h0⟩
  case read =>
    obtain ⟨t, he, hdone, hres⟩ := exec_answers .read hu fun s1 h1 =>
      bodyRead_answers h1.calm (h1.answers ha) h1.raced ((h1.same.valid .read).trans hv)
    exact ⟨t, he, hdone, hres.trans (hd.transfer hw hv hlen)⟩
  case write =>
    obtain ⟨t, he, hdone, hres⟩ := exec_answers .write hu fun s1 h1 =>
      bodyWrite_answers h1.calm (h1.answers ha) h1.raced ((h1.same.valid .write).trans hv)
    exact ⟨t, he, hdone, hres.trans (hd.transfer hw hv hlen)⟩

end Sys2Proof.Machine
end

section
/-! SUPPORT. The proofs about the sector transfer engine (42_sector_transfer.md): the waits, the data phase, READ and WRITE with
their final wait, the bound on their bus cycles, and the invalidate pulse. -/

namespace Sys2Proof.Machine

/-! ## What a wait on the stream answers (42 R175, R176, R181, R182) -/

/-- The first poll that does not ask for another decides the wait. -/
theorem pollOn_decides {verdict : Byte → Verdict} {f : Nat → Half} : ∀ {n j : Nat} (k : Nat), j < n →
    (∀ i, i < j → verdict (f (k + i)).lo = .again) →
      (verdict (f (k + j)).lo = .ready → pollOn verdict f n k = .ready (f (k + j)).lo (k + j + 1)) ∧
      (verdict (f (k + j)).lo = .failed → pollOn verdict f n k = .failed .deviceError (k + j + 1))
  | n + 1, 0, k, _, _ => by
    simp only [pollOn, Nat.add_zero]
    exact ⟨fun h => by rw [h], fun h => by rw [h]⟩
  | n + 1, j + 1, k, hj, hagain => by
    have ih := pollOn_decides (verdict := verdict) (f := f) (n := n) (j := j) (k + 1) (by omega) fun i hi => by
      rw [show k + 1 + i = k + (i + 1) by omega]
      exact hagain (i + 1) (by omega)
    rw [show k + 1 + j = k + (j + 1) by omega] at ih
    have h0 : verdict (f k).lo = .again := hagain 0 (Nat.succ_pos j)
    simpa only [pollOn, h0] using ih

/-- A wait whose polls all ask for another times out. -/
theorem pollOn_timeout {verdict : Byte → Verdict} {f : Nat → Half} : ∀ {n : Nat} (k : Nat),
    (∀ i, i < n → verdict (f (k + i)).lo = .again) → pollOn verdict f n k = .failed .timeout (k + n)
  | 0, _, _ => rfl
  | n + 1, k, hagain => by
    have ih := pollOn_timeout (verdict := verdict) (f := f) (n := n) (k + 1) fun i hi => by
      rw [show k + 1 + i = k + (i + 1) by omega]
      exact hagain (i + 1) (by omega)
    have h0 : verdict (f k).lo = .again := hagain 0 (Nat.succ_pos n)
    rw [show k + (n + 1) = k + 1 + n by omega]
    simpa only [pollOn, h0] using ih

theorem notBusyVerdict_again {st : Byte} (h : bsy st = true) : notBusyVerdict st = .again := if_pos h

theorem notBusyVerdict_ready {st : Byte} (h : bsy st = false) : notBusyVerdict st = .ready :=
  if_neg (Bool.not_eq_true _ ▸ h)

/-- WaitNotBusy looks at BSY alone (42 R176). -/
theorem notBusyVerdict_spec (st : Byte) :
    (notBusyVerdict st = .ready ↔ st.getLsbD 7 = false) ∧ notBusyVerdict st ≠ .failed := by
  unfold notBusyVerdict bsy
  cases st.getLsbD 7 <;> decide

/-- WaitDRQ looks at ERR first, then at BSY and DRQ (42 R175, 60 R214). -/
theorem drqVerdict_spec (masked : Bool) (st : Byte) :
    (drqVerdict masked st = .failed ↔ st.getLsbD 0 = true ∧ ¬(masked = true ∧ st.getLsbD 7 = true)) ∧
    (drqVerdict masked st = .ready ↔
      ¬(st.getLsbD 0 = true ∧ ¬(masked = true ∧ st.getLsbD 7 = true)) ∧ st.getLsbD 7 = false ∧ st.getLsbD 3 = true) := by
  unfold drqVerdict err bsy drq
  generalize st.getLsbD 0 = e
  generalize st.getLsbD 7 = b
  generalize st.getLsbD 3 = d
  revert masked e b d
  decide

/-- Settles O37: the first decisive poll by induction on the budget, and each verdict by its bits. -/
theorem pollVerdicts : Obligations.PollVerdicts := by
  refine ⟨fun verdict f n k => ⟨?ready, ?failed, pollOn_timeout k⟩, fun masked st => ?verdicts⟩
  case ready => exact fun j hj hagain => (pollOn_decides k hj hagain).1
  case failed => exact fun j hj hagain => (pollOn_decides k hj hagain).2
  case verdicts =>
    obtain ⟨hfailed, hready⟩ := drqVerdict_spec masked st
    obtain ⟨hnotBusy, hnever⟩ := notBusyVerdict_spec st
    exact ⟨hfailed, hready, hnotBusy, hnever, by decide, by decide, by decide, by decide⟩

/-- A wait for not busy ends at the first poll that reads BSY = 0. -/
theorem pollOn_notBusy_ready {f : Nat → Half} {n j : Nat} (k : Nat) (hj : j < n)
    (hbusy : ∀ i, i < j → bsy (f (k + i)).lo = true) (hfree : bsy (f (k + j)).lo = false) :
    pollOn notBusyVerdict f n k = .ready (f (k + j)).lo (k + j + 1) :=
  (pollOn_decides k hj fun i hi => notBusyVerdict_again (hbusy i hi)).1 (notBusyVerdict_ready hfree)

theorem pollOn_notBusy_spent {f : Nat → Half} {n : Nat} (k : Nat) (hbusy : ∀ i, i < n → bsy (f (k + i)).lo = true) :
    pollOn notBusyVerdict f n k = .failed .timeout (k + n) :=
  pollOn_timeout k fun i hi => notBusyVerdict_again (hbusy i hi)

/-- Settles O56: the final wait, and after a spent budget the wait of the recovery, each by its first poll with BSY = 0. -/
theorem finalWaitOutcome : Obligations.FinalWaitOutcome := by
  refine fun s dir ws k j => ⟨fun hj hbusy hfree => ?ready, fun hbusy =>
    ⟨?read, fun hj hbusy2 hfree => ?recovered, fun hbusy2 => ?lost⟩⟩
  case ready => rw [State.replyFinal, pollOn_notBusy_ready k hj hbusy hfree]
  case read => rw [State.replyFinal, pollOn_notBusy_spent k hbusy]
  case recovered =>
    rw [State.replyFinal, pollOn_notBusy_spent k hbusy]
    simp only [pollOn_notBusy_ready (k + s.params.budgetFinal) hj hbusy2 hfree]
    rfl
  case lost =>
    rw [State.replyFinal, pollOn_notBusy_spent k hbusy]
    simp only [pollOn_notBusy_spent (k + s.params.budgetFinal) hbusy2]
    rfl

/-! ## The length and the value of a transfer (42 R174, R183) -/

/-- The success value of a valid transfer is a positive number of RESULT (42 R172, R183). -/
theorem State.transferResult_toNat {s : State} {dir : Dir} (hv : s.valid dir = true) :
    s.transferResult.toNat = s.sectors * 512 ∧ 1 ≤ s.sectors ∧ s.sectors ≤ 0x003FFFFF := by
  obtain ⟨-, hpos, hmax, -, -⟩ := (s.valid_iff dir).mp hv
  refine ⟨?_, hpos, hmax⟩
  rw [State.transferResult, BitVec.toNat_ofNat, sectorBytes]
  omega

/-- Settles O59: a valid count is at most 0x003FFFFF, so its product with 512 stays below the sign bit. -/
theorem successValuePositive : Obligations.SuccessValuePositive := by
  intro s dir hv
  obtain ⟨hval, hpos, hmax⟩ := State.transferResult_toNat hv
  have hint : s.transferResult.toInt = s.transferResult.toNat := BitVec.toInt_eq_toNat_of_lt (by omega)
  omega

/-- One entry of a transfer's sequence is the command (41 R138 to R140). -/
theorem State.transferSeq_countP (s : State) (dir : Dir) (lba n : Nat) :
    (s.transferSeq dir lba n).countP (fun p => decide (p.1 = 7)) = 1 := by
  unfold State.transferSeq
  cases s.addrMode <;> rfl

/-- Each chunk sends one command, and takes at least one sector of those that remain (42 R174). -/
theorem State.chunkWrites_countP (s : State) (dir : Dir) : ∀ {fuel remaining : Nat} (cur : Nat), remaining ≤ fuel →
    (s.chunkWrites dir fuel remaining cur).countP (fun p => decide (p.1 = 7)) = s.chunks remaining
  | fuel, 0, cur, _ => by
    have hnone : s.chunks 0 = 0 := Nat.div_eq_of_lt (by have := s.addrMode.maxPerCmd_pos; omega)
    cases fuel <;> simp [State.chunkWrites, hnone]
  | fuel + 1, remaining + 1, cur, hle => by
    have hpos := s.addrMode.maxPerCmd_pos
    rw [State.chunkWrites, if_neg (Nat.succ_ne_zero _), List.countP_append, s.transferSeq_countP,
      State.chunkWrites_countP s dir _ (by omega), s.chunks_pos (Nat.succ_ne_zero _), Nat.add_comm]

/-- Settles O57, by induction on the chunks. -/
theorem chunkCount : Obligations.ChunkCount := fun s dir => s.chunkWrites_countP dir s.lba (Nat.le_refl _)

/-! ## The waits (42 R175, R176, R207) -/

/-- LAST_STATUS after `k` polls is the byte that the last of them read (40 R109). -/
theorem statusFrom_pollEvents (gap : Nat) (b : Byte) : ∀ (k : Nat) (f : Nat → Half),
    statusFrom b (pollEvents gap f k) = if k = 0 then b else (f (k - 1)).lo
  | 0, _ => rfl
  | 1, _ => rfl
  | k + 2, f => by
    rw [pollEvents_succ gap f (Nat.succ_ne_zero k), statusFrom_append, statusFrom_pollEvents gap _ (k + 1)]
    simp only [Nat.succ_ne_zero, if_false, Nat.add_sub_cancel]
    rw [show 1 + k = k + 2 - 1 by omega]

theorem isQuiet_pollEvents (gap k : Nat) (f : Nat → Half) : ∀ e ∈ pollEvents gap f k, e.isQuiet = true :=
  fun e he => Event.isQuiet_of_isPoll (isPoll_pollEvents gap k f e he)

/-- What a wait of `k` polls does besides what it answers: its events, LAST_STATUS, and nothing else of BUF and the
registers. -/
structure Polled (s : State) (k : Nat) (t : State) : Prop where
  stream : ∀ j, t.upcoming j = s.upcoming (k + j)
  events : t.engineEvents = pollEvents s.params.tPollGap s.upcoming k ++ s.engineEvents
  mem : t.mem = s.mem
  kernel : t.csr.kernel = { s.csr.kernel with lastStatus := if k = 0 then s.csr.lastStatus else (s.upcoming (k - 1)).lo }

theorem Adv.polled {s t : State} {k : Nat} (h : Adv k (pollEvents s.params.tPollGap s.upcoming k) s t) : Polled s k t where
  stream := h.stream
  events := h.events
  mem := h.mem_quiet (isQuiet_pollEvents _ _ _)
  kernel := by rw [h.kernelEq, statusFrom_pollEvents]

theorem State.calm_of_undisturbed {s : State} (hb : s.busy = true) (hu : s.undisturbed = true) : s.calm :=
  ⟨hb, (Bool.and_eq_true_iff.mp hu).1⟩

theorem waitDrq_eq_poll (s : State) : waitDrq s = poll (drqVerdict s.params.errMaskedByBsy) s.params.budgetDrq
    { s with eng := { s.eng with step := some .drqWait } } := by
  rw [waitDrq, bind_ok (goto_run _ _), get_bind]

/-- Settles O38: the polls of a wait, from its position in the pseudocode on. -/
theorem waitDrqRuns : Obligations.WaitDrqRuns := by
  intro s hb hu
  have a1 := goto_calm .drqWait (State.calm_of_undisturbed hb hu)
  obtain ⟨t, k, a, hle, hpos, hends⟩ := poll_runs (drqVerdict s.params.errMaskedByBsy) s.params.budgetDrq a1.calm
  have hp : Polled s k t := Adv.polled ((a1.trans a).cast (Nat.zero_add k) (List.append_nil _))
  rw [← waitDrq_eq_poll] at hends
  exact ⟨t, k, hp.stream, hle, hpos, hp.events, hp.mem, hp.kernel, hends⟩

/-- Settles O39: the polls of a wait, whose verdict never fails. -/
theorem waitNotBusyRuns : Obligations.WaitNotBusyRuns := by
  intro s budget hb hu
  obtain ⟨t, k, a, hle, hpos, hends⟩ := poll_runs notBusyVerdict budget (State.calm_of_undisturbed hb hu)
  refine ⟨t, k, a.polled.stream, hle, hpos, a.polled.events, a.polled.mem, a.polled.kernel, ?_⟩
  unfold Waited.endsAs at hends
  cases hw : pollOn notBusyVerdict s.upcoming budget 0 with
  | ready st k' => rw [hw] at hends; exact hends
  | failed e k' => rw [hw] at hends; exact ⟨hends.1, hends.2, pollOn_notBusy_timeout _ _ _ _ _ hw⟩

/-- The number of the Device's values read by the end of a wait. -/
def Waited.reads : Waited → Nat
  | .ready _ k => k
  | .failed _ k => k

theorem pollOn_reads_shift (verdict : Byte → Verdict) {f g : Nat → Half} {d : Nat} (h : ∀ j, g j = f (d + j)) (n : Nat) :
    (pollOn verdict f n d).reads = d + (pollOn verdict g n 0).reads := by
  rw [pollOn_cast verdict h]
  cases pollOn verdict g n 0 <;> rfl

/-- A wait with a budget polls at least once. -/
theorem pollOn_reads_pos (verdict : Byte → Verdict) (f : Nat → Half) : ∀ {n : Nat} (k : Nat), n ≠ 0 →
    k + 1 ≤ (pollOn verdict f n k).reads
  | n + 1, k, _ => by
    unfold pollOn
    cases verdict (f k).lo with
    | ready => exact Nat.le_refl _
    | failed => exact Nat.le_refl _
    | again =>
      cases n with
      | zero => exact Nat.le_refl _
      | succ n => exact Nat.le_of_succ_le (pollOn_reads_pos verdict f (n := n + 1) (k + 1) (Nat.succ_ne_zero n))

/-- The clock cycles of a wait of `k` polls (42 R207). -/
def State.waitCycles (s : State) (k : Nat) : Nat :=
  k * (s.params.times .reg s.csr.compat).total + (k - 1) * s.params.tPollGap

theorem State.waitCycles_one (s : State) : s.waitCycles 1 = (s.params.times .reg s.csr.compat).total := by
  simp [State.waitCycles]

theorem State.waitCycles_succ (s : State) {k : Nat} (hk : 1 ≤ k) :
    s.waitCycles (1 + k) = (s.params.times .reg s.csr.compat).total + s.params.tPollGap + s.waitCycles k := by
  obtain ⟨k, rfl⟩ := Nat.exists_eq_add_of_le' hk
  simp only [State.waitCycles, Nat.add_sub_cancel, Nat.add_sub_cancel_left]
  ring

/-- The profile and the poll gap of a later state are the same (40 R101). -/
theorem Flow.waitCycles {k' : Nat} {es : List Event} {s t : State} (h : Flow k' es s t) (k : Nat) :
    t.waitCycles k = s.waitCycles k := by
  have hc : t.csr.compat = s.csr.compat := (congrArg Csrs.compat h.kernel : _)
  simp only [State.waitCycles, h.params, hc]

/-- A poll's read with its length (40 R107). -/
theorem read8_takes {s : State} (h : s.calm) :
    ∃ t, read8 7 s = .ok (s.upcoming 0).lo t ∧ Adv 1 [.ideRead 7 .reg (s.upcoming 0)] s t ∧
      t.cycle = s.cycle + s.waitCycles 1 := by
  obtain ⟨t, e, a⟩ := ideRead_calm 7 .reg h
  obtain ⟨⟨v, u, e', -, hc⟩, -⟩ := busCycleLatency s 7 0 .reg h.1 (State.noReset_of_quiet h.2)
  cases e.symm.trans e'
  exact ⟨t, bind_ok e, a, s.waitCycles_one ▸ hc⟩

/-- A gap with its length (40 R106). -/
theorem idle_takes (n : Nat) {s : State} (h : s.calm) :
    ∃ t, idle n s = .ok () t ∧ Adv 0 [.idle n] s t ∧ t.cycle = s.cycle + n := by
  obtain ⟨t, e, a⟩ := idle_calm n h
  obtain ⟨u, e', hs⟩ := hold_spent n (s := s.record (.idle n)) h.1 (State.noReset_of_quiet h.2)
  cases e.symm.trans ((bind_ok (note_run _ _)).trans e')
  exact ⟨t, e, a, hs.cycle⟩

/-- A wait takes the cycles of its polls and of the gaps between them, however it ends. -/
theorem poll_takes (verdict : Byte → Verdict) : ∀ (n : Nat) {s : State}, s.calm →
    (finalState (poll verdict n) s).cycle = s.cycle + s.waitCycles (pollOn verdict s.upcoming n 0).reads
  | 0, s, _ => by simp [poll, finalState, pollOn, Waited.reads, State.waitCycles]
  | n + 1, s, h => by
    have a1 : Adv 0 [] s { s with eng := { s.eng with pollsLeft := n + 1 } } := Adv.engine h rfl rfl rfl
    obtain ⟨t, e, a, hc⟩ := read8_takes a1.calm
    have a2 : Adv 1 [.ideRead 7 .reg (s.upcoming 0)] s t := a1.trans a
    have e2 : read8 7 { s with eng := { s.eng with pollsLeft := n + 1 } } = .ok (s.upcoming 0).lo t := e
    have hc2 : t.cycle = s.cycle + s.waitCycles 1 := hc
    unfold finalState
    rw [poll, bind_ok (setEngine_run _ _), bind_ok e2, pollOn]
    cases hv : verdict (s.upcoming 0).lo with
    | ready => exact hc2
    | failed => exact hc2
    | again =>
      rcases Nat.eq_zero_or_pos n with rfl | hn
      · exact hc2
      · obtain ⟨u, eu, au, hcu⟩ := idle_takes t.params.tPollGap a2.calm
        have a3 := a2.trans au
        have ih := poll_takes verdict n a3.calm
        have hreads : (pollOn verdict s.upcoming n (0 + 1)).reads = 1 + (pollOn verdict u.upcoming n 0).reads :=
          pollOn_reads_shift verdict a3.stream n
        have hpos := pollOn_reads_pos verdict u.upcoming 0 hn.ne'
        simp only [ne_eq, hn.ne', not_false_eq_true, if_true]
        rw [get_bind, bind_ok eu, hreads, s.waitCycles_succ (by omega), ← s.waitCycles_one]
        rw [a3.waitCycles] at ih
        rw [a2.params] at hcu
        exact ih.trans (by omega)

/-- Settles O40: the length of a wait, of WaitDRQ from its position in the pseudocode on. -/
theorem pollSpacing : Obligations.PollSpacing := by
  intro s budget hb hu length
  have hs := State.calm_of_undisturbed hb hu
  constructor
  · have h : (finalState (waitNotBusy budget) s).cycle = _ := poll_takes notBusyVerdict budget hs
    cases hw : pollOn notBusyVerdict s.upcoming budget 0 <;> exact h.trans (by rw [hw]; rfl)
  · have h := poll_takes (drqVerdict s.params.errMaskedByBsy) s.params.budgetDrq (goto_calm .drqWait hs).calm
    have hd : finalState waitDrq s = finalState (poll (drqVerdict s.params.errMaskedByBsy) s.params.budgetDrq)
        { s with eng := { s.eng with step := some .drqWait } } := by
      unfold finalState
      rw [waitDrq_eq_poll]
    rw [← hd] at h
    change _ = s.cycle + s.waitCycles (pollOn (drqVerdict s.params.errMaskedByBsy) s.upcoming _ 0).reads at h
    cases hw : pollOn (drqVerdict s.params.errMaskedByBsy) s.upcoming s.params.budgetDrq 0 <;>
      exact h.trans (by rw [hw]; rfl)

/-! ## The data phase (42 R177, R178) -/

/-- The events of `n` words of a data phase, word `i` first, newest first: `word w` makes those of word `w`, oldest first. -/
def dataEvents (word : Nat → List Event) (i n : Nat) : List Event := ((List.range n).flatMap fun w => word (i + w)).reverse

theorem dataEvents_succ (word : Nat → List Event) (i n : Nat) :
    dataEvents word i (n + 1) = dataEvents word (i + 1) n ++ (word i).reverse := by
  have hshift : (List.range n).flatMap (fun w => word (i + (w + 1))) = (List.range n).flatMap fun w => word (i + 1 + w) := by
    simp only [Nat.add_assoc, Nat.add_comm 1]
  rw [dataEvents, List.range_succ_eq_map, List.flatMap_cons, List.reverse_append, List.flatMap_map, hshift]
  rfl

/-- A loop whose every turn makes the events of its word and keeps `I`. -/
theorem forRange_dataEvents {body : Nat → EngineM Unit} {word : Nat → List Event} {I : Nat → State → Prop}
    (hbody : ∀ i s, I i s → ∃ t, body i s = .ok () t ∧ t.engineEvents = (word i).reverse ++ s.engineEvents ∧ I (i + 1) t) :
    ∀ (n i : Nat) {s : State}, I i s →
      ∃ t, forRange body n i s = .ok () t ∧ t.engineEvents = dataEvents word i n ++ s.engineEvents
  | 0, _, s, _ => ⟨s, rfl, rfl⟩
  | n + 1, i, s, h => by
    obtain ⟨t, e, hev, ht⟩ := hbody i s h
    obtain ⟨u, e', hev'⟩ := forRange_dataEvents hbody n (i + 1) ht
    exact ⟨u, by rw [forRange, bind_ok e, e'], by rw [hev', hev, dataEvents_succ, List.append_assoc]⟩

/-- What a data phase does with one word, oldest event first. -/
def State.wordEvents (s : State) (dir : Dir) (a w : Nat) : List Event :=
  match dir with
  | .read => [.ideRead 0 .word (s.upcoming w), .bufWrite ((a + 2 * w) % s.bufSize) (s.upcoming w)]
  | .write => [.bufRead ((a + 2 * w) % s.bufSize) (s.mem.readHalf s.bufSize (a + 2 * w)),
      .ideWrite 0 .word (s.mem.readHalf s.bufSize (a + 2 * w))]

theorem setWord_calm (w : Nat) {s : State} (h : s.calm) :
    ∃ t, setEngine (fun e => { e with word := w }) s = .ok () t ∧ Adv 0 [] s t :=
  ⟨_, rfl, Adv.engine h rfl rfl rfl⟩

/-- One word of a read data phase, `w` values after its start (42 R177). -/
theorem readWord_events (a w : Nat) {s0 s : State} (h : At s0 w s) :
    ∃ t, readWord a w s = .ok () t ∧ t.engineEvents = (s0.wordEvents .read a w).reverse ++ s.engineEvents ∧
      At s0 (w + 1) t := by
  obtain ⟨s1, e1, a1⟩ := setWord_calm w h.calm
  have h1 : At s0 w s1 := h.next a1.toProgress
  obtain ⟨t2, e2, a2⟩ := ideRead_calm 0 .word a1.calm
  rw [show s1.upcoming 0 = s0.upcoming w from h1.stream 0] at e2 a2
  have h2 := h1.next a2.toProgress
  obtain ⟨t, e3, a3⟩ := memWrite_calm (a + 2 * w) (s0.upcoming w) a2.calm h2.answers
  refine ⟨t, by rw [readWord, bind_ok e1, bind_ok e2, e3], ?_, h2.next a3.toProgress⟩
  rw [((a1.trans a2).trans a3).events, h2.bufSize]
  rfl

/-- One word of a write data phase (42 R178). -/
theorem writeWord_events (a w : Nat) {s0 s : State} (h : At s0 0 s ∧ s.mem = s0.mem) :
    ∃ t, writeWord a w s = .ok () t ∧ t.engineEvents = (s0.wordEvents .write a w).reverse ++ s.engineEvents ∧
      At s0 0 t ∧ t.mem = s0.mem := by
  obtain ⟨h, hm⟩ := h
  obtain ⟨s1, e1, a1⟩ := setWord_calm w h.calm
  have h1 : At s0 0 s1 := h.next a1.toProgress
  obtain ⟨t2, e2, a2⟩ := memRead_calm (a + 2 * w) h1.calm h1.answers h1.raced
  rw [h1.bufSize, show s1.mem = s0.mem from a1.mem.trans hm] at e2 a2
  obtain ⟨t, e3, a3⟩ := ideWrite_calm 0 (s0.mem.readHalf s0.bufSize (a + 2 * w)) .word a2.calm
  have hall := (a1.trans a2).trans a3
  refine ⟨t, by rw [writeWord, bind_ok e1, bind_ok e2, e3], hall.events, h.next hall.toProgress, ?_⟩
  exact hall.mem.trans hm

theorem sectorData_run (dir : Dir) (a : Nat) (s : State) : sectorData dir a s =
    forRange (match dir with | .read => readWord a | .write => writeWord a) wordsPerSector 0
      { s with eng := { s.eng with step := some .dataPhase } } := by
  cases dir <;> rw [sectorData, bind_ok (goto_run _ _)]

/-- The events of the data phase of a sector, word by word (42 R177, R178). -/
theorem sectorData_events (dir : Dir) (a : Nat) {s : State} (h : At s 0 s) :
    ∃ t, sectorData dir a s = .ok () t ∧
      t.engineEvents = dataEvents (s.wordEvents dir a) 0 wordsPerSector ++ s.engineEvents := by
  have h1 : At s 0 { s with eng := { s.eng with step := some .dataPhase } } :=
    h.next (goto_calm .dataPhase h.calm).toProgress
  rw [sectorData_run]
  cases dir with
  | read => exact forRange_dataEvents (I := At s) (fun i _ => readWord_events a i) _ 0 h1
  | write =>
    exact forRange_dataEvents (I := fun _ u => At s 0 u ∧ u.mem = s.mem) (fun i _ => writeWord_events a i) _ 0 ⟨h1, rfl⟩

/-- Settles O51: the events word by word, and BUF as the sector moved. -/
theorem sectorDataOrder : Obligations.SectorDataOrder := by
  intro s a hb hu ha hr
  have h := At.self (State.calm_of_undisturbed hb hu) ha hr
  have zero : ∀ dir, dataEvents (s.wordEvents dir a) 0 wordsPerSector =
      ((List.range 256).flatMap (s.wordEvents dir a)).reverse := fun dir => by
    simp only [dataEvents, Nat.zero_add, wordsPerSector]
  constructor
  · obtain ⟨t, e, hev⟩ := sectorData_events .read a h
    obtain ⟨es, u, e', adv, -, ⟨-, hmem, -⟩, -⟩ := sectorData_calm .read a h.calm ha hr
    cases e.symm.trans e'
    refine ⟨t, e, zero .read ▸ hev, ?_⟩
    rw [adv.mem, hmem]
    simp only [State.streamWords, Nat.zero_add, wordsPerSector]
  · obtain ⟨t, e, hev⟩ := sectorData_events .write a h
    obtain ⟨es, u, e', adv, -, ⟨-, hmem, -⟩, -⟩ := sectorData_calm .write a h.calm ha hr
    cases e.symm.trans e'
    exact ⟨t, e, zero .write ▸ hev, adv.mem.trans (hmem _)⟩

/-! ## The codes of a transfer (42 R183, 60 R211) -/

section
variable {C : Word → Prop} (hC : ∀ e : Err, e = .timeout ∨ e = .deviceError → C e.code)
include hC

/-- A wait that goes on to codes with `C`, where its own errors have `C` too. -/
theorem pollOn_andThen_code {verdict : Byte → Verdict} {u : Nat → Half} {n k : Nat} {ws : List Half}
    {f : Byte → Nat → Reply} (hf : ∀ st k, C (f st k).code) : C ((pollOn verdict u n k).andThen ws f).code := by
  cases hp : pollOn verdict u n k with
  | ready st k' => exact hf st k'
  | failed e k' => exact hC e (pollOn_failed verdict u n k hp)

theorem replyChecked_code {code : Word} (h : C code) (ws : List Half) (st : Byte) (k : Nat) :
    C (replyChecked code ws st k).code := by
  unfold replyChecked
  split
  · exact hC _ (.inr rfl)
  · exact h

theorem State.replyCommand_code (s : State) {ws : List Half} {k : Nat} {f : Nat → Reply} (hf : ∀ k, C (f k).code) :
    C (s.replyCommand ws k f).code := by
  unfold State.replyCommand
  split
  · exact pollOn_andThen_code hC fun _ => hf
  · exact hf k

theorem State.replySectors_code (s : State) (dir : Dir) {f : List Half → Nat → Reply} (hf : ∀ ws k, C (f ws k).code) :
    ∀ (n : Nat) (ws : List Half) (k : Nat), C (s.replySectors dir f n ws k).code
  | 0, ws, k => hf ws k
  | n + 1, _, _ => pollOn_andThen_code hC fun _ _ => State.replySectors_code s dir hf n _ _

theorem State.replyChunks_code (s : State) (dir : Dir) {f : List Half → Nat → Reply} (hf : ∀ ws k, C (f ws k).code) :
    ∀ (fuel remaining : Nat) (ws : List Half) (k : Nat), C (s.replyChunks dir f fuel remaining ws k).code
  | 0, _, ws, k => hf ws k
  | fuel + 1, remaining, ws, k => by
    rw [State.replyChunks]
    split
    · exact hf ws k
    · exact s.replyCommand_code hC fun k => s.replySectors_code hC dir (State.replyChunks_code s dir hf fuel _) _ ws k

theorem State.replyFinal_code (s : State) (dir : Dir) (hs : C s.transferResult) (ws : List Half) (k : Nat) :
    C (s.replyFinal dir ws k).code := by
  unfold State.replyFinal
  cases hp : pollOn notBusyVerdict s.upcoming s.params.budgetFinal k with
  | ready st k' => exact replyChecked_code hC hs ws st k'
  | failed e k' =>
    cases dir with
    | read => exact hC e (pollOn_failed _ _ _ _ hp)
    | write => exact pollOn_andThen_code hC (replyChecked_code hC hs ws)

end

/-- The codes of a valid transfer: its success value, DeviceError or Timeout (60 R211). -/
def State.transferCode (s : State) (c : Word) : Prop :=
  c = BitVec.ofNat 32 (s.sectors * 512) ∨ c = BitVec.ofInt 32 (-2) ∨ c = BitVec.ofInt 32 (-3)

theorem State.transferCode_err (s : State) (e : Err) (he : e = .timeout ∨ e = .deviceError) : s.transferCode e.code :=
  .inr ((waitCode_err he).resolve_left (err_code_ne_zero e))

theorem State.transferReply_code {s : State} {dir : Dir} (hv : s.valid dir = true) :
    s.transferCode (s.transferReply dir).code := by
  rw [State.transferReply, if_pos hv]
  exact s.replyChunks_code s.transferCode_err dir (s.replyFinal_code s.transferCode_err dir (.inl rfl)) _ _ _ _

/-- No error has the success value of a valid transfer: it is negative, and the value positive (60 R210). -/
theorem State.err_code_ne_transferResult {s : State} {dir : Dir} (hv : s.valid dir = true) (e : Err) :
    e.code ≠ s.transferResult := by
  obtain ⟨hval, -, hmax⟩ := State.transferResult_toNat hv
  have hneg : 2 ^ 31 ≤ e.code.toNat := by cases e <;> decide
  intro h
  rw [h, hval] at hneg
  omega

/-! ## READ (42 R174, R179, R185) -/

/-- Settles O52: the chunks and the final wait against the reply, between `enter` and `finish`. -/
theorem readResult : Obligations.ReadResult := by
  intro s hu ha hv
  obtain ⟨s1, h1, hrun⟩ := exec_ended .read hu
  have hsame := h1.same
  obtain ⟨es, t, k, m, tw, p, hused, -, hm, ⟨hlen, hmem, -, hrec⟩, htask, hpre, hend⟩ :=
    transferTail_calm .read h1.calm (h1.answers ha) h1.raced
  have hbody : bodyOf .read s1 = transferTail .read s1 := bodyRead_eq ((hsame.valid .read).trans hv)
  have hreply : s1.replyChunks .read (s1.replyFinal .read) s1.sectors s1.sectors [] 0 = s.transferReply .read := by
    rw [← hsame.transferReply, State.transferReply, if_pos ((hsame.valid .read).trans hv)]
  rw [hreply] at hused hlen hmem hrec hend
  rw [hsame.sectors] at hm
  rw [hsame.sectors, hsame.lba, hsame.chunkWrites] at hpre
  rw [hsame.sectors, hsame.lba, hsame.chunkWrites, hsame.transferResult, ← hbody] at hend
  have hwrites : (es.filterMap Event.taskWrite).reverse = tw := by rw [htask, List.reverse_reverse]
  obtain ⟨u, he, hended, hk⟩ := hrun es t k (s.transferReply .read).code p.moves (by
    rcases hend with ⟨hok, -, hcode, -⟩ | hfail
    · exact .inl (hcode ▸ hok)
    · exact .inr hfail)
  refine ⟨u, es, m, he, hused ▸ hended.finished, hm, hlen, hrec, ?_, ?_, fun hsuccess => ?_, State.transferReply_code hv, ?_⟩
  · rw [hended.mem, ← hsame.bufSize, hmem, hsame.bufAddr]
  · rw [hwrites]
    rcases hpre with hpre | rfl | ⟨hd, -⟩
    · exact hpre
    · exact List.prefix_rfl
    · cases hd
  · rcases hend with ⟨-, hall, -, htw | ⟨hd, -⟩⟩ | ⟨e, -, hcode⟩
    · exact ⟨hall, hwrites.trans htw⟩
    · cases hd
    · exact absurd (hcode.symm.trans hsuccess) (State.err_code_ne_transferResult hv e)
  · rw [hk, p.kernel_entered h1]

/-- Settles O53: a rejected READ moves no sector, and a valid one the words of whole sectors. -/
theorem bufferAfterRead : Obligations.BufferAfterRead := by
  intro s t hu ha hwf _ he
  obtain ⟨m, hlen, hm, hmem⟩ : ∃ m, (s.transferReply .read).words.length = 256 * m ∧ m ≤ s.sectors ∧
      t.mem = s.mem.writeHalves s.bufSize s.bufAddr (s.transferReply .read).words := by
    cases hv : s.valid .read with
    | true =>
      obtain ⟨u, -, m, he', -, hm, hlen, -, hmem, -⟩ := readResult s hu ha hv
      cases he.symm.trans he'
      exact ⟨m, hlen, hm, hmem⟩
    | false =>
      obtain ⟨u, he', -, -, hmem⟩ := (invalidTransferRejected.1 s hu).1 hv
      cases he.symm.trans he'
      have hnone : (s.transferReply .read).words = [] := by simp [State.transferReply, hv, Reply.failed]
      exact ⟨0, by rw [hnone]; rfl, Nat.zero_le _, by rw [hnone]; exact hmem⟩
  refine ⟨m, hlen, hm, fun hsize j hj => ?_, fun a hout => ?_⟩
  · rw [hmem]
    exact Memory.read_writeHalves_inside s.bufSize _ s.bufAddr hwf (by omega) j hj
  · rw [hmem]
    exact Memory.read_writeHalves_outside s.bufSize _ s.bufAddr hwf fun j hj => hout j (by omega)

/-! ## WRITE (42 R174, R180 to R182) -/

/-- The chunks of a transfer against their reply: all of them, or what came before a wait's error (42 R174). -/
theorem transfer_calm (dir : Dir) {s : State} (h : s.calm) (ha : s.memoryAnswers = true) (hr : s.raced = []) :
    ∃ es t k m ws tw, Progress k es s t ∧ m ≤ s.sectors ∧ Moved dir m s.bufAddr s.bufSize s.mem ws es ∧
      es.filterMap Event.taskWrite = tw.reverse ∧
      ((transfer dir s = .ok () t ∧ m = s.sectors ∧ tw = s.chunkWrites dir s.sectors s.sectors s.lba ∧
          ∀ f, s.replyChunks dir f s.sectors s.sectors [] 0 = f ws k) ∨
       ∃ e, transfer dir s = .error (.raised e) t ∧ tw <+: s.chunkWrites dir s.sectors s.sectors s.lba ∧
          ∀ f, s.replyChunks dir f s.sectors s.sectors [] 0 = Reply.failed e k ws) := by
  obtain ⟨s1, e1, p1, hrem, hcur, hcd, hmem⟩ : ∃ s1,
      setEngine (fun e => { e with remaining := s.sectors, cur := s.lba, chunkDone := 0 }) s = .ok () s1 ∧
      Progress 0 [] s s1 ∧ s1.eng.remaining = s.sectors ∧ s1.eng.cur = s.lba ∧ s1.eng.chunkDone = 0 ∧ s1.mem = s.mem :=
    ⟨_, rfl, ⟨⟨h, rfl, rfl, rfl, fun j => by simp [State.upcoming], rfl, rfl, rfl, id⟩, rfl⟩, rfl, rfl, rfl, rfl⟩
  have run : transfer dir s = chunkLoop dir s.sectors s1 := by rw [transfer, get_bind, bind_ok e1]
  obtain ⟨es, t, k, m, ws, tw, p, -, hm, mv, htask, hend⟩ :=
    chunkLoop_calm dir s.sectors ((At.self h ha hr).next p1) fun _ => hmem
  rw [hrem] at hm hend
  rw [hcur, hcd] at hend
  rw [hcd, hmem] at mv
  refine ⟨es, t, k, m, ws, tw, (p1.trans p).cast (Nat.zero_add k) (List.append_nil es), hm, mv, htask, ?_⟩
  rw [run]
  rcases hend with ⟨e, hall, htw, hreply⟩ | ⟨e, he, htw, hreply⟩
  · exact .inl ⟨e, hall (Nat.le_refl _), htw, fun f => by simpa using hreply [] f rfl⟩
  · exact .inr ⟨e, he, htw, fun f => by simpa using hreply [] f rfl⟩

/-- The ERR check of the final wait changes nothing (42 R181). -/
theorem finalWait_final (dir : Dir) (s : State) : finalState (finalWait dir) s =
    finalState (onTimeout (waitNotBusy s.params.budgetFinal) (onFinalTimeout dir))
      { s with eng := { s.eng with step := some .finalWait } } := by
  unfold finalState finalWait
  rw [bind_ok (goto_run _ _), get_bind]
  cases hr : onTimeout (waitNotBusy s.params.budgetFinal) (onFinalTimeout dir)
      { s with eng := { s.eng with step := some .finalWait } } with
  | ok st t =>
    rw [bind_ok hr]
    cases err st <;> rfl
  | error e t => rw [bind_error hr]

/-- The recovery of a WRITE up to its wait: one FLUSH (42 R182). -/
theorem recover_run {s : State} (h : s.calm) :
    ∃ t, Adv 0 (commandEvents s s.flushSeq) s t ∧ recover s = poll notBusyVerdict t.params.budgetRecover t := by
  have a1 := goto_calm .recoverFlush h
  obtain ⟨t, e, a⟩ := issueCommandNoWait_calm s.flushSeq a1.calm
  have a2 := goto_calm .recoverWait a.calm
  refine ⟨_, ((a1.trans a).trans a2).cast rfl (List.append_nil _), ?_⟩
  rw [recover, bind_ok (goto_run _ _), get_bind]
  exact (bind_ok e).trans (by rw [bind_ok (goto_run _ _), get_bind]; rfl)

theorem taskWrite_commandEvents (s : State) (seq : List SeqEntry) :
    (commandEvents s seq).filterMap Event.taskWrite = seq.reverse := taskWrite_writeEvents seq

theorem Waited.endsAs.final {w : Waited} {x : EngineM Byte} {s t : State} {k : Nat} (h : w.endsAs (x s) k t) :
    finalState x s = t := by
  cases w <;> exact (by rw [finalState, h.1])

/-- The final wait of a WRITE writes the FLUSH of the recovery exactly where its own polls run out (42 R181, R182). -/
theorem finalWait_taskWrites {s0 s : State} {k : Nat} (h : At s0 k s) :
    ∃ es, (finalState (finalWait .write) s).engineEvents = es ++ s.engineEvents ∧
      (es.filterMap Event.taskWrite).reverse =
        if ∀ j, j < s0.params.budgetFinal → bsy (s0.upcoming (k + j)).lo = true then s0.flushSeq else [] := by
  obtain ⟨s1, hs1, a1⟩ : ∃ s1, { s with eng := { s.eng with step := some .finalWait } } = s1 ∧ Adv 0 [] s s1 :=
    ⟨_, rfl, goto_calm .finalWait h.calm⟩
  have h1 : At s0 k s1 := h.next a1.toProgress
  obtain ⟨t, p, a, -, -, hends⟩ := poll_runs notBusyVerdict s1.params.budgetFinal a1.calm
  have hpolls := taskWrite_of_isPoll (isPoll_pollEvents s1.params.tPollGap p s1.upcoming)
  have hup : s1.upcoming = fun j => s0.upcoming (k + j) := funext h1.stream
  have hbudget : s.params.budgetFinal = s1.params.budgetFinal := by rw [a1.params]
  rw [finalWait_final, hs1, hbudget, ← h1.params]
  by_cases hspent : ∀ j, j < s1.params.budgetFinal → bsy (s0.upcoming (k + j)).lo = true
  case pos =>
    rw [if_pos hspent]
    rw [pollOn_notBusy_spent 0 fun i hi => by rw [hup, Nat.zero_add]; exact hspent i hi] at hends
    obtain ⟨u, au, hu⟩ := recover_run a.calm
    obtain ⟨v, q, av, -, -, hends'⟩ := poll_runs notBusyVerdict u.params.budgetRecover au.calm
    have hrun : finalState (onTimeout (waitNotBusy s1.params.budgetFinal) (onFinalTimeout .write)) s1 = v := by
      rw [← hends'.final]
      simp only [finalState, onTimeout, waitNotBusy, hends.1, onFinalTimeout, hu]
    refine ⟨_, by rw [hrun, (((a1.trans a).trans au).trans av).events], ?_⟩
    rw [List.filterMap_append, List.filterMap_append, List.append_nil, hpolls, taskWrite_commandEvents,
      taskWrite_of_isPoll (isPoll_pollEvents u.params.tPollGap q u.upcoming), List.nil_append, List.append_nil,
      List.reverse_reverse, (h1.next a.toProgress).flushSeq]
  case neg =>
    rw [if_neg hspent]
    obtain ⟨st, q, hw⟩ : ∃ st q, pollOn notBusyVerdict s1.upcoming s1.params.budgetFinal 0 = .ready st q := by
      have hp := pollOn_notBusy s1.upcoming s1.params.budgetFinal 0
      rwa [if_neg (by simpa [hup] using hspent)] at hp
    rw [hw] at hends
    have hrun : finalState (onTimeout (waitNotBusy s1.params.budgetFinal) (onFinalTimeout .write)) s1 = t := by
      simp only [finalState, onTimeout, waitNotBusy, hends.1]
    exact ⟨_, by rw [hrun, (a1.trans a).events], by rw [List.append_nil, hpolls]; rfl⟩

/-- The final wait of a WRITE against the reply, with its task-file writes. -/
theorem finalWait_write {s0 s : State} {k : Nat} (h : At s0 k s) :
    ∃ es t k', Progress k' es s t ∧ (∀ e ∈ es, e.isQuiet = true) ∧
      (es.filterMap Event.taskWrite).reverse =
        (if ∀ j, j < s0.params.budgetFinal → bsy (s0.upcoming (k + j)).lo = true then s0.flushSeq else []) ∧
      ((finalWait .write s = .ok () t ∧
          ∀ ws, s0.replyFinal .write ws k = { code := s0.transferResult, used := k + k', words := ws }) ∨
       ∃ e, finalWait .write s = .error (.raised e) t ∧ ∀ ws, s0.replyFinal .write ws k = Reply.failed e (k + k') ws) := by
  obtain ⟨es, t, k', _, p, hq, -, -, -, hend⟩ := finalWait_calm .write h
  obtain ⟨es', hev, htask⟩ := finalWait_taskWrites h
  have hfinal : finalState (finalWait .write) s = t := by
    rcases hend with ⟨hok, -⟩ | ⟨e, hfail, -⟩
    · simp only [finalState, hok]
    · simp only [finalState, hfail]
  rw [hfinal, p.events] at hev
  obtain rfl := List.append_cancel_right hev
  exact ⟨es, t, k', p, hq, htask, hend⟩

/-- What the events of a WRITE after its invalidate pulse do: `m` sectors sent, and the commands of the chunks, with the FLUSH
of the recovery (42 R174, R178, R182). -/
structure Wrote (s : State) (m : Nat) (es : List Event) : Prop where
  le : m ≤ s.sectors
  words : (s.transferReply .write).words = s.mem.readHalves s.bufSize s.bufAddr (256 * m)
  sent : es.filterMap Event.sentWord = (s.transferReply .write).words.reverse
  spares : ∀ M, memAfter s.bufSize es M = M
  cut : (s.chunksReply .write).code ≠ 0 → (s.transferReply .write).code = (s.chunksReply .write).code ∧
    (es.filterMap Event.taskWrite).reverse <+: s.chunkWrites .write s.sectors s.sectors s.lba
  whole : (s.chunksReply .write).code = 0 → m = s.sectors ∧
    (es.filterMap Event.taskWrite).reverse = s.chunkWrites .write s.sectors s.sectors s.lba ++
      (if ∀ j, j < s.params.budgetFinal → bsy (s.upcoming ((s.chunksReply .write).used + j)).lo = true then s.flushSeq
        else [])

/-- A WRITE after its invalidate pulse, against the reply and that of its chunks. -/
theorem writeTail_calm {s : State} (h : s.calm) (ha : s.memoryAnswers = true) (hr : s.raced = [])
    (hv : s.valid .write = true) :
    ∃ es t m, Progress (s.transferReply .write).used es s t ∧ Wrote s m es ∧
      (transferTail .write s = .ok (s.transferReply .write).code t ∨
        ∃ e, transferTail .write s = .error (.raised e) t ∧ (s.transferReply .write).code = e.code) := by
  obtain ⟨es, t, k, m, ws, tw, p, hm, mv, htask, hend⟩ := transfer_calm .write h ha hr
  have hwrites : (es.filterMap Event.taskWrite).reverse = tw := by rw [htask, List.reverse_reverse]
  have hreply : s.transferReply .write = s.replyChunks .write (s.replyFinal .write) s.sectors s.sectors [] 0 := if_pos hv
  rcases hend with ⟨erun, hall, htw, hchunks⟩ | ⟨e, erun, htw, hchunks⟩
  case inl =>
    have hdone : s.chunksReply .write = { code := 0, used := k, words := ws } := hchunks _
    rw [hchunks] at hreply
    have ht : At s k t := Nat.zero_add k ▸ (At.self h ha hr).next p
    obtain ⟨es2, t2, k2, p2, hq2, hflush, hfinal⟩ := finalWait_write ht
    obtain ⟨hws, hspare, hsent⟩ : Moved .write m s.bufAddr s.bufSize s.mem ws (es2 ++ es) := by
      simpa using mv.append (Moved.of_quiet hq2)
    have hwords : (s.transferReply .write).words = ws ∧ (s.transferReply .write).used = k + k2 := by
      rw [hreply]
      rcases hfinal with ⟨-, hok⟩ | ⟨e, -, hfail⟩
      · rw [hok]; exact ⟨rfl, rfl⟩
      · rw [hfail]; exact ⟨rfl, rfl⟩
    refine ⟨es2 ++ es, t2, m, hwords.2 ▸ p.trans p2, ⟨hm, hwords.1.trans hws, hwords.1.symm ▸ hsent, hspare,
      fun hne => absurd (congrArg Reply.code hdone) hne, fun _ => ⟨hall, ?_⟩⟩, ?_⟩
    · rw [List.filterMap_append, List.reverse_append, hwrites, hflush, htw, hdone]
    · rw [transferTail, bind_ok erun, hreply]
      rcases hfinal with ⟨eok, hok⟩ | ⟨e, efail, hfail⟩
      · rw [bind_ok eok, get_bind, (ht.next p2).transferResult, hok]
        exact .inl rfl
      · rw [bind_error efail, hfail]
        exact .inr ⟨e, rfl, rfl⟩
  case inr =>
    have hcut : s.chunksReply .write = Reply.failed e k ws := hchunks _
    rw [hchunks] at hreply
    obtain ⟨hws, hspare, hsent⟩ := mv
    have hcode : (s.chunksReply .write).code ≠ 0 := by rw [hcut]; exact err_code_ne_zero e
    refine ⟨es, t, m, ?_, ⟨hm, by rw [hreply]; exact hws, by rw [hreply]; exact hsent, hspare, fun _ => ⟨?_, hwrites ▸ htw⟩,
      fun h0 => absurd h0 hcode⟩, .inr ⟨e, bind_error erun, by rw [hreply]; rfl⟩⟩
    · rw [hreply]; exact p
    · rw [hreply, hcut]

theorem Same.chunksReply {s s' : State} (h : Same s s') (dir : Dir) : s.chunksReply dir = s'.chunksReply dir := by
  simp only [State.chunksReply, h.sectors, h.replyChunks dir]

theorem Same.wrote {s s' : State} (h : Same s s') {m : Nat} {es : List Event} (w : Wrote s m es) : Wrote s' m es := by
  obtain ⟨hle, hwords, hsent, hspares, hcut, hwhole⟩ := w
  rw [h.sectors] at hle
  rw [h.transferReply, h.mem, h.bufSize, h.bufAddr] at hwords
  rw [h.transferReply] at hsent
  rw [h.bufSize] at hspares
  rw [h.chunksReply, h.transferReply, h.sectors, h.lba, h.chunkWrites] at hcut
  rw [h.chunksReply, h.sectors, h.lba, h.chunkWrites, h.params, h.stream, h.flushSeq] at hwhole
  exact ⟨hle, hwords, hsent, hspares, hcut, hwhole⟩

/-- A WRITE from its first statement: the invalidate pulse, then the rest from a state that answers alike (42 R180, R186). -/
theorem bodyWrite_same {s : State} (h : s.calm) (hv : s.valid .write = true) :
    ∃ t, bodyWrite s = transferTail .write t ∧ Adv 0 [.invalidate s.csr.argLba s.csr.argCount] s t ∧ Same t s := by
  obtain ⟨t, hb, a⟩ := bodyWrite_run h hv
  exact ⟨t, hb, a, a.params, funext fun j => by rw [a.stream, Nat.zero_add], a.kernel_same rfl, a.mem⟩

theorem State.chunksReply_code (s : State) (dir : Dir) :
    (s.chunksReply dir).code = 0 ∨ ∃ e : Err, (s.chunksReply dir).code = e.code :=
  s.replyChunks_code (C := fun c => c = 0 ∨ ∃ e : Err, c = e.code) (fun e _ => .inr ⟨e, rfl⟩) dir (fun _ _ => .inl rfl) _ _ _ _

/-- Settles O54: the pulse, the chunks and the final wait against the reply, between `enter` and `finish`. -/
theorem writeResult : Obligations.WriteResult := by
  intro s hu ha hv
  obtain ⟨s1, h1, hrun⟩ := exec_ended .write hu
  have hv1 : s1.valid .write = true := (h1.same.valid .write).trans hv
  obtain ⟨s2, hb, a, h2⟩ := bodyWrite_same h1.calm hv1
  obtain ⟨es, t, m, p, w, hend⟩ :=
    writeTail_calm a.calm (a.answers (h1.answers ha)) (a.raced.trans h1.raced) ((h2.valid .write).trans hv1)
  have w' : Wrote s m es := h1.same.wrote (h2.wrote w)
  rw [h2.transferReply, h1.same.transferReply] at p hend
  rw [← hb] at hend
  have hall := a.toProgress.trans p
  rw [Nat.zero_add, h1.same.csr Csrs.argLba fun _ => rfl, h1.same.csr Csrs.argCount fun _ => rfl] at hall
  obtain ⟨u, he, hended, hk⟩ := hrun _ t _ _ hall.moves hend
  refine ⟨u, es, m, he, hended.finished, w'.le, w'.words, w'.sent, ?_, w'.cut, w'.whole, fun hsuccess => ?_,
    State.transferReply_code hv, ?_⟩
  · rw [hended.mem, memAfter_append]
    exact w'.spares _
  · by_contra hne
    obtain ⟨e, hcode⟩ := (s.chunksReply_code .write).resolve_left hne
    exact State.err_code_ne_transferResult hv e (hcode.symm.trans ((w'.cut hne).1.symm.trans hsuccess))
  · rw [hk, hall.kernel_entered h1, statusFrom_append]
    rfl

/-! ## The bound on the bus cycles (42 R187) -/

theorem State.busCycles_eq (s : State) : s.busCycles = s.engineEvents.countP Event.isBusCycle := by
  rw [State.busCycles, State.engineEvents, List.countP_filter]
  exact List.countP_congr fun e _ => by cases e <;> simp [Event.isBusCycle, Event.byEngine]

/-- An operation makes the bus cycles among its events. -/
theorem Finished.busCycles {code : Word} {k : Nat} {es : List Event} {s t : State} (h : Finished code k es s t) :
    t.busCycles = s.busCycles + es.countP Event.isBusCycle := by
  rw [t.busCycles_eq, s.busCycles_eq, h.events, List.cons_append, List.countP_cons_of_neg (by simp [Event.isBusCycle]),
    List.countP_append, Nat.add_comm]

/-- READ or WRITE. -/
def transferInstr (dir : Dir) : Instr := if dir = .read then .read else .write

/-- Pseudocode ends, with a code or an error, after at most `n` bus cycles. -/
def EndsWithin (n : Nat) (m : EngineM Word) (s : State) : Prop :=
  ∃ es t k code, Progress k es s t ∧ es.countP Event.isBusCycle ≤ n ∧
    (m s = .ok code t ∨ ∃ e, m s = .error (.raised e) t ∧ code = e.code)

section
variable {s : State} (h : s.calm) (ha : s.memoryAnswers = true) (hr : s.raced = [])
include h ha hr

theorem transferTail_endsWithin (dir : Dir) : EndsWithin (s.cycleBound dir) (transferTail dir) s := by
  obtain ⟨es, t, k, _, _, p, -, hle, -, -, -, -, hend⟩ := transferTail_calm dir h ha hr
  rcases hend with ⟨e, -⟩ | ⟨er, e, -⟩
  · exact ⟨es, t, k, _, p, hle, .inl e⟩
  · exact ⟨es, t, k, _, p, hle, .inr ⟨er, e, rfl⟩⟩

/-- A valid transfer makes at most the bus cycles of R187: the invalidate pulse of a WRITE makes none. -/
theorem bodyTransfer_endsWithin {dir : Dir} (hv : s.valid dir = true) :
    EndsWithin (s.cycleBound dir) (bodyOf (transferInstr dir)) s := by
  cases dir with
  | read =>
    have hrun : bodyOf (transferInstr .read) s = transferTail .read s := bodyRead_eq hv
    rw [EndsWithin, hrun]
    exact transferTail_endsWithin h ha hr .read
  | write =>
    obtain ⟨s1, hrun, a, hsame⟩ := bodyWrite_same h hv
    obtain ⟨es, t, k, code, p, hle, hend⟩ := transferTail_endsWithin a.calm (a.answers ha) (a.raced.trans hr) .write
    rw [← hrun] at hend
    refine ⟨_, t, _, code, a.toProgress.trans p, ?_, hend⟩
    rw [List.countP_append, ← hsame.cycleBound]
    exact hle

end

theorem exec_transfer_rejected (dir : Dir) {s : State} (hu : s.undisturbed = true) (hv : s.valid dir = false) :
    ∃ t, exec (transferInstr dir) s = .next t ∧ Finished Err.outOfRange.code 0 [] s t := by
  cases dir with
  | read =>
    obtain ⟨t, e, hfin, -⟩ := (invalidTransferRejected.1 s hu).1 hv
    exact ⟨t, e, hfin⟩
  | write =>
    obtain ⟨t, e, hfin, -⟩ := (invalidTransferRejected.1 s hu).2 hv
    exact ⟨t, e, hfin⟩

/-- Settles O58: a rejected transfer makes no bus cycle, and a valid one those that its chunks and final wait are bounded by. -/
theorem transferBusBound : Obligations.TransferBusBound := by
  intro s t dir hu ha he
  obtain ⟨u, code, k, es, he', hfin, hle⟩ : ∃ u code k es, exec (transferInstr dir) s = .next u ∧ Finished code k es s u ∧
      es.countP Event.isBusCycle ≤ s.cycleBound dir := by
    cases hv : s.valid dir with
    | false =>
      obtain ⟨u, e, hfin⟩ := exec_transfer_rejected dir hu hv
      exact ⟨u, _, 0, [], e, hfin, Nat.zero_le _⟩
    | true =>
      obtain ⟨s1, h1, hrun⟩ := exec_ended (transferInstr dir) hu
      obtain ⟨es, v, k, code, p, hle, hend⟩ :=
        bodyTransfer_endsWithin h1.calm (h1.answers ha) h1.raced ((h1.same.valid dir).trans hv)
      obtain ⟨u, e, hended, -⟩ := hrun es v k code p.moves hend
      exact ⟨u, code, k, es, e, hended.finished, h1.same.cycleBound dir ▸ hle⟩
  cases he.symm.trans he'
  exact ⟨hfin.idle, hfin.busCycles ▸ Nat.add_le_add_left hle _⟩

/-! ## The invalidate pulse (42 R186) -/

/-- The ranges that the invalidate output showed, newest first. -/
def State.shownRanges (s : State) : List InvRange := s.wave.filterMap fun p => p.inv

/-- An operation runs, no reset is to come, and the invalidate output is `r` and showed `l` so far. -/
structure State.invAt (r : Option InvRange) (l : List InvRange) (s : State) : Prop where
  busy : s.busy = true
  noReset : s.noReset = true
  inv : s.inv = r
  shown : s.shownRanges = l

theorem State.shownRanges_endCycle (s : State) : s.endCycle.shownRanges = s.inv.toList ++ s.shownRanges := by
  unfold State.shownRanges
  rw [State.endCycle_wave]
  cases h : s.inv <;> simp [State.sample, h]

theorem State.shownRanges_applyInputs {s : State} (hn : s.noReset = true) : s.applyInputs.shownRanges = s.shownRanges := by
  unfold State.shownRanges
  rw [(Prod.mk.inj (State.applyInputs_records hn)).1]

/-- A clock cycle shows the output once. -/
theorem State.invAt.tick {r : Option InvRange} {l : List InvRange} {s : State} (h : s.invAt r l) :
    s.tick.invAt r (r.toList ++ l) := by
  have hl := State.tick_landed h.busy h.noReset
  have hi : s.applyInputs.inv = r := hl.inv.trans h.inv
  refine ⟨hl.busy.trans h.busy, State.noReset_tick h.busy h.noReset, hi, ?_⟩
  rw [State.tick, State.shownRanges_endCycle, hi, State.shownRanges_applyInputs h.noReset, h.shown]

section
variable {r : Option InvRange} {l : List InvRange} {F : State → Prop}

/-- Without reset the clock halts nothing: `F` is free here and below. -/
theorem leads_clock_inv : Leads (State.invAt r l) (State.invAt r (r.toList ++ l)) F clock := by
  intro s h
  rw [clock_unreset h.busy h.noReset]
  exact h.tick

theorem invAt_engine (s : State) (e : Engine) (h : s.invAt r l) (hp : e.phase = s.eng.phase) (_ : e.op = s.eng.op) :
    ({ s with eng := e } : State).invAt r l := { h with busy := State.busy_engine h.busy hp }

/-- What everything but the invalidate pulse of a WRITE keeps. -/
theorem inv_fine (l : List InvRange) : Fine (State.invAt none l) (State.invAt none l) where
  engine := invAt_engine
  ide := fun _ _ h => { h with }
  buf := fun _ _ h => { h with }
  clock := leads_clock_inv.keeps
  note := fun _ _ h _ => { h with }
  sample := fun _ _ _ _ _ _ h => { h with }
  status := fun _ _ h => { h with }
  answer := takeAnswer_cases (fun _ _ h => { h with }) fun _ h _ => h
  draw := fun _ _ h => { h with }
  mem := fun _ _ _ h => { h with }

theorem inv_own {i : Instr} (hi : i ≠ .write) : OwnUpdates (State.invAt none l) (State.invAt none l) i where
  invalidate := fun h => absurd h hi
  pulse := fun _ =>
    have h := inv_fine l
    (h.stable.goto _).bind fun _ => (h.noted rfl).bind fun _ => (h.setIde _).bind fun _ => Keeps.get fun _ _ =>
      (h.hold _).bind fun _ => h.setIde _
  idValid := fun _ _ _ h => { h with }
  idbuf := fun _ _ _ h => { h with }
  geometry := fun _ _ _ _ h => { h with }

/-- The registers that the host cannot write stay too. -/
theorem leads_hold_inv {c : Csrs} (n : Nat) : Leads (fun s => s.invAt none l ∧ s.csr.kernel = c)
    (fun s => s.invAt none l ∧ s.csr.kernel = c) F (hold n) :=
  leads_hold (fun s e h hp ho => ⟨invAt_engine s e h.1 hp ho, h.2⟩) (fun s ⟨h, hc⟩ => by
    rw [clock_unreset h.busy h.noReset]
    exact ⟨h.tick, (State.tick_landed h.busy h.noReset).kernel.trans hc⟩) n

theorem keeps_transferTail_inv (dir : Dir) : Keeps (State.invAt none l) (State.invAt none l) (transferTail dir) :=
  have h := (inv_fine l).stable
  (h.transfer dir).bind fun _ => (h.finalWait dir).bind fun _ => Keeps.get fun _ _ => Keeps.pure _

end

/-- The state in the one clock cycle of an invalidate pulse (42 R186). -/
def State.pulsing (s : State) : State :=
  { ({ s with eng := { s.eng with step := some .invalidate } } : State).record
      (.invalidate s.csr.argLba s.csr.argCount) with
    inv := some { lba := s.csr.argLba, count := s.csr.argCount } }

theorem invalidate_eq (s : State) :
    invalidate s = (clock >>= fun _ => modify fun u => { u with inv := none }) s.pulsing := rfl

/-- The pulse shows the range of the transfer for its one clock cycle. -/
theorem invalidate_shows {l : List InvRange} {s : State} (h : s.invAt none l) :
    ∃ t, invalidate s = .ok () t ∧ t.invAt none ({ lba := s.csr.argLba, count := s.csr.argCount } :: l) := by
  have h1 : s.pulsing.invAt (some { lba := s.csr.argLba, count := s.csr.argCount }) l := { h with inv := rfl }
  exact ⟨{ s.pulsing.tick with inv := none },
    (invalidate_eq s).trans (bind_ok (clock_unreset h1.busy h1.noReset)), { h1.tick with inv := rfl }⟩

/-- The registers alone decide which transfer is valid, and of them neither STATUS nor CTRL. -/
theorem State.valid_of_kernel {s s' : State} (h : s.csr.kernel = s'.csr.kernel) (dir : Dir) : s.valid dir = s'.valid dir :=
  Same.valid (s := { s with csr := s.csr }) (s' := { s with csr := s'.csr }) ⟨rfl, rfl, h, rfl⟩ dir

/-- What an operation is to show on the invalidate output (42 R186). -/
def State.pulses (s : State) (i : Instr) : List InvRange :=
  if i = .write ∧ s.valid .write = true then [{ lba := s.csr.argLba, count := s.csr.argCount }] else []

/-- The body of an operation: the output shows the range in the pulse of a valid WRITE alone. -/
theorem body_shows (i : Instr) {s0 s : State} {l : List InvRange} (h : s.invAt none l) (hk : s.csr.kernel = s0.csr.kernel) :
    After (State.invAt none (s0.pulses i ++ l)) (State.invAt none (s0.pulses i ++ l)) (bodyOf i s) := by
  have hvalid : s0.valid .write = s.valid .write := State.valid_of_kernel hk.symm .write
  by_cases hi : i = .write
  case neg =>
    rw [State.pulses, if_neg fun h => hi h.1]
    exact (inv_fine l).stable.body (inv_own hi) s h
  case pos =>
    subst hi
    cases hv : s.valid .write with
    | false =>
      rw [State.pulses, if_neg (by simp [hvalid, hv]), bodyOf, bodyWrite_invalid hv]
      exact h
    | true =>
      obtain ⟨t, e, ht⟩ := invalidate_shows h
      have hrun : bodyWrite s = transferTail .write t := by
        have hval : validate .write s = .ok () s := by rw [validate, get_bind]; simp [hv]
        rw [bodyWrite, bind_ok hval, bind_ok e]
        rfl
      have hlba : s.csr.argLba = s0.csr.argLba := (congrArg Csrs.argLba hk : _)
      have hcount : s.csr.argCount = s0.csr.argCount := (congrArg Csrs.argCount hk : _)
      rw [State.pulses, if_pos ⟨rfl, hvalid.trans hv⟩, bodyOf, hrun, ← hlba, ← hcount]
      exact keeps_transferTail_inv .write t ht

/-- `finish` shows an output that is not valid. -/
theorem finish_shows (code : Word) {l : List InvRange} {s : State} (h : s.invAt none l) :
    (finalState (finish code) s).inv = none ∧ (finalState (finish code) s).shownRanges = l := by
  have hi : s.applyInputs.inv = none := (State.applyInputs_landed h.busy h.noReset).inv.trans h.inv
  have hc : (s.applyInputs.complete code).shownRanges = s.applyInputs.shownRanges := rfl
  simp only [finalState, finish_unreset code h.busy h.noReset]
  refine ⟨hi, ?_⟩
  rw [State.finished, State.shownRanges_endCycle, hc, State.shownRanges_applyInputs h.noReset, h.shown,
    show (s.applyInputs.complete code).inv = none from hi]
  rfl

/-- Settles O60: outside the pulse of a valid WRITE every clock cycle shows an output that is not valid. -/
theorem invalidateOnce : Obligations.InvalidateOnce := by
  intro i s t hn hinv he
  exact exec_through (i := i) (P := fun u => u.invAt none s.shownRanges ∧ u.csr.kernel = s.csr.kernel)
    (Q := State.invAt none (s.pulses i ++ s.shownRanges)) (F := State.invAt none (s.pulses i ++ s.shownRanges))
    (R := fun t => t.inv = none ∧ t.shownRanges = s.pulses i ++ s.shownRanges)
    ⟨⟨rfl, hn, hinv, rfl⟩, rfl⟩ (fun n => leads_hold_inv n) (fun _ h => body_shows i h.1 h.2)
    (Leads.modify fun u h => invAt_engine u _ h rfl rfl) (fun n => leads_hold invAt_engine leads_clock_inv.keeps n)
    (fun _ h => ⟨h.inv, h.shown⟩) (fun _ code h => finish_shows code h) he

end Sys2Proof.Machine
end

section
/-! SUPPORT. The proofs about errors and results (60_exceptions.md): the three ways an operation ends, the outcomes it finishes
with, the status byte of a DeviceError, and that every step answers. -/

namespace Sys2Proof.Machine

/-! ## The step answers (60 R220) -/

/-- The operation of a CMD word, decoded or Illegal, comes to a next state. -/
theorem runCommand_answers (s : State) : ∃ t, runCommand s = .next t := by
  unfold runCommand
  cases decode s.csr.cmd with
  | ok i => exact ⟨_, exec_eq i s⟩
  | error r => exact ⟨_, rfl⟩

/-- Where the engine still executes, or the cycle accepts no CMD write, the step is that cycle (log 9). -/
theorem step_eq_tick {s : State} (h : s.busy = true ∨ s.tick.busy = false) : step s = .next s.tick := by
  rcases h with hb | hb <;> simp [step, hb]

/-- Settles O7: a step that is no clock cycle alone runs the operation of an accepted CMD word, which answers. -/
theorem stepAlwaysAnswers : Obligations.StepAlwaysAnswers := by
  refine fun s => ⟨?_, step_eq_tick⟩
  by_cases h : s.busy = true ∨ s.tick.busy = false
  · exact ⟨_, step_eq_tick h⟩
  · simp only [not_or, Bool.not_eq_true, Bool.not_eq_false] at h
    obtain ⟨hs, ht⟩ := h
    rw [show step s = runCommand s.tick by simp [step, hs, ht]]
    exact runCommand_answers s.tick

/-! ## How an operation ends (60 R211, R212) -/

theorem AfterReset.atReset {t : State} (h : AfterReset t) : t.AtReset := by
  obtain ⟨k, hcsr⟩ := h.csr
  obtain ⟨k', heng⟩ := h.eng
  exact ⟨⟨k, 0, hcsr⟩, ⟨k', none, heng⟩, h.ide, h.inv, h.buf⟩

/-- `finish` comes to its end, or a reset in its cycle abandons the operation (60 R212, 70 R240). -/
theorem finish_cases (code : Word) {s : State} (hb : s.busy = true) :
    finalState (finish code) s = s.finished code ∨ (finalState (finish code) s).AtReset := by
  rcases State.applyInputs_cases hb with h | h
  · have hbusy : s.applyInputs.busy = true := h.busy.trans hb
    left
    simp only [finalState, finish, hbusy, if_true]
    rfl
  · have hidle : s.applyInputs.busy = false := h.busy
    have he : finalState (finish code) s = s.applyInputs.endCycle := by
      simp only [finalState, finish, hidle, Bool.false_eq_true, if_false]
    have ha := h.atReset
    exact .inr (he ▸ ⟨ha.csr, ha.eng, ha.ide, ha.inv, ha.buf⟩)

/-- `t` is the end of an operation started at `s`: a listed outcome in RESULT, and `finish` the engine's last event. -/
def State.endsListed (s : State) (i : Instr) (t : State) : Prop :=
  t.busy = false ∧ t.csr.done = true ∧ s.listedOutcome i t.csr.result ∧ ∃ l, t.engineEvents = .finish t.csr.result :: l

theorem State.finished_endsListed {s : State} {i : Instr} {code : Word} (h : s.listedOutcome i code) (u : State) :
    s.endsListed i (u.finished code) := ⟨rfl, rfl, h, u.applyInputs.engineEvents, rfl⟩

/-- Of the state at its start, the outcomes listed for an operation depend on ARG_COUNT alone (60 R211). -/
theorem State.listedOutcome_congr {s u : State} (h : u.csr.argCount = s.csr.argCount) (i : Instr) (code : Word) :
    u.listedOutcome i code ↔ s.listedOutcome i code := by
  have hres : u.transferResult = s.transferResult := by simp only [State.transferResult, State.sectors, h]
  cases i with
  | read | write => simp only [State.listedOutcome, hres]
  | _ => rfl

/-- The operation `i` started at `s` runs, with ARG_COUNT and the parameters as they were. -/
abbrev State.countHeld (s : State) (i : Instr) : State → Prop := Held Csrs.argCount s.csr.argCount s.params (some i)

/-- Such an operation is halted by a reset or at a BUF access (20 R71, 70 R240). -/
abbrev State.countHalted (s : State) (i : Instr) : State → Prop :=
  HeldOrReset Csrs.argCount s.csr.argCount s.params (some i)

theorem countHeld_stable (s : State) (i : Instr) : Stable (s.countHeld i) (s.countHalted i) :=
  (fine_held (fun _ => rfl) _ _ _).stable

theorem countHeld_own (s : State) (i : Instr) : OwnUpdates (s.countHeld i) (s.countHalted i) i :=
  own_held (fun _ => rfl) _ _ _ (fun _ _ _ _ => rfl) fun _ _ _ _ => rfl

theorem countHeld_entered (s : State) (i : Instr) : s.countHeld i (s.entered (some i)) := ⟨rfl, rfl, rfl, rfl⟩

/-- The code of the body is an outcome listed at the operation's start. -/
theorem countHeld_listed {s u v : State} {i : Instr} {code : Word} (hu : s.countHeld i u)
    (hc : codeOf (bodyOf i) u = .ok code v) : s.listedOutcome i code :=
  (State.listedOutcome_congr hu.view i code).mp (code_listed hu.busy hc)

/-- Settles O18: the operation is halted by a reset or at a BUF access, or it comes to `finish` with the code of its body. -/
theorem operationEnds : Obligations.OperationEnds := by
  intro i s
  refine ⟨_, exec_eq i s, exec_params (exec_eq i s), ?_⟩
  rcases operation_final (countHeld_stable s i) (countHeld_own s i) (countHeld_entered s i) with
    ⟨t, e, -, hreset | ⟨hheld, hbuf⟩⟩ | ⟨s1, code, h1, e, sb, tb, hsb, hc, -⟩
  · rw [finalState, e]
    exact .inr (.inl hreset.atReset)
  · rw [finalState, e]
    exact .inr (.inr ⟨hheld.busy, hbuf⟩)
  · rw [show finalState (operation i (bodyOf i)) s = finalState (finish code) s1 by simp only [finalState, e]]
    rcases finish_cases code h1.busy with hf | hf
    · rw [hf]
      exact .inl (State.finished_endsListed (countHeld_listed hsb hc) s1)
    · exact .inr (.inl hf)

/-- Settles O19: without reset and with a memory that answers nothing halts the operation, so that it comes to `finish`. -/
theorem operationFinishes : Obligations.OperationFinishes := by
  intro i s hn hm
  obtain ⟨s1, code, sb, tb, -, -, he, hsb, -, hc, -⟩ :=
    exec_running (countHeld_stable s i) (countHeld_own s i) (countHeld_entered s i) hn hm
  exact ⟨_, he, State.finished_endsListed (countHeld_listed hsb hc) s1⟩

/-! ## DeviceError (60 R215) -/

theorem Err.code_deviceError {e : Err} (h : e.code = Err.deviceError.code) : e = .deviceError := by
  cases e with
  | deviceError => rfl
  | _ => exact absurd h (by decide)

/-- A body whose code is DeviceError's leaves ERR = 1 in LAST_STATUS: no success value is that code. -/
theorem codeOf_deviceError {i : Instr} {s t : State} (hb : s.busy = true)
    (h : codeOf (bodyOf i) s = .ok Err.deviceError.code t) : err t.csr.lastStatus = true := by
  rcases codeOf_cases h with hok | ⟨e, hraised, hcode⟩
  · exact absurd (body_success hb hok).lt (by decide)
  · obtain ⟨-, hstatus⟩ := body_raises i s e t hraised
    exact hstatus (Err.code_deviceError hcode.symm)

/-- Settles O21: the body leaves the status byte, and neither the finish latency nor `finish` changes it. -/
theorem deviceErrorStatus : Obligations.DeviceErrorStatus := by
  intro i s t hn hm he hres
  obtain ⟨s1, code, sb, tb, -, ⟨⟨hb1, hn1⟩, -⟩, hexec, hsb, -, hc, hbt, ⟨⟨-, hnt⟩, -⟩, hhold⟩ :=
    exec_running busy_fine.stable (busy_own i) rfl hn hm
  obtain rfl : s1.finished code = t := Host.Outcome.next.inj (hexec.symm.trans he)
  obtain rfl : code = Err.deviceError.code := hres
  have hheld : s1.csr.kernel = tb.csr.kernel :=
    hold_kernel (s := { tb with eng := { tb.eng with step := some .finishing } }) (State.busy_engine hbt rfl) hnt hhold
  have hlanded : s1.applyInputs.csr.kernel = s1.csr.kernel := (State.applyInputs_landed hb1 hn1).kernel
  have hstatus : (s1.finished Err.deviceError.code).csr.lastStatus = tb.csr.lastStatus :=
    (congrArg Csrs.lastStatus (hlanded.trans hheld) : _)
  rw [hstatus]
  exact codeOf_deviceError hsb hc

end Sys2Proof.Machine
end

section
/-! SUPPORT. The proofs about reset and hazards (70_reset_and_hazards.md): outcomes do not depend on time, a block reset
abandons the operation, and a configuration register written twice holds what it holds after one write. -/

namespace Sys2Proof.Machine

/-! ## No outcome depends on time (70 R255) -/

/-- Just before the first statements of one operation, with no access made yet. -/
theorem Entered.pair {op : Option Instr} {s s' s1 s1' : State} (h : Entered op s s1) (h' : Entered op s' s1')
    (ha : s.Alike s') (hm : s.memoryAnswers = true) (hm' : s'.memoryAnswers = true) :
    Pair noLoop s.engineEvents s'.engineEvents s1 s1' where
  calm := h.calm
  calm' := h'.calm
  answers := h.answers hm
  answers' := h'.answers hm'
  raced := h.raced
  raced' := h'.raced
  alike := ⟨by rw [h.params, h'.params, ha.params], by rw [h.kernel, h'.kernel, ha.kernel], by rw [h.mem, h'.mem, ha.mem],
    fun j => by rw [h.stream, h'.stream, ha.stream]⟩
  loop := rfl
  events := ⟨[], [], h.events, h'.events, rfl⟩

/-- Results that are alike give one code, and states that are a pair. -/
theorem Ends.code {v : LoopView} {b b' : List Event} :
    ∀ {r r' : EStateM.Result Exit State Word}, Ends v b b' r r' → ∃ code t t', Pair noLoop b b' t t' ∧
      (r = .ok code t ∨ ∃ e, r = .error (.raised e) t ∧ code = e.code) ∧
      (r' = .ok code t' ∨ ∃ e, r' = .error (.raised e) t' ∧ code = e.code)
  | .ok code t, .ok _ t', h => by
    obtain ⟨rfl, hp⟩ := h
    exact ⟨code, t, t', hp.weaken rfl, .inl rfl, .inl rfl⟩
  | .error (.raised e) t, .error (.raised _) t', h => by
    obtain ⟨rfl, hp⟩ := h
    exact ⟨e.code, t, t', hp, .inr ⟨e, rfl, rfl⟩, .inr ⟨e, rfl, rfl⟩⟩
  | .ok _ _, .error _ _, h | .error .halted _, .ok _ _, h | .error .halted _, .error _ _, h
  | .error (.raised _) _, .ok _ _, h | .error (.raised _) _, .error .halted _, h => h.elim

/-- `finish` with one code on both sides (60 R212) leaves them alike, and is the last access of both. -/
theorem Pair.closed {b b' : List Event} {v : LoopView} {s s' t t' : State} {code : Word} (h : Pair v b b' s s')
    (hc : Closed code s t) (hc' : Closed code s' t') :
    t.Alike t' ∧ ∃ es es', t.engineEvents = es ++ b ∧ t'.engineEvents = es' ++ b' ∧
      es.filter Event.isAccess = es'.filter Event.isAccess := by
  obtain ⟨es, es', he, he', hf⟩ := h.events
  refine ⟨⟨?params, ?kernel, ?mem, fun j => ?stream⟩, .finish code :: es, .finish code :: es', ?events, ?events',
    ?accesses⟩
  case params => rw [hc.params, hc'.params, h.alike.params]
  case kernel => rw [hc.kernel, hc'.kernel, h.alike.kernel]
  case mem => rw [hc.mem, hc'.mem, h.alike.mem]
  case stream => rw [hc.stream, hc'.stream, h.alike.stream]
  case events => rw [hc.events, he, List.cons_append]
  case events' => rw [hc'.events, he', List.cons_append]
  case accesses => simp only [List.filter_cons, hf]

/-- Settles O22: the two operations enter as a pair, their pseudocode ends alike, and so does `finish`. -/
theorem timingIndependence : Obligations.TimingIndependence := by
  intro i s s' t t' ha hu hu' hm hm' he he'
  obtain ⟨s1, h1, run⟩ := runOperation_calm i (bodyOf i) hu
  obtain ⟨s1', h1', run'⟩ := runOperation_calm i (bodyOf i) hu'
  obtain ⟨code, u, u', hp, hb, hb'⟩ := (body_agree i _ _ s1 s1' (h1.pair h1' ha hm hm')).code
  obtain ⟨w, hw, hc⟩ := run code u hb hp.calm
  obtain ⟨w', hw', hc'⟩ := run' code u' hb' hp.calm'
  obtain rfl : w = t := Host.Outcome.next.inj (hw.symm.trans ((exec_eq i s).symm.trans he))
  obtain rfl : w' = t' := Host.Outcome.next.inj (hw'.symm.trans ((exec_eq i s').symm.trans he'))
  exact hp.closed hc hc'

/-! ## The cycle of a block reset (70 R240) -/

/-- A cycle with `rst_n = 0`, whatever else the outside does in it. -/
def Input.reset (csr : Option CsrAccess) (agent : List AgentAccess) : Input :=
  .cycle { rst := true, csr := csr, agent := agent }

theorem State.AtReset.busy {s : State} (h : s.AtReset) : s.busy = false := by
  obtain ⟨k, p, he⟩ := h.eng
  rw [State.busy, he]
  rfl

/-- An abandoned operation leaves RESULT and DONE 0 (70 R240). -/
theorem State.AtReset.outcome {s : State} (h : s.AtReset) : s.csr.result = 0 ∧ s.csr.done = false := by
  obtain ⟨k, w, hc⟩ := h.csr
  rw [hc]
  exact ⟨rfl, rfl⟩

theorem State.AtReset.hostPortInReset {s : State} (h : s.AtReset) (a : Option CsrAccess) :
    (s.hostPortInReset a).AtReset := by
  rcases a with _ | _ | _ <;> exact ⟨h.csr, h.eng, h.ide, h.inv, h.buf⟩

theorem State.AtReset.agentPort {s : State} (h : s.AtReset) (l : List AgentAccess) : (s.agentPort l).AtReset := by
  have hl := State.agentPort_landed l s
  refine ⟨?_, ?_, hl.ide.trans h.ide, hl.inv.trans h.inv, hl.buf.trans h.buf⟩
  · rw [(State.agentPort_frame l s).1]
    exact h.csr
  · rw [hl.eng]
    exact h.eng

section
variable {s : State} {csr : Option CsrAccess} {agent : List AgentAccess} {rest : List Input}

/-- First the reset, then the CSR access, then the other agents' accesses (log 10). -/
theorem State.tick_reset (hin : s.inputs = Input.reset csr agent :: rest) :
    s.tick = ((({ s with inputs := rest } : State).blockReset.hostPortInReset csr).agentPort agent).endCycle := by
  simp only [State.tick, State.applyInputs, hin, Input.reset, State.applyPins, if_true]

theorem State.tick_atReset (hin : s.inputs = Input.reset csr agent :: rest) : s.tick.AtReset := by
  have h := ((State.blockReset_atReset { s with inputs := rest }).hostPortInReset csr).agentPort agent
  rw [State.tick_reset hin]
  exact ⟨h.csr, h.eng, h.ide, h.inv, h.buf⟩

theorem State.tick_reset_inputs (hin : s.inputs = Input.reset csr agent :: rest) :
    s.tick.inputs = rest := by
  rw [State.tick_reset hin, State.endCycle_inputs, (State.agentPort_frame agent _).2]
  rcases csr with _ | _ | _ <;> rfl

/-- A CSR read in the cycle returns 0. -/
theorem State.tick_reset_read {off : Byte}
    (hin : s.inputs = Input.reset (some (.read off)) agent :: rest) :
    ∃ l, s.tick.trace = l ++ .csrRead off 0 :: (s.resetEvents ++ s.trace) := by
  obtain ⟨l, hl, -⟩ := (State.agentPort_landed agent
    (({ s with inputs := rest } : State).blockReset.hostPortInReset (some (.read off)))).events
  exact ⟨l, by rw [State.tick_reset hin]; exact hl⟩

end

/-! ## The events since an operation began -/

/-- The records have grown from `l0` by events with `p` alone. -/
def State.since (p : Event → Prop) (l0 : List Event) (s : State) : Prop := ∃ l, s.trace = l ++ l0 ∧ ∀ e ∈ l, p e

/-- No end of an operation. -/
def Event.unfinished (e : Event) : Prop := e.isFinish = false

/-- Neither the end of an operation nor a block reset. -/
def Event.uncut (e : Event) : Prop := e.isFinish = false ∧ e ≠ .blockReset

theorem Event.uncut_of_byEngine {e : Event} (h : e.byEngine = false) : e.uncut := by
  cases e with
  | csrRead | csrWrite | agentRead | agentWrite => exact ⟨rfl, nofun⟩
  | _ => cases h

theorem Event.uncut_of_isNote {e : Event} (h : e.isNote = true) : e.uncut := by
  cases e with
  | ideWrite | idle | resetPulse | bufRead | bufWrite => exact ⟨rfl, nofun⟩
  | _ => cases h

section
variable {p : Event → Prop} {l0 : List Event}

theorem State.since_start (s : State) : s.since p s.trace := ⟨[], rfl, nofun⟩

theorem State.since.imp {q : Event → Prop} {s : State} (h : s.since p l0) (hpq : ∀ e, p e → q e) : s.since q l0 := by
  obtain ⟨l, hl, hp⟩ := h
  exact ⟨l, hl, fun e he => hpq e (hp e he)⟩

theorem State.since.events {s t : State} (h : s.since p l0) {es : List Event} (ht : t.trace = es ++ s.trace)
    (hes : ∀ e ∈ es, p e) : t.since p l0 := by
  obtain ⟨l, hl, hp⟩ := h
  exact ⟨es ++ l, by rw [ht, hl, List.append_assoc], List.forall_mem_append.mpr ⟨hes, hp⟩⟩

theorem State.since.event {s t : State} (h : s.since p l0) {e : Event} (ht : t.trace = e :: s.trace) (he : p e) :
    t.since p l0 := h.events (es := [e]) ht (List.forall_mem_singleton.mpr he)

/-- What the outside does in a cycle without reset makes neither kind of event. -/
theorem State.since.landed {s t : State} (h : s.since p l0) (hl : Landed s t) (hp : ∀ e, e.uncut → p e) :
    t.since p l0 := by
  obtain ⟨es, he, hn⟩ := hl.events
  exact h.events he fun e hm => hp e (Event.uncut_of_byEngine (hn e hm))

theorem State.since.countFinish {s : State} (h : s.since Event.unfinished l0) :
    ∃ l, s.trace = l ++ l0 ∧ l.countP Event.isFinish = 0 := by
  obtain ⟨l, hl, hp⟩ := h
  exact ⟨l, hl, List.countP_eq_zero.mpr fun e he => by rw [hp e he]; exact Bool.false_ne_true⟩

end

/-- No clock cycle of itself ends an operation, that of a block reset neither (70 R240). -/
theorem unfinished_tickClosed (l0 : List Event) : TickClosed (State.since Event.unfinished l0) where
  inputs := fun _ _ h => h
  host := fun s a h => by
    cases a with
    | read off => exact h.event rfl rfl
    | write off w =>
      obtain ⟨-, -, -, ht⟩ := s.writeOffset_same off w
      exact h.event (congrArg (List.cons _) ht) rfl
  hostInReset := fun _ a h => by cases a <;> exact h.event rfl rfl
  agent := fun s a h => h.landed (State.agentAccess_landed s a) fun _ he => he.1
  reset := fun s h => h.events (es := s.resetEvents) rfl fun e he => by
    unfold State.resetEvents at he
    split at he <;> simp only [List.mem_cons, List.not_mem_nil, or_false] at he
    · exact he ▸ rfl
    · rcases he with rfl | rfl <;> rfl
  endCycle := fun _ h => h

/-! ## An operation that a block reset cuts -/

/-- An operation runs, and since the records were `l0` neither a block reset nor `finish` has come. -/
def State.uncutSince (l0 : List Event) (s : State) : Prop := s.busy = true ∧ s.since Event.uncut l0

/-- The operation still waits (20 R71), or a block reset has abandoned it without `finish` (70 R240). -/
def State.haltedSince (l0 : List Event) (s : State) : Prop :=
  s.since Event.uncut l0 ∨ (s.AtReset ∧ s.since Event.unfinished l0)

theorem State.haltedSince.unfinished {l0 : List Event} {s : State} (h : s.haltedSince l0) : s.since Event.unfinished l0 :=
  h.elim (fun hu => hu.imp fun _ he => he.1) And.right

/-- A block reset in the next cycle leaves the reset values, and no `finish`. -/
theorem State.uncutSince.tick_afterReset {l0 : List Event} {s : State} (h : s.uncutSince l0) (hr : AfterReset s.tick) :
    s.tick.haltedSince l0 :=
  .inr ⟨hr.atReset, (unfinished_tickClosed l0).tick (h.2.imp fun _ he => he.1)⟩

theorem uncut_fine (l0 : List Event) : Fine (State.uncutSince l0) (State.haltedSince l0) where
  engine := fun _ _ h hp _ => ⟨State.busy_engine h.1 hp, h.2⟩
  ide := fun _ _ h => h
  buf := fun _ _ h => h
  clock := keeps_clock (fun _ h => h.1) (fun _ h hl => ⟨hl.busy.trans h.1, h.2.landed hl fun _ he => he⟩)
    fun _ h hr => h.tick_afterReset hr
  note := fun _ _ h he => ⟨h.1, h.2.event rfl (Event.uncut_of_isNote he)⟩
  sample := fun _ _ _ _ _ _ h => ⟨h.1, h.2.event rfl ⟨rfl, nofun⟩⟩
  status := fun _ _ h => h
  answer := takeAnswer_cases (fun _ _ h => h) fun _ h _ => .inl h.2
  draw := fun _ _ h => h
  mem := fun _ _ _ h => h

theorem uncut_own (l0 : List Event) (i : Instr) : OwnUpdates (State.uncutSince l0) (State.haltedSince l0) i :=
  (uncut_fine l0).own (fun _ _ h => h) (fun _ _ _ h => ⟨h.1, h.2.event rfl ⟨rfl, nofun⟩⟩) (fun _ _ _ h => h)
    (fun _ _ _ h => h) i

/-- A block reset in the cycle of `finish` comes first, so that the operation does not finish (log 10). -/
theorem finish_afterReset (code : Word) {s : State} (h : s.tick.busy = false) : finalState (finish code) s = s.tick := by
  have run : finish code s = .error .halted s.tick := if_neg (Bool.eq_false_iff.mp h)
  simp only [finalState, run]

/-- `t` ends an operation begun with the records `l0`: with a block reset among its events, it was abandoned. -/
def State.abandonedIfReset (l0 : List Event) (t : State) : Prop :=
  ∃ l, t.trace = l ++ l0 ∧ (.blockReset ∈ l → t.AtReset ∧ l.countP Event.isFinish = 0)

theorem State.haltedSince.abandonedIfReset {l0 : List Event} {t : State} (h : t.haltedSince l0) : t.abandonedIfReset l0 := by
  rcases h with ⟨l, hl, hu⟩ | ⟨hr, hn⟩
  · exact ⟨l, hl, fun hm => absurd rfl (hu _ hm).2⟩
  · obtain ⟨l, hl, hc⟩ := hn.countFinish
    exact ⟨l, hl, fun _ => ⟨hr, hc⟩⟩

/-- `finish` ends an operation that no reset has cut, unless one comes in its own cycle. -/
theorem State.uncutSince.finish {l0 : List Event} {s : State} (h : s.uncutSince l0) (code : Word) :
    (finalState (finish code) s).abandonedIfReset l0 := by
  rcases State.tick_cases h.1 with hl | hr
  · obtain ⟨l, ht, hu⟩ := h.2.landed hl fun _ he => he
    have run : Machine.finish code s = .ok () (s.finished code) := if_pos (hl.busy.trans h.1)
    simp only [finalState, run]
    refine ⟨.finish code :: l, ?_, fun hm => ?_⟩
    · exact congrArg (List.cons _) ht
    · rcases List.mem_cons.mp hm with hm | hm
      · cases hm
      · exact absurd rfl (hu _ hm).2
  · rw [finish_afterReset code hr.busy]
    exact (h.tick_afterReset hr).abandonedIfReset

theorem exec_abandonedIfReset {i : Instr} {s t : State} (he : exec i s = .next t) : t.abandonedIfReset s.trace :=
  exec_leaves (uncut_fine s.trace).stable (uncut_own s.trace i) ⟨rfl, s.since_start⟩ (fun _ h => h.1)
    (fun _ h => h.abandonedIfReset) (fun _ code h _ => h.finish code) he

/-! ## An operation whose first clock cycle is a block reset -/

/-- An operation runs, the memory answers, and `r` comes first of the inputs. -/
structure State.Facing (r : Input) (s : State) : Prop where
  busy : s.busy = true
  answers : s.memoryAnswers = true
  next : ∃ rest, s.inputs = r :: rest

/-- A memory that answers every access answers the next one, and the others after it (20 R71). -/
theorem takeAnswer_some {s : State} (h : s.memoryAnswers = true) :
    ∃ n l, takeAnswer s = .ok (some n) { s with bufAnswers := l } ∧
      ({ s with bufAnswers := l } : State).memoryAnswers = true := by
  have hm := h
  simp only [State.memoryAnswers, Bool.and_eq_true] at hm
  cases hb : s.bufAnswers with
  | nil =>
    obtain ⟨n, hn⟩ := Option.isSome_iff_exists.mp hm.1
    exact ⟨n, s.bufAnswers, (by simp only [takeAnswer, hb, hn] : takeAnswer s = .ok (some n) s), h⟩
  | cons a rest =>
    simp only [hb, List.all_cons, Bool.and_eq_true] at hm
    obtain ⟨n, rfl⟩ := Option.isSome_iff_exists.mp hm.2.1
    refine ⟨n, rest, by simp only [takeAnswer, hb], ?_⟩
    simp only [State.memoryAnswers, hm.1, hm.2.2, Bool.and_self]

section
variable {csr : Option CsrAccess} {agent : List AgentAccess}

/-- Before its first clock cycle an operation goes on; the block reset of that cycle halts it. -/
theorem facingReset_fine : Fine (State.Facing (.reset csr agent)) State.AtReset where
  engine := fun _ _ h hp _ => ⟨State.busy_engine h.busy hp, h.answers, h.next⟩
  ide := fun _ _ h => ⟨h.busy, h.answers, h.next⟩
  buf := fun _ _ h => ⟨h.busy, h.answers, h.next⟩
  clock := fun s h => by
    obtain ⟨rest, hin⟩ := h.next
    have hr := State.tick_atReset hin
    rw [show clock s = .error .halted s.tick from if_neg (Bool.eq_false_iff.mp hr.busy)]
    exact hr
  note := fun _ _ h _ => ⟨h.busy, h.answers, h.next⟩
  sample := fun _ _ _ _ _ _ h => ⟨h.busy, h.answers, h.next⟩
  status := fun _ _ h => ⟨h.busy, h.answers, h.next⟩
  answer := fun s h _ => by
    obtain ⟨n, l, e, hm⟩ := takeAnswer_some h.answers
    exact .inl ⟨n, _, e, h.busy, hm, h.next⟩
  draw := fun _ _ h => ⟨h.busy, h.answers, h.next⟩
  mem := fun _ _ _ h => ⟨h.busy, h.answers, h.next⟩

theorem facingReset_own (i : Instr) :
    OwnUpdates (State.Facing (.reset csr agent)) State.AtReset i :=
  facingReset_fine.own (fun _ _ h => ⟨h.busy, h.answers, h.next⟩) (fun _ _ _ h => ⟨h.busy, h.answers, h.next⟩)
    (fun _ _ _ h => ⟨h.busy, h.answers, h.next⟩) (fun _ _ _ h => ⟨h.busy, h.answers, h.next⟩) i

/-- The operation is abandoned without `finish`, whether it has a clock cycle before that of `finish` or not. -/
theorem exec_firstCycleReset {i : Instr} {s t : State} {rest : List Input} (hm : s.memoryAnswers = true)
    (hin : s.inputs = Input.reset csr agent :: rest) (he : exec i s = .next t) :
    t.AtReset ∧ t.since Event.unfinished s.trace := by
  refine exec_leaves (Q := fun t => t.AtReset ∧ t.since Event.unfinished s.trace)
    ((uncut_fine s.trace).stable.and facingReset_fine.stable) ((uncut_own s.trace i).and (facingReset_own i))
    ⟨⟨rfl, s.since_start⟩, rfl, hm, rest, hin⟩ (fun _ h => h.1.1) (fun _ h => ⟨h.2, h.1.unfinished⟩) ?_ he
  rintro u code ⟨hu, -, -, rest', hin'⟩ -
  have hr := State.tick_atReset hin'
  rw [finish_afterReset code hr.busy]
  exact ⟨hr, (unfinished_tickClosed s.trace).tick (hu.2.imp fun _ he => he.1)⟩

end

/-- Settles O17: the cycle of a block reset, an operation that begins with it, and one that it cuts anywhere. -/
theorem resetAbandons : Obligations.ResetAbandons := by
  refine ⟨fun s csr agent rest hin => ?cycle, fun i s csr agent rest hm hin => ?first, fun i s t he => ?anywhere⟩
  case cycle =>
    have hr := State.tick_atReset hin
    exact ⟨hr, hr.busy, State.tick_reset_inputs hin, fun off hcsr => State.tick_reset_read (hcsr ▸ hin)⟩
  case first =>
    obtain ⟨hr, hn⟩ := exec_firstCycleReset hm hin (exec_eq i s)
    obtain ⟨l, hl, hc⟩ := hn.countFinish
    exact ⟨_, exec_eq i s, hr, hr.outcome.1, hr.outcome.2, by rw [hl, List.countP_append, hc, Nat.zero_add]⟩
  case anywhere =>
    obtain ⟨l, hl, ha⟩ := exec_abandonedIfReset he
    refine ⟨l, hl, fun hm => ?_⟩
    obtain ⟨hr, hc⟩ := ha hm
    exact ⟨hr, hr.outcome.1, hr.outcome.2, hc⟩

/-! ## The configuration registers (70 R245) -/

/-- A split value is its two words (20 R62). -/
theorem hiWord_append_loWord (q : Quad) : hiWord q ++ loWord q = q := by
  rw [hiWord, loWord, BitVec.extractLsb'_append_extractLsb'_eq_extractLsb' (by decide), BitVec.extractLsb'_eq_self]

theorem Quad.eq_of_words {q q' : Quad} (hl : loWord q = loWord q') (hh : hiWord q = hiWord q') : q = q' := by
  rw [← hiWord_append_loWord q, hl, hh, hiWord_append_loWord]

/-- Writing one half twice with one value is writing it once. -/
theorem setLo_setLo (q : Quad) (w : Word) : setLo (setLo q w) w = setLo q w := congrArg (· ++ w) (hiWord_setLo q w)

theorem setHi_setHi (q : Quad) (w : Word) : setHi (setHi q w) w = setHi q w := congrArg (w ++ ·) (loWord_setHi q w)

/-- Writing one half twice with one value, through a mask, is writing it once (ARG_BUF, 10 R26). -/
theorem setLo_setLo_and (q m : Quad) (w : Word) : setLo (setLo q w &&& m) w &&& m = setLo q w &&& m :=
  Quad.eq_of_words (by simp only [loWord_and, loWord_setLo])
    (by simp only [hiWord_and, hiWord_setLo, BitVec.and_assoc, BitVec.and_self])

theorem setHi_setHi_and (q m : Quad) (w : Word) : setHi (setHi q w &&& m) w &&& m = setHi q w &&& m :=
  Quad.eq_of_words (by simp only [loWord_and, loWord_setHi, BitVec.and_assoc, BitVec.and_self])
    (by simp only [hiWord_and, hiWord_setHi])

theorem Csrs.writeConfig_twice (c : Csrs) (bufAw : Nat) (r : Csr) (w : Word) :
    (c.writeConfig bufAw r w).writeConfig bufAw r w = c.writeConfig bufAw r w := by
  cases r with
  | argLbaLo | totalLbaLo => simp only [Csrs.writeConfig, setLo_setLo]
  | argLbaHi | totalLbaHi => simp only [Csrs.writeConfig, setHi_setHi]
  | argBufLo => simp only [Csrs.writeConfig, setLo_setLo_and]
  | argBufHi => simp only [Csrs.writeConfig, setHi_setHi_and]
  | _ => rfl

/-- R245 in any phase: the write takes effect twice, or is dropped and flagged twice. -/
theorem State.writeCsr_config_twice (s : State) {r : Csr} (hr : r.isConfig = true) (w : Word) :
    (s.writeCsr r w).writeCsr r w = s.writeCsr r w := by
  cases hb : s.busy with
  | true =>
    have again : ({ s with csr := { s.csr with cfgDrop := true } } : State).busy = true := hb
    rw [State.writeCsr_config_busy hb hr, State.writeCsr_config_busy again hr]
  | false =>
    have again : ({ s with csr := s.csr.writeConfig s.params.bufAw r w } : State).busy = false := hb
    rw [State.writeCsr_config_idle hb hr, State.writeCsr_config_idle again hr, Csrs.writeConfig_twice]

/-- A register of `n` bits reads back what was written below bit `n`, and 0 above (10 R28, R30). -/
theorem setWidth_readBack (w : Word) (n : Nat) : (w.setWidth n).setWidth 32 = w &&& BitVec.ofNat 32 (2 ^ n - 1) := by
  refine BitVec.eq_of_getLsbD_eq fun k hk => ?_
  simp only [BitVec.getLsbD_setWidth, BitVec.getLsbD_and, BitVec.getLsbD_ofNat, Nat.testBit_two_pow_sub_one, hk,
    decide_true, Bool.true_and, Bool.and_comm]

/-- Settles O13: a configuration write is dropped with its flag or writes its own bits, and either way a second one adds
nothing. -/
theorem geometryAndModeRegisters : Obligations.GeometryAndModeRegisters := by
  refine ⟨fun s r w hr => s.writeCsr_config_twice hr w, fun s w hb => ?_⟩
  have write {r : Csr} (hr : r.isConfig = true) := State.writeCsr_config_idle hb hr w
  have low {n : Nat} (hn : n ≤ 32) : w.extractLsb' 0 n = w.setWidth n := (BitVec.setWidth_eq_extractLsb' hn).symm
  have modeBit {k : Nat} (hk : k < 4) : (w.setWidth 4).getLsbD k = w.getLsbD k := by
    simp only [BitVec.getLsbD_setWidth, hk, decide_true, Bool.true_and]
  rw [write (r := .geomCyl) rfl, write (r := .geomHeads) rfl, write (r := .geomSpt) rfl, write (r := .totalLbaLo) rfl,
    write (r := .totalLbaHi) rfl, write (r := .mode) rfl, low (by decide), low (by decide), low (by decide)]
  exact ⟨rfl, rfl, rfl, rfl, rfl, rfl, setWidth_readBack w 16, setWidth_readBack w 8, setWidth_readBack w 8,
    setWidth_readBack w 4, loWord_setLo _ w, hiWord_setHi _ w, modeBit (by decide), modeBit (by decide),
    modeBit (by decide), modeBit (by decide)⟩

end Sys2Proof.Machine
end
